-- ==== Sys2Proof/Word.lean ====
section
/-! DEFINITION. The word types of the machine: bytes, 64-bit register and address words, 32-bit instruction words and
register numbers (spec/10_state.md R20, R22, R30; spec/30_encoding.md R81). -/

namespace Sys2Proof

/-- One byte of memory (R50). -/
abbrev Byte := BitVec 8

/-- A register value or an address. An XLEN = 32 value is held as its sign-extension to 64 bits, an XLEN = 32 address
as its zero-extension (log entry 2). -/
abbrev Word := BitVec 64

/-- One instruction word; every instruction has this one length (R81). -/
abbrev InstrWord := BitVec 32

/-- The number of an integer register (R20). -/
abbrev XReg := BitVec 5

/-- The number of a floating-point register (R30). -/
abbrev FReg := BitVec 5

/-- A rounding-mode field or the value of `frm` (R27, R88). -/
abbrev RmField := BitVec 3

/-- A mask of the five exception flags (R25). -/
abbrev Flags := BitVec 5

end Sys2Proof
end

