-- ==== Sys2Proof/Config.lean ====
section
/-! DEFINITION. The parameters of the machine (spec/00_scope.md R7, the table at the top of spec/92_eei_decisions.md)
as one plain record `Env`, and the free values: opaque constants that no proof can evaluate. The step's type is fixed
by the host, so the parameters ride in `State` (log entry 1); no instruction writes them (R36). -/

namespace Sys2Proof

/-- XLEN, the width of an integer register: 64 is normative (R5), 32 is derived (R6). -/
inductive XLen where
  | rv32
  | rv64
  deriving DecidableEq, Repr, Inhabited

/-- The five rounding modes an operation can round by (R27; the values 0 to 4 of `frm`). -/
inductive RoundingMode where
  /-- 0: to nearest, ties to even. -/
  | rne
  /-- 1: toward zero. -/
  | rtz
  /-- 2: toward minus infinity. -/
  | rdn
  /-- 3: toward plus infinity. -/
  | rup
  /-- 4: to nearest, ties to max magnitude. -/
  | rmm
  deriving DecidableEq, Repr, Inhabited

/-- What a misaligned integer load or store does: the parameter `misaligned_ldst` (R54). -/
inductive Misaligned where
  /-- A misaligned load or store raises its misaligned fault (the default). -/
  | fault
  /-- A misaligned access is done byte by byte in ascending address order. -/
  | bytewise
  deriving DecidableEq, Repr, Inhabited

/-- A run of byte addresses `base, …, base + size - 1` that exist: `MemMap` is a list of these (R50). -/
structure Region where
  base : Nat
  size : Nat
  deriving DecidableEq, Repr

/-- The address at which a run ends: the parameter `end_pc` (R7, R412). -/
inductive EndPc where
  /-- The default: the address after the last word of `text`; with no text there is no end address. -/
  | afterText
  /-- A given address. -/
  | fixed (a : Word)
  deriving DecidableEq, Repr

/-- The parameters of one launch (R7). They do not change during a run and no instruction writes them (R36). -/
structure Env where
  /-- XLEN (R5, R6). -/
  xlen : XLen
  /-- `MemMap`: the byte addresses that exist (R50). -/
  memMap : List Region
  /-- `misaligned_ldst` (R54). -/
  misaligned : Misaligned
  /-- `FrmLegalize(5)` (R28). -/
  frmLegal5 : RmField
  /-- `FrmLegalize(6)` (R28). -/
  frmLegal6 : RmField
  /-- `ext_rm` where the launch gives it; otherwise the free value `Config.extRm` (R265). -/
  extRm : Option RoundingMode
  /-- `sc_may_fail` (R247). -/
  scMayFail : Bool
  /-- `reset_pc` (R430). -/
  resetPc : Word
  /-- `end_pc` (R412). -/
  endPc : EndPc
  /-- `text`: the program, a finite map from 4-aligned addresses to instruction words, sorted by address (R66). -/
  text : List (Nat × InstrWord)
  deriving DecidableEq, Repr

/-- The parameters `State.reset` starts from: the defaults of spec/92_eei_decisions.md where it gives one. DESIGN
CHOICE for the rest: the whole address space exists (log entry 4), `reset_pc` is 0x1000 as in the programs of
spec/95_test_vectors.md (log entry 5), the program is empty (log entry 6), `ext_rm` is not given (log entry 7). -/
def Env.default : Env where
  xlen := .rv64
  memMap := [{ base := 0, size := 2 ^ 64 }]
  misaligned := .fault
  frmLegal5 := 5
  frmLegal6 := 6
  extRm := none
  scMayFail := true
  resetPc := 0x1000
  endPc := .afterText
  text := []

/-- Free value: whether the n-th draw of a store-conditional says "fail" (R247, I8; log entry 8). -/
opaque Config.scDraw : Nat → Bool

/-- Free value: the mode of the external selector where the launch does not give `ext_rm` (R265, I4; log entry 7). -/
opaque Config.extRm : RoundingMode

end Sys2Proof
end

