-- ==== Sys2Proof/Syntax.lean ====
section
/-! DEFINITION. The closed list of operation tags (spec/30_encoding.md R80, R92): one constructor of `Instr` for each
row of spec/opcode_table.json, with the operand fields R81 to R89 cut from the instruction word. The `aq` and `rl` bits
of the atomics are kept so that no bit of a word is lost; they have no effect (spec/20_memory.md R63). -/

namespace Sys2Proof

/-- The instructions of CORE, one constructor for each row of spec/opcode_table.json (R92). -/
inductive Instr where
  -- Integer ALU, register-register (spec/40_integer_alu.md)
  /-- ADD (R114). -/
  | add (rd rs1 rs2 : XReg)
  /-- SUB (R115). -/
  | sub (rd rs1 rs2 : XReg)
  /-- SLL (R116). -/
  | sll (rd rs1 rs2 : XReg)
  /-- SLT (R117). -/
  | slt (rd rs1 rs2 : XReg)
  /-- SLTU (R118). -/
  | sltu (rd rs1 rs2 : XReg)
  /-- XOR (R119). -/
  | xor (rd rs1 rs2 : XReg)
  /-- SRL (R120). -/
  | srl (rd rs1 rs2 : XReg)
  /-- SRA (R121). -/
  | sra (rd rs1 rs2 : XReg)
  /-- OR (R122). -/
  | or (rd rs1 rs2 : XReg)
  /-- AND (R123). -/
  | and (rd rs1 rs2 : XReg)
  -- Integer ALU, register-immediate
  /-- ADDI (R124). -/
  | addi (rd rs1 : XReg) (imm : BitVec 12)
  /-- SLTI (R125). -/
  | slti (rd rs1 : XReg) (imm : BitVec 12)
  /-- SLTIU (R126). -/
  | sltiu (rd rs1 : XReg) (imm : BitVec 12)
  /-- XORI (R127). -/
  | xori (rd rs1 : XReg) (imm : BitVec 12)
  /-- ORI (R128). -/
  | ori (rd rs1 : XReg) (imm : BitVec 12)
  /-- ANDI (R129). -/
  | andi (rd rs1 : XReg) (imm : BitVec 12)
  /-- SLLI (R130). -/
  | slli (rd rs1 : XReg) (shamt : BitVec 6)
  /-- SRLI (R131). -/
  | srli (rd rs1 : XReg) (shamt : BitVec 6)
  /-- SRAI (R132). -/
  | srai (rd rs1 : XReg) (shamt : BitVec 6)
  -- Integer ALU, W forms (RV64 only)
  /-- ADDW (R133). -/
  | addw (rd rs1 rs2 : XReg)
  /-- SUBW (R134). -/
  | subw (rd rs1 rs2 : XReg)
  /-- SLLW (R135). -/
  | sllw (rd rs1 rs2 : XReg)
  /-- SRLW (R136). -/
  | srlw (rd rs1 rs2 : XReg)
  /-- SRAW (R137). -/
  | sraw (rd rs1 rs2 : XReg)
  /-- ADDIW (R138). -/
  | addiw (rd rs1 : XReg) (imm : BitVec 12)
  /-- SLLIW (R139). -/
  | slliw (rd rs1 : XReg) (shamt : BitVec 5)
  /-- SRLIW (R140). -/
  | srliw (rd rs1 : XReg) (shamt : BitVec 5)
  /-- SRAIW (R141). -/
  | sraiw (rd rs1 : XReg) (shamt : BitVec 5)
  -- Loads and stores (spec/41_load_store.md)
  /-- LB (R173). -/
  | lb (rd rs1 : XReg) (imm : BitVec 12)
  /-- LH (R174). -/
  | lh (rd rs1 : XReg) (imm : BitVec 12)
  /-- LW (R175). -/
  | lw (rd rs1 : XReg) (imm : BitVec 12)
  /-- LD (R176). -/
  | ld (rd rs1 : XReg) (imm : BitVec 12)
  /-- LBU (R177). -/
  | lbu (rd rs1 : XReg) (imm : BitVec 12)
  /-- LHU (R178). -/
  | lhu (rd rs1 : XReg) (imm : BitVec 12)
  /-- LWU (R179). -/
  | lwu (rd rs1 : XReg) (imm : BitVec 12)
  /-- SB (R180). -/
  | sb (rs1 rs2 : XReg) (imm : BitVec 12)
  /-- SH (R181). -/
  | sh (rs1 rs2 : XReg) (imm : BitVec 12)
  /-- SW (R182). -/
  | sw (rs1 rs2 : XReg) (imm : BitVec 12)
  /-- SD (R183). -/
  | sd (rs1 rs2 : XReg) (imm : BitVec 12)
  -- Multiply and divide (spec/42_muldiv.md)
  /-- MUL (R193). -/
  | mul (rd rs1 rs2 : XReg)
  /-- MULH (R194). -/
  | mulh (rd rs1 rs2 : XReg)
  /-- MULHSU (R195). -/
  | mulhsu (rd rs1 rs2 : XReg)
  /-- MULHU (R196). -/
  | mulhu (rd rs1 rs2 : XReg)
  /-- MULW (R197). -/
  | mulw (rd rs1 rs2 : XReg)
  /-- DIV (R200). -/
  | div (rd rs1 rs2 : XReg)
  /-- DIVU (R201). -/
  | divu (rd rs1 rs2 : XReg)
  /-- REM (R202). -/
  | rem (rd rs1 rs2 : XReg)
  /-- REMU (R203). -/
  | remu (rd rs1 rs2 : XReg)
  /-- DIVW (R204). -/
  | divw (rd rs1 rs2 : XReg)
  /-- DIVUW (R205). -/
  | divuw (rd rs1 rs2 : XReg)
  /-- REMW (R206). -/
  | remw (rd rs1 rs2 : XReg)
  /-- REMUW (R207). -/
  | remuw (rd rs1 rs2 : XReg)
  -- Atomics, .W (spec/43_atomic.md)
  /-- AMOSWAP.W (R225). -/
  | amoswapW (aq rl : Bool) (rd rs1 rs2 : XReg)
  /-- AMOADD.W (R226). -/
  | amoaddW (aq rl : Bool) (rd rs1 rs2 : XReg)
  /-- AMOXOR.W (R227). -/
  | amoxorW (aq rl : Bool) (rd rs1 rs2 : XReg)
  /-- AMOAND.W (R228). -/
  | amoandW (aq rl : Bool) (rd rs1 rs2 : XReg)
  /-- AMOOR.W (R229). -/
  | amoorW (aq rl : Bool) (rd rs1 rs2 : XReg)
  /-- AMOMIN.W (R230). -/
  | amominW (aq rl : Bool) (rd rs1 rs2 : XReg)
  /-- AMOMAX.W (R231). -/
  | amomaxW (aq rl : Bool) (rd rs1 rs2 : XReg)
  /-- AMOMINU.W (R232). -/
  | amominuW (aq rl : Bool) (rd rs1 rs2 : XReg)
  /-- AMOMAXU.W (R233). -/
  | amomaxuW (aq rl : Bool) (rd rs1 rs2 : XReg)
  -- Atomics, .D (RV64 only)
  /-- AMOSWAP.D (R234). -/
  | amoswapD (aq rl : Bool) (rd rs1 rs2 : XReg)
  /-- AMOADD.D (R235). -/
  | amoaddD (aq rl : Bool) (rd rs1 rs2 : XReg)
  /-- AMOXOR.D (R236). -/
  | amoxorD (aq rl : Bool) (rd rs1 rs2 : XReg)
  /-- AMOAND.D (R237). -/
  | amoandD (aq rl : Bool) (rd rs1 rs2 : XReg)
  /-- AMOOR.D (R238). -/
  | amoorD (aq rl : Bool) (rd rs1 rs2 : XReg)
  /-- AMOMIN.D (R239). -/
  | amominD (aq rl : Bool) (rd rs1 rs2 : XReg)
  /-- AMOMAX.D (R240). -/
  | amomaxD (aq rl : Bool) (rd rs1 rs2 : XReg)
  /-- AMOMINU.D (R241). -/
  | amominuD (aq rl : Bool) (rd rs1 rs2 : XReg)
  /-- AMOMAXU.D (R242). -/
  | amomaxuD (aq rl : Bool) (rd rs1 rs2 : XReg)
  -- Load-reserved and store-conditional
  /-- LR.W (R245). -/
  | lrW (aq rl : Bool) (rd rs1 : XReg)
  /-- LR.D (R246). -/
  | lrD (aq rl : Bool) (rd rs1 : XReg)
  /-- SC.W (R247). -/
  | scW (aq rl : Bool) (rd rs1 rs2 : XReg)
  /-- SC.D (R248). -/
  | scD (aq rl : Bool) (rd rs1 rs2 : XReg)
  -- Floating-point arithmetic, S (spec/44_fp_arith.md)
  /-- FADD.S (R277). -/
  | faddS (rd rs1 rs2 : FReg) (rm : RmField)
  /-- FSUB.S (R278). -/
  | fsubS (rd rs1 rs2 : FReg) (rm : RmField)
  /-- FMUL.S (R279). -/
  | fmulS (rd rs1 rs2 : FReg) (rm : RmField)
  /-- FDIV.S (R280). -/
  | fdivS (rd rs1 rs2 : FReg) (rm : RmField)
  /-- FSQRT.S (R281). -/
  | fsqrtS (rd rs1 : FReg) (rm : RmField)
  /-- FMADD.S (R282). -/
  | fmaddS (rd rs1 rs2 rs3 : FReg) (rm : RmField)
  /-- FMSUB.S (R283). -/
  | fmsubS (rd rs1 rs2 rs3 : FReg) (rm : RmField)
  /-- FNMSUB.S (R284). -/
  | fnmsubS (rd rs1 rs2 rs3 : FReg) (rm : RmField)
  /-- FNMADD.S (R285). -/
  | fnmaddS (rd rs1 rs2 rs3 : FReg) (rm : RmField)
  /-- FSGNJ.S (R286). -/
  | fsgnjS (rd rs1 rs2 : FReg)
  /-- FSGNJN.S (R287). -/
  | fsgnjnS (rd rs1 rs2 : FReg)
  /-- FSGNJX.S (R288). -/
  | fsgnjxS (rd rs1 rs2 : FReg)
  /-- FMIN.S (R289). -/
  | fminS (rd rs1 rs2 : FReg)
  /-- FMAX.S (R290). -/
  | fmaxS (rd rs1 rs2 : FReg)
  -- Floating-point arithmetic, D
  /-- FADD.D (R291). -/
  | faddD (rd rs1 rs2 : FReg) (rm : RmField)
  /-- FSUB.D (R292). -/
  | fsubD (rd rs1 rs2 : FReg) (rm : RmField)
  /-- FMUL.D (R293). -/
  | fmulD (rd rs1 rs2 : FReg) (rm : RmField)
  /-- FDIV.D (R294). -/
  | fdivD (rd rs1 rs2 : FReg) (rm : RmField)
  /-- FSQRT.D (R295). -/
  | fsqrtD (rd rs1 : FReg) (rm : RmField)
  /-- FMADD.D (R296). -/
  | fmaddD (rd rs1 rs2 rs3 : FReg) (rm : RmField)
  /-- FMSUB.D (R297). -/
  | fmsubD (rd rs1 rs2 rs3 : FReg) (rm : RmField)
  /-- FNMSUB.D (R298). -/
  | fnmsubD (rd rs1 rs2 rs3 : FReg) (rm : RmField)
  /-- FNMADD.D (R299). -/
  | fnmaddD (rd rs1 rs2 rs3 : FReg) (rm : RmField)
  /-- FSGNJ.D (R300). -/
  | fsgnjD (rd rs1 rs2 : FReg)
  /-- FSGNJN.D (R301). -/
  | fsgnjnD (rd rs1 rs2 : FReg)
  /-- FSGNJX.D (R302). -/
  | fsgnjxD (rd rs1 rs2 : FReg)
  /-- FMIN.D (R303). -/
  | fminD (rd rs1 rs2 : FReg)
  /-- FMAX.D (R304). -/
  | fmaxD (rd rs1 rs2 : FReg)
  -- Conversions, comparisons, classification and moves (spec/45_fp_convert_compare.md)
  /-- FCVT.W.S (R316). -/
  | fcvtWS (rd : XReg) (rs1 : FReg) (rm : RmField)
  /-- FCVT.WU.S (R317). -/
  | fcvtWuS (rd : XReg) (rs1 : FReg) (rm : RmField)
  /-- FCVT.L.S (R318). -/
  | fcvtLS (rd : XReg) (rs1 : FReg) (rm : RmField)
  /-- FCVT.LU.S (R319). -/
  | fcvtLuS (rd : XReg) (rs1 : FReg) (rm : RmField)
  /-- FCVT.S.W (R320). -/
  | fcvtSW (rd : FReg) (rs1 : XReg) (rm : RmField)
  /-- FCVT.S.WU (R321). -/
  | fcvtSWu (rd : FReg) (rs1 : XReg) (rm : RmField)
  /-- FCVT.S.L (R322). -/
  | fcvtSL (rd : FReg) (rs1 : XReg) (rm : RmField)
  /-- FCVT.S.LU (R323). -/
  | fcvtSLu (rd : FReg) (rs1 : XReg) (rm : RmField)
  /-- FEQ.S (R324). -/
  | feqS (rd : XReg) (rs1 rs2 : FReg)
  /-- FLT.S (R325). -/
  | fltS (rd : XReg) (rs1 rs2 : FReg)
  /-- FLE.S (R326). -/
  | fleS (rd : XReg) (rs1 rs2 : FReg)
  /-- FCLASS.S (R327). -/
  | fclassS (rd : XReg) (rs1 : FReg)
  /-- FCVT.W.D (R328). -/
  | fcvtWD (rd : XReg) (rs1 : FReg) (rm : RmField)
  /-- FCVT.WU.D (R329). -/
  | fcvtWuD (rd : XReg) (rs1 : FReg) (rm : RmField)
  /-- FCVT.L.D (R330). -/
  | fcvtLD (rd : XReg) (rs1 : FReg) (rm : RmField)
  /-- FCVT.LU.D (R331). -/
  | fcvtLuD (rd : XReg) (rs1 : FReg) (rm : RmField)
  /-- FCVT.D.W (R332). -/
  | fcvtDW (rd : FReg) (rs1 : XReg) (rm : RmField)
  /-- FCVT.D.WU (R333). -/
  | fcvtDWu (rd : FReg) (rs1 : XReg) (rm : RmField)
  /-- FCVT.D.L (R334). -/
  | fcvtDL (rd : FReg) (rs1 : XReg) (rm : RmField)
  /-- FCVT.D.LU (R335). -/
  | fcvtDLu (rd : FReg) (rs1 : XReg) (rm : RmField)
  /-- FEQ.D (R336). -/
  | feqD (rd : XReg) (rs1 rs2 : FReg)
  /-- FLT.D (R337). -/
  | fltD (rd : XReg) (rs1 rs2 : FReg)
  /-- FLE.D (R338). -/
  | fleD (rd : XReg) (rs1 rs2 : FReg)
  /-- FCLASS.D (R339). -/
  | fclassD (rd : XReg) (rs1 : FReg)
  /-- FMV.X.W (R340). -/
  | fmvXW (rd : XReg) (rs1 : FReg)
  /-- FMV.W.X (R341). -/
  | fmvWX (rd : FReg) (rs1 : XReg)
  /-- FMV.X.D (R342). -/
  | fmvXD (rd : XReg) (rs1 : FReg)
  /-- FMV.D.X (R343). -/
  | fmvDX (rd : FReg) (rs1 : XReg)
  /-- FCVT.S.D (R344). -/
  | fcvtSD (rd rs1 : FReg) (rm : RmField)
  /-- FCVT.D.S (R345). -/
  | fcvtDS (rd rs1 : FReg) (rm : RmField)
  -- Accessors of fflags, frm, fcsr (spec/46_fcsr_access.md)
  /-- FRCSR (R381). -/
  | frcsr (rd : XReg)
  /-- FRRM (R382). -/
  | frrm (rd : XReg)
  /-- FRFLAGS (R383). -/
  | frflags (rd : XReg)
  /-- FSFLAGS (R384). -/
  | fsflags (rd rs1 : XReg)
  /-- FSRM (R385). -/
  | fsrm (rd rs1 : XReg)
  /-- FSCSR (R386). -/
  | fscsr (rd rs1 : XReg)
  deriving DecidableEq, Repr

end Sys2Proof
end

