-- ==== Sys2Proof/Machine/State.lean ====
section
/-! DEFINITION. The state of one hart (spec/10_state.md R20 to R39), the faults and refusals that stop it
(spec/60_exceptions.md R400, R404), and the state after reset (R37, R430). All of it is plain data. -/

namespace Sys2Proof.Machine

/-- The two access sizes of the atomics and of a reservation: 4 bytes or 8 bytes (R34, R57). -/
inductive AtomSize where
  | word
  | double
  deriving DecidableEq, Repr

/-- A load reservation: the address and the size of the LR access (R34, R250). -/
structure Reservation where
  addr : Word
  size : AtomSize
  deriving DecidableEq, Repr

/-- The closed list of faults (R400). A fault is terminal and there is no trap entry (R408). -/
inductive Fault where
  /-- A unit was called with a tag that does not exist, here an RV64-only tag at XLEN = 32 (R6, R401). Raised by the
  meanings of the RV64-only instructions; decoding never yields such a tag, so no step raises it. Safe: the machine
  stops. -/
  | contractViolation
  /-- Raised by fetch, decoding and a reserved static rounding-mode field; holds the pc (R402). Safe: the machine
  stops. -/
  | illegalInstruction (pc : Word)
  /-- Some byte of the access at `addr` does not exist; raised by loads, stores, AMOs, LR and SC (R403). `landed` is
  empty but for a misaligned store done byte by byte: then it lists the bytes already stored (R54). Safe: the machine
  stops. -/
  | accessFault (addr : Word) (landed : List Host.Cell)
  /-- A misaligned load under `misaligned_ldst = fault`, or a misaligned LR (R403). Safe: the machine stops. -/
  | loadAddressMisaligned (addr : Word)
  /-- A misaligned store under `misaligned_ldst = fault`, or a misaligned AMO or SC (R403). Safe: the machine stops. -/
  | storeAddressMisaligned (addr : Word)
  deriving DecidableEq, Repr

/-- The refusals (R404), and two of the model's own. -/
inductive Refusal where
  /-- An arm of exec whose instruction has no meaning in the model: none is left. Safe: the machine stops. -/
  | notModelled (mnemonic : String)
  /-- The word at the pc is an instruction outside CORE; raised by fetch and decoding (R404). Safe: the machine
  stops. -/
  | notInCore (w : InstrWord)
  /-- SC.W or SC.D whose address or size is not the reservation's (R247, R404). Safe: the machine stops. -/
  | scAddressMismatch
  /-- A rounding instruction with rm = 111 while frm holds 5 or 6 (R265, R404). Safe: the machine stops. -/
  | reservedRoundingMode
  /-- A step asked of a hart whose run has ended: no step is defined there (R35, R412). The model's own name; safe. -/
  | hartEnded
  deriving DecidableEq, Repr

/-- The status of a hart (R35). -/
inductive Status where
  | running
  | faulted (f : Fault)
  | refused (r : Refusal)
  | ended
  deriving DecidableEq, Repr

/-- Data memory: the bytes that differ from 0, by rising address (log entry 3). -/
abbrev Memory := List Host.Cell

/-- Everything the spec gives one hart and the memory it reaches. -/
structure State where
  /-- The integer registers (R20); entry 0 is never read (R21). -/
  x : Vector Word 32
  /-- The floating-point registers (R30). -/
  f : Vector Word 32
  /-- The program counter (R22). -/
  pc : Word
  /-- The accumulated exception flags (R25). -/
  fflags : Flags
  /-- The rounding mode (R27). -/
  frm : RmField
  /-- Data memory (R50). -/
  mem : Memory
  /-- The load reservation (R34). -/
  reservation : Option Reservation
  /-- The status of the hart (R35). -/
  status : Status
  /-- The model's own: how many store-conditional draws were taken, the argument of `Config.scDraw` (log entry 8). -/
  draws : Nat
  /-- The parameters of the launch (R7); no instruction writes them (R36, log entry 1). -/
  env : Env
  deriving DecidableEq, Repr

/-- Why a step cannot complete: a fault or a refusal. -/
inductive Stop where
  | fault (f : Fault)
  | refuse (r : Refusal)
  deriving DecidableEq, Repr

/-- What fetching answers: the run is at its end, an instruction to execute, or why there is none (R434). -/
inductive Fetched where
  | ended
  | instr (i : Instr)
  | stop (w : Stop)
  deriving DecidableEq, Repr

/-- The launch state of parameters `e` with the given registers and memory: the floating-point control state is 0, the
pc is `reset_pc`, there is no reservation and the hart runs (R37, R430, R431). -/
def State.launch (e : Env) (x f : Vector Word 32) (mem : Memory) : State where
  x := x
  f := f
  pc := e.resetPc
  fflags := 0
  frm := 0
  mem := mem
  reservation := none
  status := .running
  draws := 0
  env := e

/-- The machine right after reset (R37, R430). The spec gives x1 to x31 and f0 to f31 no value: DESIGN CHOICE, they
hold 0 (log entry 9); nothing is stored in memory, whose every byte reads 0 (log entry 3). -/
def State.reset : State :=
  State.launch Env.default (Vector.replicate 32 0) (Vector.replicate 32 0) []

end Sys2Proof.Machine
end

