-- ==== Sys2Proof/Machine/Ops.lean ====
section
/-! DEFINITION. The operations on registers, the pc and memory (spec/10_state.md R20 to R33, spec/20_memory.md R50 to
R69), and how a step stops (spec/60_exceptions.md R400 to R409). All reads and writes of State go through these. -/

namespace Sys2Proof

/-! ## XLEN-bit values in 64-bit words (log entry 2) -/

/-- The number of bits of an integer register (R5, R6). -/
def XLen.bits : XLen → Nat
  | .rv32 => 32
  | .rv64 => 64

/-- `trunc_XLEN` of a register value, held sign-extended to 64 bits. -/
def XLen.canon (xl : XLen) (v : Word) : Word :=
  match xl with
  | .rv64 => v
  | .rv32 => (v.setWidth 32).signExtend 64

/-- `trunc_XLEN` of an address or of the pc, held zero-extended to 64 bits (R23, R69). -/
def XLen.addr (xl : XLen) (v : Word) : Word :=
  match xl with
  | .rv64 => v
  | .rv32 => (v.setWidth 32).setWidth 64

end Sys2Proof

namespace Sys2Proof.Machine

/-! ## How a step stops -/

/-- Taking a fault (R408): there is no trap entry, no saved pc, no handler; the step has no next state and the machine
stops with the fault. What the hart then holds is `State.settle`. -/
def raise (f : Fault) : Host.Outcome State Fault Refusal := .fault f

/-- A refusal (R404): the machine stops and nothing may be proved about what follows. -/
def refuse (r : Refusal) : Host.Outcome State Fault Refusal := .refused r

/-- The outcome of a step that cannot complete. -/
def Stop.outcome : Stop → Host.Outcome State Fault Refusal
  | .fault f => raise f
  | .refuse r => Sys2Proof.Machine.refuse r

/-- Go on with the value, or stop. -/
def attempt {α : Type} (e : Except Stop α) (k : α → Host.Outcome State Fault Refusal) :
    Host.Outcome State Fault Refusal :=
  match e with
  | .ok a => k a
  | .error w => w.outcome

/-! ## Integer registers (R20, R21) -/

/-- `x[i]`: x[0] reads as zero (R21). -/
def State.readX (s : State) (i : XReg) : Word :=
  if i = 0#5 then 0 else s.env.xlen.canon s.x[i.toFin]

/-- `x[i] <- v`: a write to x[0] is discarded (R21). -/
def State.writeX (s : State) (i : XReg) (v : Word) : State :=
  if i = 0#5 then s else { s with x := s.x.set i.toFin (s.env.xlen.canon v) }

/-! ## Floating-point registers (R30) -/

/-- `f[i]`, all 64 bits. -/
def State.readF (s : State) (i : FReg) : Word := s.f[i.toFin]

/-- `f[i] <- v`. -/
def State.writeF (s : State) (i : FReg) (v : Word) : State := { s with f := s.f.set i.toFin v }

/-! ## Program counter and status (R22, R23, R35) -/

/-- `pc <- trunc_XLEN(pc + 4)` (R23). -/
def State.advance (s : State) : State := { s with pc := s.env.xlen.addr (s.pc + 4) }

/-- The run ends well at `end_pc` (R412). -/
def State.finish (s : State) : State := { s with status := .ended }

/-! ## Data memory (R50 to R56) -/

/-- The byte at an address; an address the list does not hold reads 0 (log entry 3). -/
def Memory.read : Memory → Nat → Byte
  | [], _ => 0
  | (k, b) :: m, a => if a = k then b else Memory.read m a

/-- Put a byte at its place in the rising order. -/
def Memory.put : Memory → Nat → Byte → Memory
  | [], a, v => [(a, v)]
  | (k, b) :: m, a, v =>
    if a < k then (a, v) :: (k, b) :: m
    else if a = k then (a, v) :: m
    else (k, b) :: Memory.put m a v

/-- Write a byte; a 0 is not listed, so equal memories are equal lists. -/
def Memory.write (m : Memory) (a : Nat) (v : Byte) : Memory :=
  if v = 0 then m.filter (fun c => c.1 != a) else Memory.put m a v

/-- Addresses from `lo` on rise strictly, stay below 2^64, and no listed byte is 0. -/
def Memory.wfFrom : Nat → Memory → Bool
  | _, [] => true
  | lo, (k, b) :: m => decide (lo ≤ k) && decide (k < 2 ^ 64) && b != 0 && Memory.wfFrom (k + 1) m

/-- The canonical form of memory. -/
def Memory.wf (m : Memory) : Bool := Memory.wfFrom 0 m

/-- The address of byte `i` of an access at `a`: `trunc_XLEN(a + i)` (R56). -/
def State.byteAddr (s : State) (a : Word) (i : Nat) : Nat :=
  (s.env.xlen.addr (a + BitVec.ofNat 64 i)).toNat

/-- `M[k]`. -/
def State.readByte (s : State) (k : Nat) : Byte := Memory.read s.mem k

/-- `M[k] <- v`. -/
def State.writeByte (s : State) (k : Nat) (v : Byte) : State := { s with mem := Memory.write s.mem k v }

/-- The byte address is in `MemMap` (R50). -/
def State.mapped (s : State) (k : Nat) : Bool :=
  s.env.memMap.any (fun r => decide (r.base ≤ k) && decide (k < r.base + r.size))

/-- Every byte of an n-byte access at `a` is in `MemMap` (R56). -/
def State.allMapped (s : State) (a : Word) : Nat → Bool
  | 0 => true
  | n + 1 => s.allMapped a n && s.mapped (s.byteAddr a n)

/-- The n bytes at `a`, little-endian, zero-extended to 64 bits (R51, R52). -/
def State.loadBytes (s : State) (a : Word) : Nat → Word
  | 0 => 0
  | n + 1 => s.loadBytes a n ||| ((s.readByte (s.byteAddr a n)).setWidth 64 <<< (8 * n))

/-- Store the low n bytes of `v` at `a`, little-endian, in ascending order (R51, R53). -/
def State.storeBytes (s : State) (a v : Word) : Nat → State
  | 0 => s
  | n + 1 => (s.storeBytes a v n).writeByte (s.byteAddr a n) ((v >>> (8 * n)).setWidth 8)

/-- An access of n bytes at `a` is aligned (R54). -/
def aligned (a : Word) (n : Nat) : Bool := a.toNat % n == 0

/-- The bytes a byte-by-byte store of n bytes leaves stored before its first byte that does not exist (R54). -/
def State.landed (s : State) (a v : Word) : Nat → List Host.Cell
  | 0 => []
  | n + 1 =>
    if s.allMapped a (n + 1) then s.landed a v n ++ [(s.byteAddr a n, (v >>> (8 * n)).setWidth 8)]
    else s.landed a v n

/-- `MemRead(a, n)` of an integer load: alignment by `misaligned_ldst`, then existence, then the value (R52, R54, R56;
the order is R407's). -/
def State.memRead (s : State) (a : Word) (n : Nat) : Except Stop Word :=
  if !aligned a n && s.env.misaligned == .fault then .error (.fault (.loadAddressMisaligned a))
  else if s.allMapped a n then .ok (s.loadBytes a n)
  else .error (.fault (.accessFault a []))

/-- `MemWrite(a, n, v)` of an integer store (R53, R54, R56). A misaligned store done byte by byte that meets a byte
that does not exist leaves the earlier bytes stored: the fault lists them. -/
def State.memWrite (s : State) (a : Word) (n : Nat) (v : Word) : Except Stop State :=
  if !aligned a n && s.env.misaligned == .fault then .error (.fault (.storeAddressMisaligned a))
  else if s.allMapped a n then .ok (s.storeBytes a v n)
  else .error (.fault (.accessFault a (if aligned a n then [] else s.landed a v n)))

/-- The number of bytes of an atomic access (R57). -/
def AtomSize.bytes : AtomSize → Nat
  | .word => 4
  | .double => 8

/-- The checks of an atomic access: alignment always, then existence (R55, R56). `mis` names the misaligned fault. -/
def State.atomCheck (s : State) (mis : Word → Fault) (a : Word) (n : AtomSize) : Except Stop Unit :=
  if !aligned a n.bytes then .error (.fault (mis a))
  else if s.allMapped a n.bytes then .ok ()
  else .error (.fault (.accessFault a []))

/-! ## The reservation (R34) -/

/-- `reservation <- r`. -/
def State.setReservation (s : State) (r : Option Reservation) : State := { s with reservation := r }

/-- The next draw of a store-conditional says "fail": only when `sc_may_fail` (R247). -/
def State.scDrawFails (s : State) : Bool := s.env.scMayFail && Config.scDraw s.draws

/-- A draw was taken. -/
def State.takeDraw (s : State) : State := { s with draws := s.draws + 1 }

/-! ## What the hart holds after a step (R35, R408) -/

/-- The state after a step's outcome. A fault or a refusal changes the status and nothing else: pc and registers stay
(R408, R434); the one exception is a misaligned store done byte by byte, whose earlier bytes stay stored (R54). -/
def State.settle (s : State) : Host.Outcome State Fault Refusal → State
  | .next t => t
  | .fault (.accessFault a landed) =>
    { s with mem := landed.foldl (fun m c => Memory.write m c.1 c.2) s.mem,
             status := .faulted (.accessFault a landed) }
  | .fault f => { s with status := .faulted f }
  | .refused r => { s with status := .refused r }

end Sys2Proof.Machine
end

