-- ==== Sys2Proof/Machine/Operands.lean ====
section
/-! DEFINITION. Operand forms: immediates, shift amounts and effective addresses (spec/30_encoding.md R89,
spec/41_load_store.md R170, spec/43_atomic.md R221), width-generic integer operations read at XLEN bits or at 32 bits
(spec/40_integer_alu.md R110 to R113, R143), and the operands of floating-point instructions (spec/10_state.md R31,
R32; spec/44_fp_arith.md R265). -/

namespace Sys2Proof.Machine

/-! ## Integer operands -/

/-- An integer operation, the same at every width: 64 for XLEN = 64, 32 for XLEN = 32 and for the W forms. -/
abbrev IntOp := (w : Nat) → BitVec w → BitVec w → BitVec w

/-- The operation at XLEN bits (R110, R143). -/
def IntOp.atXLen (f : IntOp) (xl : XLen) (a b : Word) : Word :=
  match xl with
  | .rv64 => f 64 a b
  | .rv32 => (f 32 (a.setWidth 32) (b.setWidth 32)).signExtend 64

/-- The W form: on the low 32 bits of the operands, the 32-bit result sign-extended (R111). -/
def IntOp.wForm (f : IntOp) (a b : Word) : Word :=
  (f 32 (a.setWidth 32) (b.setWidth 32)).signExtend 64

/-- A 12-bit immediate, sign-extended (R89, R112). -/
def immOperand (imm : BitVec 12) : Word := imm.signExtend 64

/-- A shift amount, unsigned (R89, R113). -/
def shamtOperand {n : Nat} (shamt : BitVec n) : Word := shamt.setWidth 64

/-- Effective address of a load or store: `trunc_XLEN(x[rs1] + imm)` (R170). -/
def State.effAddr (s : State) (rs1 : XReg) (imm : BitVec 12) : Word :=
  s.env.xlen.addr (s.readX rs1 + immOperand imm)

/-- Effective address of an atomic: `x[rs1]` (R221). -/
def State.atomAddr (s : State) (rs1 : XReg) : Word := s.env.xlen.addr (s.readX rs1)

/-- Write an integer result and go to the next instruction (R21, R23). -/
def State.retireX (s : State) (rd : XReg) (v : Word) : State := (s.writeX rd v).advance

/-- The meaning of an operation that exists at XLEN = 64 only: at XLEN = 32 its tag does not exist, and calling a unit
with it is a contract violation (R6, R401). -/
def State.rv64Only (s : State) (o : Host.Outcome State Fault Refusal) : Host.Outcome State Fault Refusal :=
  match s.env.xlen with
  | .rv64 => o
  | .rv32 => raise .contractViolation

/-! ## Floating-point operands -/

/-- The canonical quiet NaN of binary32 (R32, R262). -/
def cNaNS : BitVec 32 := 0x7FC00000

/-- An S operand: the low word of a NaN-boxed register, else the canonical NaN (R32). -/
def State.readS (s : State) (i : FReg) : BitVec 32 :=
  if (s.readF i).extractLsb' 32 32 = 0xFFFFFFFF#32 then (s.readF i).setWidth 32 else cNaNS

/-- An S result, NaN-boxed (R31). -/
def State.writeS (s : State) (i : FReg) (v : BitVec 32) : State := s.writeF i (0xFFFFFFFF#32 ++ v)

/-- The rounding mode a 3-bit value names; 5, 6 and 7 name none (R27). -/
def modeOfBits (b : RmField) : Option RoundingMode :=
  if b = 0 then some .rne
  else if b = 1 then some .rtz
  else if b = 2 then some .rdn
  else if b = 3 then some .rup
  else if b = 4 then some .rmm
  else none

/-- `ext_rm`, the external mode selector: the launch's where it is given, else the free value (R265, log entry 7). -/
def Env.externalMode (e : Env) : RoundingMode := e.extRm.getD Config.extRm

/-- The effective rounding mode of an instruction's rm field (R265). -/
def State.effRm (s : State) (rm : RmField) : Except Stop RoundingMode :=
  match modeOfBits rm with
  | some m => .ok m
  | none =>
    if rm = 7 then
      match modeOfBits s.frm with
      | some m => .ok m
      | none => if s.frm = 7 then .ok (Env.externalMode s.env) else .error (.refuse .reservedRoundingMode)
    else .error (.fault (.illegalInstruction s.pc))

end Sys2Proof.Machine
end

