-- ==== Sys2Proof/Machine/IntAlu.lean ====
section
/-! DEFINITION. Unit 1, the integer ALU (spec/40_integer_alu.md R110 to R143). Each operation is one function at every
width; the instruction reads it at XLEN bits, the W form at 32 bits with the result sign-extended. None raises a fault,
touches a flag or a byte of memory, or traps on overflow (R142). -/

namespace Sys2Proof.Machine

/-! ## The operations -/

/-- Sum modulo 2^w (R114). -/
def opAdd : IntOp := fun _ a b => a + b
/-- Difference modulo 2^w (R115). -/
def opSub : IntOp := fun _ a b => a - b
/-- Shift left by `b` modulo the width (R113, R116). -/
def opSll : IntOp := fun w a b => a <<< (b.toNat % w)
/-- 1 when less as signed numbers, else 0 (R117). -/
def opSlt : IntOp := fun w a b => if a.slt b then 1#w else 0#w
/-- 1 when less as unsigned numbers, else 0 (R118). -/
def opSltu : IntOp := fun w a b => if a.ult b then 1#w else 0#w
/-- Bitwise exclusive or (R119). -/
def opXor : IntOp := fun _ a b => a ^^^ b
/-- Logical shift right by `b` modulo the width (R113, R120). -/
def opSrl : IntOp := fun w a b => a >>> (b.toNat % w)
/-- Arithmetic shift right by `b` modulo the width (R113, R121). -/
def opSra : IntOp := fun w a b => a.sshiftRight (b.toNat % w)
/-- Bitwise or (R122). -/
def opOr : IntOp := fun _ a b => a ||| b
/-- Bitwise and (R123). -/
def opAnd : IntOp := fun _ a b => a &&& b

/-! ## The shapes of the instructions -/

/-- `x[rd] <- f(x[rs1], x[rs2])` at XLEN bits (R110). -/
def aluReg (f : IntOp) (rd rs1 rs2 : XReg) (s : State) : Host.Outcome State Fault Refusal :=
  .next (s.retireX rd (f.atXLen s.env.xlen (s.readX rs1) (s.readX rs2)))

/-- `x[rd] <- f(x[rs1], b)` at XLEN bits, `b` an immediate or a shift amount (R110). -/
def aluImm (f : IntOp) (rd rs1 : XReg) (b : Word) (s : State) : Host.Outcome State Fault Refusal :=
  .next (s.retireX rd (f.atXLen s.env.xlen (s.readX rs1) b))

/-- `x[rd] <- sext(f(x[rs1][31:0], x[rs2][31:0]))`, RV64 only (R111). -/
def aluRegW (f : IntOp) (rd rs1 rs2 : XReg) (s : State) : Host.Outcome State Fault Refusal :=
  s.rv64Only (.next (s.retireX rd (f.wForm (s.readX rs1) (s.readX rs2))))

/-- `x[rd] <- sext(f(x[rs1][31:0], b[31:0]))`, RV64 only (R111). -/
def aluImmW (f : IntOp) (rd rs1 : XReg) (b : Word) (s : State) : Host.Outcome State Fault Refusal :=
  s.rv64Only (.next (s.retireX rd (f.wForm (s.readX rs1) b)))

/-! ## Register-register -/

/-- ADD (R114): wraparound sum. -/
def execAdd (rd rs1 rs2 : XReg) (s : State) : Host.Outcome State Fault Refusal :=
  aluReg opAdd rd rs1 rs2 s

/-- SUB (R115): wraparound difference. -/
def execSub (rd rs1 rs2 : XReg) (s : State) : Host.Outcome State Fault Refusal :=
  aluReg opSub rd rs1 rs2 s

/-- SLL (R116): shift left logical. -/
def execSll (rd rs1 rs2 : XReg) (s : State) : Host.Outcome State Fault Refusal :=
  aluReg opSll rd rs1 rs2 s

/-- SLT (R117): set if less than, signed. -/
def execSlt (rd rs1 rs2 : XReg) (s : State) : Host.Outcome State Fault Refusal :=
  aluReg opSlt rd rs1 rs2 s

/-- SLTU (R118): set if less than, unsigned. -/
def execSltu (rd rs1 rs2 : XReg) (s : State) : Host.Outcome State Fault Refusal :=
  aluReg opSltu rd rs1 rs2 s

/-- XOR (R119): exclusive or. -/
def execXor (rd rs1 rs2 : XReg) (s : State) : Host.Outcome State Fault Refusal :=
  aluReg opXor rd rs1 rs2 s

/-- SRL (R120): shift right logical. -/
def execSrl (rd rs1 rs2 : XReg) (s : State) : Host.Outcome State Fault Refusal :=
  aluReg opSrl rd rs1 rs2 s

/-- SRA (R121): shift right arithmetic. -/
def execSra (rd rs1 rs2 : XReg) (s : State) : Host.Outcome State Fault Refusal :=
  aluReg opSra rd rs1 rs2 s

/-- OR (R122): or. -/
def execOr (rd rs1 rs2 : XReg) (s : State) : Host.Outcome State Fault Refusal :=
  aluReg opOr rd rs1 rs2 s

/-- AND (R123): and. -/
def execAnd (rd rs1 rs2 : XReg) (s : State) : Host.Outcome State Fault Refusal :=
  aluReg opAnd rd rs1 rs2 s

/-! ## Register-immediate -/

/-- ADDI (R124): ADD with the sign-extended immediate. -/
def execAddi (rd rs1 : XReg) (imm : BitVec 12) (s : State) : Host.Outcome State Fault Refusal :=
  aluImm opAdd rd rs1 (immOperand imm) s

/-- SLTI (R125): SLT with the sign-extended immediate. -/
def execSlti (rd rs1 : XReg) (imm : BitVec 12) (s : State) : Host.Outcome State Fault Refusal :=
  aluImm opSlt rd rs1 (immOperand imm) s

/-- SLTIU (R126): SLTU with the sign-extended immediate. -/
def execSltiu (rd rs1 : XReg) (imm : BitVec 12) (s : State) : Host.Outcome State Fault Refusal :=
  aluImm opSltu rd rs1 (immOperand imm) s

/-- XORI (R127): XOR with the sign-extended immediate. -/
def execXori (rd rs1 : XReg) (imm : BitVec 12) (s : State) : Host.Outcome State Fault Refusal :=
  aluImm opXor rd rs1 (immOperand imm) s

/-- ORI (R128): OR with the sign-extended immediate. -/
def execOri (rd rs1 : XReg) (imm : BitVec 12) (s : State) : Host.Outcome State Fault Refusal :=
  aluImm opOr rd rs1 (immOperand imm) s

/-- ANDI (R129): AND with the sign-extended immediate. -/
def execAndi (rd rs1 : XReg) (imm : BitVec 12) (s : State) : Host.Outcome State Fault Refusal :=
  aluImm opAnd rd rs1 (immOperand imm) s

/-- SLLI (R130): SLL by the immediate amount. -/
def execSlli (rd rs1 : XReg) (shamt : BitVec 6) (s : State) : Host.Outcome State Fault Refusal :=
  aluImm opSll rd rs1 (shamtOperand shamt) s

/-- SRLI (R131): SRL by the immediate amount. -/
def execSrli (rd rs1 : XReg) (shamt : BitVec 6) (s : State) : Host.Outcome State Fault Refusal :=
  aluImm opSrl rd rs1 (shamtOperand shamt) s

/-- SRAI (R132): SRA by the immediate amount. -/
def execSrai (rd rs1 : XReg) (shamt : BitVec 6) (s : State) : Host.Outcome State Fault Refusal :=
  aluImm opSra rd rs1 (shamtOperand shamt) s

/-! ## W forms -/

/-- ADDW (R133): ADD on the low words. -/
def execAddw (rd rs1 rs2 : XReg) (s : State) : Host.Outcome State Fault Refusal :=
  aluRegW opAdd rd rs1 rs2 s

/-- SUBW (R134): SUB on the low words. -/
def execSubw (rd rs1 rs2 : XReg) (s : State) : Host.Outcome State Fault Refusal :=
  aluRegW opSub rd rs1 rs2 s

/-- SLLW (R135): SLL on the low words. -/
def execSllw (rd rs1 rs2 : XReg) (s : State) : Host.Outcome State Fault Refusal :=
  aluRegW opSll rd rs1 rs2 s

/-- SRLW (R136): SRL on the low words. -/
def execSrlw (rd rs1 rs2 : XReg) (s : State) : Host.Outcome State Fault Refusal :=
  aluRegW opSrl rd rs1 rs2 s

/-- SRAW (R137): SRA on the low words. -/
def execSraw (rd rs1 rs2 : XReg) (s : State) : Host.Outcome State Fault Refusal :=
  aluRegW opSra rd rs1 rs2 s

/-- ADDIW (R138): ADD on the low word and the immediate. -/
def execAddiw (rd rs1 : XReg) (imm : BitVec 12) (s : State) : Host.Outcome State Fault Refusal :=
  aluImmW opAdd rd rs1 (immOperand imm) s

/-- SLLIW (R139): SLL on the low word by the immediate amount. -/
def execSlliw (rd rs1 : XReg) (shamt : BitVec 5) (s : State) : Host.Outcome State Fault Refusal :=
  aluImmW opSll rd rs1 (shamtOperand shamt) s

/-- SRLIW (R140): SRL on the low word by the immediate amount. -/
def execSrliw (rd rs1 : XReg) (shamt : BitVec 5) (s : State) : Host.Outcome State Fault Refusal :=
  aluImmW opSrl rd rs1 (shamtOperand shamt) s

/-- SRAIW (R141): SRA on the low word by the immediate amount. -/
def execSraiw (rd rs1 : XReg) (shamt : BitVec 5) (s : State) : Host.Outcome State Fault Refusal :=
  aluImmW opSra rd rs1 (shamtOperand shamt) s

end Sys2Proof.Machine
end

