-- ==== Sys2Proof/Machine/LoadStore.lean ====
section
/-! DEFINITION. Integer loads and stores (spec/41_load_store.md R170 to R184). -/

namespace Sys2Proof.Machine

/-- Read n bytes at `x[rs1] + imm` and write what `ext` makes of them to `x[rd]` (R170, R171). -/
def load (n : Nat) (ext : Word → Word) (rd rs1 : XReg) (imm : BitVec 12) (s : State) :
    Host.Outcome State Fault Refusal :=
  attempt (s.memRead (s.effAddr rs1 imm) n) fun v => .next (s.retireX rd (ext v))

/-- Store the low n bytes of `x[rs2]` at `x[rs1] + imm` (R170, R172). -/
def store (n : Nat) (rs1 rs2 : XReg) (imm : BitVec 12) (s : State) : Host.Outcome State Fault Refusal :=
  attempt (s.memWrite (s.effAddr rs1 imm) n (s.readX rs2)) fun t => .next t.advance

/-- Sign-extension of the low n bits of a loaded value (R171). -/
def sextLow (n : Nat) (v : Word) : Word := (v.setWidth n).signExtend 64

/-- Zero-extension of the low n bits of a loaded value (R171). -/
def zextLow (n : Nat) (v : Word) : Word := (v.setWidth n).setWidth 64

/-- LB (R173): one byte, sign-extended. -/
def execLb (rd rs1 : XReg) (imm : BitVec 12) (s : State) : Host.Outcome State Fault Refusal :=
  load 1 (sextLow 8) rd rs1 imm s

/-- LH (R174): two bytes, sign-extended. -/
def execLh (rd rs1 : XReg) (imm : BitVec 12) (s : State) : Host.Outcome State Fault Refusal :=
  load 2 (sextLow 16) rd rs1 imm s

/-- LW (R175): four bytes, sign-extended. -/
def execLw (rd rs1 : XReg) (imm : BitVec 12) (s : State) : Host.Outcome State Fault Refusal :=
  load 4 (sextLow 32) rd rs1 imm s

/-- LD (R176): eight bytes; RV64 only. -/
def execLd (rd rs1 : XReg) (imm : BitVec 12) (s : State) : Host.Outcome State Fault Refusal :=
  s.rv64Only (load 8 id rd rs1 imm s)

/-- LBU (R177): one byte, zero-extended. -/
def execLbu (rd rs1 : XReg) (imm : BitVec 12) (s : State) : Host.Outcome State Fault Refusal :=
  load 1 (zextLow 8) rd rs1 imm s

/-- LHU (R178): two bytes, zero-extended. -/
def execLhu (rd rs1 : XReg) (imm : BitVec 12) (s : State) : Host.Outcome State Fault Refusal :=
  load 2 (zextLow 16) rd rs1 imm s

/-- LWU (R179): four bytes, zero-extended; RV64 only. -/
def execLwu (rd rs1 : XReg) (imm : BitVec 12) (s : State) : Host.Outcome State Fault Refusal :=
  s.rv64Only (load 4 (zextLow 32) rd rs1 imm s)

/-- SB (R180): the low 1 byte of x[rs2]. -/
def execSb (rs1 rs2 : XReg) (imm : BitVec 12) (s : State) : Host.Outcome State Fault Refusal :=
  store 1 rs1 rs2 imm s

/-- SH (R181): the low 2 bytes of x[rs2]. -/
def execSh (rs1 rs2 : XReg) (imm : BitVec 12) (s : State) : Host.Outcome State Fault Refusal :=
  store 2 rs1 rs2 imm s

/-- SW (R182): the low 4 bytes of x[rs2]. -/
def execSw (rs1 rs2 : XReg) (imm : BitVec 12) (s : State) : Host.Outcome State Fault Refusal :=
  store 4 rs1 rs2 imm s

/-- SD (R183): the low 8 bytes of x[rs2]; RV64 only. -/
def execSd (rs1 rs2 : XReg) (imm : BitVec 12) (s : State) : Host.Outcome State Fault Refusal :=
  s.rv64Only (store 8 rs1 rs2 imm s)

end Sys2Proof.Machine
end

