-- ==== Sys2Proof/Machine/Atomic.lean ====
section
/-! DEFINITION. Unit 3, the atomic memory operations, and LR/SC (spec/43_atomic.md R220 to R252). -/

namespace Sys2Proof.Machine

/-! ## The nine operations on the memory word `m` and the source `s` (R225 to R242) -/

/-- `s` (R225). -/
def opSwap : IntOp := fun _ _ s => s
/-- The smaller as signed numbers (R230). -/
def opMin : IntOp := fun _ m s => if m.sle s then m else s
/-- The larger as signed numbers (R231). -/
def opMax : IntOp := fun _ m s => if s.sle m then m else s
/-- The smaller as unsigned numbers (R232). -/
def opMinu : IntOp := fun _ m s => if m.ule s then m else s
/-- The larger as unsigned numbers (R233). -/
def opMaxu : IntOp := fun _ m s => if s.ule m then m else s

/-! ## The unit (R220, R223, R224) -/

/-- The .W unit: the memory word before and the computed value, both sign-extended (R223). -/
def amoUnitW (f : IntOp) (old src : Word) : Word × Word :=
  ((old.setWidth 32).signExtend 64, (f 32 (old.setWidth 32) (src.setWidth 32)).signExtend 64)

/-- The .D unit: the doubleword before and the computed value (R224). -/
def amoUnitD (f : IntOp) (old src : Word) : Word × Word := (old, f 64 old src)

/-- The step of every AMO: check, read, compute, write, and the value before to `x[rd]` (R222). -/
def amo (n : AtomSize) (unit : Word → Word → Word × Word) (rd rs1 rs2 : XReg) (s : State) :
    Host.Outcome State Fault Refusal :=
  attempt (s.atomCheck .storeAddressMisaligned (s.atomAddr rs1) n) fun _ =>
    let r := unit (s.loadBytes (s.atomAddr rs1) n.bytes) (s.readX rs2)
    .next ((s.storeBytes (s.atomAddr rs1) r.2 n.bytes).retireX rd r.1)

/-- LR: load, and hold a reservation of exactly the bytes read (R245, R246, R250). -/
def loadReserved (n : AtomSize) (ext : Word → Word) (rd rs1 : XReg) (s : State) :
    Host.Outcome State Fault Refusal :=
  attempt (s.atomCheck .loadAddressMisaligned (s.atomAddr rs1) n) fun _ =>
    .next ((s.setReservation (some ⟨s.atomAddr rs1, n⟩)).retireX rd
      (ext (s.loadBytes (s.atomAddr rs1) n.bytes)))

/-- SC that fails: nothing is stored, `x[rd] <- 1`, no reservation is left (R247). -/
def State.scFail (s : State) (rd : XReg) : State := (s.setReservation none).retireX rd 1

/-- SC that succeeds: the low bytes of `v` are stored, `x[rd] <- 0`, no reservation is left (R247). -/
def State.scStore (s : State) (n : AtomSize) (rd : XReg) (a v : Word) : State :=
  ((s.storeBytes a v n.bytes).setReservation none).retireX rd 0

/-- SC (R247, R248). With a matching reservation and `sc_may_fail` a draw decides; a reservation of another address or
size is refused. -/
def storeConditional (n : AtomSize) (rd rs1 rs2 : XReg) (s : State) : Host.Outcome State Fault Refusal :=
  attempt (s.atomCheck .storeAddressMisaligned (s.atomAddr rs1) n) fun _ =>
    match s.reservation with
    | none => .next (s.scFail rd)
    | some r =>
      if r = ⟨s.atomAddr rs1, n⟩ then
        if s.scDrawFails then .next (s.takeDraw.scFail rd)
        else .next (s.takeDraw.scStore n rd (s.atomAddr rs1) (s.readX rs2))
      else refuse .scAddressMismatch

/-! ## The instructions -/

/-- AMOSWAP.W (R225): store the source. -/
def execAmoswapW (rd rs1 rs2 : XReg) (s : State) : Host.Outcome State Fault Refusal :=
  amo .word (amoUnitW opSwap) rd rs1 rs2 s

/-- AMOADD.W (R226): wraparound sum. -/
def execAmoaddW (rd rs1 rs2 : XReg) (s : State) : Host.Outcome State Fault Refusal :=
  amo .word (amoUnitW opAdd) rd rs1 rs2 s

/-- AMOXOR.W (R227): exclusive or. -/
def execAmoxorW (rd rs1 rs2 : XReg) (s : State) : Host.Outcome State Fault Refusal :=
  amo .word (amoUnitW opXor) rd rs1 rs2 s

/-- AMOAND.W (R228): and. -/
def execAmoandW (rd rs1 rs2 : XReg) (s : State) : Host.Outcome State Fault Refusal :=
  amo .word (amoUnitW opAnd) rd rs1 rs2 s

/-- AMOOR.W (R229): or. -/
def execAmoorW (rd rs1 rs2 : XReg) (s : State) : Host.Outcome State Fault Refusal :=
  amo .word (amoUnitW opOr) rd rs1 rs2 s

/-- AMOMIN.W (R230): signed minimum. -/
def execAmominW (rd rs1 rs2 : XReg) (s : State) : Host.Outcome State Fault Refusal :=
  amo .word (amoUnitW opMin) rd rs1 rs2 s

/-- AMOMAX.W (R231): signed maximum. -/
def execAmomaxW (rd rs1 rs2 : XReg) (s : State) : Host.Outcome State Fault Refusal :=
  amo .word (amoUnitW opMax) rd rs1 rs2 s

/-- AMOMINU.W (R232): unsigned minimum. -/
def execAmominuW (rd rs1 rs2 : XReg) (s : State) : Host.Outcome State Fault Refusal :=
  amo .word (amoUnitW opMinu) rd rs1 rs2 s

/-- AMOMAXU.W (R233): unsigned maximum. -/
def execAmomaxuW (rd rs1 rs2 : XReg) (s : State) : Host.Outcome State Fault Refusal :=
  amo .word (amoUnitW opMaxu) rd rs1 rs2 s

/-- AMOSWAP.D (R234): store the source; RV64 only. -/
def execAmoswapD (rd rs1 rs2 : XReg) (s : State) : Host.Outcome State Fault Refusal :=
  s.rv64Only (amo .double (amoUnitD opSwap) rd rs1 rs2 s)

/-- AMOADD.D (R235): wraparound sum; RV64 only. -/
def execAmoaddD (rd rs1 rs2 : XReg) (s : State) : Host.Outcome State Fault Refusal :=
  s.rv64Only (amo .double (amoUnitD opAdd) rd rs1 rs2 s)

/-- AMOXOR.D (R236): exclusive or; RV64 only. -/
def execAmoxorD (rd rs1 rs2 : XReg) (s : State) : Host.Outcome State Fault Refusal :=
  s.rv64Only (amo .double (amoUnitD opXor) rd rs1 rs2 s)

/-- AMOAND.D (R237): and; RV64 only. -/
def execAmoandD (rd rs1 rs2 : XReg) (s : State) : Host.Outcome State Fault Refusal :=
  s.rv64Only (amo .double (amoUnitD opAnd) rd rs1 rs2 s)

/-- AMOOR.D (R238): or; RV64 only. -/
def execAmoorD (rd rs1 rs2 : XReg) (s : State) : Host.Outcome State Fault Refusal :=
  s.rv64Only (amo .double (amoUnitD opOr) rd rs1 rs2 s)

/-- AMOMIN.D (R239): signed minimum; RV64 only. -/
def execAmominD (rd rs1 rs2 : XReg) (s : State) : Host.Outcome State Fault Refusal :=
  s.rv64Only (amo .double (amoUnitD opMin) rd rs1 rs2 s)

/-- AMOMAX.D (R240): signed maximum; RV64 only. -/
def execAmomaxD (rd rs1 rs2 : XReg) (s : State) : Host.Outcome State Fault Refusal :=
  s.rv64Only (amo .double (amoUnitD opMax) rd rs1 rs2 s)

/-- AMOMINU.D (R241): unsigned minimum; RV64 only. -/
def execAmominuD (rd rs1 rs2 : XReg) (s : State) : Host.Outcome State Fault Refusal :=
  s.rv64Only (amo .double (amoUnitD opMinu) rd rs1 rs2 s)

/-- AMOMAXU.D (R242): unsigned maximum; RV64 only. -/
def execAmomaxuD (rd rs1 rs2 : XReg) (s : State) : Host.Outcome State Fault Refusal :=
  s.rv64Only (amo .double (amoUnitD opMaxu) rd rs1 rs2 s)

/-- LR.W (R245): load-reserved word, sign-extended. -/
def execLrW (rd rs1 : XReg) (s : State) : Host.Outcome State Fault Refusal :=
  loadReserved .word (sextLow 32) rd rs1 s

/-- LR.D (R246): load-reserved doubleword; RV64 only. -/
def execLrD (rd rs1 : XReg) (s : State) : Host.Outcome State Fault Refusal :=
  s.rv64Only (loadReserved .double id rd rs1 s)

/-- SC.W (R247): store-conditional word. -/
def execScW (rd rs1 rs2 : XReg) (s : State) : Host.Outcome State Fault Refusal :=
  storeConditional .word rd rs1 rs2 s

/-- SC.D (R248): store-conditional doubleword; RV64 only. -/
def execScD (rd rs1 rs2 : XReg) (s : State) : Host.Outcome State Fault Refusal :=
  s.rv64Only (storeConditional .double rd rs1 rs2 s)

end Sys2Proof.Machine
end

