-- ==== Sys2Proof/Machine/Flags.lean ====
section
/-! DEFINITION. The exception flags, the rounding mode and the fcsr view of both (spec/10_state.md R24 to R29). -/

namespace Sys2Proof.Machine

/-- Inexact, bit 0 (R25). -/
def flagNX : Flags := 0x01
/-- Underflow, bit 1 (R25). -/
def flagUF : Flags := 0x02
/-- Overflow, bit 2 (R25). -/
def flagOF : Flags := 0x04
/-- Divide-by-zero, bit 3 (R25). -/
def flagDZ : Flags := 0x08
/-- Invalid, bit 4 (R25). -/
def flagNV : Flags := 0x10

/-- `fflags |= m` (R26). -/
def State.raiseFlags (s : State) (m : Flags) : State := { s with fflags := s.fflags ||| m }

/-- `FrmLegalize`: the identity but for 5 and 6, which are parameters (R28). -/
def frmLegalize (e : Env) (v : RmField) : RmField :=
  if v = 5 then e.frmLegal5 else if v = 6 then e.frmLegal6 else v

/-- `fflags <- v[4:0]` (R29). -/
def State.setFflags (s : State) (v : Word) : State := { s with fflags := v.setWidth 5 }

/-- `frm <- FrmLegalize(v[2:0])` (R28). -/
def State.setFrm (s : State) (v : Word) : State := { s with frm := frmLegalize s.env (v.setWidth 3) }

/-- `fcsr`, the concatenation of frm and fflags, zero-extended (R29). -/
def State.fcsr (s : State) : Word := (s.frm ++ s.fflags).setWidth 64

/-- A write of fcsr: both fields, the bits above 7 ignored (R29). -/
def State.setFcsr (s : State) (v : Word) : State := (s.setFflags v).setFrm (v >>> 5)

end Sys2Proof.Machine
end

