-- ==== Sys2Proof/Machine/Fcsr.lean ====
section
/-! DEFINITION. The six accessors of fflags, frm and fcsr (spec/46_fcsr_access.md R380 to R387). A read accessor
changes nothing but its register; a set accessor returns the old value and stores the new one. -/

namespace Sys2Proof.Machine

/-- FRCSR (R381): read fcsr. -/
def execFrcsr (rd : XReg) (s : State) : Host.Outcome State Fault Refusal :=
  .next (s.retireX rd s.fcsr)

/-- FRRM (R382): read frm. -/
def execFrrm (rd : XReg) (s : State) : Host.Outcome State Fault Refusal :=
  .next (s.retireX rd (s.frm.setWidth 64))

/-- FRFLAGS (R383): read fflags. -/
def execFrflags (rd : XReg) (s : State) : Host.Outcome State Fault Refusal :=
  .next (s.retireX rd (s.fflags.setWidth 64))

/-- FSFLAGS (R384): swap fflags: the write replaces, it does not OR. -/
def execFsflags (rd rs1 : XReg) (s : State) : Host.Outcome State Fault Refusal :=
  .next ((s.setFflags (s.readX rs1)).retireX rd (s.fflags.setWidth 64))

/-- FSRM (R385): swap frm through FrmLegalize. -/
def execFsrm (rd rs1 : XReg) (s : State) : Host.Outcome State Fault Refusal :=
  .next ((s.setFrm (s.readX rs1)).retireX rd (s.frm.setWidth 64))

/-- FSCSR (R386): swap both fields. -/
def execFscsr (rd rs1 : XReg) (s : State) : Host.Outcome State Fault Refusal :=
  .next ((s.setFcsr (s.readX rs1)).retireX rd s.fcsr)

end Sys2Proof.Machine
end

