-- ==== Sys2Proof/Machine/Fp.lean ====
section
/-! DEFINITION. The core operations of unit 4 on bit patterns (spec/44_fp_arith.md R260 to R276): formats, predicates,
the exact value of a pattern, the rounding function, and arithmetic as exact rational arithmetic rounded once. -/

namespace Sys2Proof.Machine

/-! ## Exact rationals -/

/-- 2^e. -/
def pow2 : Int → Rat
  | .ofNat n => ((2 ^ n : Nat) : Rat)
  | .negSucc n => mkRat 1 (2 ^ (n + 1))

/-- floor(log2 m) for m > 0: 2^e <= m < 2^(e+1) (R266). -/
def floorLog2 (m : Rat) : Int :=
  let e := (m.num.natAbs.log2 : Int) - (m.den.log2 : Int)
  if pow2 e ≤ m then e else e - 1

/-- The integer part, toward zero (R310). -/
def ratTrunc (r : Rat) : Int := if 0 ≤ r then r.floor else -(-r).floor

/-- Bit by bit, the largest r with r^2 <= n whose bits below `i` are still open. -/
def isqrtBits (n : Nat) : Nat → Nat → Nat
  | 0, r => r
  | i + 1, r => if (r + 2 ^ i) * (r + 2 ^ i) ≤ n then isqrtBits n i (r + 2 ^ i) else isqrtBits n i r

/-- The integer square root: the largest r with r^2 <= n. -/
def isqrt (n : Nat) : Nat := isqrtBits n (n.log2 / 2 + 1) 0

/-! ## Formats (R260) -/

/-- S is binary32, D is binary64 (R10). -/
inductive Fmt where
  | s
  | d
  deriving DecidableEq, Repr

/-- The width w. -/
@[reducible] def Fmt.width : Fmt → Nat
  | .s => 32
  | .d => 64

/-- E, the bits of the exponent field. -/
def Fmt.expBits : Fmt → Nat
  | .s => 8
  | .d => 11

/-- F, the bits of the fraction field. -/
def Fmt.fracBits : Fmt → Nat
  | .s => 23
  | .d => 52

/-- The bias. -/
def Fmt.bias : Fmt → Nat
  | .s => 127
  | .d => 1023

/-- emin = 1 - bias. -/
def Fmt.emin (fmt : Fmt) : Int := 1 - (fmt.bias : Int)

/-- emax = bias. -/
def Fmt.emax (fmt : Fmt) : Int := (fmt.bias : Int)

/-- The exponent field of all ones. -/
def Fmt.expMax (fmt : Fmt) : Nat := 2 ^ fmt.expBits - 1

/-- `sign(v)`, the top bit. -/
def Fmt.sign (fmt : Fmt) (v : BitVec fmt.width) : Bool := v.msb

/-- `exp(v)`, the exponent field. -/
def Fmt.exp (fmt : Fmt) (v : BitVec fmt.width) : Nat := v.toNat / 2 ^ fmt.fracBits % 2 ^ fmt.expBits

/-- `frac(v)`, the fraction field. -/
def Fmt.frac (fmt : Fmt) (v : BitVec fmt.width) : Nat := v.toNat % 2 ^ fmt.fracBits

/-- The pattern with these fields. -/
def Fmt.pack (fmt : Fmt) (sign : Bool) (exp frac : Nat) : BitVec fmt.width :=
  BitVec.ofNat fmt.width ((if sign then 2 ^ (fmt.width - 1) else 0) + exp * 2 ^ fmt.fracBits + frac)

/-- The infinity of a sign. -/
def Fmt.inf (fmt : Fmt) (sign : Bool) : BitVec fmt.width := fmt.pack sign fmt.expMax 0

/-- The zero of a sign. -/
def Fmt.zero (fmt : Fmt) (sign : Bool) : BitVec fmt.width := fmt.pack sign 0 0

/-- The largest finite magnitude with a sign. -/
def Fmt.maxFin (fmt : Fmt) (sign : Bool) : BitVec fmt.width :=
  fmt.pack sign (fmt.expMax - 1) (2 ^ fmt.fracBits - 1)

/-- The canonical quiet NaN (R262). -/
def Fmt.cNaN (fmt : Fmt) : BitVec fmt.width := fmt.pack false fmt.expMax (2 ^ (fmt.fracBits - 1))

/-! ## Predicates (R261) -/

/-- `isInf(v)`. -/
def Fmt.isInf (fmt : Fmt) (v : BitVec fmt.width) : Bool := fmt.exp v == fmt.expMax && fmt.frac v == 0

/-- `isNaN(v)`. -/
def Fmt.isNaN (fmt : Fmt) (v : BitVec fmt.width) : Bool := fmt.exp v == fmt.expMax && fmt.frac v != 0

/-- The quiet bit, the top bit of the fraction field. -/
def Fmt.quietBit (fmt : Fmt) (v : BitVec fmt.width) : Bool := v.getLsbD (fmt.fracBits - 1)

/-- `isQNaN(v)`. -/
def Fmt.isQNaN (fmt : Fmt) (v : BitVec fmt.width) : Bool := fmt.isNaN v && fmt.quietBit v

/-- `isSNaN(v)`. -/
def Fmt.isSNaN (fmt : Fmt) (v : BitVec fmt.width) : Bool := fmt.isNaN v && !fmt.quietBit v

/-- `isZero(v)`. -/
def Fmt.isZero (fmt : Fmt) (v : BitVec fmt.width) : Bool := fmt.exp v == 0 && fmt.frac v == 0

/-- `isSubnormal(v)`. -/
def Fmt.isSubnormal (fmt : Fmt) (v : BitVec fmt.width) : Bool := fmt.exp v == 0 && fmt.frac v != 0

/-- `isFinite(v)`. -/
def Fmt.isFinite (fmt : Fmt) (v : BitVec fmt.width) : Bool := fmt.exp v != fmt.expMax

/-! ## The exact value (R260) -/

/-- The magnitude of a finite pattern. -/
def Fmt.mag (fmt : Fmt) (v : BitVec fmt.width) : Rat :=
  if fmt.exp v = 0 then (fmt.frac v : Rat) * pow2 (fmt.emin - fmt.fracBits)
  else ((2 ^ fmt.fracBits + fmt.frac v : Nat) : Rat) * pow2 ((fmt.exp v : Int) - fmt.bias - fmt.fracBits)

/-- `val(v)`, the real number a finite pattern spells. -/
def Fmt.val (fmt : Fmt) (v : BitVec fmt.width) : Rat := if fmt.sign v then -fmt.mag v else fmt.mag v

/-- a < b for patterns that are no NaN: infinities below and above every finite value (R275, R313). -/
def Fmt.less (fmt : Fmt) (a b : BitVec fmt.width) : Bool :=
  if fmt.isInf a && fmt.isInf b then fmt.sign a && !fmt.sign b
  else if fmt.isInf a then fmt.sign a
  else if fmt.isInf b then !fmt.sign b
  else decide (fmt.val a < fmt.val b)

/-- a = b in value for patterns that are no NaN; -0 equals +0 (R313). -/
def Fmt.same (fmt : Fmt) (a b : BitVec fmt.width) : Bool :=
  if fmt.isInf a && fmt.isInf b then fmt.sign a == fmt.sign b
  else if fmt.isInf a || fmt.isInf b then false
  else decide (fmt.val a = fmt.val b)

/-! ## Rounding (R266 to R268) -/

/-- Where a non-negative real lies between the integer k below it and k + 1. -/
inductive Tail where
  | exact
  | below
  | half
  | above
  deriving DecidableEq, Repr

/-- The tail of a fraction 0 <= d < 1. -/
def tailOf (d : Rat) : Tail :=
  if d = 0 then .exact
  else if d < 1 / 2 then .below
  else if d = 1 / 2 then .half
  else .above

/-- The last lines of `rint`: k or k + 1, by mode and sign (R266). -/
def roundTail (rm : RoundingMode) (neg : Bool) (k : Nat) (t : Tail) : Nat :=
  match t with
  | .exact => k
  | .below =>
    match rm with
    | .rdn => if neg then k + 1 else k
    | .rup => if neg then k else k + 1
    | .rne => k
    | .rtz => k
    | .rmm => k
  | .half =>
    match rm with
    | .rdn => if neg then k + 1 else k
    | .rup => if neg then k else k + 1
    | .rne => if k % 2 = 0 then k else k + 1
    | .rtz => k
    | .rmm => k + 1
  | .above =>
    match rm with
    | .rdn => if neg then k + 1 else k
    | .rup => if neg then k else k + 1
    | .rne => k + 1
    | .rtz => k
    | .rmm => k + 1

/-- `rint(x, rm, neg)`: a non-negative rational to an integer (R266). -/
def rint (rm : RoundingMode) (neg : Bool) (x : Rat) : Nat :=
  roundTail rm neg x.floor.toNat (tailOf (x - (x.floor : Rat)))

/-- The overflow result (R267). -/
def overflowResult (fmt : Fmt) (rm : RoundingMode) (sign : Bool) : BitVec fmt.width × Flags :=
  (match rm with
    | .rne => fmt.inf sign
    | .rmm => fmt.inf sign
    | .rtz => fmt.maxFin sign
    | .rdn => if sign then fmt.inf sign else fmt.maxFin sign
    | .rup => if sign then fmt.maxFin sign else fmt.inf sign,
   flagOF ||| flagNX)

/-- The pattern of a sign and a magnitude that the format represents, below 2^(emax+1) (R266, last lines). -/
def packMag (fmt : Fmt) (sign : Bool) (res : Rat) : BitVec fmt.width :=
  if res = 0 then fmt.zero sign
  else if res < pow2 fmt.emin then fmt.pack sign 0 (res / pow2 (fmt.emin - fmt.fracBits)).floor.toNat
  else
    let e2 := floorLog2 res
    fmt.pack sign (e2 + fmt.bias).toNat ((res / pow2 (e2 - fmt.fracBits)).floor.toNat - 2 ^ fmt.fracBits)

/-- `round_fmt(rm, r, zs)` (R266): tininess is detected after rounding (R268). -/
def roundFmt (fmt : Fmt) (rm : RoundingMode) (r : Rat) (zs : Bool) : BitVec fmt.width × Flags :=
  if r = 0 then (fmt.zero zs, 0)
  else
    let neg := decide (r < 0)
    let m := if neg then -r else r
    let e := floorLog2 m
    let u := pow2 (e - fmt.fracBits)
    let tiny := decide ((rint rm neg (m / u) : Rat) * u < pow2 fmt.emin)
    let q := pow2 (max e fmt.emin - fmt.fracBits)
    let res := (rint rm neg (m / q) : Rat) * q
    let inexact := decide (res ≠ m)
    if pow2 (fmt.emax + 1) ≤ res then overflowResult fmt rm neg
    else
      (packMag fmt neg res,
       (if inexact then flagNX else 0) ||| (if tiny && inexact then flagUF else 0))

/-! ## The NaN rule (R263) and the sign of an exact zero (R269) -/

/-- `nan_rule`: the result when an operand is a NaN. -/
def nanRule (fmt : Fmt) (ops : List (BitVec fmt.width)) : Option (BitVec fmt.width × Flags) :=
  if ops.any fmt.isSNaN then some (fmt.cNaN, flagNV)
  else if ops.any fmt.isQNaN then some (fmt.cNaN, 0)
  else none

/-- The zero of an exact zero sum whose terms do not decide its sign: +0, but -0 toward minus infinity (R269). -/
def cancelZero (fmt : Fmt) (rm : RoundingMode) : BitVec fmt.width := fmt.zero (decide (rm = .rdn))

/-! ## Arithmetic (R270 to R274) -/

/-- `fp_add` (R270). -/
def fpAdd (fmt : Fmt) (rm : RoundingMode) (a b : BitVec fmt.width) : BitVec fmt.width × Flags :=
  match nanRule fmt [a, b] with
  | some r => r
  | none =>
    if fmt.isInf a && fmt.isInf b && (fmt.sign a != fmt.sign b) then (fmt.cNaN, flagNV)
    else if fmt.isInf a then (a, 0)
    else if fmt.isInf b then (b, 0)
    else if fmt.val a + fmt.val b = 0 then
      (if fmt.isZero a && fmt.isZero b && (fmt.sign a == fmt.sign b) then fmt.zero (fmt.sign a)
       else cancelZero fmt rm, 0)
    else roundFmt fmt rm (fmt.val a + fmt.val b) false

/-- The pattern with its sign bit inverted. -/
def Fmt.negate (fmt : Fmt) (v : BitVec fmt.width) : BitVec fmt.width :=
  v ^^^ BitVec.ofNat fmt.width (2 ^ (fmt.width - 1))

/-- `fp_sub` (R270). -/
def fpSub (fmt : Fmt) (rm : RoundingMode) (a b : BitVec fmt.width) : BitVec fmt.width × Flags :=
  fpAdd fmt rm a (fmt.negate b)

/-- `fp_mul` (R271). -/
def fpMul (fmt : Fmt) (rm : RoundingMode) (a b : BitVec fmt.width) : BitVec fmt.width × Flags :=
  match nanRule fmt [a, b] with
  | some r => r
  | none =>
    let s := fmt.sign a != fmt.sign b
    if (fmt.isInf a && fmt.isZero b) || (fmt.isZero a && fmt.isInf b) then (fmt.cNaN, flagNV)
    else if fmt.isInf a || fmt.isInf b then (fmt.inf s, 0)
    else roundFmt fmt rm (fmt.val a * fmt.val b) s

/-- `fp_div` (R272). -/
def fpDiv (fmt : Fmt) (rm : RoundingMode) (a b : BitVec fmt.width) : BitVec fmt.width × Flags :=
  match nanRule fmt [a, b] with
  | some r => r
  | none =>
    let s := fmt.sign a != fmt.sign b
    if fmt.isInf a && fmt.isInf b then (fmt.cNaN, flagNV)
    else if fmt.isInf a then (fmt.inf s, 0)
    else if fmt.isInf b then (fmt.zero s, 0)
    else if fmt.isZero b && fmt.isZero a then (fmt.cNaN, flagNV)
    else if fmt.isZero b then (fmt.inf s, flagDZ)
    else roundFmt fmt rm (fmt.val a / fmt.val b) s

/-- Round the square root of v > 0: the tail is found by comparing squares (R273). The root is normal, so there is no
overflow and no underflow. -/
def roundSqrt (fmt : Fmt) (rm : RoundingMode) (v : Rat) : BitVec fmt.width × Flags :=
  let q := pow2 (floorLog2 v / 2 - fmt.fracBits)
  let k := isqrt (v / (q * q)).floor.toNat
  let mid := ((k : Rat) + 1 / 2) * q
  let tail : Tail :=
    if (k : Rat) * q * ((k : Rat) * q) = v then .exact
    else if v < mid * mid then .below
    else if v = mid * mid then .half
    else .above
  (packMag fmt false ((roundTail rm false k tail : Rat) * q), if tail = .exact then 0 else flagNX)

/-- `fp_sqrt` (R273). -/
def fpSqrt (fmt : Fmt) (rm : RoundingMode) (a : BitVec fmt.width) : BitVec fmt.width × Flags :=
  match nanRule fmt [a] with
  | some r => r
  | none =>
    if fmt.isZero a then (a, 0)
    else if fmt.sign a then (fmt.cNaN, flagNV)
    else if fmt.isInf a then (a, 0)
    else roundSqrt fmt rm (fmt.val a)

/-- `fp_fma`: `(-1)^negp (a x b) + (-1)^negc c`, rounded once (R274). -/
def fpFma (fmt : Fmt) (rm : RoundingMode) (a b c : BitVec fmt.width) (negp negc : Bool) :
    BitVec fmt.width × Flags :=
  let ps := (fmt.sign a != fmt.sign b) != negp
  let cs := fmt.sign c != negc
  let zi := (fmt.isInf a && fmt.isZero b) || (fmt.isZero a && fmt.isInf b)
  let prod := if negp then -(fmt.val a * fmt.val b) else fmt.val a * fmt.val b
  let addend := if negc then -fmt.val c else fmt.val c
  if fmt.isNaN a || fmt.isNaN b || fmt.isNaN c then
    (fmt.cNaN,
      (if fmt.isSNaN a || fmt.isSNaN b || fmt.isSNaN c then flagNV else 0) ||| (if zi then flagNV else 0))
  else if zi then (fmt.cNaN, flagNV)
  else if fmt.isInf a || fmt.isInf b then
    if fmt.isInf c && (cs != ps) then (fmt.cNaN, flagNV) else (fmt.inf ps, 0)
  else if fmt.isInf c then (fmt.inf cs, 0)
  else if prod + addend = 0 then
    (if (fmt.isZero a || fmt.isZero b) && fmt.isZero c && (ps == cs) then fmt.zero ps else cancelZero fmt rm, 0)
  else roundFmt fmt rm (prod + addend) false

/-! ## Minimum, maximum, sign injection (R275, R276) -/

/-- The cases of min and max that do not compare: a NaN operand, or two zeros, where `negZero` says whether the result
is -0 given the two signs; else `pick`. -/
def fpMinMax (fmt : Fmt) (a b : BitVec fmt.width) (negZero : Bool) (pick : BitVec fmt.width) :
    BitVec fmt.width × Flags :=
  let fl := if fmt.isSNaN a || fmt.isSNaN b then flagNV else 0
  if fmt.isNaN a && fmt.isNaN b then (fmt.cNaN, fl)
  else if fmt.isNaN a then (b, fl)
  else if fmt.isNaN b then (a, fl)
  else if fmt.isZero a && fmt.isZero b then (fmt.zero negZero, 0)
  else (pick, fl)

/-- `fp_min` (R275). -/
def fpMin (fmt : Fmt) (a b : BitVec fmt.width) : BitVec fmt.width × Flags :=
  fpMinMax fmt a b (fmt.sign a || fmt.sign b) (if fmt.less b a then b else a)

/-- `fp_max` (R275). -/
def fpMax (fmt : Fmt) (a b : BitVec fmt.width) : BitVec fmt.width × Flags :=
  fpMinMax fmt a b (fmt.sign a && fmt.sign b) (if fmt.less a b then b else a)

/-- The pattern `{sign, a[w-2:0]}` (R276). -/
def Fmt.withSign (fmt : Fmt) (sign : Bool) (a : BitVec fmt.width) : BitVec fmt.width :=
  BitVec.ofNat fmt.width ((if sign then 2 ^ (fmt.width - 1) else 0) + a.toNat % 2 ^ (fmt.width - 1))

/-- `fp_sgnj` (R276). -/
def fpSgnj (fmt : Fmt) (a b : BitVec fmt.width) : BitVec fmt.width := fmt.withSign (fmt.sign b) a

/-- `fp_sgnjn` (R276). -/
def fpSgnjn (fmt : Fmt) (a b : BitVec fmt.width) : BitVec fmt.width := fmt.withSign (!fmt.sign b) a

/-- `fp_sgnjx` (R276). -/
def fpSgnjx (fmt : Fmt) (a b : BitVec fmt.width) : BitVec fmt.width := fmt.withSign (fmt.sign a != fmt.sign b) a

end Sys2Proof.Machine
end

