-- ==== Sys2Proof/Machine/FpArith.lean ====
section
/-! DEFINITION. The floating-point arithmetic, fused, min/max and sign-injection instructions (spec/44_fp_arith.md R277
to R304): operands read by format, the core operation of Fp.lean, the result boxed, the flags ORed into fflags. -/

namespace Sys2Proof.Machine

/-! ## Operands and results by format -/

/-- A source of the format: S through the NaN-box check, D whole (R32). -/
def State.readFmt (s : State) (fmt : Fmt) (i : FReg) : BitVec fmt.width :=
  match fmt with
  | .s => s.readS i
  | .d => s.readF i

/-- A result of the format: S NaN-boxed, D whole (R31). -/
def State.writeFmt (s : State) (fmt : Fmt) (i : FReg) (v : BitVec fmt.width) : State :=
  match fmt with
  | .s => s.writeS i v
  | .d => s.writeF i v

/-- Write a floating-point result, raise its flags, go to the next instruction, in one step (R26, R31). -/
def State.retireF (s : State) (fmt : Fmt) (rd : FReg) (r : BitVec fmt.width × Flags) : State :=
  ((s.writeFmt fmt rd r.1).raiseFlags r.2).advance

/-! ## The shapes of the instructions -/

/-- Two sources and a rounding mode. -/
def fpBinary (fmt : Fmt) (f : RoundingMode → BitVec fmt.width → BitVec fmt.width → BitVec fmt.width × Flags)
    (rd rs1 rs2 : FReg) (rm : RmField) (s : State) : Host.Outcome State Fault Refusal :=
  attempt (s.effRm rm) fun m => .next (s.retireF fmt rd (f m (s.readFmt fmt rs1) (s.readFmt fmt rs2)))

/-- One source and a rounding mode. -/
def fpUnary (fmt : Fmt) (f : RoundingMode → BitVec fmt.width → BitVec fmt.width × Flags)
    (rd rs1 : FReg) (rm : RmField) (s : State) : Host.Outcome State Fault Refusal :=
  attempt (s.effRm rm) fun m => .next (s.retireF fmt rd (f m (s.readFmt fmt rs1)))

/-- The fused form `(-1)^negp (rs1 x rs2) + (-1)^negc rs3` (R274). -/
def fpFused (fmt : Fmt) (negp negc : Bool) (rd rs1 rs2 rs3 : FReg) (rm : RmField) (s : State) :
    Host.Outcome State Fault Refusal :=
  attempt (s.effRm rm) fun m =>
    .next (s.retireF fmt rd
      (fpFma fmt m (s.readFmt fmt rs1) (s.readFmt fmt rs2) (s.readFmt fmt rs3) negp negc))

/-- Two sources and no rounding mode. -/
def fpPlain (fmt : Fmt) (f : BitVec fmt.width → BitVec fmt.width → BitVec fmt.width × Flags)
    (rd rs1 rs2 : FReg) (s : State) : Host.Outcome State Fault Refusal :=
  .next (s.retireF fmt rd (f (s.readFmt fmt rs1) (s.readFmt fmt rs2)))

/-- Sign injection: no flag is raised (R276). -/
def fpInject (fmt : Fmt) (f : BitVec fmt.width → BitVec fmt.width → BitVec fmt.width)
    (rd rs1 rs2 : FReg) (s : State) : Host.Outcome State Fault Refusal :=
  .next ((s.writeFmt fmt rd (f (s.readFmt fmt rs1) (s.readFmt fmt rs2))).advance)

/-! ## Single precision -/

/-- FADD.S (R277): rs1 + rs2. -/
def execFaddS (rd rs1 rs2 : FReg) (rm : RmField) (s : State) : Host.Outcome State Fault Refusal :=
  fpBinary .s (fpAdd .s) rd rs1 rs2 rm s

/-- FSUB.S (R278): rs1 - rs2. -/
def execFsubS (rd rs1 rs2 : FReg) (rm : RmField) (s : State) : Host.Outcome State Fault Refusal :=
  fpBinary .s (fpSub .s) rd rs1 rs2 rm s

/-- FMUL.S (R279): rs1 x rs2. -/
def execFmulS (rd rs1 rs2 : FReg) (rm : RmField) (s : State) : Host.Outcome State Fault Refusal :=
  fpBinary .s (fpMul .s) rd rs1 rs2 rm s

/-- FDIV.S (R280): rs1 / rs2. -/
def execFdivS (rd rs1 rs2 : FReg) (rm : RmField) (s : State) : Host.Outcome State Fault Refusal :=
  fpBinary .s (fpDiv .s) rd rs1 rs2 rm s

/-- FSQRT.S (R281): the square root of rs1. -/
def execFsqrtS (rd rs1 : FReg) (rm : RmField) (s : State) : Host.Outcome State Fault Refusal :=
  fpUnary .s (fpSqrt .s) rd rs1 rm s

/-- FMADD.S (R282): (rs1 x rs2) + rs3, fused. -/
def execFmaddS (rd rs1 rs2 rs3 : FReg) (rm : RmField) (s : State) : Host.Outcome State Fault Refusal :=
  fpFused .s false false rd rs1 rs2 rs3 rm s

/-- FMSUB.S (R283): (rs1 x rs2) - rs3, fused. -/
def execFmsubS (rd rs1 rs2 rs3 : FReg) (rm : RmField) (s : State) : Host.Outcome State Fault Refusal :=
  fpFused .s false true rd rs1 rs2 rs3 rm s

/-- FNMSUB.S (R284): -(rs1 x rs2) + rs3, fused. -/
def execFnmsubS (rd rs1 rs2 rs3 : FReg) (rm : RmField) (s : State) : Host.Outcome State Fault Refusal :=
  fpFused .s true false rd rs1 rs2 rs3 rm s

/-- FNMADD.S (R285): -(rs1 x rs2) - rs3, fused. -/
def execFnmaddS (rd rs1 rs2 rs3 : FReg) (rm : RmField) (s : State) : Host.Outcome State Fault Refusal :=
  fpFused .s true true rd rs1 rs2 rs3 rm s

/-- FSGNJ.S (R286): the sign of rs2. -/
def execFsgnjS (rd rs1 rs2 : FReg) (s : State) : Host.Outcome State Fault Refusal :=
  fpInject .s (fpSgnj .s) rd rs1 rs2 s

/-- FSGNJN.S (R287): the opposite of the sign of rs2. -/
def execFsgnjnS (rd rs1 rs2 : FReg) (s : State) : Host.Outcome State Fault Refusal :=
  fpInject .s (fpSgnjn .s) rd rs1 rs2 s

/-- FSGNJX.S (R288): the exclusive or of the signs. -/
def execFsgnjxS (rd rs1 rs2 : FReg) (s : State) : Host.Outcome State Fault Refusal :=
  fpInject .s (fpSgnjx .s) rd rs1 rs2 s

/-- FMIN.S (R289): the smaller. -/
def execFminS (rd rs1 rs2 : FReg) (s : State) : Host.Outcome State Fault Refusal :=
  fpPlain .s (fpMin .s) rd rs1 rs2 s

/-- FMAX.S (R290): the larger. -/
def execFmaxS (rd rs1 rs2 : FReg) (s : State) : Host.Outcome State Fault Refusal :=
  fpPlain .s (fpMax .s) rd rs1 rs2 s

/-! ## Double precision -/

/-- FADD.D (R291): rs1 + rs2. -/
def execFaddD (rd rs1 rs2 : FReg) (rm : RmField) (s : State) : Host.Outcome State Fault Refusal :=
  fpBinary .d (fpAdd .d) rd rs1 rs2 rm s

/-- FSUB.D (R292): rs1 - rs2. -/
def execFsubD (rd rs1 rs2 : FReg) (rm : RmField) (s : State) : Host.Outcome State Fault Refusal :=
  fpBinary .d (fpSub .d) rd rs1 rs2 rm s

/-- FMUL.D (R293): rs1 x rs2. -/
def execFmulD (rd rs1 rs2 : FReg) (rm : RmField) (s : State) : Host.Outcome State Fault Refusal :=
  fpBinary .d (fpMul .d) rd rs1 rs2 rm s

/-- FDIV.D (R294): rs1 / rs2. -/
def execFdivD (rd rs1 rs2 : FReg) (rm : RmField) (s : State) : Host.Outcome State Fault Refusal :=
  fpBinary .d (fpDiv .d) rd rs1 rs2 rm s

/-- FSQRT.D (R295): the square root of rs1. -/
def execFsqrtD (rd rs1 : FReg) (rm : RmField) (s : State) : Host.Outcome State Fault Refusal :=
  fpUnary .d (fpSqrt .d) rd rs1 rm s

/-- FMADD.D (R296): (rs1 x rs2) + rs3, fused. -/
def execFmaddD (rd rs1 rs2 rs3 : FReg) (rm : RmField) (s : State) : Host.Outcome State Fault Refusal :=
  fpFused .d false false rd rs1 rs2 rs3 rm s

/-- FMSUB.D (R297): (rs1 x rs2) - rs3, fused. -/
def execFmsubD (rd rs1 rs2 rs3 : FReg) (rm : RmField) (s : State) : Host.Outcome State Fault Refusal :=
  fpFused .d false true rd rs1 rs2 rs3 rm s

/-- FNMSUB.D (R298): -(rs1 x rs2) + rs3, fused. -/
def execFnmsubD (rd rs1 rs2 rs3 : FReg) (rm : RmField) (s : State) : Host.Outcome State Fault Refusal :=
  fpFused .d true false rd rs1 rs2 rs3 rm s

/-- FNMADD.D (R299): -(rs1 x rs2) - rs3, fused. -/
def execFnmaddD (rd rs1 rs2 rs3 : FReg) (rm : RmField) (s : State) : Host.Outcome State Fault Refusal :=
  fpFused .d true true rd rs1 rs2 rs3 rm s

/-- FSGNJ.D (R300): the sign of rs2. -/
def execFsgnjD (rd rs1 rs2 : FReg) (s : State) : Host.Outcome State Fault Refusal :=
  fpInject .d (fpSgnj .d) rd rs1 rs2 s

/-- FSGNJN.D (R301): the opposite of the sign of rs2. -/
def execFsgnjnD (rd rs1 rs2 : FReg) (s : State) : Host.Outcome State Fault Refusal :=
  fpInject .d (fpSgnjn .d) rd rs1 rs2 s

/-- FSGNJX.D (R302): the exclusive or of the signs. -/
def execFsgnjxD (rd rs1 rs2 : FReg) (s : State) : Host.Outcome State Fault Refusal :=
  fpInject .d (fpSgnjx .d) rd rs1 rs2 s

/-- FMIN.D (R303): the smaller. -/
def execFminD (rd rs1 rs2 : FReg) (s : State) : Host.Outcome State Fault Refusal :=
  fpPlain .d (fpMin .d) rd rs1 rs2 s

/-- FMAX.D (R304): the larger. -/
def execFmaxD (rd rs1 rs2 : FReg) (s : State) : Host.Outcome State Fault Refusal :=
  fpPlain .d (fpMax .d) rd rs1 rs2 s

end Sys2Proof.Machine
end

