-- ==== Sys2Proof/Machine/FpConvert.lean ====
section
/-! DEFINITION. Conversions, comparisons, classification and bit moves (spec/45_fp_convert_compare.md R310 to R346). -/

namespace Sys2Proof.Machine

/-! ## Core operations -/

/-- An integer type: its width and signedness (R310, R311). -/
structure IntType where
  bits : Nat
  signed : Bool

/-- The smallest value (R310). -/
def IntType.lo (t : IntType) : Int := if t.signed then -(2 ^ (t.bits - 1) : Nat) else 0

/-- The largest value (R310). -/
def IntType.hi (t : IntType) : Int := if t.signed then (2 ^ (t.bits - 1) : Nat) - 1 else (2 ^ t.bits : Nat) - 1

/-- Signed and unsigned words and doublewords. -/
def tyW : IntType := ⟨32, true⟩
def tyWU : IntType := ⟨32, false⟩
def tyL : IntType := ⟨64, true⟩
def tyLU : IntType := ⟨64, false⟩

/-- Float to integer, always toward zero, saturating with NV (R310). -/
def fpToInt (fmt : Fmt) (ty : IntType) (a : BitVec fmt.width) : Int × Flags :=
  if fmt.isNaN a then (ty.hi, flagNV)
  else if fmt.isInf a then (if fmt.sign a then ty.lo else ty.hi, flagNV)
  else
    let t := ratTrunc (fmt.val a)
    if ty.hi < t then (ty.hi, flagNV)
    else if t < ty.lo then (ty.lo, flagNV)
    else (t, if (t : Rat) = fmt.val a then 0 else flagNX)

/-- Integer to float: rounded once, zero gives +0 (R311). -/
def intToFp (fmt : Fmt) (rm : RoundingMode) (i : Int) : BitVec fmt.width × Flags :=
  roundFmt fmt rm (i : Rat) false

/-- Between the formats (R312). -/
def fpToFp (dst src : Fmt) (rm : RoundingMode) (a : BitVec src.width) : BitVec dst.width × Flags :=
  if src.isSNaN a then (dst.cNaN, flagNV)
  else if src.isNaN a then (dst.cNaN, 0)
  else if src.isInf a then (dst.inf (src.sign a), 0)
  else if src.isZero a then (dst.zero (src.sign a), 0)
  else roundFmt dst rm (src.val a) false

/-- The three comparisons (R313). -/
inductive FpCmp where
  | eq
  | lt
  | le
  deriving DecidableEq, Repr

/-- Compare: a NaN operand gives 0; FEQ is quiet, FLT and FLE raise NV for any NaN (R313). -/
def fpCompare (fmt : Fmt) (op : FpCmp) (a b : BitVec fmt.width) : Bool × Flags :=
  if fmt.isNaN a || fmt.isNaN b then
    (false,
      match op with
      | .eq => if fmt.isSNaN a || fmt.isSNaN b then flagNV else 0
      | .lt => flagNV
      | .le => flagNV)
  else
    (match op with
      | .eq => fmt.same a b
      | .lt => fmt.less a b
      | .le => fmt.less a b || fmt.same a b, 0)

/-- The one-hot class mask (R314). -/
def fpClass (fmt : Fmt) (a : BitVec fmt.width) : BitVec 10 :=
  if fmt.isSNaN a then 0x100
  else if fmt.isNaN a then 0x200
  else if fmt.isInf a then (if fmt.sign a then 0x001 else 0x080)
  else if fmt.isZero a then (if fmt.sign a then 0x008 else 0x010)
  else if fmt.isSubnormal a then (if fmt.sign a then 0x004 else 0x020)
  else if fmt.sign a then 0x002 else 0x040

/-! ## The shapes of the instructions -/

/-- Float to integer: the rounding mode is resolved for its fault and refusal and then not used; the result is cut to
the type's width and sign-extended (R310, R317). -/
def fpToX (fmt : Fmt) (ty : IntType) (rd : XReg) (rs1 : FReg) (rm : RmField) (s : State) :
    Host.Outcome State Fault Refusal :=
  attempt (s.effRm rm) fun _ =>
    let r := fpToInt fmt ty (s.readFmt fmt rs1)
    .next ((s.writeX rd ((BitVec.ofInt ty.bits r.1).signExtend 64)).raiseFlags r.2).advance

/-- Integer to float, from the low bits of `x[rs1]` that the type has (R311). -/
def xToFp (fmt : Fmt) (ty : IntType) (rd : FReg) (rs1 : XReg) (rm : RmField) (s : State) :
    Host.Outcome State Fault Refusal :=
  attempt (s.effRm rm) fun m =>
    let v := (s.readX rs1).setWidth ty.bits
    .next (s.retireF fmt rd (intToFp fmt m (if ty.signed then v.toInt else v.toNat)))

/-- Float to float (R312). -/
def fpToFpInstr (dst src : Fmt) (rd rs1 : FReg) (rm : RmField) (s : State) : Host.Outcome State Fault Refusal :=
  attempt (s.effRm rm) fun m => .next (s.retireF dst rd (fpToFp dst src m (s.readFmt src rs1)))

/-- A comparison: 0 or 1 to `x[rd]` (R313). -/
def fpCompareX (fmt : Fmt) (op : FpCmp) (rd : XReg) (rs1 rs2 : FReg) (s : State) :
    Host.Outcome State Fault Refusal :=
  let r := fpCompare fmt op (s.readFmt fmt rs1) (s.readFmt fmt rs2)
  .next ((s.writeX rd (if r.1 then 1 else 0)).raiseFlags r.2).advance

/-- Classification: the mask to `x[rd]`, no flag (R314). -/
def fpClassX (fmt : Fmt) (rd : XReg) (rs1 : FReg) (s : State) : Host.Outcome State Fault Refusal :=
  .next (s.retireX rd ((fpClass fmt (s.readFmt fmt rs1)).setWidth 64))

/-! ## The instructions -/

/-- FCVT.W.S (R316): S to signed word. -/
def execFcvtWS (rd : XReg) (rs1 : FReg) (rm : RmField) (s : State) : Host.Outcome State Fault Refusal :=
  fpToX .s tyW rd rs1 rm s

/-- FCVT.WU.S (R317): S to unsigned word. -/
def execFcvtWuS (rd : XReg) (rs1 : FReg) (rm : RmField) (s : State) : Host.Outcome State Fault Refusal :=
  fpToX .s tyWU rd rs1 rm s

/-- FCVT.L.S (R318): S to signed doubleword; RV64 only. -/
def execFcvtLS (rd : XReg) (rs1 : FReg) (rm : RmField) (s : State) : Host.Outcome State Fault Refusal :=
  s.rv64Only (fpToX .s tyL rd rs1 rm s)

/-- FCVT.LU.S (R319): S to unsigned doubleword; RV64 only. -/
def execFcvtLuS (rd : XReg) (rs1 : FReg) (rm : RmField) (s : State) : Host.Outcome State Fault Refusal :=
  s.rv64Only (fpToX .s tyLU rd rs1 rm s)

/-- FCVT.S.W (R320): signed word to S. -/
def execFcvtSW (rd : FReg) (rs1 : XReg) (rm : RmField) (s : State) : Host.Outcome State Fault Refusal :=
  xToFp .s tyW rd rs1 rm s

/-- FCVT.S.WU (R321): unsigned word to S. -/
def execFcvtSWu (rd : FReg) (rs1 : XReg) (rm : RmField) (s : State) : Host.Outcome State Fault Refusal :=
  xToFp .s tyWU rd rs1 rm s

/-- FCVT.S.L (R322): signed doubleword to S; RV64 only. -/
def execFcvtSL (rd : FReg) (rs1 : XReg) (rm : RmField) (s : State) : Host.Outcome State Fault Refusal :=
  s.rv64Only (xToFp .s tyL rd rs1 rm s)

/-- FCVT.S.LU (R323): unsigned doubleword to S; RV64 only. -/
def execFcvtSLu (rd : FReg) (rs1 : XReg) (rm : RmField) (s : State) : Host.Outcome State Fault Refusal :=
  s.rv64Only (xToFp .s tyLU rd rs1 rm s)

/-- FEQ.S (R324): equal. -/
def execFeqS (rd : XReg) (rs1 rs2 : FReg) (s : State) : Host.Outcome State Fault Refusal :=
  fpCompareX .s .eq rd rs1 rs2 s

/-- FLT.S (R325): less than. -/
def execFltS (rd : XReg) (rs1 rs2 : FReg) (s : State) : Host.Outcome State Fault Refusal :=
  fpCompareX .s .lt rd rs1 rs2 s

/-- FLE.S (R326): less than or equal. -/
def execFleS (rd : XReg) (rs1 rs2 : FReg) (s : State) : Host.Outcome State Fault Refusal :=
  fpCompareX .s .le rd rs1 rs2 s

/-- FCLASS.S (R327): the class mask. -/
def execFclassS (rd : XReg) (rs1 : FReg) (s : State) : Host.Outcome State Fault Refusal :=
  fpClassX .s rd rs1 s

/-- FCVT.W.D (R328): D to signed word. -/
def execFcvtWD (rd : XReg) (rs1 : FReg) (rm : RmField) (s : State) : Host.Outcome State Fault Refusal :=
  fpToX .d tyW rd rs1 rm s

/-- FCVT.WU.D (R329): D to unsigned word. -/
def execFcvtWuD (rd : XReg) (rs1 : FReg) (rm : RmField) (s : State) : Host.Outcome State Fault Refusal :=
  fpToX .d tyWU rd rs1 rm s

/-- FCVT.L.D (R330): D to signed doubleword; RV64 only. -/
def execFcvtLD (rd : XReg) (rs1 : FReg) (rm : RmField) (s : State) : Host.Outcome State Fault Refusal :=
  s.rv64Only (fpToX .d tyL rd rs1 rm s)

/-- FCVT.LU.D (R331): D to unsigned doubleword; RV64 only. -/
def execFcvtLuD (rd : XReg) (rs1 : FReg) (rm : RmField) (s : State) : Host.Outcome State Fault Refusal :=
  s.rv64Only (fpToX .d tyLU rd rs1 rm s)

/-- FCVT.D.W (R332): signed word to D. -/
def execFcvtDW (rd : FReg) (rs1 : XReg) (rm : RmField) (s : State) : Host.Outcome State Fault Refusal :=
  xToFp .d tyW rd rs1 rm s

/-- FCVT.D.WU (R333): unsigned word to D. -/
def execFcvtDWu (rd : FReg) (rs1 : XReg) (rm : RmField) (s : State) : Host.Outcome State Fault Refusal :=
  xToFp .d tyWU rd rs1 rm s

/-- FCVT.D.L (R334): signed doubleword to D; RV64 only. -/
def execFcvtDL (rd : FReg) (rs1 : XReg) (rm : RmField) (s : State) : Host.Outcome State Fault Refusal :=
  s.rv64Only (xToFp .d tyL rd rs1 rm s)

/-- FCVT.D.LU (R335): unsigned doubleword to D; RV64 only. -/
def execFcvtDLu (rd : FReg) (rs1 : XReg) (rm : RmField) (s : State) : Host.Outcome State Fault Refusal :=
  s.rv64Only (xToFp .d tyLU rd rs1 rm s)

/-- FEQ.D (R336): equal. -/
def execFeqD (rd : XReg) (rs1 rs2 : FReg) (s : State) : Host.Outcome State Fault Refusal :=
  fpCompareX .d .eq rd rs1 rs2 s

/-- FLT.D (R337): less than. -/
def execFltD (rd : XReg) (rs1 rs2 : FReg) (s : State) : Host.Outcome State Fault Refusal :=
  fpCompareX .d .lt rd rs1 rs2 s

/-- FLE.D (R338): less than or equal. -/
def execFleD (rd : XReg) (rs1 rs2 : FReg) (s : State) : Host.Outcome State Fault Refusal :=
  fpCompareX .d .le rd rs1 rs2 s

/-- FCLASS.D (R339): the class mask. -/
def execFclassD (rd : XReg) (rs1 : FReg) (s : State) : Host.Outcome State Fault Refusal :=
  fpClassX .d rd rs1 s

/-- FMV.X.W (R340): the low word of f[rs1] as it is, sign-extended, no box check. -/
def execFmvXW (rd : XReg) (rs1 : FReg) (s : State) : Host.Outcome State Fault Refusal :=
  .next (s.retireX rd (((s.readF rs1).setWidth 32).signExtend 64))

/-- FMV.W.X (R341): the low word of x[rs1], NaN-boxed. -/
def execFmvWX (rd : FReg) (rs1 : XReg) (s : State) : Host.Outcome State Fault Refusal :=
  .next ((s.writeS rd ((s.readX rs1).setWidth 32)).advance)

/-- FMV.X.D (R342): all 64 bits; RV64 only. -/
def execFmvXD (rd : XReg) (rs1 : FReg) (s : State) : Host.Outcome State Fault Refusal :=
  s.rv64Only (.next (s.retireX rd (s.readF rs1)))

/-- FMV.D.X (R343): all 64 bits; RV64 only. -/
def execFmvDX (rd : FReg) (rs1 : XReg) (s : State) : Host.Outcome State Fault Refusal :=
  s.rv64Only (.next ((s.writeF rd (s.readX rs1)).advance))

/-- FCVT.S.D (R344): narrow D to S. -/
def execFcvtSD (rd rs1 : FReg) (rm : RmField) (s : State) : Host.Outcome State Fault Refusal :=
  fpToFpInstr .s .d rd rs1 rm s

/-- FCVT.D.S (R345): widen S to D. -/
def execFcvtDS (rd rs1 : FReg) (rm : RmField) (s : State) : Host.Outcome State Fault Refusal :=
  fpToFpInstr .d .s rd rs1 rm s

end Sys2Proof.Machine
end

