-- ==== Sys2Proof/Machine/MulDiv.lean ====
section
/-! DEFINITION. Unit 2, multiply and divide (spec/42_muldiv.md R190 to R209). Division by zero and signed overflow have
their fixed results; nothing traps and no flag is touched. -/

namespace Sys2Proof.Machine

/-! ## The operations -/

/-- The low half of the product (R193). -/
def opMul : IntOp := fun _ a b => a * b
/-- The high half of the signed by signed product, floor(p / 2^w) (R194). -/
def opMulh : IntOp := fun w a b => BitVec.ofInt w (a.toInt * b.toInt / (2 ^ w : Nat))
/-- The high half of the product of `a` signed and `b` unsigned (R195). -/
def opMulhsu : IntOp := fun w a b => BitVec.ofInt w (a.toInt * (b.toNat : Int) / (2 ^ w : Nat))
/-- The high half of the unsigned by unsigned product (R196). -/
def opMulhu : IntOp := fun w a b => BitVec.ofNat w (a.toNat * b.toNat / 2 ^ w)
/-- Signed quotient toward zero; by zero all ones; the overflow case the dividend (R192, R200). -/
def opDiv : IntOp := fun w a b =>
  if b = 0#w then BitVec.allOnes w
  else if a = BitVec.intMin w ∧ b = BitVec.allOnes w then BitVec.intMin w
  else BitVec.ofInt w (a.toInt.tdiv b.toInt)
/-- Unsigned quotient; by zero all ones (R201). -/
def opDivu : IntOp := fun w a b => if b = 0#w then BitVec.allOnes w else BitVec.ofNat w (a.toNat / b.toNat)
/-- Signed remainder with the sign of the dividend; by zero the dividend; the overflow case 0 (R192, R202). -/
def opRem : IntOp := fun w a b =>
  if b = 0#w then a
  else if a = BitVec.intMin w ∧ b = BitVec.allOnes w then 0#w
  else BitVec.ofInt w (a.toInt - b.toInt * a.toInt.tdiv b.toInt)
/-- Unsigned remainder; by zero the dividend (R203). -/
def opRemu : IntOp := fun w a b => if b = 0#w then a else BitVec.ofNat w (a.toNat % b.toNat)

/-! ## The instructions -/

/-- MUL (R193): low half of the product. -/
def execMul (rd rs1 rs2 : XReg) (s : State) : Host.Outcome State Fault Refusal :=
  aluReg opMul rd rs1 rs2 s

/-- MULH (R194): high half, signed by signed. -/
def execMulh (rd rs1 rs2 : XReg) (s : State) : Host.Outcome State Fault Refusal :=
  aluReg opMulh rd rs1 rs2 s

/-- MULHSU (R195): high half, rs1 signed by rs2 unsigned. -/
def execMulhsu (rd rs1 rs2 : XReg) (s : State) : Host.Outcome State Fault Refusal :=
  aluReg opMulhsu rd rs1 rs2 s

/-- MULHU (R196): high half, unsigned by unsigned. -/
def execMulhu (rd rs1 rs2 : XReg) (s : State) : Host.Outcome State Fault Refusal :=
  aluReg opMulhu rd rs1 rs2 s

/-- MULW (R197): product of the low words. -/
def execMulw (rd rs1 rs2 : XReg) (s : State) : Host.Outcome State Fault Refusal :=
  aluRegW opMul rd rs1 rs2 s

/-- DIV (R200): signed quotient. -/
def execDiv (rd rs1 rs2 : XReg) (s : State) : Host.Outcome State Fault Refusal :=
  aluReg opDiv rd rs1 rs2 s

/-- DIVU (R201): unsigned quotient. -/
def execDivu (rd rs1 rs2 : XReg) (s : State) : Host.Outcome State Fault Refusal :=
  aluReg opDivu rd rs1 rs2 s

/-- REM (R202): signed remainder. -/
def execRem (rd rs1 rs2 : XReg) (s : State) : Host.Outcome State Fault Refusal :=
  aluReg opRem rd rs1 rs2 s

/-- REMU (R203): unsigned remainder. -/
def execRemu (rd rs1 rs2 : XReg) (s : State) : Host.Outcome State Fault Refusal :=
  aluReg opRemu rd rs1 rs2 s

/-- DIVW (R204): signed quotient of the low words. -/
def execDivw (rd rs1 rs2 : XReg) (s : State) : Host.Outcome State Fault Refusal :=
  aluRegW opDiv rd rs1 rs2 s

/-- DIVUW (R205): unsigned quotient of the low words. -/
def execDivuw (rd rs1 rs2 : XReg) (s : State) : Host.Outcome State Fault Refusal :=
  aluRegW opDivu rd rs1 rs2 s

/-- REMW (R206): signed remainder of the low words. -/
def execRemw (rd rs1 rs2 : XReg) (s : State) : Host.Outcome State Fault Refusal :=
  aluRegW opRem rd rs1 rs2 s

/-- REMUW (R207): unsigned remainder of the low words. -/
def execRemuw (rd rs1 rs2 : XReg) (s : State) : Host.Outcome State Fault Refusal :=
  aluRegW opRemu rd rs1 rs2 s

end Sys2Proof.Machine
end

