-- ==== Sys2Proof/Machine/Dispatch.lean ====
section
/-! DEFINITION. exec: one arm per constructor of Instr, each one direct call of that instruction's meaning. -/

namespace Sys2Proof.Machine

/-- The meaning of one instruction in one state. -/
def exec (i : Instr) (s : State) : Host.Outcome State Fault Refusal :=
  match i with
  -- Integer ALU, register-register (spec/40_integer_alu.md)
  | .add rd rs1 rs2 => Sys2Proof.Machine.execAdd rd rs1 rs2 s
  | .sub rd rs1 rs2 => Sys2Proof.Machine.execSub rd rs1 rs2 s
  | .sll rd rs1 rs2 => Sys2Proof.Machine.execSll rd rs1 rs2 s
  | .slt rd rs1 rs2 => Sys2Proof.Machine.execSlt rd rs1 rs2 s
  | .sltu rd rs1 rs2 => Sys2Proof.Machine.execSltu rd rs1 rs2 s
  | .xor rd rs1 rs2 => Sys2Proof.Machine.execXor rd rs1 rs2 s
  | .srl rd rs1 rs2 => Sys2Proof.Machine.execSrl rd rs1 rs2 s
  | .sra rd rs1 rs2 => Sys2Proof.Machine.execSra rd rs1 rs2 s
  | .or rd rs1 rs2 => Sys2Proof.Machine.execOr rd rs1 rs2 s
  | .and rd rs1 rs2 => Sys2Proof.Machine.execAnd rd rs1 rs2 s
  -- Integer ALU, register-immediate
  | .addi rd rs1 imm => Sys2Proof.Machine.execAddi rd rs1 imm s
  | .slti rd rs1 imm => Sys2Proof.Machine.execSlti rd rs1 imm s
  | .sltiu rd rs1 imm => Sys2Proof.Machine.execSltiu rd rs1 imm s
  | .xori rd rs1 imm => Sys2Proof.Machine.execXori rd rs1 imm s
  | .ori rd rs1 imm => Sys2Proof.Machine.execOri rd rs1 imm s
  | .andi rd rs1 imm => Sys2Proof.Machine.execAndi rd rs1 imm s
  | .slli rd rs1 shamt => Sys2Proof.Machine.execSlli rd rs1 shamt s
  | .srli rd rs1 shamt => Sys2Proof.Machine.execSrli rd rs1 shamt s
  | .srai rd rs1 shamt => Sys2Proof.Machine.execSrai rd rs1 shamt s
  -- Integer ALU, W forms (RV64 only)
  | .addw rd rs1 rs2 => Sys2Proof.Machine.execAddw rd rs1 rs2 s
  | .subw rd rs1 rs2 => Sys2Proof.Machine.execSubw rd rs1 rs2 s
  | .sllw rd rs1 rs2 => Sys2Proof.Machine.execSllw rd rs1 rs2 s
  | .srlw rd rs1 rs2 => Sys2Proof.Machine.execSrlw rd rs1 rs2 s
  | .sraw rd rs1 rs2 => Sys2Proof.Machine.execSraw rd rs1 rs2 s
  | .addiw rd rs1 imm => Sys2Proof.Machine.execAddiw rd rs1 imm s
  | .slliw rd rs1 shamt => Sys2Proof.Machine.execSlliw rd rs1 shamt s
  | .srliw rd rs1 shamt => Sys2Proof.Machine.execSrliw rd rs1 shamt s
  | .sraiw rd rs1 shamt => Sys2Proof.Machine.execSraiw rd rs1 shamt s
  -- Loads and stores (spec/41_load_store.md)
  | .lb rd rs1 imm => Sys2Proof.Machine.execLb rd rs1 imm s
  | .lh rd rs1 imm => Sys2Proof.Machine.execLh rd rs1 imm s
  | .lw rd rs1 imm => Sys2Proof.Machine.execLw rd rs1 imm s
  | .ld rd rs1 imm => Sys2Proof.Machine.execLd rd rs1 imm s
  | .lbu rd rs1 imm => Sys2Proof.Machine.execLbu rd rs1 imm s
  | .lhu rd rs1 imm => Sys2Proof.Machine.execLhu rd rs1 imm s
  | .lwu rd rs1 imm => Sys2Proof.Machine.execLwu rd rs1 imm s
  | .sb rs1 rs2 imm => Sys2Proof.Machine.execSb rs1 rs2 imm s
  | .sh rs1 rs2 imm => Sys2Proof.Machine.execSh rs1 rs2 imm s
  | .sw rs1 rs2 imm => Sys2Proof.Machine.execSw rs1 rs2 imm s
  | .sd rs1 rs2 imm => Sys2Proof.Machine.execSd rs1 rs2 imm s
  -- Multiply and divide (spec/42_muldiv.md)
  | .mul rd rs1 rs2 => Sys2Proof.Machine.execMul rd rs1 rs2 s
  | .mulh rd rs1 rs2 => Sys2Proof.Machine.execMulh rd rs1 rs2 s
  | .mulhsu rd rs1 rs2 => Sys2Proof.Machine.execMulhsu rd rs1 rs2 s
  | .mulhu rd rs1 rs2 => Sys2Proof.Machine.execMulhu rd rs1 rs2 s
  | .mulw rd rs1 rs2 => Sys2Proof.Machine.execMulw rd rs1 rs2 s
  | .div rd rs1 rs2 => Sys2Proof.Machine.execDiv rd rs1 rs2 s
  | .divu rd rs1 rs2 => Sys2Proof.Machine.execDivu rd rs1 rs2 s
  | .rem rd rs1 rs2 => Sys2Proof.Machine.execRem rd rs1 rs2 s
  | .remu rd rs1 rs2 => Sys2Proof.Machine.execRemu rd rs1 rs2 s
  | .divw rd rs1 rs2 => Sys2Proof.Machine.execDivw rd rs1 rs2 s
  | .divuw rd rs1 rs2 => Sys2Proof.Machine.execDivuw rd rs1 rs2 s
  | .remw rd rs1 rs2 => Sys2Proof.Machine.execRemw rd rs1 rs2 s
  | .remuw rd rs1 rs2 => Sys2Proof.Machine.execRemuw rd rs1 rs2 s
  -- Atomics, .W (spec/43_atomic.md)
  | .amoswapW _ _ rd rs1 rs2 => Sys2Proof.Machine.execAmoswapW rd rs1 rs2 s
  | .amoaddW _ _ rd rs1 rs2 => Sys2Proof.Machine.execAmoaddW rd rs1 rs2 s
  | .amoxorW _ _ rd rs1 rs2 => Sys2Proof.Machine.execAmoxorW rd rs1 rs2 s
  | .amoandW _ _ rd rs1 rs2 => Sys2Proof.Machine.execAmoandW rd rs1 rs2 s
  | .amoorW _ _ rd rs1 rs2 => Sys2Proof.Machine.execAmoorW rd rs1 rs2 s
  | .amominW _ _ rd rs1 rs2 => Sys2Proof.Machine.execAmominW rd rs1 rs2 s
  | .amomaxW _ _ rd rs1 rs2 => Sys2Proof.Machine.execAmomaxW rd rs1 rs2 s
  | .amominuW _ _ rd rs1 rs2 => Sys2Proof.Machine.execAmominuW rd rs1 rs2 s
  | .amomaxuW _ _ rd rs1 rs2 => Sys2Proof.Machine.execAmomaxuW rd rs1 rs2 s
  -- Atomics, .D (RV64 only)
  | .amoswapD _ _ rd rs1 rs2 => Sys2Proof.Machine.execAmoswapD rd rs1 rs2 s
  | .amoaddD _ _ rd rs1 rs2 => Sys2Proof.Machine.execAmoaddD rd rs1 rs2 s
  | .amoxorD _ _ rd rs1 rs2 => Sys2Proof.Machine.execAmoxorD rd rs1 rs2 s
  | .amoandD _ _ rd rs1 rs2 => Sys2Proof.Machine.execAmoandD rd rs1 rs2 s
  | .amoorD _ _ rd rs1 rs2 => Sys2Proof.Machine.execAmoorD rd rs1 rs2 s
  | .amominD _ _ rd rs1 rs2 => Sys2Proof.Machine.execAmominD rd rs1 rs2 s
  | .amomaxD _ _ rd rs1 rs2 => Sys2Proof.Machine.execAmomaxD rd rs1 rs2 s
  | .amominuD _ _ rd rs1 rs2 => Sys2Proof.Machine.execAmominuD rd rs1 rs2 s
  | .amomaxuD _ _ rd rs1 rs2 => Sys2Proof.Machine.execAmomaxuD rd rs1 rs2 s
  -- Load-reserved and store-conditional
  | .lrW _ _ rd rs1 => Sys2Proof.Machine.execLrW rd rs1 s
  | .lrD _ _ rd rs1 => Sys2Proof.Machine.execLrD rd rs1 s
  | .scW _ _ rd rs1 rs2 => Sys2Proof.Machine.execScW rd rs1 rs2 s
  | .scD _ _ rd rs1 rs2 => Sys2Proof.Machine.execScD rd rs1 rs2 s
  -- Floating-point arithmetic, S (spec/44_fp_arith.md)
  | .faddS rd rs1 rs2 rm => Sys2Proof.Machine.execFaddS rd rs1 rs2 rm s
  | .fsubS rd rs1 rs2 rm => Sys2Proof.Machine.execFsubS rd rs1 rs2 rm s
  | .fmulS rd rs1 rs2 rm => Sys2Proof.Machine.execFmulS rd rs1 rs2 rm s
  | .fdivS rd rs1 rs2 rm => Sys2Proof.Machine.execFdivS rd rs1 rs2 rm s
  | .fsqrtS rd rs1 rm => Sys2Proof.Machine.execFsqrtS rd rs1 rm s
  | .fmaddS rd rs1 rs2 rs3 rm => Sys2Proof.Machine.execFmaddS rd rs1 rs2 rs3 rm s
  | .fmsubS rd rs1 rs2 rs3 rm => Sys2Proof.Machine.execFmsubS rd rs1 rs2 rs3 rm s
  | .fnmsubS rd rs1 rs2 rs3 rm => Sys2Proof.Machine.execFnmsubS rd rs1 rs2 rs3 rm s
  | .fnmaddS rd rs1 rs2 rs3 rm => Sys2Proof.Machine.execFnmaddS rd rs1 rs2 rs3 rm s
  | .fsgnjS rd rs1 rs2 => Sys2Proof.Machine.execFsgnjS rd rs1 rs2 s
  | .fsgnjnS rd rs1 rs2 => Sys2Proof.Machine.execFsgnjnS rd rs1 rs2 s
  | .fsgnjxS rd rs1 rs2 => Sys2Proof.Machine.execFsgnjxS rd rs1 rs2 s
  | .fminS rd rs1 rs2 => Sys2Proof.Machine.execFminS rd rs1 rs2 s
  | .fmaxS rd rs1 rs2 => Sys2Proof.Machine.execFmaxS rd rs1 rs2 s
  -- Floating-point arithmetic, D
  | .faddD rd rs1 rs2 rm => Sys2Proof.Machine.execFaddD rd rs1 rs2 rm s
  | .fsubD rd rs1 rs2 rm => Sys2Proof.Machine.execFsubD rd rs1 rs2 rm s
  | .fmulD rd rs1 rs2 rm => Sys2Proof.Machine.execFmulD rd rs1 rs2 rm s
  | .fdivD rd rs1 rs2 rm => Sys2Proof.Machine.execFdivD rd rs1 rs2 rm s
  | .fsqrtD rd rs1 rm => Sys2Proof.Machine.execFsqrtD rd rs1 rm s
  | .fmaddD rd rs1 rs2 rs3 rm => Sys2Proof.Machine.execFmaddD rd rs1 rs2 rs3 rm s
  | .fmsubD rd rs1 rs2 rs3 rm => Sys2Proof.Machine.execFmsubD rd rs1 rs2 rs3 rm s
  | .fnmsubD rd rs1 rs2 rs3 rm => Sys2Proof.Machine.execFnmsubD rd rs1 rs2 rs3 rm s
  | .fnmaddD rd rs1 rs2 rs3 rm => Sys2Proof.Machine.execFnmaddD rd rs1 rs2 rs3 rm s
  | .fsgnjD rd rs1 rs2 => Sys2Proof.Machine.execFsgnjD rd rs1 rs2 s
  | .fsgnjnD rd rs1 rs2 => Sys2Proof.Machine.execFsgnjnD rd rs1 rs2 s
  | .fsgnjxD rd rs1 rs2 => Sys2Proof.Machine.execFsgnjxD rd rs1 rs2 s
  | .fminD rd rs1 rs2 => Sys2Proof.Machine.execFminD rd rs1 rs2 s
  | .fmaxD rd rs1 rs2 => Sys2Proof.Machine.execFmaxD rd rs1 rs2 s
  -- Conversions, comparisons, classification and moves (spec/45_fp_convert_compare.md)
  | .fcvtWS rd rs1 rm => Sys2Proof.Machine.execFcvtWS rd rs1 rm s
  | .fcvtWuS rd rs1 rm => Sys2Proof.Machine.execFcvtWuS rd rs1 rm s
  | .fcvtLS rd rs1 rm => Sys2Proof.Machine.execFcvtLS rd rs1 rm s
  | .fcvtLuS rd rs1 rm => Sys2Proof.Machine.execFcvtLuS rd rs1 rm s
  | .fcvtSW rd rs1 rm => Sys2Proof.Machine.execFcvtSW rd rs1 rm s
  | .fcvtSWu rd rs1 rm => Sys2Proof.Machine.execFcvtSWu rd rs1 rm s
  | .fcvtSL rd rs1 rm => Sys2Proof.Machine.execFcvtSL rd rs1 rm s
  | .fcvtSLu rd rs1 rm => Sys2Proof.Machine.execFcvtSLu rd rs1 rm s
  | .feqS rd rs1 rs2 => Sys2Proof.Machine.execFeqS rd rs1 rs2 s
  | .fltS rd rs1 rs2 => Sys2Proof.Machine.execFltS rd rs1 rs2 s
  | .fleS rd rs1 rs2 => Sys2Proof.Machine.execFleS rd rs1 rs2 s
  | .fclassS rd rs1 => Sys2Proof.Machine.execFclassS rd rs1 s
  | .fcvtWD rd rs1 rm => Sys2Proof.Machine.execFcvtWD rd rs1 rm s
  | .fcvtWuD rd rs1 rm => Sys2Proof.Machine.execFcvtWuD rd rs1 rm s
  | .fcvtLD rd rs1 rm => Sys2Proof.Machine.execFcvtLD rd rs1 rm s
  | .fcvtLuD rd rs1 rm => Sys2Proof.Machine.execFcvtLuD rd rs1 rm s
  | .fcvtDW rd rs1 rm => Sys2Proof.Machine.execFcvtDW rd rs1 rm s
  | .fcvtDWu rd rs1 rm => Sys2Proof.Machine.execFcvtDWu rd rs1 rm s
  | .fcvtDL rd rs1 rm => Sys2Proof.Machine.execFcvtDL rd rs1 rm s
  | .fcvtDLu rd rs1 rm => Sys2Proof.Machine.execFcvtDLu rd rs1 rm s
  | .feqD rd rs1 rs2 => Sys2Proof.Machine.execFeqD rd rs1 rs2 s
  | .fltD rd rs1 rs2 => Sys2Proof.Machine.execFltD rd rs1 rs2 s
  | .fleD rd rs1 rs2 => Sys2Proof.Machine.execFleD rd rs1 rs2 s
  | .fclassD rd rs1 => Sys2Proof.Machine.execFclassD rd rs1 s
  | .fmvXW rd rs1 => Sys2Proof.Machine.execFmvXW rd rs1 s
  | .fmvWX rd rs1 => Sys2Proof.Machine.execFmvWX rd rs1 s
  | .fmvXD rd rs1 => Sys2Proof.Machine.execFmvXD rd rs1 s
  | .fmvDX rd rs1 => Sys2Proof.Machine.execFmvDX rd rs1 s
  | .fcvtSD rd rs1 rm => Sys2Proof.Machine.execFcvtSD rd rs1 rm s
  | .fcvtDS rd rs1 rm => Sys2Proof.Machine.execFcvtDS rd rs1 rm s
  -- Accessors of fflags, frm, fcsr (spec/46_fcsr_access.md)
  | .frcsr rd => Sys2Proof.Machine.execFrcsr rd s
  | .frrm rd => Sys2Proof.Machine.execFrrm rd s
  | .frflags rd => Sys2Proof.Machine.execFrflags rd s
  | .fsflags rd rs1 => Sys2Proof.Machine.execFsflags rd rs1 s
  | .fsrm rd rs1 => Sys2Proof.Machine.execFsrm rd rs1 s
  | .fscsr rd rs1 => Sys2Proof.Machine.execFscsr rd rs1 s

end Sys2Proof.Machine
end

