-- ==== Sys2Proof/WellFormed.lean ====
section
/-! DEFINITION. Which instructions exist at an XLEN with their fields in range (spec/30_encoding.md R92, R94;
spec/44_fp_arith.md R265; spec/60_exceptions.md R402): the checks decoding makes after a row of the table has
matched. -/

namespace Sys2Proof

/-- The rounding-mode field of an instruction that has one (R88, R265): FADD, FSUB, FMUL, FDIV, FSQRT, the four fused
forms and every FCVT. -/
def Instr.rmField : Instr → Option RmField
  | .faddS _ _ _ rm | .fsubS _ _ _ rm | .fmulS _ _ _ rm | .fdivS _ _ _ rm | .fsqrtS _ _ rm | .fmaddS _ _ _ _ rm
  | .fmsubS _ _ _ _ rm | .fnmsubS _ _ _ _ rm | .fnmaddS _ _ _ _ rm | .faddD _ _ _ rm | .fsubD _ _ _ rm
  | .fmulD _ _ _ rm | .fdivD _ _ _ rm | .fsqrtD _ _ rm | .fmaddD _ _ _ _ rm | .fmsubD _ _ _ _ rm
  | .fnmsubD _ _ _ _ rm | .fnmaddD _ _ _ _ rm | .fcvtWS _ _ rm | .fcvtWuS _ _ rm | .fcvtLS _ _ rm
  | .fcvtLuS _ _ rm | .fcvtSW _ _ rm | .fcvtSWu _ _ rm | .fcvtSL _ _ rm | .fcvtSLu _ _ rm | .fcvtWD _ _ rm
  | .fcvtWuD _ _ rm | .fcvtLD _ _ rm | .fcvtLuD _ _ rm | .fcvtDW _ _ rm | .fcvtDWu _ _ rm | .fcvtDL _ _ rm
  | .fcvtDLu _ _ rm | .fcvtSD _ _ rm | .fcvtDS _ _ rm => some rm
  | .add _ _ _ | .sub _ _ _ | .sll _ _ _ | .slt _ _ _ | .sltu _ _ _ | .xor _ _ _ | .srl _ _ _ | .sra _ _ _
  | .or _ _ _ | .and _ _ _ | .addi _ _ _ | .slti _ _ _ | .sltiu _ _ _ | .xori _ _ _ | .ori _ _ _ | .andi _ _ _
  | .slli _ _ _ | .srli _ _ _ | .srai _ _ _ | .addw _ _ _ | .subw _ _ _ | .sllw _ _ _ | .srlw _ _ _
  | .sraw _ _ _ | .addiw _ _ _ | .slliw _ _ _ | .srliw _ _ _ | .sraiw _ _ _ | .lb _ _ _ | .lh _ _ _ | .lw _ _ _
  | .ld _ _ _ | .lbu _ _ _ | .lhu _ _ _ | .lwu _ _ _ | .sb _ _ _ | .sh _ _ _ | .sw _ _ _ | .sd _ _ _
  | .mul _ _ _ | .mulh _ _ _ | .mulhsu _ _ _ | .mulhu _ _ _ | .mulw _ _ _ | .div _ _ _ | .divu _ _ _
  | .rem _ _ _ | .remu _ _ _ | .divw _ _ _ | .divuw _ _ _ | .remw _ _ _ | .remuw _ _ _ | .amoswapW _ _ _ _ _
  | .amoaddW _ _ _ _ _ | .amoxorW _ _ _ _ _ | .amoandW _ _ _ _ _ | .amoorW _ _ _ _ _ | .amominW _ _ _ _ _
  | .amomaxW _ _ _ _ _ | .amominuW _ _ _ _ _ | .amomaxuW _ _ _ _ _ | .amoswapD _ _ _ _ _ | .amoaddD _ _ _ _ _
  | .amoxorD _ _ _ _ _ | .amoandD _ _ _ _ _ | .amoorD _ _ _ _ _ | .amominD _ _ _ _ _ | .amomaxD _ _ _ _ _
  | .amominuD _ _ _ _ _ | .amomaxuD _ _ _ _ _ | .lrW _ _ _ _ | .lrD _ _ _ _ | .scW _ _ _ _ _ | .scD _ _ _ _ _
  | .fsgnjS _ _ _ | .fsgnjnS _ _ _ | .fsgnjxS _ _ _ | .fminS _ _ _ | .fmaxS _ _ _ | .fsgnjD _ _ _
  | .fsgnjnD _ _ _ | .fsgnjxD _ _ _ | .fminD _ _ _ | .fmaxD _ _ _ | .feqS _ _ _ | .fltS _ _ _ | .fleS _ _ _
  | .fclassS _ _ | .feqD _ _ _ | .fltD _ _ _ | .fleD _ _ _ | .fclassD _ _ | .fmvXW _ _ | .fmvWX _ _
  | .fmvXD _ _ | .fmvDX _ _ | .frcsr _ | .frrm _ | .frflags _ | .fsflags _ _ | .fsrm _ _ | .fscsr _ _ => none

/-- Whether the row is marked "64 only": it does not exist at XLEN = 32 (R92, R402 d). -/
def Instr.rv64Only : Instr → Bool
  | .addw _ _ _ | .subw _ _ _ | .sllw _ _ _ | .srlw _ _ _ | .sraw _ _ _ | .addiw _ _ _ | .slliw _ _ _
  | .srliw _ _ _ | .sraiw _ _ _ | .ld _ _ _ | .lwu _ _ _ | .sd _ _ _ | .mulw _ _ _ | .divw _ _ _ | .divuw _ _ _
  | .remw _ _ _ | .remuw _ _ _ | .amoswapD _ _ _ _ _ | .amoaddD _ _ _ _ _ | .amoxorD _ _ _ _ _
  | .amoandD _ _ _ _ _ | .amoorD _ _ _ _ _ | .amominD _ _ _ _ _ | .amomaxD _ _ _ _ _ | .amominuD _ _ _ _ _
  | .amomaxuD _ _ _ _ _ | .lrD _ _ _ _ | .scD _ _ _ _ _ | .fcvtLS _ _ _ | .fcvtLuS _ _ _ | .fcvtSL _ _ _
  | .fcvtSLu _ _ _ | .fcvtLD _ _ _ | .fcvtLuD _ _ _ | .fcvtDL _ _ _ | .fcvtDLu _ _ _ | .fmvXD _ _ | .fmvDX _ _ => true
  | .add _ _ _ | .sub _ _ _ | .sll _ _ _ | .slt _ _ _ | .sltu _ _ _ | .xor _ _ _ | .srl _ _ _ | .sra _ _ _
  | .or _ _ _ | .and _ _ _ | .addi _ _ _ | .slti _ _ _ | .sltiu _ _ _ | .xori _ _ _ | .ori _ _ _ | .andi _ _ _
  | .slli _ _ _ | .srli _ _ _ | .srai _ _ _ | .lb _ _ _ | .lh _ _ _ | .lw _ _ _ | .lbu _ _ _ | .lhu _ _ _
  | .sb _ _ _ | .sh _ _ _ | .sw _ _ _ | .mul _ _ _ | .mulh _ _ _ | .mulhsu _ _ _ | .mulhu _ _ _ | .div _ _ _
  | .divu _ _ _ | .rem _ _ _ | .remu _ _ _ | .amoswapW _ _ _ _ _ | .amoaddW _ _ _ _ _ | .amoxorW _ _ _ _ _
  | .amoandW _ _ _ _ _ | .amoorW _ _ _ _ _ | .amominW _ _ _ _ _ | .amomaxW _ _ _ _ _ | .amominuW _ _ _ _ _
  | .amomaxuW _ _ _ _ _ | .lrW _ _ _ _ | .scW _ _ _ _ _ | .faddS _ _ _ _ | .fsubS _ _ _ _ | .fmulS _ _ _ _
  | .fdivS _ _ _ _ | .fsqrtS _ _ _ | .fmaddS _ _ _ _ _ | .fmsubS _ _ _ _ _ | .fnmsubS _ _ _ _ _
  | .fnmaddS _ _ _ _ _ | .fsgnjS _ _ _ | .fsgnjnS _ _ _ | .fsgnjxS _ _ _ | .fminS _ _ _ | .fmaxS _ _ _
  | .faddD _ _ _ _ | .fsubD _ _ _ _ | .fmulD _ _ _ _ | .fdivD _ _ _ _ | .fsqrtD _ _ _ | .fmaddD _ _ _ _ _
  | .fmsubD _ _ _ _ _ | .fnmsubD _ _ _ _ _ | .fnmaddD _ _ _ _ _ | .fsgnjD _ _ _ | .fsgnjnD _ _ _
  | .fsgnjxD _ _ _ | .fminD _ _ _ | .fmaxD _ _ _ | .fcvtWS _ _ _ | .fcvtWuS _ _ _ | .fcvtSW _ _ _
  | .fcvtSWu _ _ _ | .feqS _ _ _ | .fltS _ _ _ | .fleS _ _ _ | .fclassS _ _ | .fcvtWD _ _ _ | .fcvtWuD _ _ _
  | .fcvtDW _ _ _ | .fcvtDWu _ _ _ | .feqD _ _ _ | .fltD _ _ _ | .fleD _ _ _ | .fclassD _ _ | .fmvXW _ _
  | .fmvWX _ _ | .fcvtSD _ _ _ | .fcvtDS _ _ _ | .frcsr _ | .frrm _ | .frflags _ | .fsflags _ _ | .fsrm _ _
  | .fscsr _ _ => false

/-- The 6-bit shift amount of SLLI, SRLI and SRAI, whose bit 5 is word bit 25 (R84). -/
def Instr.shamt6 : Instr → Option (BitVec 6)
  | .slli _ _ shamt | .srli _ _ shamt | .srai _ _ shamt => some shamt
  | .add _ _ _ | .sub _ _ _ | .sll _ _ _ | .slt _ _ _ | .sltu _ _ _ | .xor _ _ _ | .srl _ _ _ | .sra _ _ _
  | .or _ _ _ | .and _ _ _ | .addi _ _ _ | .slti _ _ _ | .sltiu _ _ _ | .xori _ _ _ | .ori _ _ _ | .andi _ _ _
  | .addw _ _ _ | .subw _ _ _ | .sllw _ _ _ | .srlw _ _ _ | .sraw _ _ _ | .addiw _ _ _ | .slliw _ _ _
  | .srliw _ _ _ | .sraiw _ _ _ | .lb _ _ _ | .lh _ _ _ | .lw _ _ _ | .ld _ _ _ | .lbu _ _ _ | .lhu _ _ _
  | .lwu _ _ _ | .sb _ _ _ | .sh _ _ _ | .sw _ _ _ | .sd _ _ _ | .mul _ _ _ | .mulh _ _ _ | .mulhsu _ _ _
  | .mulhu _ _ _ | .mulw _ _ _ | .div _ _ _ | .divu _ _ _ | .rem _ _ _ | .remu _ _ _ | .divw _ _ _
  | .divuw _ _ _ | .remw _ _ _ | .remuw _ _ _ | .amoswapW _ _ _ _ _ | .amoaddW _ _ _ _ _ | .amoxorW _ _ _ _ _
  | .amoandW _ _ _ _ _ | .amoorW _ _ _ _ _ | .amominW _ _ _ _ _ | .amomaxW _ _ _ _ _ | .amominuW _ _ _ _ _
  | .amomaxuW _ _ _ _ _ | .amoswapD _ _ _ _ _ | .amoaddD _ _ _ _ _ | .amoxorD _ _ _ _ _ | .amoandD _ _ _ _ _
  | .amoorD _ _ _ _ _ | .amominD _ _ _ _ _ | .amomaxD _ _ _ _ _ | .amominuD _ _ _ _ _ | .amomaxuD _ _ _ _ _
  | .lrW _ _ _ _ | .lrD _ _ _ _ | .scW _ _ _ _ _ | .scD _ _ _ _ _ | .faddS _ _ _ _ | .fsubS _ _ _ _
  | .fmulS _ _ _ _ | .fdivS _ _ _ _ | .fsqrtS _ _ _ | .fmaddS _ _ _ _ _ | .fmsubS _ _ _ _ _
  | .fnmsubS _ _ _ _ _ | .fnmaddS _ _ _ _ _ | .fsgnjS _ _ _ | .fsgnjnS _ _ _ | .fsgnjxS _ _ _ | .fminS _ _ _
  | .fmaxS _ _ _ | .faddD _ _ _ _ | .fsubD _ _ _ _ | .fmulD _ _ _ _ | .fdivD _ _ _ _ | .fsqrtD _ _ _
  | .fmaddD _ _ _ _ _ | .fmsubD _ _ _ _ _ | .fnmsubD _ _ _ _ _ | .fnmaddD _ _ _ _ _ | .fsgnjD _ _ _
  | .fsgnjnD _ _ _ | .fsgnjxD _ _ _ | .fminD _ _ _ | .fmaxD _ _ _ | .fcvtWS _ _ _ | .fcvtWuS _ _ _
  | .fcvtLS _ _ _ | .fcvtLuS _ _ _ | .fcvtSW _ _ _ | .fcvtSWu _ _ _ | .fcvtSL _ _ _ | .fcvtSLu _ _ _
  | .feqS _ _ _ | .fltS _ _ _ | .fleS _ _ _ | .fclassS _ _ | .fcvtWD _ _ _ | .fcvtWuD _ _ _ | .fcvtLD _ _ _
  | .fcvtLuD _ _ _ | .fcvtDW _ _ _ | .fcvtDWu _ _ _ | .fcvtDL _ _ _ | .fcvtDLu _ _ _ | .feqD _ _ _
  | .fltD _ _ _ | .fleD _ _ _ | .fclassD _ _ | .fmvXW _ _ | .fmvWX _ _ | .fmvXD _ _ | .fmvDX _ _
  | .fcvtSD _ _ _ | .fcvtDS _ _ _ | .frcsr _ | .frrm _ | .frflags _ | .fsflags _ _ | .fsrm _ _ | .fscsr _ _ => none

/-- No reserved rounding-mode selector: the field is not 101 or 110 (R94, R402 e). -/
def Instr.rmOk (i : Instr) : Bool :=
  match i.rmField with
  | some rm => rm != 5 && rm != 6
  | none => true

/-- The row exists at this XLEN (R92, R402 d). -/
def Instr.existsAt (xl : XLen) (i : Instr) : Bool :=
  match xl with
  | .rv64 => true
  | .rv32 => !i.rv64Only

/-- At XLEN = 32 the shift-immediate words have bit 25 = 0 (R84, R94). -/
def Instr.shamtOk (xl : XLen) (i : Instr) : Bool :=
  match xl, i.shamt6 with
  | .rv32, some amount => !amount.getLsbD 5
  | _, _ => true

/-- An instruction that decoding may answer at this XLEN. -/
def Instr.wellFormed (xl : XLen) (i : Instr) : Bool :=
  i.rmOk && i.existsAt xl && i.shamtOk xl

end Sys2Proof
end

