-- ==== Sys2Proof/Decode.lean ====
section
/-! DEFINITION. Decoding an instruction word (spec/30_encoding.md R81 to R94) and the encoder. A word is looked up in
the 138 rows of the opcode table by mask and match (R90); a word that matches no row, or whose row does not exist as it
stands, is refused or illegal by name (R94). -/

namespace Sys2Proof

/-! ## Fields of a word (R81 to R89) -/

/-- `rd` = bits 11:7 (R81). -/
def fRd (w : InstrWord) : BitVec 5 := w.extractLsb' 7 5
/-- `rs1` = bits 19:15 (R81). -/
def fRs1 (w : InstrWord) : BitVec 5 := w.extractLsb' 15 5
/-- `rs2` = bits 24:20 (R81). -/
def fRs2 (w : InstrWord) : BitVec 5 := w.extractLsb' 20 5
/-- `rs3` = bits 31:27 (R86). -/
def fRs3 (w : InstrWord) : BitVec 5 := w.extractLsb' 27 5
/-- `rm` = bits 14:12 (R88). -/
def fRm (w : InstrWord) : RmField := w.extractLsb' 12 3
/-- The I-format immediate field, bits 31:20 (R83). -/
def fImmI (w : InstrWord) : BitVec 12 := w.extractLsb' 20 12
/-- The S-format immediate field, bits 31:25 above bits 11:7 (R85). -/
def fImmS (w : InstrWord) : BitVec 12 := w.extractLsb' 25 7 ++ w.extractLsb' 7 5
/-- The 6-bit shift amount, bits 25:20 (R84). -/
def fShamt6 (w : InstrWord) : BitVec 6 := w.extractLsb' 20 6
/-- The 5-bit shift amount, bits 24:20 (R84). -/
def fShamt5 (w : InstrWord) : BitVec 5 := w.extractLsb' 20 5
/-- `aq` = bit 26 (R87). -/
def fAq (w : InstrWord) : Bool := w.getLsbD 26
/-- `rl` = bit 25 (R87). -/
def fRl (w : InstrWord) : Bool := w.getLsbD 25
/-- The major opcode, bits 6:0 (R81). -/
def fOpcode (w : InstrWord) : BitVec 7 := w.extractLsb' 0 7

/-! ## The opcode table (R90, R92) -/

/-- One row: a word spells the row's instruction exactly when `(w & mask) == pattern` (R90). -/
structure Row where
  mask : InstrWord
  pattern : InstrWord
  build : InstrWord → Instr

/-- Integer ALU, register-register (spec/40_integer_alu.md). -/
def rowsAlu : List Row :=
  [⟨0xFE00707F, 0x00000033, fun w => .add (fRd w) (fRs1 w) (fRs2 w)⟩,
   ⟨0xFE00707F, 0x40000033, fun w => .sub (fRd w) (fRs1 w) (fRs2 w)⟩,
   ⟨0xFE00707F, 0x00001033, fun w => .sll (fRd w) (fRs1 w) (fRs2 w)⟩,
   ⟨0xFE00707F, 0x00002033, fun w => .slt (fRd w) (fRs1 w) (fRs2 w)⟩,
   ⟨0xFE00707F, 0x00003033, fun w => .sltu (fRd w) (fRs1 w) (fRs2 w)⟩,
   ⟨0xFE00707F, 0x00004033, fun w => .xor (fRd w) (fRs1 w) (fRs2 w)⟩,
   ⟨0xFE00707F, 0x00005033, fun w => .srl (fRd w) (fRs1 w) (fRs2 w)⟩,
   ⟨0xFE00707F, 0x40005033, fun w => .sra (fRd w) (fRs1 w) (fRs2 w)⟩,
   ⟨0xFE00707F, 0x00006033, fun w => .or (fRd w) (fRs1 w) (fRs2 w)⟩,
   ⟨0xFE00707F, 0x00007033, fun w => .and (fRd w) (fRs1 w) (fRs2 w)⟩]

/-- Integer ALU, register-immediate. -/
def rowsAluImm : List Row :=
  [⟨0x0000707F, 0x00000013, fun w => .addi (fRd w) (fRs1 w) (fImmI w)⟩,
   ⟨0x0000707F, 0x00002013, fun w => .slti (fRd w) (fRs1 w) (fImmI w)⟩,
   ⟨0x0000707F, 0x00003013, fun w => .sltiu (fRd w) (fRs1 w) (fImmI w)⟩,
   ⟨0x0000707F, 0x00004013, fun w => .xori (fRd w) (fRs1 w) (fImmI w)⟩,
   ⟨0x0000707F, 0x00006013, fun w => .ori (fRd w) (fRs1 w) (fImmI w)⟩,
   ⟨0x0000707F, 0x00007013, fun w => .andi (fRd w) (fRs1 w) (fImmI w)⟩,
   ⟨0xFC00707F, 0x00001013, fun w => .slli (fRd w) (fRs1 w) (fShamt6 w)⟩,
   ⟨0xFC00707F, 0x00005013, fun w => .srli (fRd w) (fRs1 w) (fShamt6 w)⟩,
   ⟨0xFC00707F, 0x40005013, fun w => .srai (fRd w) (fRs1 w) (fShamt6 w)⟩]

/-- Integer ALU, W forms (RV64 only). -/
def rowsAluW : List Row :=
  [⟨0xFE00707F, 0x0000003B, fun w => .addw (fRd w) (fRs1 w) (fRs2 w)⟩,
   ⟨0xFE00707F, 0x4000003B, fun w => .subw (fRd w) (fRs1 w) (fRs2 w)⟩,
   ⟨0xFE00707F, 0x0000103B, fun w => .sllw (fRd w) (fRs1 w) (fRs2 w)⟩,
   ⟨0xFE00707F, 0x0000503B, fun w => .srlw (fRd w) (fRs1 w) (fRs2 w)⟩,
   ⟨0xFE00707F, 0x4000503B, fun w => .sraw (fRd w) (fRs1 w) (fRs2 w)⟩,
   ⟨0x0000707F, 0x0000001B, fun w => .addiw (fRd w) (fRs1 w) (fImmI w)⟩,
   ⟨0xFE00707F, 0x0000101B, fun w => .slliw (fRd w) (fRs1 w) (fShamt5 w)⟩,
   ⟨0xFE00707F, 0x0000501B, fun w => .srliw (fRd w) (fRs1 w) (fShamt5 w)⟩,
   ⟨0xFE00707F, 0x4000501B, fun w => .sraiw (fRd w) (fRs1 w) (fShamt5 w)⟩]

/-- Loads and stores (spec/41_load_store.md). -/
def rowsMem : List Row :=
  [⟨0x0000707F, 0x00000003, fun w => .lb (fRd w) (fRs1 w) (fImmI w)⟩,
   ⟨0x0000707F, 0x00001003, fun w => .lh (fRd w) (fRs1 w) (fImmI w)⟩,
   ⟨0x0000707F, 0x00002003, fun w => .lw (fRd w) (fRs1 w) (fImmI w)⟩,
   ⟨0x0000707F, 0x00003003, fun w => .ld (fRd w) (fRs1 w) (fImmI w)⟩,
   ⟨0x0000707F, 0x00004003, fun w => .lbu (fRd w) (fRs1 w) (fImmI w)⟩,
   ⟨0x0000707F, 0x00005003, fun w => .lhu (fRd w) (fRs1 w) (fImmI w)⟩,
   ⟨0x0000707F, 0x00006003, fun w => .lwu (fRd w) (fRs1 w) (fImmI w)⟩,
   ⟨0x0000707F, 0x00000023, fun w => .sb (fRs1 w) (fRs2 w) (fImmS w)⟩,
   ⟨0x0000707F, 0x00001023, fun w => .sh (fRs1 w) (fRs2 w) (fImmS w)⟩,
   ⟨0x0000707F, 0x00002023, fun w => .sw (fRs1 w) (fRs2 w) (fImmS w)⟩,
   ⟨0x0000707F, 0x00003023, fun w => .sd (fRs1 w) (fRs2 w) (fImmS w)⟩]

/-- Multiply and divide (spec/42_muldiv.md). -/
def rowsMulDiv : List Row :=
  [⟨0xFE00707F, 0x02000033, fun w => .mul (fRd w) (fRs1 w) (fRs2 w)⟩,
   ⟨0xFE00707F, 0x02001033, fun w => .mulh (fRd w) (fRs1 w) (fRs2 w)⟩,
   ⟨0xFE00707F, 0x02002033, fun w => .mulhsu (fRd w) (fRs1 w) (fRs2 w)⟩,
   ⟨0xFE00707F, 0x02003033, fun w => .mulhu (fRd w) (fRs1 w) (fRs2 w)⟩,
   ⟨0xFE00707F, 0x0200003B, fun w => .mulw (fRd w) (fRs1 w) (fRs2 w)⟩,
   ⟨0xFE00707F, 0x02004033, fun w => .div (fRd w) (fRs1 w) (fRs2 w)⟩,
   ⟨0xFE00707F, 0x02005033, fun w => .divu (fRd w) (fRs1 w) (fRs2 w)⟩,
   ⟨0xFE00707F, 0x02006033, fun w => .rem (fRd w) (fRs1 w) (fRs2 w)⟩,
   ⟨0xFE00707F, 0x02007033, fun w => .remu (fRd w) (fRs1 w) (fRs2 w)⟩,
   ⟨0xFE00707F, 0x0200403B, fun w => .divw (fRd w) (fRs1 w) (fRs2 w)⟩,
   ⟨0xFE00707F, 0x0200503B, fun w => .divuw (fRd w) (fRs1 w) (fRs2 w)⟩,
   ⟨0xFE00707F, 0x0200603B, fun w => .remw (fRd w) (fRs1 w) (fRs2 w)⟩,
   ⟨0xFE00707F, 0x0200703B, fun w => .remuw (fRd w) (fRs1 w) (fRs2 w)⟩]

/-- Atomics, .W (spec/43_atomic.md). -/
def rowsAmoW : List Row :=
  [⟨0xF800707F, 0x0800202F, fun w => .amoswapW (fAq w) (fRl w) (fRd w) (fRs1 w) (fRs2 w)⟩,
   ⟨0xF800707F, 0x0000202F, fun w => .amoaddW (fAq w) (fRl w) (fRd w) (fRs1 w) (fRs2 w)⟩,
   ⟨0xF800707F, 0x2000202F, fun w => .amoxorW (fAq w) (fRl w) (fRd w) (fRs1 w) (fRs2 w)⟩,
   ⟨0xF800707F, 0x6000202F, fun w => .amoandW (fAq w) (fRl w) (fRd w) (fRs1 w) (fRs2 w)⟩,
   ⟨0xF800707F, 0x4000202F, fun w => .amoorW (fAq w) (fRl w) (fRd w) (fRs1 w) (fRs2 w)⟩,
   ⟨0xF800707F, 0x8000202F, fun w => .amominW (fAq w) (fRl w) (fRd w) (fRs1 w) (fRs2 w)⟩,
   ⟨0xF800707F, 0xA000202F, fun w => .amomaxW (fAq w) (fRl w) (fRd w) (fRs1 w) (fRs2 w)⟩,
   ⟨0xF800707F, 0xC000202F, fun w => .amominuW (fAq w) (fRl w) (fRd w) (fRs1 w) (fRs2 w)⟩,
   ⟨0xF800707F, 0xE000202F, fun w => .amomaxuW (fAq w) (fRl w) (fRd w) (fRs1 w) (fRs2 w)⟩]

/-- Atomics, .D (RV64 only). -/
def rowsAmoD : List Row :=
  [⟨0xF800707F, 0x0800302F, fun w => .amoswapD (fAq w) (fRl w) (fRd w) (fRs1 w) (fRs2 w)⟩,
   ⟨0xF800707F, 0x0000302F, fun w => .amoaddD (fAq w) (fRl w) (fRd w) (fRs1 w) (fRs2 w)⟩,
   ⟨0xF800707F, 0x2000302F, fun w => .amoxorD (fAq w) (fRl w) (fRd w) (fRs1 w) (fRs2 w)⟩,
   ⟨0xF800707F, 0x6000302F, fun w => .amoandD (fAq w) (fRl w) (fRd w) (fRs1 w) (fRs2 w)⟩,
   ⟨0xF800707F, 0x4000302F, fun w => .amoorD (fAq w) (fRl w) (fRd w) (fRs1 w) (fRs2 w)⟩,
   ⟨0xF800707F, 0x8000302F, fun w => .amominD (fAq w) (fRl w) (fRd w) (fRs1 w) (fRs2 w)⟩,
   ⟨0xF800707F, 0xA000302F, fun w => .amomaxD (fAq w) (fRl w) (fRd w) (fRs1 w) (fRs2 w)⟩,
   ⟨0xF800707F, 0xC000302F, fun w => .amominuD (fAq w) (fRl w) (fRd w) (fRs1 w) (fRs2 w)⟩,
   ⟨0xF800707F, 0xE000302F, fun w => .amomaxuD (fAq w) (fRl w) (fRd w) (fRs1 w) (fRs2 w)⟩]

/-- Load-reserved and store-conditional. -/
def rowsLrSc : List Row :=
  [⟨0xF9F0707F, 0x1000202F, fun w => .lrW (fAq w) (fRl w) (fRd w) (fRs1 w)⟩,
   ⟨0xF9F0707F, 0x1000302F, fun w => .lrD (fAq w) (fRl w) (fRd w) (fRs1 w)⟩,
   ⟨0xF800707F, 0x1800202F, fun w => .scW (fAq w) (fRl w) (fRd w) (fRs1 w) (fRs2 w)⟩,
   ⟨0xF800707F, 0x1800302F, fun w => .scD (fAq w) (fRl w) (fRd w) (fRs1 w) (fRs2 w)⟩]

/-- Floating-point arithmetic, S (spec/44_fp_arith.md). -/
def rowsFpS : List Row :=
  [⟨0xFE00007F, 0x00000053, fun w => .faddS (fRd w) (fRs1 w) (fRs2 w) (fRm w)⟩,
   ⟨0xFE00007F, 0x08000053, fun w => .fsubS (fRd w) (fRs1 w) (fRs2 w) (fRm w)⟩,
   ⟨0xFE00007F, 0x10000053, fun w => .fmulS (fRd w) (fRs1 w) (fRs2 w) (fRm w)⟩,
   ⟨0xFE00007F, 0x18000053, fun w => .fdivS (fRd w) (fRs1 w) (fRs2 w) (fRm w)⟩,
   ⟨0xFFF0007F, 0x58000053, fun w => .fsqrtS (fRd w) (fRs1 w) (fRm w)⟩,
   ⟨0x0600007F, 0x00000043, fun w => .fmaddS (fRd w) (fRs1 w) (fRs2 w) (fRs3 w) (fRm w)⟩,
   ⟨0x0600007F, 0x00000047, fun w => .fmsubS (fRd w) (fRs1 w) (fRs2 w) (fRs3 w) (fRm w)⟩,
   ⟨0x0600007F, 0x0000004B, fun w => .fnmsubS (fRd w) (fRs1 w) (fRs2 w) (fRs3 w) (fRm w)⟩,
   ⟨0x0600007F, 0x0000004F, fun w => .fnmaddS (fRd w) (fRs1 w) (fRs2 w) (fRs3 w) (fRm w)⟩,
   ⟨0xFE00707F, 0x20000053, fun w => .fsgnjS (fRd w) (fRs1 w) (fRs2 w)⟩,
   ⟨0xFE00707F, 0x20001053, fun w => .fsgnjnS (fRd w) (fRs1 w) (fRs2 w)⟩,
   ⟨0xFE00707F, 0x20002053, fun w => .fsgnjxS (fRd w) (fRs1 w) (fRs2 w)⟩,
   ⟨0xFE00707F, 0x28000053, fun w => .fminS (fRd w) (fRs1 w) (fRs2 w)⟩,
   ⟨0xFE00707F, 0x28001053, fun w => .fmaxS (fRd w) (fRs1 w) (fRs2 w)⟩]

/-- Floating-point arithmetic, D. -/
def rowsFpD : List Row :=
  [⟨0xFE00007F, 0x02000053, fun w => .faddD (fRd w) (fRs1 w) (fRs2 w) (fRm w)⟩,
   ⟨0xFE00007F, 0x0A000053, fun w => .fsubD (fRd w) (fRs1 w) (fRs2 w) (fRm w)⟩,
   ⟨0xFE00007F, 0x12000053, fun w => .fmulD (fRd w) (fRs1 w) (fRs2 w) (fRm w)⟩,
   ⟨0xFE00007F, 0x1A000053, fun w => .fdivD (fRd w) (fRs1 w) (fRs2 w) (fRm w)⟩,
   ⟨0xFFF0007F, 0x5A000053, fun w => .fsqrtD (fRd w) (fRs1 w) (fRm w)⟩,
   ⟨0x0600007F, 0x02000043, fun w => .fmaddD (fRd w) (fRs1 w) (fRs2 w) (fRs3 w) (fRm w)⟩,
   ⟨0x0600007F, 0x02000047, fun w => .fmsubD (fRd w) (fRs1 w) (fRs2 w) (fRs3 w) (fRm w)⟩,
   ⟨0x0600007F, 0x0200004B, fun w => .fnmsubD (fRd w) (fRs1 w) (fRs2 w) (fRs3 w) (fRm w)⟩,
   ⟨0x0600007F, 0x0200004F, fun w => .fnmaddD (fRd w) (fRs1 w) (fRs2 w) (fRs3 w) (fRm w)⟩,
   ⟨0xFE00707F, 0x22000053, fun w => .fsgnjD (fRd w) (fRs1 w) (fRs2 w)⟩,
   ⟨0xFE00707F, 0x22001053, fun w => .fsgnjnD (fRd w) (fRs1 w) (fRs2 w)⟩,
   ⟨0xFE00707F, 0x22002053, fun w => .fsgnjxD (fRd w) (fRs1 w) (fRs2 w)⟩,
   ⟨0xFE00707F, 0x2A000053, fun w => .fminD (fRd w) (fRs1 w) (fRs2 w)⟩,
   ⟨0xFE00707F, 0x2A001053, fun w => .fmaxD (fRd w) (fRs1 w) (fRs2 w)⟩]

/-- Conversions, comparisons, classification and moves (spec/45_fp_convert_compare.md). -/
def rowsFpConv : List Row :=
  [⟨0xFFF0007F, 0xC0000053, fun w => .fcvtWS (fRd w) (fRs1 w) (fRm w)⟩,
   ⟨0xFFF0007F, 0xC0100053, fun w => .fcvtWuS (fRd w) (fRs1 w) (fRm w)⟩,
   ⟨0xFFF0007F, 0xC0200053, fun w => .fcvtLS (fRd w) (fRs1 w) (fRm w)⟩,
   ⟨0xFFF0007F, 0xC0300053, fun w => .fcvtLuS (fRd w) (fRs1 w) (fRm w)⟩,
   ⟨0xFFF0007F, 0xD0000053, fun w => .fcvtSW (fRd w) (fRs1 w) (fRm w)⟩,
   ⟨0xFFF0007F, 0xD0100053, fun w => .fcvtSWu (fRd w) (fRs1 w) (fRm w)⟩,
   ⟨0xFFF0007F, 0xD0200053, fun w => .fcvtSL (fRd w) (fRs1 w) (fRm w)⟩,
   ⟨0xFFF0007F, 0xD0300053, fun w => .fcvtSLu (fRd w) (fRs1 w) (fRm w)⟩,
   ⟨0xFE00707F, 0xA0002053, fun w => .feqS (fRd w) (fRs1 w) (fRs2 w)⟩,
   ⟨0xFE00707F, 0xA0001053, fun w => .fltS (fRd w) (fRs1 w) (fRs2 w)⟩,
   ⟨0xFE00707F, 0xA0000053, fun w => .fleS (fRd w) (fRs1 w) (fRs2 w)⟩,
   ⟨0xFFF0707F, 0xE0001053, fun w => .fclassS (fRd w) (fRs1 w)⟩,
   ⟨0xFFF0007F, 0xC2000053, fun w => .fcvtWD (fRd w) (fRs1 w) (fRm w)⟩,
   ⟨0xFFF0007F, 0xC2100053, fun w => .fcvtWuD (fRd w) (fRs1 w) (fRm w)⟩,
   ⟨0xFFF0007F, 0xC2200053, fun w => .fcvtLD (fRd w) (fRs1 w) (fRm w)⟩,
   ⟨0xFFF0007F, 0xC2300053, fun w => .fcvtLuD (fRd w) (fRs1 w) (fRm w)⟩,
   ⟨0xFFF0007F, 0xD2000053, fun w => .fcvtDW (fRd w) (fRs1 w) (fRm w)⟩,
   ⟨0xFFF0007F, 0xD2100053, fun w => .fcvtDWu (fRd w) (fRs1 w) (fRm w)⟩,
   ⟨0xFFF0007F, 0xD2200053, fun w => .fcvtDL (fRd w) (fRs1 w) (fRm w)⟩,
   ⟨0xFFF0007F, 0xD2300053, fun w => .fcvtDLu (fRd w) (fRs1 w) (fRm w)⟩,
   ⟨0xFE00707F, 0xA2002053, fun w => .feqD (fRd w) (fRs1 w) (fRs2 w)⟩,
   ⟨0xFE00707F, 0xA2001053, fun w => .fltD (fRd w) (fRs1 w) (fRs2 w)⟩,
   ⟨0xFE00707F, 0xA2000053, fun w => .fleD (fRd w) (fRs1 w) (fRs2 w)⟩,
   ⟨0xFFF0707F, 0xE2001053, fun w => .fclassD (fRd w) (fRs1 w)⟩,
   ⟨0xFFF0707F, 0xE0000053, fun w => .fmvXW (fRd w) (fRs1 w)⟩,
   ⟨0xFFF0707F, 0xF0000053, fun w => .fmvWX (fRd w) (fRs1 w)⟩,
   ⟨0xFFF0707F, 0xE2000053, fun w => .fmvXD (fRd w) (fRs1 w)⟩,
   ⟨0xFFF0707F, 0xF2000053, fun w => .fmvDX (fRd w) (fRs1 w)⟩,
   ⟨0xFFF0007F, 0x40100053, fun w => .fcvtSD (fRd w) (fRs1 w) (fRm w)⟩,
   ⟨0xFFF0007F, 0x42000053, fun w => .fcvtDS (fRd w) (fRs1 w) (fRm w)⟩]

/-- Accessors of fflags, frm, fcsr (spec/46_fcsr_access.md). -/
def rowsFcsr : List Row :=
  [⟨0xFFFFF07F, 0x00302073, fun w => .frcsr (fRd w)⟩,
   ⟨0xFFFFF07F, 0x00202073, fun w => .frrm (fRd w)⟩,
   ⟨0xFFFFF07F, 0x00102073, fun w => .frflags (fRd w)⟩,
   ⟨0xFFF0707F, 0x00101073, fun w => .fsflags (fRd w) (fRs1 w)⟩,
   ⟨0xFFF0707F, 0x00201073, fun w => .fsrm (fRd w) (fRs1 w)⟩,
   ⟨0xFFF0707F, 0x00301073, fun w => .fscsr (fRd w) (fRs1 w)⟩]

/-- The whole table, 138 rows (R92); no word matches two of them (R90). -/
def rows : List Row :=
  rowsAlu ++ rowsAluImm ++ rowsAluW ++ rowsMem ++ rowsMulDiv ++ rowsAmoW
    ++ rowsAmoD ++ rowsLrSc ++ rowsFpS ++ rowsFpD ++ rowsFpConv ++ rowsFcsr

/-- The row's test of a word (R90). -/
def Row.hits (r : Row) (w : InstrWord) : Bool := w &&& r.mask == r.pattern

/-- The instruction of the row that matches the word (R90, R93). -/
def decodeRow (w : InstrWord) : Option Instr :=
  (rows.find? (fun r => r.hits w)).map (fun r => r.build w)

/-- The major opcodes whose words are RISC-V instructions outside CORE: LUI, AUIPC, JAL, JALR, BRANCH, MISC-MEM,
LOAD-FP, STORE-FP, and SYSTEM for its words other than the six accessors (R94, R404). -/
def outsideOpcodes : List (BitVec 7) :=
  [0b0110111, 0b0010111, 0b1101111, 0b1100111, 0b1100011, 0b0001111, 0b0000111, 0b0100111, 0b1110011]

/-- Whether a word that matches no row is refused as an instruction outside CORE: bits 1:0 are not 11, or its major
opcode is one of `outsideOpcodes` (R94 rows 1 and 2, R404). -/
def outsideCore (w : InstrWord) : Bool :=
  w.extractLsb' 0 2 != 3 || outsideOpcodes.contains (fOpcode w)

/-- What decoding answers (R93). -/
inductive Decoded where
  /-- The word spells this instruction. -/
  | instr (i : Instr)
  /-- The word spells nothing: reserved, of the wrong XLEN, or no instruction (R94, R402). -/
  | illegal
  /-- The word is an instruction outside CORE (R404). -/
  | notInCore (w : InstrWord)
  deriving DecidableEq, Repr

/-- Decoding is total: no word gets a guessed meaning (R93, R94). -/
def decode (xl : XLen) (w : InstrWord) : Decoded :=
  match decodeRow w with
  | some i => if i.wellFormed xl then .instr i else .illegal
  | none => if outsideCore w then .notInCore w else .illegal

/-- The instruction decoded, at the normative XLEN = 64, from an instruction whose low `nbits` bits are those of `w`
and whose bits above are 0; every instruction is one 32-bit word (R81). -/
def decodeTableWord (nbits w : Nat) : Option Instr :=
  match decode .rv64 (BitVec.ofNat 32 (w % 2 ^ nbits)) with
  | .instr i => some i
  | .illegal => none
  | .notInCore _ => none

/-! ## The encoder (R82 to R92) -/

/-- Format R, R-rm, R-unary (R82, R88). -/
def rWord (f7 : BitVec 7) (rs2 rs1 : BitVec 5) (f3 : BitVec 3) (rd : BitVec 5) (op : BitVec 7) : InstrWord :=
  f7 ++ rs2 ++ rs1 ++ f3 ++ rd ++ op
/-- Format I and I-csr (R83, R88). -/
def iWord (imm : BitVec 12) (rs1 : BitVec 5) (f3 : BitVec 3) (rd : BitVec 5) (op : BitVec 7) : InstrWord :=
  imm ++ rs1 ++ f3 ++ rd ++ op
/-- Format I-shift6 (R84). -/
def shiftWord (f6 : BitVec 6) (sh : BitVec 6) (rs1 : BitVec 5) (f3 : BitVec 3) (rd : BitVec 5) (op : BitVec 7) :
    InstrWord :=
  f6 ++ sh ++ rs1 ++ f3 ++ rd ++ op
/-- Format S (R85). -/
def sWord (imm : BitVec 12) (rs2 rs1 : BitVec 5) (f3 : BitVec 3) (op : BitVec 7) : InstrWord :=
  imm.extractLsb' 5 7 ++ rs2 ++ rs1 ++ f3 ++ imm.extractLsb' 0 5 ++ op
/-- Format R4 (R86). -/
def r4Word (rs3 : BitVec 5) (fmt : BitVec 2) (rs2 rs1 : BitVec 5) (rm : RmField) (rd : BitVec 5) (op : BitVec 7) :
    InstrWord :=
  rs3 ++ fmt ++ rs2 ++ rs1 ++ rm ++ rd ++ op
/-- Format AMO (R87). -/
def amoWord (f5 : BitVec 5) (aq rl : Bool) (rs2 rs1 : BitVec 5) (f3 : BitVec 3) (rd : BitVec 5) : InstrWord :=
  f5 ++ BitVec.ofBool aq ++ BitVec.ofBool rl ++ rs2 ++ rs1 ++ f3 ++ rd ++ 0b0101111#7

/-- The word of an instruction (R82 to R92). -/
def encode : Instr → InstrWord
  | .add rd rs1 rs2 => rWord 0b0000000 rs2 rs1 0b000 rd 0b0110011
  | .sub rd rs1 rs2 => rWord 0b0100000 rs2 rs1 0b000 rd 0b0110011
  | .sll rd rs1 rs2 => rWord 0b0000000 rs2 rs1 0b001 rd 0b0110011
  | .slt rd rs1 rs2 => rWord 0b0000000 rs2 rs1 0b010 rd 0b0110011
  | .sltu rd rs1 rs2 => rWord 0b0000000 rs2 rs1 0b011 rd 0b0110011
  | .xor rd rs1 rs2 => rWord 0b0000000 rs2 rs1 0b100 rd 0b0110011
  | .srl rd rs1 rs2 => rWord 0b0000000 rs2 rs1 0b101 rd 0b0110011
  | .sra rd rs1 rs2 => rWord 0b0100000 rs2 rs1 0b101 rd 0b0110011
  | .or rd rs1 rs2 => rWord 0b0000000 rs2 rs1 0b110 rd 0b0110011
  | .and rd rs1 rs2 => rWord 0b0000000 rs2 rs1 0b111 rd 0b0110011
  | .addi rd rs1 imm => iWord imm rs1 0b000 rd 0b0010011
  | .slti rd rs1 imm => iWord imm rs1 0b010 rd 0b0010011
  | .sltiu rd rs1 imm => iWord imm rs1 0b011 rd 0b0010011
  | .xori rd rs1 imm => iWord imm rs1 0b100 rd 0b0010011
  | .ori rd rs1 imm => iWord imm rs1 0b110 rd 0b0010011
  | .andi rd rs1 imm => iWord imm rs1 0b111 rd 0b0010011
  | .slli rd rs1 shamt => shiftWord 0b000000 shamt rs1 0b001 rd 0b0010011
  | .srli rd rs1 shamt => shiftWord 0b000000 shamt rs1 0b101 rd 0b0010011
  | .srai rd rs1 shamt => shiftWord 0b010000 shamt rs1 0b101 rd 0b0010011
  | .addw rd rs1 rs2 => rWord 0b0000000 rs2 rs1 0b000 rd 0b0111011
  | .subw rd rs1 rs2 => rWord 0b0100000 rs2 rs1 0b000 rd 0b0111011
  | .sllw rd rs1 rs2 => rWord 0b0000000 rs2 rs1 0b001 rd 0b0111011
  | .srlw rd rs1 rs2 => rWord 0b0000000 rs2 rs1 0b101 rd 0b0111011
  | .sraw rd rs1 rs2 => rWord 0b0100000 rs2 rs1 0b101 rd 0b0111011
  | .addiw rd rs1 imm => iWord imm rs1 0b000 rd 0b0011011
  | .slliw rd rs1 shamt => rWord 0b0000000 shamt rs1 0b001 rd 0b0011011
  | .srliw rd rs1 shamt => rWord 0b0000000 shamt rs1 0b101 rd 0b0011011
  | .sraiw rd rs1 shamt => rWord 0b0100000 shamt rs1 0b101 rd 0b0011011
  | .lb rd rs1 imm => iWord imm rs1 0b000 rd 0b0000011
  | .lh rd rs1 imm => iWord imm rs1 0b001 rd 0b0000011
  | .lw rd rs1 imm => iWord imm rs1 0b010 rd 0b0000011
  | .ld rd rs1 imm => iWord imm rs1 0b011 rd 0b0000011
  | .lbu rd rs1 imm => iWord imm rs1 0b100 rd 0b0000011
  | .lhu rd rs1 imm => iWord imm rs1 0b101 rd 0b0000011
  | .lwu rd rs1 imm => iWord imm rs1 0b110 rd 0b0000011
  | .sb rs1 rs2 imm => sWord imm rs2 rs1 0b000 0b0100011
  | .sh rs1 rs2 imm => sWord imm rs2 rs1 0b001 0b0100011
  | .sw rs1 rs2 imm => sWord imm rs2 rs1 0b010 0b0100011
  | .sd rs1 rs2 imm => sWord imm rs2 rs1 0b011 0b0100011
  | .mul rd rs1 rs2 => rWord 0b0000001 rs2 rs1 0b000 rd 0b0110011
  | .mulh rd rs1 rs2 => rWord 0b0000001 rs2 rs1 0b001 rd 0b0110011
  | .mulhsu rd rs1 rs2 => rWord 0b0000001 rs2 rs1 0b010 rd 0b0110011
  | .mulhu rd rs1 rs2 => rWord 0b0000001 rs2 rs1 0b011 rd 0b0110011
  | .mulw rd rs1 rs2 => rWord 0b0000001 rs2 rs1 0b000 rd 0b0111011
  | .div rd rs1 rs2 => rWord 0b0000001 rs2 rs1 0b100 rd 0b0110011
  | .divu rd rs1 rs2 => rWord 0b0000001 rs2 rs1 0b101 rd 0b0110011
  | .rem rd rs1 rs2 => rWord 0b0000001 rs2 rs1 0b110 rd 0b0110011
  | .remu rd rs1 rs2 => rWord 0b0000001 rs2 rs1 0b111 rd 0b0110011
  | .divw rd rs1 rs2 => rWord 0b0000001 rs2 rs1 0b100 rd 0b0111011
  | .divuw rd rs1 rs2 => rWord 0b0000001 rs2 rs1 0b101 rd 0b0111011
  | .remw rd rs1 rs2 => rWord 0b0000001 rs2 rs1 0b110 rd 0b0111011
  | .remuw rd rs1 rs2 => rWord 0b0000001 rs2 rs1 0b111 rd 0b0111011
  | .amoswapW aq rl rd rs1 rs2 => amoWord 0b00001 aq rl rs2 rs1 0b010 rd
  | .amoaddW aq rl rd rs1 rs2 => amoWord 0b00000 aq rl rs2 rs1 0b010 rd
  | .amoxorW aq rl rd rs1 rs2 => amoWord 0b00100 aq rl rs2 rs1 0b010 rd
  | .amoandW aq rl rd rs1 rs2 => amoWord 0b01100 aq rl rs2 rs1 0b010 rd
  | .amoorW aq rl rd rs1 rs2 => amoWord 0b01000 aq rl rs2 rs1 0b010 rd
  | .amominW aq rl rd rs1 rs2 => amoWord 0b10000 aq rl rs2 rs1 0b010 rd
  | .amomaxW aq rl rd rs1 rs2 => amoWord 0b10100 aq rl rs2 rs1 0b010 rd
  | .amominuW aq rl rd rs1 rs2 => amoWord 0b11000 aq rl rs2 rs1 0b010 rd
  | .amomaxuW aq rl rd rs1 rs2 => amoWord 0b11100 aq rl rs2 rs1 0b010 rd
  | .amoswapD aq rl rd rs1 rs2 => amoWord 0b00001 aq rl rs2 rs1 0b011 rd
  | .amoaddD aq rl rd rs1 rs2 => amoWord 0b00000 aq rl rs2 rs1 0b011 rd
  | .amoxorD aq rl rd rs1 rs2 => amoWord 0b00100 aq rl rs2 rs1 0b011 rd
  | .amoandD aq rl rd rs1 rs2 => amoWord 0b01100 aq rl rs2 rs1 0b011 rd
  | .amoorD aq rl rd rs1 rs2 => amoWord 0b01000 aq rl rs2 rs1 0b011 rd
  | .amominD aq rl rd rs1 rs2 => amoWord 0b10000 aq rl rs2 rs1 0b011 rd
  | .amomaxD aq rl rd rs1 rs2 => amoWord 0b10100 aq rl rs2 rs1 0b011 rd
  | .amominuD aq rl rd rs1 rs2 => amoWord 0b11000 aq rl rs2 rs1 0b011 rd
  | .amomaxuD aq rl rd rs1 rs2 => amoWord 0b11100 aq rl rs2 rs1 0b011 rd
  | .lrW aq rl rd rs1 => amoWord 0b00010 aq rl 0 rs1 0b010 rd
  | .lrD aq rl rd rs1 => amoWord 0b00010 aq rl 0 rs1 0b011 rd
  | .scW aq rl rd rs1 rs2 => amoWord 0b00011 aq rl rs2 rs1 0b010 rd
  | .scD aq rl rd rs1 rs2 => amoWord 0b00011 aq rl rs2 rs1 0b011 rd
  | .faddS rd rs1 rs2 rm => rWord 0b0000000 rs2 rs1 rm rd 0b1010011
  | .fsubS rd rs1 rs2 rm => rWord 0b0000100 rs2 rs1 rm rd 0b1010011
  | .fmulS rd rs1 rs2 rm => rWord 0b0001000 rs2 rs1 rm rd 0b1010011
  | .fdivS rd rs1 rs2 rm => rWord 0b0001100 rs2 rs1 rm rd 0b1010011
  | .fsqrtS rd rs1 rm => rWord 0b0101100 0b00000 rs1 rm rd 0b1010011
  | .fmaddS rd rs1 rs2 rs3 rm => r4Word rs3 0b00 rs2 rs1 rm rd 0b1000011
  | .fmsubS rd rs1 rs2 rs3 rm => r4Word rs3 0b00 rs2 rs1 rm rd 0b1000111
  | .fnmsubS rd rs1 rs2 rs3 rm => r4Word rs3 0b00 rs2 rs1 rm rd 0b1001011
  | .fnmaddS rd rs1 rs2 rs3 rm => r4Word rs3 0b00 rs2 rs1 rm rd 0b1001111
  | .fsgnjS rd rs1 rs2 => rWord 0b0010000 rs2 rs1 0b000 rd 0b1010011
  | .fsgnjnS rd rs1 rs2 => rWord 0b0010000 rs2 rs1 0b001 rd 0b1010011
  | .fsgnjxS rd rs1 rs2 => rWord 0b0010000 rs2 rs1 0b010 rd 0b1010011
  | .fminS rd rs1 rs2 => rWord 0b0010100 rs2 rs1 0b000 rd 0b1010011
  | .fmaxS rd rs1 rs2 => rWord 0b0010100 rs2 rs1 0b001 rd 0b1010011
  | .faddD rd rs1 rs2 rm => rWord 0b0000001 rs2 rs1 rm rd 0b1010011
  | .fsubD rd rs1 rs2 rm => rWord 0b0000101 rs2 rs1 rm rd 0b1010011
  | .fmulD rd rs1 rs2 rm => rWord 0b0001001 rs2 rs1 rm rd 0b1010011
  | .fdivD rd rs1 rs2 rm => rWord 0b0001101 rs2 rs1 rm rd 0b1010011
  | .fsqrtD rd rs1 rm => rWord 0b0101101 0b00000 rs1 rm rd 0b1010011
  | .fmaddD rd rs1 rs2 rs3 rm => r4Word rs3 0b01 rs2 rs1 rm rd 0b1000011
  | .fmsubD rd rs1 rs2 rs3 rm => r4Word rs3 0b01 rs2 rs1 rm rd 0b1000111
  | .fnmsubD rd rs1 rs2 rs3 rm => r4Word rs3 0b01 rs2 rs1 rm rd 0b1001011
  | .fnmaddD rd rs1 rs2 rs3 rm => r4Word rs3 0b01 rs2 rs1 rm rd 0b1001111
  | .fsgnjD rd rs1 rs2 => rWord 0b0010001 rs2 rs1 0b000 rd 0b1010011
  | .fsgnjnD rd rs1 rs2 => rWord 0b0010001 rs2 rs1 0b001 rd 0b1010011
  | .fsgnjxD rd rs1 rs2 => rWord 0b0010001 rs2 rs1 0b010 rd 0b1010011
  | .fminD rd rs1 rs2 => rWord 0b0010101 rs2 rs1 0b000 rd 0b1010011
  | .fmaxD rd rs1 rs2 => rWord 0b0010101 rs2 rs1 0b001 rd 0b1010011
  | .fcvtWS rd rs1 rm => rWord 0b1100000 0b00000 rs1 rm rd 0b1010011
  | .fcvtWuS rd rs1 rm => rWord 0b1100000 0b00001 rs1 rm rd 0b1010011
  | .fcvtLS rd rs1 rm => rWord 0b1100000 0b00010 rs1 rm rd 0b1010011
  | .fcvtLuS rd rs1 rm => rWord 0b1100000 0b00011 rs1 rm rd 0b1010011
  | .fcvtSW rd rs1 rm => rWord 0b1101000 0b00000 rs1 rm rd 0b1010011
  | .fcvtSWu rd rs1 rm => rWord 0b1101000 0b00001 rs1 rm rd 0b1010011
  | .fcvtSL rd rs1 rm => rWord 0b1101000 0b00010 rs1 rm rd 0b1010011
  | .fcvtSLu rd rs1 rm => rWord 0b1101000 0b00011 rs1 rm rd 0b1010011
  | .feqS rd rs1 rs2 => rWord 0b1010000 rs2 rs1 0b010 rd 0b1010011
  | .fltS rd rs1 rs2 => rWord 0b1010000 rs2 rs1 0b001 rd 0b1010011
  | .fleS rd rs1 rs2 => rWord 0b1010000 rs2 rs1 0b000 rd 0b1010011
  | .fclassS rd rs1 => rWord 0b1110000 0b00000 rs1 0b001 rd 0b1010011
  | .fcvtWD rd rs1 rm => rWord 0b1100001 0b00000 rs1 rm rd 0b1010011
  | .fcvtWuD rd rs1 rm => rWord 0b1100001 0b00001 rs1 rm rd 0b1010011
  | .fcvtLD rd rs1 rm => rWord 0b1100001 0b00010 rs1 rm rd 0b1010011
  | .fcvtLuD rd rs1 rm => rWord 0b1100001 0b00011 rs1 rm rd 0b1010011
  | .fcvtDW rd rs1 rm => rWord 0b1101001 0b00000 rs1 rm rd 0b1010011
  | .fcvtDWu rd rs1 rm => rWord 0b1101001 0b00001 rs1 rm rd 0b1010011
  | .fcvtDL rd rs1 rm => rWord 0b1101001 0b00010 rs1 rm rd 0b1010011
  | .fcvtDLu rd rs1 rm => rWord 0b1101001 0b00011 rs1 rm rd 0b1010011
  | .feqD rd rs1 rs2 => rWord 0b1010001 rs2 rs1 0b010 rd 0b1010011
  | .fltD rd rs1 rs2 => rWord 0b1010001 rs2 rs1 0b001 rd 0b1010011
  | .fleD rd rs1 rs2 => rWord 0b1010001 rs2 rs1 0b000 rd 0b1010011
  | .fclassD rd rs1 => rWord 0b1110001 0b00000 rs1 0b001 rd 0b1010011
  | .fmvXW rd rs1 => rWord 0b1110000 0b00000 rs1 0b000 rd 0b1010011
  | .fmvWX rd rs1 => rWord 0b1111000 0b00000 rs1 0b000 rd 0b1010011
  | .fmvXD rd rs1 => rWord 0b1110001 0b00000 rs1 0b000 rd 0b1010011
  | .fmvDX rd rs1 => rWord 0b1111001 0b00000 rs1 0b000 rd 0b1010011
  | .fcvtSD rd rs1 rm => rWord 0b0100000 0b00001 rs1 rm rd 0b1010011
  | .fcvtDS rd rs1 rm => rWord 0b0100001 0b00000 rs1 rm rd 0b1010011
  | .frcsr rd => iWord 0x003 0 0b010 rd 0b1110011
  | .frrm rd => iWord 0x002 0 0b010 rd 0b1110011
  | .frflags rd => iWord 0x001 0 0b010 rd 0b1110011
  | .fsflags rd rs1 => iWord 0x001 rs1 0b001 rd 0b1110011
  | .fsrm rd rs1 => iWord 0x002 rs1 0b001 rd 0b1110011
  | .fscsr rd rs1 => iWord 0x003 rs1 0b001 rd 0b1110011

end Sys2Proof
end

