-- ==== Sys2Proof/Machine/Fetch.lean ====
section
/-! DEFINITION. Fetching and decoding the instruction at the pc (spec/20_memory.md R66; spec/60_exceptions.md R402,
R404, R412; spec/70_reset_and_hazards.md R434), and placing a word for the next fetch. -/

namespace Sys2Proof.Machine

/-- The word `text` holds at an address (R66). -/
def textAt : List (Nat × InstrWord) → Nat → Option InstrWord
  | [], _ => none
  | (k, w) :: t, a => if a = k then some w else textAt t a

/-- The address at which the run ends: `end_pc`, by default the address after the last word of `text` (R7, R412). -/
def endAddr (e : Env) : Option Word :=
  match e.endPc with
  | .fixed a => some a
  | .afterText => e.text.getLast?.map (fun c => e.xlen.addr (BitVec.ofNat 64 (c.1 + 4)))

/-- The first lines of the step: the end of the run, then a bad pc or a missing word, then decoding (R434). -/
def State.fetch (s : State) : Fetched :=
  if endAddr s.env = some s.pc then .ended
  else if s.pc.toNat % 4 ≠ 0 then .stop (.fault (.illegalInstruction s.pc))
  else
    match textAt s.env.text s.pc.toNat with
    | none => .stop (.fault (.illegalInstruction s.pc))
    | some w =>
      match decode s.env.xlen w with
      | .instr i => .instr i
      | .illegal => .stop (.fault (.illegalInstruction s.pc))
      | .notInCore w => .stop (.refuse (.notInCore w))

/-- Put a word into a program kept by rising address, in place of one already there. -/
def textPut : List (Nat × InstrWord) → Nat → InstrWord → List (Nat × InstrWord)
  | [], a, w => [(a, w)]
  | (k, u) :: t, a, w =>
    if a < k then (a, w) :: (k, u) :: t
    else if a = k then (a, w) :: t
    else (k, u) :: textPut t a w

/-- The state whose next step runs the word: the hart runs, the pc is a multiple of 4, `text` holds the word there,
and the run does not end there (log entry 6). -/
def State.placeWord (s : State) (w : InstrWord) : State :=
  let pc := s.pc &&& ~~~3
  let e := { s.env with text := textPut s.env.text pc.toNat w }
  let e := if endAddr e = some pc then { e with endPc := .fixed (pc + 4) } else e
  { s with pc := pc, status := .running, env := e }

end Sys2Proof.Machine
end

