-- ==== Sys2Proof/Machine/Step.lean ====
section
/-! DEFINITION. One step of the hart (spec/70_reset_and_hazards.md R434; spec/10_state.md R35), and the host's way to
place one instruction for the next step. -/

namespace Sys2Proof.Machine

/-- One step. A running hart fetches, and ends, executes or stops (R434); a hart that is not running has no step: it
stays stuck under the name that stopped it (R35). -/
def step (s : State) : Host.Outcome State Fault Refusal :=
  match s.status with
  | .running =>
    match s.fetch with
    | .ended => .next s.finish
    | .instr i => exec i s
    | .stop w => w.outcome
  | .faulted f => raise f
  | .refused r => refuse r
  | .ended => refuse .hartEnded

/-- `s` with the instruction whose low `nbits` bits are those of `w`, and whose bits above are 0, stored where the next
step fetches. -/
def State.withFetchWord (s : State) (nbits w : Nat) : State := s.placeWord (BitVec.ofNat 32 (w % 2 ^ nbits))

end Sys2Proof.Machine
end

