-- ==== Sys2Proof/Machine/Harts.lean ====
section
/-! DEFINITION. Several harts over one memory (spec/20_memory.md R53, R54, R58, R62; spec/43_atomic.md R249, R250;
spec/60_exceptions.md R424; spec/70_reset_and_hazards.md R431, R434). The host's machine is one hart (log entry 10);
this file says what the spec adds when a reader builds several: any interleaving of whole steps, in which the bytes of
a misaligned access done byte by byte are events of their own. -/

namespace Sys2Proof.Machine

/-! ## The bytes an instruction writes -/

/-- The addresses of the n bytes of an access at `a` (R56). -/
def State.span (s : State) (a : Word) (n : Nat) : List Nat := (List.range n).map (s.byteAddr a)

/-- The addresses a store-conditional writes: those of its access when it succeeds, else none (R57, R247). -/
def State.scSpan (s : State) (n : AtomSize) (rs1 : XReg) : List Nat :=
  if s.reservation = some ⟨s.atomAddr rs1, n⟩ ∧ s.scDrawFails = false then s.span (s.atomAddr rs1) n.bytes else []

/-- The addresses of the bytes an instruction writes in a state where it completes (R57). -/
def written (i : Instr) (s : State) : List Nat :=
  match i with
  | .sb rs1 _ imm => s.span (s.effAddr rs1 imm) 1
  | .sh rs1 _ imm => s.span (s.effAddr rs1 imm) 2
  | .sw rs1 _ imm => s.span (s.effAddr rs1 imm) 4
  | .sd rs1 _ imm => s.span (s.effAddr rs1 imm) 8
  | .amoswapW _ _ _ rs1 _ | .amoaddW _ _ _ rs1 _ | .amoxorW _ _ _ rs1 _ | .amoandW _ _ _ rs1 _
  | .amoorW _ _ _ rs1 _ | .amominW _ _ _ rs1 _ | .amomaxW _ _ _ rs1 _ | .amominuW _ _ _ rs1 _
  | .amomaxuW _ _ _ rs1 _ => s.span (s.atomAddr rs1) 4
  | .amoswapD _ _ _ rs1 _ | .amoaddD _ _ _ rs1 _ | .amoxorD _ _ _ rs1 _ | .amoandD _ _ _ rs1 _
  | .amoorD _ _ _ rs1 _ | .amominD _ _ _ rs1 _ | .amomaxD _ _ _ rs1 _ | .amominuD _ _ _ rs1 _
  | .amomaxuD _ _ _ rs1 _ => s.span (s.atomAddr rs1) 8
  | .scW _ _ _ rs1 _ => s.scSpan .word rs1
  | .scD _ _ _ rs1 _ => s.scSpan .double rs1
  | .add _ _ _ | .sub _ _ _ | .sll _ _ _ | .slt _ _ _ | .sltu _ _ _ | .xor _ _ _ | .srl _ _ _ | .sra _ _ _
  | .or _ _ _ | .and _ _ _ | .addi _ _ _ | .slti _ _ _ | .sltiu _ _ _ | .xori _ _ _ | .ori _ _ _ | .andi _ _ _
  | .slli _ _ _ | .srli _ _ _ | .srai _ _ _ | .addw _ _ _ | .subw _ _ _ | .sllw _ _ _ | .srlw _ _ _
  | .sraw _ _ _ | .addiw _ _ _ | .slliw _ _ _ | .srliw _ _ _ | .sraiw _ _ _ | .lb _ _ _ | .lh _ _ _ | .lw _ _ _
  | .ld _ _ _ | .lbu _ _ _ | .lhu _ _ _ | .lwu _ _ _ | .mul _ _ _ | .mulh _ _ _ | .mulhsu _ _ _ | .mulhu _ _ _
  | .mulw _ _ _ | .div _ _ _ | .divu _ _ _ | .rem _ _ _ | .remu _ _ _ | .divw _ _ _ | .divuw _ _ _
  | .remw _ _ _ | .remuw _ _ _ | .lrW _ _ _ _ | .lrD _ _ _ _ | .faddS _ _ _ _ | .fsubS _ _ _ _ | .fmulS _ _ _ _
  | .fdivS _ _ _ _ | .fsqrtS _ _ _ | .fmaddS _ _ _ _ _ | .fmsubS _ _ _ _ _ | .fnmsubS _ _ _ _ _
  | .fnmaddS _ _ _ _ _ | .fsgnjS _ _ _ | .fsgnjnS _ _ _ | .fsgnjxS _ _ _ | .fminS _ _ _ | .fmaxS _ _ _
  | .faddD _ _ _ _ | .fsubD _ _ _ _ | .fmulD _ _ _ _ | .fdivD _ _ _ _ | .fsqrtD _ _ _ | .fmaddD _ _ _ _ _
  | .fmsubD _ _ _ _ _ | .fnmsubD _ _ _ _ _ | .fnmaddD _ _ _ _ _ | .fsgnjD _ _ _ | .fsgnjnD _ _ _
  | .fsgnjxD _ _ _ | .fminD _ _ _ | .fmaxD _ _ _ | .fcvtWS _ _ _ | .fcvtWuS _ _ _ | .fcvtLS _ _ _
  | .fcvtLuS _ _ _ | .fcvtSW _ _ _ | .fcvtSWu _ _ _ | .fcvtSL _ _ _ | .fcvtSLu _ _ _ | .feqS _ _ _
  | .fltS _ _ _ | .fleS _ _ _ | .fclassS _ _ | .fcvtWD _ _ _ | .fcvtWuD _ _ _ | .fcvtLD _ _ _ | .fcvtLuD _ _ _
  | .fcvtDW _ _ _ | .fcvtDWu _ _ _ | .fcvtDL _ _ _ | .fcvtDLu _ _ _ | .feqD _ _ _ | .fltD _ _ _ | .fleD _ _ _
  | .fclassD _ _ | .fmvXW _ _ | .fmvWX _ _ | .fmvXD _ _ | .fmvDX _ _ | .fcvtSD _ _ _ | .fcvtDS _ _ _ | .frcsr _
  | .frrm _ | .frflags _ | .fsflags _ _ | .fsrm _ _ | .fscsr _ _ => []

/-- The addresses of the bytes a whole step has written: those of the instruction it completed, or the bytes left
stored by a misaligned store done byte by byte that met a byte that does not exist (R54). -/
def stepWritten (s : State) : List Nat :=
  match s.fetch with
  | .ended => []
  | .stop _ => []
  | .instr i =>
    match exec i s with
    | .next _ => written i s
    | .fault (.accessFault _ landed) => landed.map (fun c => c.1)
    | .fault _ => []
    | .refused _ => []

/-! ## Misaligned accesses, byte by byte (R54, R58) -/

/-- The access of an integer load or store: its address, its size in bytes, and the value a store stores. -/
structure Access where
  addr : Word
  size : Nat
  stored : Option Word
  deriving DecidableEq, Repr

/-- The access of an integer load or store (R57, R170). -/
def State.intAccess (s : State) : Instr → Option Access
  | .lb _ rs1 imm | .lbu _ rs1 imm => some ⟨s.effAddr rs1 imm, 1, none⟩
  | .lh _ rs1 imm | .lhu _ rs1 imm => some ⟨s.effAddr rs1 imm, 2, none⟩
  | .lw _ rs1 imm | .lwu _ rs1 imm => some ⟨s.effAddr rs1 imm, 4, none⟩
  | .ld _ rs1 imm => some ⟨s.effAddr rs1 imm, 8, none⟩
  | .sb rs1 rs2 imm => some ⟨s.effAddr rs1 imm, 1, some (s.readX rs2)⟩
  | .sh rs1 rs2 imm => some ⟨s.effAddr rs1 imm, 2, some (s.readX rs2)⟩
  | .sw rs1 rs2 imm => some ⟨s.effAddr rs1 imm, 4, some (s.readX rs2)⟩
  | .sd rs1 rs2 imm => some ⟨s.effAddr rs1 imm, 8, some (s.readX rs2)⟩
  | .add _ _ _ | .sub _ _ _ | .sll _ _ _ | .slt _ _ _ | .sltu _ _ _ | .xor _ _ _ | .srl _ _ _ | .sra _ _ _ | .or _ _ _
  | .and _ _ _ | .addi _ _ _ | .slti _ _ _ | .sltiu _ _ _ | .xori _ _ _ | .ori _ _ _ | .andi _ _ _ | .slli _ _ _
  | .srli _ _ _ | .srai _ _ _ | .addw _ _ _ | .subw _ _ _ | .sllw _ _ _ | .srlw _ _ _ | .sraw _ _ _ | .addiw _ _ _
  | .slliw _ _ _ | .srliw _ _ _ | .sraiw _ _ _ | .mul _ _ _ | .mulh _ _ _ | .mulhsu _ _ _ | .mulhu _ _ _ | .mulw _ _ _
  | .div _ _ _ | .divu _ _ _ | .rem _ _ _ | .remu _ _ _ | .divw _ _ _ | .divuw _ _ _ | .remw _ _ _ | .remuw _ _ _
  | .amoswapW _ _ _ _ _ | .amoaddW _ _ _ _ _ | .amoxorW _ _ _ _ _ | .amoandW _ _ _ _ _ | .amoorW _ _ _ _ _
  | .amominW _ _ _ _ _ | .amomaxW _ _ _ _ _ | .amominuW _ _ _ _ _ | .amomaxuW _ _ _ _ _ | .amoswapD _ _ _ _ _
  | .amoaddD _ _ _ _ _ | .amoxorD _ _ _ _ _ | .amoandD _ _ _ _ _ | .amoorD _ _ _ _ _ | .amominD _ _ _ _ _
  | .amomaxD _ _ _ _ _ | .amominuD _ _ _ _ _ | .amomaxuD _ _ _ _ _ | .lrW _ _ _ _ | .lrD _ _ _ _ | .scW _ _ _ _ _
  | .scD _ _ _ _ _ | .faddS _ _ _ _ | .fsubS _ _ _ _ | .fmulS _ _ _ _ | .fdivS _ _ _ _ | .fsqrtS _ _ _
  | .fmaddS _ _ _ _ _ | .fmsubS _ _ _ _ _ | .fnmsubS _ _ _ _ _ | .fnmaddS _ _ _ _ _ | .fsgnjS _ _ _ | .fsgnjnS _ _ _
  | .fsgnjxS _ _ _ | .fminS _ _ _ | .fmaxS _ _ _ | .faddD _ _ _ _ | .fsubD _ _ _ _ | .fmulD _ _ _ _ | .fdivD _ _ _ _
  | .fsqrtD _ _ _ | .fmaddD _ _ _ _ _ | .fmsubD _ _ _ _ _ | .fnmsubD _ _ _ _ _ | .fnmaddD _ _ _ _ _ | .fsgnjD _ _ _
  | .fsgnjnD _ _ _ | .fsgnjxD _ _ _ | .fminD _ _ _ | .fmaxD _ _ _ | .fcvtWS _ _ _ | .fcvtWuS _ _ _ | .fcvtLS _ _ _
  | .fcvtLuS _ _ _ | .fcvtSW _ _ _ | .fcvtSWu _ _ _ | .fcvtSL _ _ _ | .fcvtSLu _ _ _ | .feqS _ _ _ | .fltS _ _ _
  | .fleS _ _ _ | .fclassS _ _ | .fcvtWD _ _ _ | .fcvtWuD _ _ _ | .fcvtLD _ _ _ | .fcvtLuD _ _ _ | .fcvtDW _ _ _
  | .fcvtDWu _ _ _ | .fcvtDL _ _ _ | .fcvtDLu _ _ _ | .feqD _ _ _ | .fltD _ _ _ | .fleD _ _ _ | .fclassD _ _
  | .fmvXW _ _ | .fmvWX _ _ | .fmvXD _ _ | .fmvDX _ _ | .fcvtSD _ _ _ | .fcvtDS _ _ _ | .frcsr _ | .frrm _
  | .frflags _ | .fsflags _ _ | .fsrm _ _ | .fscsr _ _ => none

/-- The instruction of the hart's next step and its access, where that is misaligned and done byte by byte. -/
def State.splitAccess (s : State) : Option (Instr × Access) :=
  match s.fetch with
  | .ended => none
  | .stop _ => none
  | .instr i =>
    match s.intAccess i with
    | none => none
    | some a => if !aligned a.addr a.size && s.env.misaligned == .bytewise then some (i, a) else none

/-- The address of byte `k` of an access. -/
def State.accessAddr (s : State) (a : Access) (k : Nat) : Nat := s.byteAddr a.addr k

/-- The access to byte `k`, an event of its own: the byte that passes, and the memory after it (R51, R54). -/
def State.accessByte (s : State) (a : Access) (k : Nat) : Byte × Memory :=
  match a.stored with
  | none => (s.readByte (s.accessAddr a k), s.mem)
  | some v => ((v >>> (8 * k)).setWidth 8, Memory.write s.mem (s.accessAddr a k) ((v >>> (8 * k)).setWidth 8))

/-- The state in which memory holds, from byte `k` of an access on, the bytes given. -/
def State.overlay (s : State) (a : Access) (k : Nat) : List Byte → State
  | [] => s
  | b :: bs => (s.writeByte (s.accessAddr a k) b).overlay a (k + 1) bs

/-- A hart: its state, and of a misaligned access in progress the bytes that have passed, lowest address first. -/
structure Hart where
  state : State
  seen : List Byte
  deriving DecidableEq, Repr

/-- What a hart does at its turn: a whole step (R434), or, at a misaligned access done byte by byte, its next byte
(R58). With the last byte the instruction completes, a load with the bytes it saw; a byte that does not exist stops
the hart, and earlier bytes stay stored (R54). -/
def Hart.step (h : Hart) : Hart :=
  match h.state.splitAccess with
  | none => ⟨h.state.settle (Sys2Proof.Machine.step h.state), []⟩
  | some (i, a) =>
    if h.state.mapped (h.state.accessAddr a h.seen.length) then
      let r := h.state.accessByte a h.seen.length
      let seen := h.seen ++ [r.1]
      if seen.length < a.size then ⟨{ h.state with mem := r.2 }, seen⟩
      else ⟨{ h.state.settle (exec i (h.state.overlay a 0 seen)) with mem := r.2 }, []⟩
    else
      let landed := match a.stored with
        | none => []
        | some v => h.state.landed a.addr v a.size
      ⟨{ h.state with status := .faulted (.accessFault a.addr landed) }, []⟩

/-- The addresses a hart writes at its turn: those of its whole step, or the one of the byte it stores. -/
def Hart.written (h : Hart) : List Nat :=
  match h.state.splitAccess with
  | none => stepWritten h.state
  | some (_, a) =>
    let k := h.state.accessAddr a h.seen.length
    if a.stored.isSome && h.state.mapped k then [k] else []

/-! ## Reservations and other harts' writes -/

/-- Some written byte lies in the reservation (R53, R250). -/
def Reservation.touched (r : Reservation) (addrs : List Nat) : Bool :=
  addrs.any (fun a => decide (r.addr.toNat ≤ a) && decide (a < r.addr.toNat + r.size.bytes))

/-- A hart after another hart's writes: it loses a reservation they touch (R53, R249). -/
def State.afterOthersWrite (s : State) (addrs : List Nat) : State :=
  match s.reservation with
  | none => s
  | some r => if r.touched addrs then s.setReservation none else s

/-! ## The machine of several harts -/

/-- The harts, and what they share: the memory (R50) and the count of draws (log entry 8). The `mem` and `draws` of a
hart in the list are not looked at. -/
structure System where
  mem : Memory
  draws : Nat
  harts : List Hart
  deriving DecidableEq, Repr

/-- All harts start at once at the same `reset_pc`, each with its own registers and its own control state (R24, R424,
R431). DESIGN CHOICE: the spec does not say whether the launch gives all harts the same registers; here it gives each
its own, so that a claim for every launch covers both readings (log entry 22). -/
def System.launch (e : Env) (regs : List (Vector Word 32 × Vector Word 32)) (mem : Memory) : System where
  mem := mem
  draws := 0
  harts := regs.map (fun r => ⟨State.launch e r.1 r.2 mem, []⟩)

/-- Hart `k` as it sees the shared memory. -/
def System.hart (y : System) (k : Nat) : Option Hart :=
  y.harts[k]?.map (fun h => ⟨{ h.state with mem := y.mem, draws := y.draws }, h.seen⟩)

/-- One turn of the running hart `k`; which hart is next is the caller's choice, so a run is any interleaving (R58,
R62, R434). There is no turn of a hart that is not there or not running; the others go on when one has stopped. -/
def System.step (y : System) (k : Nat) : Option System :=
  match y.hart k with
  | none => none
  | some h =>
    if h.state.status = .running then
      some { mem := h.step.state.mem, draws := h.step.state.draws,
             harts := y.harts.mapIdx (fun j g =>
               if j = k then h.step else ⟨g.state.afterOthersWrite h.written, g.seen⟩) }
    else none

end Sys2Proof.Machine
end

