-- ==== Sys2Proof/Safety.lean ====
section
/-! DEFINITION. The vocabulary of the statements: which parts of the state an instruction may change, what an effect
is, operands as integers, what a correctly rounded value is, and the invariant of the machine. -/

namespace Sys2Proof.Machine

/-! ## What an instruction may change -/

/-- The integer destination register (R21). -/
def xDest : Instr → Option XReg
  | .add rd _ _ | .sub rd _ _ | .sll rd _ _ | .slt rd _ _ | .sltu rd _ _ | .xor rd _ _ | .srl rd _ _
  | .sra rd _ _ | .or rd _ _ | .and rd _ _ | .addi rd _ _ | .slti rd _ _ | .sltiu rd _ _ | .xori rd _ _
  | .ori rd _ _ | .andi rd _ _ | .slli rd _ _ | .srli rd _ _ | .srai rd _ _ | .addw rd _ _ | .subw rd _ _
  | .sllw rd _ _ | .srlw rd _ _ | .sraw rd _ _ | .addiw rd _ _ | .slliw rd _ _ | .srliw rd _ _ | .sraiw rd _ _
  | .lb rd _ _ | .lh rd _ _ | .lw rd _ _ | .ld rd _ _ | .lbu rd _ _ | .lhu rd _ _ | .lwu rd _ _ | .mul rd _ _
  | .mulh rd _ _ | .mulhsu rd _ _ | .mulhu rd _ _ | .mulw rd _ _ | .div rd _ _ | .divu rd _ _ | .rem rd _ _
  | .remu rd _ _ | .divw rd _ _ | .divuw rd _ _ | .remw rd _ _ | .remuw rd _ _ | .amoswapW _ _ rd _ _
  | .amoaddW _ _ rd _ _ | .amoxorW _ _ rd _ _ | .amoandW _ _ rd _ _ | .amoorW _ _ rd _ _ | .amominW _ _ rd _ _
  | .amomaxW _ _ rd _ _ | .amominuW _ _ rd _ _ | .amomaxuW _ _ rd _ _ | .amoswapD _ _ rd _ _
  | .amoaddD _ _ rd _ _ | .amoxorD _ _ rd _ _ | .amoandD _ _ rd _ _ | .amoorD _ _ rd _ _ | .amominD _ _ rd _ _
  | .amomaxD _ _ rd _ _ | .amominuD _ _ rd _ _ | .amomaxuD _ _ rd _ _ | .lrW _ _ rd _ | .lrD _ _ rd _
  | .scW _ _ rd _ _ | .scD _ _ rd _ _ | .fcvtWS rd _ _ | .fcvtWuS rd _ _ | .fcvtLS rd _ _ | .fcvtLuS rd _ _
  | .feqS rd _ _ | .fltS rd _ _ | .fleS rd _ _ | .fclassS rd _ | .fcvtWD rd _ _ | .fcvtWuD rd _ _
  | .fcvtLD rd _ _ | .fcvtLuD rd _ _ | .feqD rd _ _ | .fltD rd _ _ | .fleD rd _ _ | .fclassD rd _ | .fmvXW rd _
  | .fmvXD rd _ | .frcsr rd | .frrm rd | .frflags rd | .fsflags rd _ | .fsrm rd _ | .fscsr rd _ => some rd
  | .sb _ _ _ | .sh _ _ _ | .sw _ _ _ | .sd _ _ _ | .faddS _ _ _ _ | .fsubS _ _ _ _ | .fmulS _ _ _ _
  | .fdivS _ _ _ _ | .fsqrtS _ _ _ | .fmaddS _ _ _ _ _ | .fmsubS _ _ _ _ _ | .fnmsubS _ _ _ _ _
  | .fnmaddS _ _ _ _ _ | .fsgnjS _ _ _ | .fsgnjnS _ _ _ | .fsgnjxS _ _ _ | .fminS _ _ _ | .fmaxS _ _ _
  | .faddD _ _ _ _ | .fsubD _ _ _ _ | .fmulD _ _ _ _ | .fdivD _ _ _ _ | .fsqrtD _ _ _ | .fmaddD _ _ _ _ _
  | .fmsubD _ _ _ _ _ | .fnmsubD _ _ _ _ _ | .fnmaddD _ _ _ _ _ | .fsgnjD _ _ _ | .fsgnjnD _ _ _
  | .fsgnjxD _ _ _ | .fminD _ _ _ | .fmaxD _ _ _ | .fcvtSW _ _ _ | .fcvtSWu _ _ _ | .fcvtSL _ _ _
  | .fcvtSLu _ _ _ | .fcvtDW _ _ _ | .fcvtDWu _ _ _ | .fcvtDL _ _ _ | .fcvtDLu _ _ _ | .fmvWX _ _ | .fmvDX _ _
  | .fcvtSD _ _ _ | .fcvtDS _ _ _ => none

/-- The floating-point destination register (R30). -/
def fDest : Instr → Option FReg
  | .faddS rd _ _ _ | .fsubS rd _ _ _ | .fmulS rd _ _ _ | .fdivS rd _ _ _ | .fsqrtS rd _ _ | .fmaddS rd _ _ _ _
  | .fmsubS rd _ _ _ _ | .fnmsubS rd _ _ _ _ | .fnmaddS rd _ _ _ _ | .fsgnjS rd _ _ | .fsgnjnS rd _ _
  | .fsgnjxS rd _ _ | .fminS rd _ _ | .fmaxS rd _ _ | .faddD rd _ _ _ | .fsubD rd _ _ _ | .fmulD rd _ _ _
  | .fdivD rd _ _ _ | .fsqrtD rd _ _ | .fmaddD rd _ _ _ _ | .fmsubD rd _ _ _ _ | .fnmsubD rd _ _ _ _
  | .fnmaddD rd _ _ _ _ | .fsgnjD rd _ _ | .fsgnjnD rd _ _ | .fsgnjxD rd _ _ | .fminD rd _ _ | .fmaxD rd _ _
  | .fcvtSW rd _ _ | .fcvtSWu rd _ _ | .fcvtSL rd _ _ | .fcvtSLu rd _ _ | .fcvtDW rd _ _ | .fcvtDWu rd _ _
  | .fcvtDL rd _ _ | .fcvtDLu rd _ _ | .fmvWX rd _ | .fmvDX rd _ | .fcvtSD rd _ _ | .fcvtDS rd _ _ => some rd
  | .add _ _ _ | .sub _ _ _ | .sll _ _ _ | .slt _ _ _ | .sltu _ _ _ | .xor _ _ _ | .srl _ _ _ | .sra _ _ _
  | .or _ _ _ | .and _ _ _ | .addi _ _ _ | .slti _ _ _ | .sltiu _ _ _ | .xori _ _ _ | .ori _ _ _ | .andi _ _ _
  | .slli _ _ _ | .srli _ _ _ | .srai _ _ _ | .addw _ _ _ | .subw _ _ _ | .sllw _ _ _ | .srlw _ _ _
  | .sraw _ _ _ | .addiw _ _ _ | .slliw _ _ _ | .srliw _ _ _ | .sraiw _ _ _ | .lb _ _ _ | .lh _ _ _ | .lw _ _ _
  | .ld _ _ _ | .lbu _ _ _ | .lhu _ _ _ | .lwu _ _ _ | .sb _ _ _ | .sh _ _ _ | .sw _ _ _ | .sd _ _ _
  | .mul _ _ _ | .mulh _ _ _ | .mulhsu _ _ _ | .mulhu _ _ _ | .mulw _ _ _ | .div _ _ _ | .divu _ _ _
  | .rem _ _ _ | .remu _ _ _ | .divw _ _ _ | .divuw _ _ _ | .remw _ _ _ | .remuw _ _ _ | .amoswapW _ _ _ _ _
  | .amoaddW _ _ _ _ _ | .amoxorW _ _ _ _ _ | .amoandW _ _ _ _ _ | .amoorW _ _ _ _ _ | .amominW _ _ _ _ _
  | .amomaxW _ _ _ _ _ | .amominuW _ _ _ _ _ | .amomaxuW _ _ _ _ _ | .amoswapD _ _ _ _ _ | .amoaddD _ _ _ _ _
  | .amoxorD _ _ _ _ _ | .amoandD _ _ _ _ _ | .amoorD _ _ _ _ _ | .amominD _ _ _ _ _ | .amomaxD _ _ _ _ _
  | .amominuD _ _ _ _ _ | .amomaxuD _ _ _ _ _ | .lrW _ _ _ _ | .lrD _ _ _ _ | .scW _ _ _ _ _ | .scD _ _ _ _ _
  | .fcvtWS _ _ _ | .fcvtWuS _ _ _ | .fcvtLS _ _ _ | .fcvtLuS _ _ _ | .feqS _ _ _ | .fltS _ _ _ | .fleS _ _ _
  | .fclassS _ _ | .fcvtWD _ _ _ | .fcvtWuD _ _ _ | .fcvtLD _ _ _ | .fcvtLuD _ _ _ | .feqD _ _ _ | .fltD _ _ _
  | .fleD _ _ _ | .fclassD _ _ | .fmvXW _ _ | .fmvXD _ _ | .frcsr _ | .frrm _ | .frflags _ | .fsflags _ _
  | .fsrm _ _ | .fscsr _ _ => none

/-- Whether an instruction may raise exception flags: the floating-point operations other than sign injections,
FCLASS and the bit moves (R26). -/
def mayRaise : Instr → Bool
  | .faddS _ _ _ _ | .fsubS _ _ _ _ | .fmulS _ _ _ _ | .fdivS _ _ _ _ | .fsqrtS _ _ _ | .fmaddS _ _ _ _ _
  | .fmsubS _ _ _ _ _ | .fnmsubS _ _ _ _ _ | .fnmaddS _ _ _ _ _ | .fminS _ _ _ | .fmaxS _ _ _ | .faddD _ _ _ _
  | .fsubD _ _ _ _ | .fmulD _ _ _ _ | .fdivD _ _ _ _ | .fsqrtD _ _ _ | .fmaddD _ _ _ _ _ | .fmsubD _ _ _ _ _
  | .fnmsubD _ _ _ _ _ | .fnmaddD _ _ _ _ _ | .fminD _ _ _ | .fmaxD _ _ _ | .fcvtWS _ _ _ | .fcvtWuS _ _ _
  | .fcvtLS _ _ _ | .fcvtLuS _ _ _ | .fcvtSW _ _ _ | .fcvtSWu _ _ _ | .fcvtSL _ _ _ | .fcvtSLu _ _ _
  | .feqS _ _ _ | .fltS _ _ _ | .fleS _ _ _ | .fcvtWD _ _ _ | .fcvtWuD _ _ _ | .fcvtLD _ _ _ | .fcvtLuD _ _ _
  | .fcvtDW _ _ _ | .fcvtDWu _ _ _ | .fcvtDL _ _ _ | .fcvtDLu _ _ _ | .feqD _ _ _ | .fltD _ _ _ | .fleD _ _ _
  | .fcvtSD _ _ _ | .fcvtDS _ _ _ => true
  | .add _ _ _ | .sub _ _ _ | .sll _ _ _ | .slt _ _ _ | .sltu _ _ _ | .xor _ _ _ | .srl _ _ _ | .sra _ _ _
  | .or _ _ _ | .and _ _ _ | .addi _ _ _ | .slti _ _ _ | .sltiu _ _ _ | .xori _ _ _ | .ori _ _ _ | .andi _ _ _
  | .slli _ _ _ | .srli _ _ _ | .srai _ _ _ | .addw _ _ _ | .subw _ _ _ | .sllw _ _ _ | .srlw _ _ _
  | .sraw _ _ _ | .addiw _ _ _ | .slliw _ _ _ | .srliw _ _ _ | .sraiw _ _ _ | .lb _ _ _ | .lh _ _ _ | .lw _ _ _
  | .ld _ _ _ | .lbu _ _ _ | .lhu _ _ _ | .lwu _ _ _ | .sb _ _ _ | .sh _ _ _ | .sw _ _ _ | .sd _ _ _
  | .mul _ _ _ | .mulh _ _ _ | .mulhsu _ _ _ | .mulhu _ _ _ | .mulw _ _ _ | .div _ _ _ | .divu _ _ _
  | .rem _ _ _ | .remu _ _ _ | .divw _ _ _ | .divuw _ _ _ | .remw _ _ _ | .remuw _ _ _ | .amoswapW _ _ _ _ _
  | .amoaddW _ _ _ _ _ | .amoxorW _ _ _ _ _ | .amoandW _ _ _ _ _ | .amoorW _ _ _ _ _ | .amominW _ _ _ _ _
  | .amomaxW _ _ _ _ _ | .amominuW _ _ _ _ _ | .amomaxuW _ _ _ _ _ | .amoswapD _ _ _ _ _ | .amoaddD _ _ _ _ _
  | .amoxorD _ _ _ _ _ | .amoandD _ _ _ _ _ | .amoorD _ _ _ _ _ | .amominD _ _ _ _ _ | .amomaxD _ _ _ _ _
  | .amominuD _ _ _ _ _ | .amomaxuD _ _ _ _ _ | .lrW _ _ _ _ | .lrD _ _ _ _ | .scW _ _ _ _ _ | .scD _ _ _ _ _
  | .fsgnjS _ _ _ | .fsgnjnS _ _ _ | .fsgnjxS _ _ _ | .fsgnjD _ _ _ | .fsgnjnD _ _ _ | .fsgnjxD _ _ _
  | .fclassS _ _ | .fclassD _ _ | .fmvXW _ _ | .fmvWX _ _ | .fmvXD _ _ | .fmvDX _ _ | .frcsr _ | .frrm _
  | .frflags _ | .fsflags _ _ | .fsrm _ _ | .fscsr _ _ => false

/-- FSFLAGS or FSCSR, the only instructions that replace fflags (R26). -/
def replacesFlags (i : Instr) : Prop := (∃ rd rs1, i = .fsflags rd rs1) ∨ ∃ rd rs1, i = .fscsr rd rs1

/-- FSRM or FSCSR, the only instructions that write frm (R24, R28). -/
def writesFrm (i : Instr) : Prop := (∃ rd rs1, i = .fsrm rd rs1) ∨ ∃ rd rs1, i = .fscsr rd rs1

/-- LR or SC, the only instructions that write the hart's own reservation (R34). -/
def writesReservation (i : Instr) : Prop :=
  (∃ aq rl rd rs1, i = .lrW aq rl rd rs1) ∨ (∃ aq rl rd rs1, i = .lrD aq rl rd rs1) ∨
  (∃ aq rl rd rs1 rs2, i = .scW aq rl rd rs1 rs2) ∨ ∃ aq rl rd rs1 rs2, i = .scD aq rl rd rs1 rs2

/-! ## Effects -/

/-- What an instruction does to the state, apart from the pc: what is not named here stays. -/
structure Effect where
  /-- The integer register written, and its value. -/
  x : Option (XReg × Word) := none
  /-- The floating-point register written, and its value. -/
  f : Option (FReg × Word) := none
  /-- The bytes stored. -/
  bytes : List Host.Cell := []
  /-- The flags ORed into fflags. -/
  raised : Flags := 0
  /-- The value that replaces fflags. -/
  fflags : Option Flags := none
  /-- The value that replaces frm. -/
  frm : Option RmField := none
  /-- The reservation that replaces the hart's. -/
  reservation : Option (Option Reservation) := none
  /-- How many store-conditional draws are taken. -/
  draws : Nat := 0

/-- `t` is `s` after the effect `e` and nothing else, at the next instruction (R21, R23, R26, R53). x[0] reads 0 in
both. -/
structure Becomes (s t : State) (e : Effect) : Prop where
  x : ∀ i, t.readX i =
    if i = 0#5 then 0
    else match e.x with
      | some (rd, v) => if i = rd then v else s.readX i
      | none => s.readX i
  f : ∀ i, t.readF i =
    match e.f with
    | some (rd, v) => if i = rd then v else s.readF i
    | none => s.readF i
  pc : t.pc = s.env.xlen.addr (s.pc + 4)
  fflags : t.fflags = e.fflags.getD (s.fflags ||| e.raised)
  frm : t.frm = e.frm.getD s.frm
  mem : ∀ k, t.readByte k = (e.bytes.lookup k).getD (s.readByte k)
  reservation : t.reservation = e.reservation.getD s.reservation
  status : t.status = s.status
  draws : t.draws = s.draws + e.draws
  env : t.env = s.env

/-- The instruction completes with exactly the effect `e`. -/
def Does (i : Instr) (s : State) (e : Effect) : Prop := ∃ t, exec i s = .next t ∧ Becomes s t e

/-- What `f[rd]` holds after a result of the format: S boxed, D whole (R31). -/
def boxed (fmt : Fmt) (v : BitVec fmt.width) : Word :=
  match fmt with
  | .s => 0xFFFFFFFF#32 ++ v
  | .d => v

/-- The effect names only what the instruction may change: its destination registers, fflags by ORing unless it is
FSFLAGS or FSCSR, frm for FSRM and FSCSR, the reservation and the draws for LR and SC, and the bytes of its access
(R21, R24, R26, R34, R57). -/
structure Allows (i : Instr) (s : State) (e : Effect) : Prop where
  x : e.x.map (fun c => c.1) = xDest i
  f : e.f.map (fun c => c.1) = fDest i
  bytes : e.bytes.map (fun c => c.1) = written i s
  raised : mayRaise i = false → e.raised = 0
  fflags : e.fflags.isSome → replacesFlags i
  frm : e.frm.isSome → writesFrm i
  reservation : e.reservation.isSome → writesReservation i
  draws : e.draws ≠ 0 → writesReservation i

/-! ## Encodings -/

/-- At XLEN = 64 every word with these fixed bits decodes to the instruction made of its fields (R90, R92). -/
def Spells (mask fixed : InstrWord) (build : InstrWord → Instr) : Prop :=
  ∀ w : InstrWord, w &&& mask = fixed → decode .rv64 w = .instr (build w)

/-- The same for a row with an rm field, which a word spells unless the field is 5 or 6; then it is illegal, at either
XLEN (R94, R402 e). -/
def SpellsRm (mask fixed : InstrWord) (build : InstrWord → Instr) : Prop :=
  ∀ w : InstrWord, w &&& mask = fixed →
    (fRm w ≠ 5 → fRm w ≠ 6 → decode .rv64 w = .instr (build w)) ∧
    (fRm w = 5 ∨ fRm w = 6 → ∀ xl, decode xl w = .illegal)

/-! ## Operands and results as integers (R12, R110, R111) -/

/-- `signed(x[i])`. -/
def State.signedX (s : State) (i : XReg) : Int := (s.readX i).toInt

/-- `unsigned(x[i])`, an XLEN-bit number. -/
def State.unsignedX (s : State) (i : XReg) : Nat := (s.env.xlen.addr (s.readX i)).toNat

/-- `trunc_XLEN(z)`, as a register value. -/
def State.trunc (s : State) (z : Int) : Word := s.env.xlen.canon (BitVec.ofInt 64 z)

/-- `x[i][31:0]`. -/
def State.lowX (s : State) (i : XReg) : BitVec 32 := (s.readX i).setWidth 32

/-- `sext(trunc_32(z))`, the result of a W form (R111). -/
def sextW (z : Int) : Word := (BitVec.ofInt 32 z).signExtend 64

/-- The n bytes at `a` as a number, little-endian (R51). -/
def State.leNat (s : State) (a : Word) (n : Nat) : Nat :=
  ((List.range n).map (fun i => (s.readByte (s.byteAddr a i)).toNat * 256 ^ i)).sum

/-- The low n bytes of a value at `a`, little-endian (R51, R53). -/
def State.cells (s : State) (a : Word) (n : Nat) (v : Nat) : List Host.Cell :=
  (List.range n).map (fun i => (s.byteAddr a i, BitVec.ofNat 8 (v / 256 ^ i)))

/-- An integer access of n bytes is done: it is aligned or `misaligned_ldst` is `bytewise`, and every byte exists (R54,
R56). -/
def State.accessible (s : State) (a : Word) (n : Nat) : Prop :=
  (aligned a n = true ∨ s.env.misaligned = .bytewise) ∧ s.allMapped a n = true

/-- An atomic access passes its checks: aligned, and every byte exists (R55, R56). -/
def State.atomOk (s : State) (rs1 : XReg) (n : AtomSize) : Prop :=
  aligned (s.atomAddr rs1) n.bytes = true ∧ s.allMapped (s.atomAddr rs1) n.bytes = true

/-- The 4 bytes at x[rs1], little-endian (R223). -/
def State.memWord (s : State) (rs1 : XReg) : BitVec 32 := BitVec.ofNat 32 (s.leNat (s.atomAddr rs1) 4)

/-- The 8 bytes at x[rs1], little-endian (R224). -/
def State.memDouble (s : State) (rs1 : XReg) : BitVec 64 := BitVec.ofNat 64 (s.leNat (s.atomAddr rs1) 8)

/-- The effect of a .W atomic that leaves `r` in memory: the word before goes to x[rd], sign-extended (R222, R223). -/
def amoEffectW (s : State) (rd rs1 : XReg) (r : BitVec 32) : Effect :=
  { x := some (rd, (s.memWord rs1).signExtend 64), bytes := s.cells (s.atomAddr rs1) 4 r.toNat }

/-- The effect of a .D atomic that leaves `r` in memory (R222, R224). -/
def amoEffectD (s : State) (rd rs1 : XReg) (r : BitVec 64) : Effect :=
  { x := some (rd, s.memDouble rs1), bytes := s.cells (s.atomAddr rs1) 8 r.toNat }

/-- The effect of a store-conditional that finds no reservation (R247). -/
def scFailEffect (rd : XReg) : Effect := { x := some (rd, 1), reservation := some none }

/-- The effect of a store-conditional that finds its reservation and takes a draw (R247). -/
def scDrawEffect (s : State) (n : AtomSize) (rd rs1 rs2 : XReg) : Effect :=
  if s.scDrawFails then { x := some (rd, 1), reservation := some none, draws := 1 }
  else { x := some (rd, 0), bytes := s.cells (s.atomAddr rs1) n.bytes (s.readX rs2).toNat,
         reservation := some none, draws := 1 }

/-- The base register and access size of an AMO or a store-conditional (R55, R57). -/
def atomForm : Instr → Option (XReg × AtomSize)
  | .amoswapW _ _ _ rs1 _ | .amoaddW _ _ _ rs1 _ | .amoxorW _ _ _ rs1 _ | .amoandW _ _ _ rs1 _
  | .amoorW _ _ _ rs1 _ | .amominW _ _ _ rs1 _ | .amomaxW _ _ _ rs1 _ | .amominuW _ _ _ rs1 _
  | .amomaxuW _ _ _ rs1 _ | .scW _ _ _ rs1 _ => some (rs1, .word)
  | .amoswapD _ _ _ rs1 _ | .amoaddD _ _ _ rs1 _ | .amoxorD _ _ _ rs1 _ | .amoandD _ _ _ rs1 _
  | .amoorD _ _ _ rs1 _ | .amominD _ _ _ rs1 _ | .amomaxD _ _ _ rs1 _ | .amominuD _ _ _ rs1 _
  | .amomaxuD _ _ _ rs1 _ | .scD _ _ _ rs1 _ => some (rs1, .double)
  | .add _ _ _ | .sub _ _ _ | .sll _ _ _ | .slt _ _ _ | .sltu _ _ _ | .xor _ _ _ | .srl _ _ _ | .sra _ _ _
  | .or _ _ _ | .and _ _ _ | .addi _ _ _ | .slti _ _ _ | .sltiu _ _ _ | .xori _ _ _ | .ori _ _ _ | .andi _ _ _
  | .slli _ _ _ | .srli _ _ _ | .srai _ _ _ | .addw _ _ _ | .subw _ _ _ | .sllw _ _ _ | .srlw _ _ _
  | .sraw _ _ _ | .addiw _ _ _ | .slliw _ _ _ | .srliw _ _ _ | .sraiw _ _ _ | .lb _ _ _ | .lh _ _ _ | .lw _ _ _
  | .ld _ _ _ | .lbu _ _ _ | .lhu _ _ _ | .lwu _ _ _ | .sb _ _ _ | .sh _ _ _ | .sw _ _ _ | .sd _ _ _
  | .mul _ _ _ | .mulh _ _ _ | .mulhsu _ _ _ | .mulhu _ _ _ | .mulw _ _ _ | .div _ _ _ | .divu _ _ _
  | .rem _ _ _ | .remu _ _ _ | .divw _ _ _ | .divuw _ _ _ | .remw _ _ _ | .remuw _ _ _ | .lrW _ _ _ _
  | .lrD _ _ _ _ | .faddS _ _ _ _ | .fsubS _ _ _ _ | .fmulS _ _ _ _ | .fdivS _ _ _ _ | .fsqrtS _ _ _
  | .fmaddS _ _ _ _ _ | .fmsubS _ _ _ _ _ | .fnmsubS _ _ _ _ _ | .fnmaddS _ _ _ _ _ | .fsgnjS _ _ _
  | .fsgnjnS _ _ _ | .fsgnjxS _ _ _ | .fminS _ _ _ | .fmaxS _ _ _ | .faddD _ _ _ _ | .fsubD _ _ _ _
  | .fmulD _ _ _ _ | .fdivD _ _ _ _ | .fsqrtD _ _ _ | .fmaddD _ _ _ _ _ | .fmsubD _ _ _ _ _
  | .fnmsubD _ _ _ _ _ | .fnmaddD _ _ _ _ _ | .fsgnjD _ _ _ | .fsgnjnD _ _ _ | .fsgnjxD _ _ _ | .fminD _ _ _
  | .fmaxD _ _ _ | .fcvtWS _ _ _ | .fcvtWuS _ _ _ | .fcvtLS _ _ _ | .fcvtLuS _ _ _ | .fcvtSW _ _ _
  | .fcvtSWu _ _ _ | .fcvtSL _ _ _ | .fcvtSLu _ _ _ | .feqS _ _ _ | .fltS _ _ _ | .fleS _ _ _ | .fclassS _ _
  | .fcvtWD _ _ _ | .fcvtWuD _ _ _ | .fcvtLD _ _ _ | .fcvtLuD _ _ _ | .fcvtDW _ _ _ | .fcvtDWu _ _ _
  | .fcvtDL _ _ _ | .fcvtDLu _ _ _ | .feqD _ _ _ | .fltD _ _ _ | .fleD _ _ _ | .fclassD _ _ | .fmvXW _ _
  | .fmvWX _ _ | .fmvXD _ _ | .fmvDX _ _ | .fcvtSD _ _ _ | .fcvtDS _ _ _ | .frcsr _ | .frrm _ | .frflags _
  | .fsflags _ _ | .fsrm _ _ | .fscsr _ _ => none

/-- The effect of a floating-point operation that answers a pattern and a mask of flags (R26, R31). -/
def fpEffect (fmt : Fmt) (rd : FReg) (r : BitVec fmt.width × Flags) : Effect :=
  { f := some (rd, boxed fmt r.1), raised := r.2 }

/-! ## Correct rounding (R266) -/

/-- The real number a finite pattern spells (R260). -/
def Fmt.real (fmt : Fmt) (v : BitVec fmt.width) : ℝ := ((fmt.val v : Rat) : ℝ)

/-- `v` spells the value the mode names for the real number `r` among the finite values of the format: the nearest, a
tie to the even fraction field or to the larger magnitude; or the closest on the side the mode names (R27, R266). -/
def Rounded (fmt : Fmt) (rm : RoundingMode) (r : ℝ) (v : BitVec fmt.width) : Prop :=
  match rm with
  | .rne => ∀ u, fmt.isFinite u = true → |fmt.real v - r| ≤ |fmt.real u - r| ∧
      (fmt.real u ≠ fmt.real v → |fmt.real u - r| = |fmt.real v - r| → fmt.frac v % 2 = 0)
  | .rmm => ∀ u, fmt.isFinite u = true → |fmt.real v - r| ≤ |fmt.real u - r| ∧
      (|fmt.real u - r| = |fmt.real v - r| → |fmt.real u| ≤ |fmt.real v|)
  | .rtz => |fmt.real v| ≤ |r| ∧ 0 ≤ fmt.real v * r ∧
      ∀ u, fmt.isFinite u = true → |fmt.real u| ≤ |r| → |fmt.real u| ≤ |fmt.real v|
  | .rdn => fmt.real v ≤ r ∧ ∀ u, fmt.isFinite u = true → fmt.real u ≤ r → fmt.real u ≤ fmt.real v
  | .rup => r ≤ fmt.real v ∧ ∀ u, fmt.isFinite u = true → r ≤ fmt.real u → fmt.real v ≤ fmt.real u

/-- In the mode, the magnitude of `r` rounded to the format's precision with an unbounded exponent reaches 2^e (R266 to
R268). Just below 2^e the values of that precision stand 2^(e-1-F) apart, and the last of them is odd, so that a tie
goes up to 2^e in both nearest modes. -/
def Fmt.reaches (fmt : Fmt) (rm : RoundingMode) (r : Rat) (e : Int) : Prop :=
  match rm with
  | .rne => (2 : Rat) ^ e - (2 : Rat) ^ (e - 2 - fmt.fracBits) ≤ |r|
  | .rmm => (2 : Rat) ^ e - (2 : Rat) ^ (e - 2 - fmt.fracBits) ≤ |r|
  | .rtz => (2 : Rat) ^ e ≤ |r|
  | .rdn => if r < 0 then (2 : Rat) ^ e - (2 : Rat) ^ (e - 1 - fmt.fracBits) < |r| else (2 : Rat) ^ e ≤ |r|
  | .rup => if r < 0 then (2 : Rat) ^ e ≤ |r| else (2 : Rat) ^ e - (2 : Rat) ^ (e - 1 - fmt.fracBits) < |r|

/-! ## The invariant -/

/-- A register value is an XLEN-bit value in its 64-bit home (log entry 2). -/
def XLen.holds (xl : XLen) (v : Word) : Prop := xl.canon v = v

/-- What every step keeps: memory is in its canonical form; x[0] holds 0; every integer register holds an XLEN-bit
value; the pc is an XLEN-bit multiple of 4; a reservation is at a multiple of its size. -/
structure Inv (s : State) : Prop where
  mem : Memory.wf s.mem = true
  x0 : s.x[0] = 0
  x : ∀ i : Fin 32, XLen.holds s.env.xlen s.x[i]
  pc : s.env.xlen.addr s.pc = s.pc
  pcAligned : s.pc.toNat % 4 = 0
  reservation : ∀ r, s.reservation = some r → r.addr.toNat % r.size.bytes = 0

end Sys2Proof.Machine
end

