-- ==== Sys2Proof/Certificates/Slice0/Obligations.lean ====
section
/-! DEFINITION. The statements for the provers, taken from the numbered rules of spec/. `Does i s e` says that
instruction `i` completes in state `s` with exactly the effect `e`, and so is its completion, its result and its
frame in one. Statements about integer results hold at both XLENs: `trunc`, `signedX` and `unsignedX` read at XLEN. -/

open Sys2Proof Sys2Proof.Machine

/-! ## Integer ALU -/

/-- R114 to R123 at XLEN = 64: the register-register operations. -/
def Obligations.AluRegisterResults : Prop :=
  ∀ (s : State) (rd rs1 rs2 : XReg), s.env.xlen = .rv64 →
    Does (.add rd rs1 rs2) s { x := some (rd, BitVec.ofNat 64 ((s.readX rs1).toNat + (s.readX rs2).toNat)) } ∧
    Does (.sub rd rs1 rs2) s
      { x := some (rd, BitVec.ofInt 64 (((s.readX rs1).toNat : Int) - (s.readX rs2).toNat)) } ∧
    Does (.sll rd rs1 rs2) s
      { x := some (rd, BitVec.ofNat 64 ((s.readX rs1).toNat * 2 ^ ((s.readX rs2).toNat % 64))) } ∧
    Does (.slt rd rs1 rs2) s { x := some (rd, if (s.readX rs1).toInt < (s.readX rs2).toInt then 1 else 0) } ∧
    Does (.sltu rd rs1 rs2) s { x := some (rd, if (s.readX rs1).toNat < (s.readX rs2).toNat then 1 else 0) } ∧
    Does (.xor rd rs1 rs2) s { x := some (rd, s.readX rs1 ^^^ s.readX rs2) } ∧
    Does (.srl rd rs1 rs2) s
      { x := some (rd, BitVec.ofNat 64 ((s.readX rs1).toNat / 2 ^ ((s.readX rs2).toNat % 64))) } ∧
    Does (.sra rd rs1 rs2) s
      { x := some (rd, BitVec.ofInt 64 ((s.readX rs1).toInt / 2 ^ ((s.readX rs2).toNat % 64))) } ∧
    Does (.or rd rs1 rs2) s { x := some (rd, s.readX rs1 ||| s.readX rs2) } ∧
    Does (.and rd rs1 rs2) s { x := some (rd, s.readX rs1 &&& s.readX rs2) }

/-- R124, R125, R127 to R132 at XLEN = 64: the register-immediate operations but SLTIU. -/
def Obligations.AluImmediateResults : Prop :=
  ∀ (s : State) (rd rs1 : XReg) (imm : BitVec 12) (shamt : BitVec 6), s.env.xlen = .rv64 →
    Does (.addi rd rs1 imm) s
      { x := some (rd, BitVec.ofNat 64 ((s.readX rs1).toNat + (imm.signExtend 64).toNat)) } ∧
    Does (.slti rd rs1 imm) s { x := some (rd, if (s.readX rs1).toInt < imm.toInt then 1 else 0) } ∧
    Does (.xori rd rs1 imm) s { x := some (rd, s.readX rs1 ^^^ imm.signExtend 64) } ∧
    Does (.ori rd rs1 imm) s { x := some (rd, s.readX rs1 ||| imm.signExtend 64) } ∧
    Does (.andi rd rs1 imm) s { x := some (rd, s.readX rs1 &&& imm.signExtend 64) } ∧
    Does (.slli rd rs1 shamt) s { x := some (rd, BitVec.ofNat 64 ((s.readX rs1).toNat * 2 ^ shamt.toNat)) } ∧
    Does (.srli rd rs1 shamt) s { x := some (rd, BitVec.ofNat 64 ((s.readX rs1).toNat / 2 ^ shamt.toNat)) } ∧
    Does (.srai rd rs1 shamt) s { x := some (rd, BitVec.ofInt 64 ((s.readX rs1).toInt / 2 ^ shamt.toNat)) }

/-- R133 to R137, R139 to R141 (XLEN = 64 only): the W forms but ADDIW compute on the low words and sign-extend the
32-bit result. -/
def Obligations.AluWordResults : Prop :=
  ∀ (s : State) (rd rs1 rs2 : XReg) (shamt : BitVec 5), s.env.xlen = .rv64 →
    Does (.addw rd rs1 rs2) s { x := some (rd, sextW ((s.lowX rs1).toNat + (s.lowX rs2).toNat)) } ∧
    Does (.subw rd rs1 rs2) s { x := some (rd, sextW ((s.lowX rs1).toNat - (s.lowX rs2).toNat)) } ∧
    Does (.sllw rd rs1 rs2) s
      { x := some (rd, sextW ((s.lowX rs1).toNat * 2 ^ ((s.lowX rs2).toNat % 32) : Nat)) } ∧
    Does (.srlw rd rs1 rs2) s
      { x := some (rd, sextW ((s.lowX rs1).toNat / 2 ^ ((s.lowX rs2).toNat % 32) : Nat)) } ∧
    Does (.sraw rd rs1 rs2) s { x := some (rd, sextW ((s.lowX rs1).toInt / 2 ^ ((s.lowX rs2).toNat % 32))) } ∧
    Does (.slliw rd rs1 shamt) s { x := some (rd, sextW ((s.lowX rs1).toNat * 2 ^ shamt.toNat : Nat)) } ∧
    Does (.srliw rd rs1 shamt) s { x := some (rd, sextW ((s.lowX rs1).toNat / 2 ^ shamt.toNat : Nat)) } ∧
    Does (.sraiw rd rs1 shamt) s { x := some (rd, sextW ((s.lowX rs1).toInt / 2 ^ shamt.toNat)) }

/-- The ALU where the spec's rule is a decision or an inference of its own. At both XLENs, SLTIU compares the
sign-extended immediate as an unsigned number (R126, decision D16). ADDIW is the W form of ADDI (R138, which the spec
derives). At XLEN = 32 the ALU is read with 64 replaced by 32 (R143, decision D2; log entry 2). And the words that
spell the 28 instructions of the ALU (R90, R92, R93). (The spec's own choices: D2, D16, D3, G1). -/
def Obligations.AluDerivedResults : Prop :=
  (∀ (s : State) (rd rs1 rs2 : XReg) (imm : BitVec 12) (shamt : BitVec 6),
    Does (.sltiu rd rs1 imm) s
      { x := some (rd, if (s.unsignedX rs1 : Int) < imm.toInt % 2 ^ s.env.xlen.bits then 1 else 0) } ∧
    (s.env.xlen = .rv64 →
      Does (.addiw rd rs1 imm) s { x := some (rd, sextW ((s.lowX rs1).toInt + imm.toInt)) }) ∧
    (s.env.xlen = .rv32 →
      Does (.add rd rs1 rs2) s { x := some (rd, s.trunc (s.signedX rs1 + s.signedX rs2)) } ∧
      Does (.sub rd rs1 rs2) s { x := some (rd, s.trunc (s.signedX rs1 - s.signedX rs2)) } ∧
      Does (.sll rd rs1 rs2) s
        { x := some (rd, s.trunc (s.unsignedX rs1 * 2 ^ (s.unsignedX rs2 % s.env.xlen.bits) : Nat)) } ∧
      Does (.slt rd rs1 rs2) s { x := some (rd, if s.signedX rs1 < s.signedX rs2 then 1 else 0) } ∧
      Does (.sltu rd rs1 rs2) s { x := some (rd, if s.unsignedX rs1 < s.unsignedX rs2 then 1 else 0) } ∧
      Does (.xor rd rs1 rs2) s { x := some (rd, s.readX rs1 ^^^ s.readX rs2) } ∧
      Does (.srl rd rs1 rs2) s
        { x := some (rd, s.trunc (s.unsignedX rs1 / 2 ^ (s.unsignedX rs2 % s.env.xlen.bits) : Nat)) } ∧
      Does (.sra rd rs1 rs2) s
        { x := some (rd, s.trunc (s.signedX rs1 / 2 ^ (s.unsignedX rs2 % s.env.xlen.bits))) } ∧
      Does (.or rd rs1 rs2) s { x := some (rd, s.readX rs1 ||| s.readX rs2) } ∧
      Does (.and rd rs1 rs2) s { x := some (rd, s.readX rs1 &&& s.readX rs2) } ∧
      Does (.addi rd rs1 imm) s { x := some (rd, s.trunc (s.signedX rs1 + imm.toInt)) } ∧
      Does (.slti rd rs1 imm) s { x := some (rd, if s.signedX rs1 < imm.toInt then 1 else 0) } ∧
      Does (.xori rd rs1 imm) s { x := some (rd, s.readX rs1 ^^^ imm.signExtend 64) } ∧
      Does (.ori rd rs1 imm) s { x := some (rd, s.readX rs1 ||| imm.signExtend 64) } ∧
      Does (.andi rd rs1 imm) s { x := some (rd, s.readX rs1 &&& imm.signExtend 64) } ∧
      (shamt.toNat < s.env.xlen.bits →
        Does (.slli rd rs1 shamt) s { x := some (rd, s.trunc (s.unsignedX rs1 * 2 ^ shamt.toNat : Nat)) } ∧
        Does (.srli rd rs1 shamt) s { x := some (rd, s.trunc (s.unsignedX rs1 / 2 ^ shamt.toNat : Nat)) } ∧
        Does (.srai rd rs1 shamt) s { x := some (rd, s.trunc (s.signedX rs1 / 2 ^ shamt.toNat)) }))) ∧
  Spells 0x0000707F 0x00003013 (fun w => .sltiu (fRd w) (fRs1 w) (fImmI w)) ∧
  Spells 0x0000707F 0x0000001B (fun w => .addiw (fRd w) (fRs1 w) (fImmI w)) ∧
  Spells 0xFE00707F 0x00000033 (fun w => .add (fRd w) (fRs1 w) (fRs2 w)) ∧
  Spells 0xFE00707F 0x40000033 (fun w => .sub (fRd w) (fRs1 w) (fRs2 w)) ∧
  Spells 0xFE00707F 0x00001033 (fun w => .sll (fRd w) (fRs1 w) (fRs2 w)) ∧
  Spells 0xFE00707F 0x00002033 (fun w => .slt (fRd w) (fRs1 w) (fRs2 w)) ∧
  Spells 0xFE00707F 0x00003033 (fun w => .sltu (fRd w) (fRs1 w) (fRs2 w)) ∧
  Spells 0xFE00707F 0x00004033 (fun w => .xor (fRd w) (fRs1 w) (fRs2 w)) ∧
  Spells 0xFE00707F 0x00005033 (fun w => .srl (fRd w) (fRs1 w) (fRs2 w)) ∧
  Spells 0xFE00707F 0x40005033 (fun w => .sra (fRd w) (fRs1 w) (fRs2 w)) ∧
  Spells 0xFE00707F 0x00006033 (fun w => .or (fRd w) (fRs1 w) (fRs2 w)) ∧
  Spells 0xFE00707F 0x00007033 (fun w => .and (fRd w) (fRs1 w) (fRs2 w)) ∧
  Spells 0x0000707F 0x00000013 (fun w => .addi (fRd w) (fRs1 w) (fImmI w)) ∧
  Spells 0x0000707F 0x00002013 (fun w => .slti (fRd w) (fRs1 w) (fImmI w)) ∧
  Spells 0x0000707F 0x00004013 (fun w => .xori (fRd w) (fRs1 w) (fImmI w)) ∧
  Spells 0x0000707F 0x00006013 (fun w => .ori (fRd w) (fRs1 w) (fImmI w)) ∧
  Spells 0x0000707F 0x00007013 (fun w => .andi (fRd w) (fRs1 w) (fImmI w)) ∧
  Spells 0xFC00707F 0x00001013 (fun w => .slli (fRd w) (fRs1 w) (fShamt6 w)) ∧
  Spells 0xFC00707F 0x00005013 (fun w => .srli (fRd w) (fRs1 w) (fShamt6 w)) ∧
  Spells 0xFC00707F 0x40005013 (fun w => .srai (fRd w) (fRs1 w) (fShamt6 w)) ∧
  Spells 0xFE00707F 0x0000003B (fun w => .addw (fRd w) (fRs1 w) (fRs2 w)) ∧
  Spells 0xFE00707F 0x4000003B (fun w => .subw (fRd w) (fRs1 w) (fRs2 w)) ∧
  Spells 0xFE00707F 0x0000103B (fun w => .sllw (fRd w) (fRs1 w) (fRs2 w)) ∧
  Spells 0xFE00707F 0x0000503B (fun w => .srlw (fRd w) (fRs1 w) (fRs2 w)) ∧
  Spells 0xFE00707F 0x4000503B (fun w => .sraw (fRd w) (fRs1 w) (fRs2 w)) ∧
  Spells 0xFE00707F 0x0000101B (fun w => .slliw (fRd w) (fRs1 w) (fShamt5 w)) ∧
  Spells 0xFE00707F 0x0000501B (fun w => .srliw (fRd w) (fRs1 w) (fShamt5 w)) ∧
  Spells 0xFE00707F 0x4000501B (fun w => .sraiw (fRd w) (fRs1 w) (fShamt5 w))

/-- R111: the result of a W form is the sign-extension of its low word, and depends on the low words of the operands
alone. -/
def Obligations.WFormInvariant : Prop :=
  ∀ (i : Instr) (rd rs1 rs2 : XReg) (s s' t t' : State),
    (∃ imm shamt, i ∈ [.addw rd rs1 rs2, .subw rd rs1 rs2, .sllw rd rs1 rs2, .srlw rd rs1 rs2, .sraw rd rs1 rs2,
      .addiw rd rs1 imm, .slliw rd rs1 shamt, .srliw rd rs1 shamt, .sraiw rd rs1 shamt, .mulw rd rs1 rs2,
      .divw rd rs1 rs2, .divuw rd rs1 rs2, .remw rd rs1 rs2, .remuw rd rs1 rs2]) →
    s.lowX rs1 = s'.lowX rs1 → s.lowX rs2 = s'.lowX rs2 → exec i s = .next t → exec i s' = .next t' →
    t.readX rd = (t.lowX rd).signExtend 64 ∧ t.readX rd = t'.readX rd

/-- R6, R401, R402: at XLEN = 32 an RV64-only tag is a contract violation, decoding never yields one but answers
illegal for its words, and so no step of a running hart is a contract violation. (The spec's own choice: D2; the
model's: log entry 15). -/
def Obligations.Rv64OnlyAtXlen32 : Prop :=
  (∀ (i : Instr) (s : State), i.rv64Only = true → s.env.xlen = .rv32 → exec i s = .fault .contractViolation) ∧
  (∀ (w : InstrWord) (i : Instr), decode .rv32 w = .instr i → i.rv64Only = false) ∧
  (∀ r ∈ rows, ∀ w, r.hits w = true → (r.build w).rv64Only = true → decode .rv32 w = .illegal) ∧
  (∀ s : State, s.status = .running → step s ≠ .fault .contractViolation)

/-! ## Loads and stores -/

/-- R170, R171, R173 to R179: a load whose access is done writes the little-endian value, sign-extended or
zero-extended. And the words that spell them (R90, R92, R93). (The spec's own choices: D7, D8, D9, D3, G1). -/
def Obligations.LoadResults : Prop :=
  (∀ (s : State) (rd rs1 : XReg) (imm : BitVec 12),
    (s.allMapped (s.effAddr rs1 imm) 1 = true →
      Does (.lb rd rs1 imm) s
        { x := some (rd, (BitVec.ofNat 8 (s.leNat (s.effAddr rs1 imm) 1)).signExtend 64) } ∧
      Does (.lbu rd rs1 imm) s { x := some (rd, BitVec.ofNat 64 (s.leNat (s.effAddr rs1 imm) 1)) }) ∧
    (s.accessible (s.effAddr rs1 imm) 2 →
      Does (.lh rd rs1 imm) s
        { x := some (rd, (BitVec.ofNat 16 (s.leNat (s.effAddr rs1 imm) 2)).signExtend 64) } ∧
      Does (.lhu rd rs1 imm) s { x := some (rd, BitVec.ofNat 64 (s.leNat (s.effAddr rs1 imm) 2)) }) ∧
    (s.accessible (s.effAddr rs1 imm) 4 →
      Does (.lw rd rs1 imm) s
        { x := some (rd, (BitVec.ofNat 32 (s.leNat (s.effAddr rs1 imm) 4)).signExtend 64) } ∧
      (s.env.xlen = .rv64 →
        Does (.lwu rd rs1 imm) s { x := some (rd, BitVec.ofNat 64 (s.leNat (s.effAddr rs1 imm) 4)) })) ∧
    (s.accessible (s.effAddr rs1 imm) 8 → s.env.xlen = .rv64 →
      Does (.ld rd rs1 imm) s { x := some (rd, BitVec.ofNat 64 (s.leNat (s.effAddr rs1 imm) 8)) })) ∧
  Spells 0x0000707F 0x00000003 (fun w => .lb (fRd w) (fRs1 w) (fImmI w)) ∧
  Spells 0x0000707F 0x00001003 (fun w => .lh (fRd w) (fRs1 w) (fImmI w)) ∧
  Spells 0x0000707F 0x00002003 (fun w => .lw (fRd w) (fRs1 w) (fImmI w)) ∧
  Spells 0x0000707F 0x00003003 (fun w => .ld (fRd w) (fRs1 w) (fImmI w)) ∧
  Spells 0x0000707F 0x00004003 (fun w => .lbu (fRd w) (fRs1 w) (fImmI w)) ∧
  Spells 0x0000707F 0x00005003 (fun w => .lhu (fRd w) (fRs1 w) (fImmI w)) ∧
  Spells 0x0000707F 0x00006003 (fun w => .lwu (fRd w) (fRs1 w) (fImmI w))

/-- R170, R172, R180 to R183: a store whose access is done writes the low bytes of x[rs2] at the effective address,
little-endian, and nothing else. And the words that spell them (R90, R92, R93). (The spec's own choices: D7, D8, D9,
D3, G1). -/
def Obligations.StoreResults : Prop :=
  (∀ (s : State) (rs1 rs2 : XReg) (imm : BitVec 12),
    (s.allMapped (s.effAddr rs1 imm) 1 = true →
      Does (.sb rs1 rs2 imm) s { bytes := s.cells (s.effAddr rs1 imm) 1 (s.readX rs2).toNat }) ∧
    (s.accessible (s.effAddr rs1 imm) 2 →
      Does (.sh rs1 rs2 imm) s { bytes := s.cells (s.effAddr rs1 imm) 2 (s.readX rs2).toNat }) ∧
    (s.accessible (s.effAddr rs1 imm) 4 →
      Does (.sw rs1 rs2 imm) s { bytes := s.cells (s.effAddr rs1 imm) 4 (s.readX rs2).toNat }) ∧
    (s.accessible (s.effAddr rs1 imm) 8 → s.env.xlen = .rv64 →
      Does (.sd rs1 rs2 imm) s { bytes := s.cells (s.effAddr rs1 imm) 8 (s.readX rs2).toNat })) ∧
  Spells 0x0000707F 0x00000023 (fun w => .sb (fRs1 w) (fRs2 w) (fImmS w)) ∧
  Spells 0x0000707F 0x00001023 (fun w => .sh (fRs1 w) (fRs2 w) (fImmS w)) ∧
  Spells 0x0000707F 0x00002023 (fun w => .sw (fRs1 w) (fRs2 w) (fImmS w)) ∧
  Spells 0x0000707F 0x00003023 (fun w => .sd (fRs1 w) (fRs2 w) (fImmS w))

/-- R69, R170: the effective address is x[rs1] plus the sign-extended offset modulo 2^XLEN, and byte i of an access
stands i addresses further, modulo 2^XLEN (R56). (The spec's own choice: D15). -/
def Obligations.EffectiveAddress : Prop :=
  ∀ (s : State) (rs1 : XReg) (imm : BitVec 12) (a : Word) (i : Nat),
    ((s.effAddr rs1 imm).toNat : Int) = (s.unsignedX rs1 + imm.toInt) % 2 ^ s.env.xlen.bits ∧
    (s.atomAddr rs1).toNat = s.unsignedX rs1 ∧
    s.byteAddr a i = (a.toNat + i) % 2 ^ s.env.xlen.bits

/-- R54, R56, R403, R407: with `misaligned_ldst = fault` a misaligned load or store raises its misaligned fault at the
effective address, whether or not its bytes exist; an aligned one with a byte outside `MemMap` raises AccessFault
there, and with `misaligned_ldst = bytewise` so does a misaligned load. (The spec's own choices: D8, D9, D30). -/
def Obligations.LoadStoreFaults : Prop :=
  (∀ (s : State) (r rs1 : XReg) (imm : BitVec 12), s.env.misaligned = .fault →
    ((s.effAddr rs1 imm).toNat % 2 ≠ 0 →
      exec (.lh r rs1 imm) s = .fault (.loadAddressMisaligned (s.effAddr rs1 imm)) ∧
      exec (.lhu r rs1 imm) s = .fault (.loadAddressMisaligned (s.effAddr rs1 imm)) ∧
      exec (.sh rs1 r imm) s = .fault (.storeAddressMisaligned (s.effAddr rs1 imm))) ∧
    ((s.effAddr rs1 imm).toNat % 4 ≠ 0 →
      exec (.lw r rs1 imm) s = .fault (.loadAddressMisaligned (s.effAddr rs1 imm)) ∧
      exec (.sw rs1 r imm) s = .fault (.storeAddressMisaligned (s.effAddr rs1 imm)) ∧
      (s.env.xlen = .rv64 →
        exec (.lwu r rs1 imm) s = .fault (.loadAddressMisaligned (s.effAddr rs1 imm)))) ∧
    ((s.effAddr rs1 imm).toNat % 8 ≠ 0 → s.env.xlen = .rv64 →
      exec (.ld r rs1 imm) s = .fault (.loadAddressMisaligned (s.effAddr rs1 imm)) ∧
      exec (.sd rs1 r imm) s = .fault (.storeAddressMisaligned (s.effAddr rs1 imm)))) ∧
  (∀ (s : State) (r rs1 : XReg) (imm : BitVec 12),
    (s.allMapped (s.effAddr rs1 imm) 1 = false →
      exec (.lb r rs1 imm) s = .fault (.accessFault (s.effAddr rs1 imm) []) ∧
      exec (.lbu r rs1 imm) s = .fault (.accessFault (s.effAddr rs1 imm) []) ∧
      exec (.sb rs1 r imm) s = .fault (.accessFault (s.effAddr rs1 imm) [])) ∧
    ((s.effAddr rs1 imm).toNat % 2 = 0 → s.allMapped (s.effAddr rs1 imm) 2 = false →
      exec (.lh r rs1 imm) s = .fault (.accessFault (s.effAddr rs1 imm) []) ∧
      exec (.lhu r rs1 imm) s = .fault (.accessFault (s.effAddr rs1 imm) []) ∧
      exec (.sh rs1 r imm) s = .fault (.accessFault (s.effAddr rs1 imm) [])) ∧
    ((s.effAddr rs1 imm).toNat % 4 = 0 → s.allMapped (s.effAddr rs1 imm) 4 = false →
      exec (.lw r rs1 imm) s = .fault (.accessFault (s.effAddr rs1 imm) []) ∧
      exec (.sw rs1 r imm) s = .fault (.accessFault (s.effAddr rs1 imm) []) ∧
      (s.env.xlen = .rv64 → exec (.lwu r rs1 imm) s = .fault (.accessFault (s.effAddr rs1 imm) []))) ∧
    ((s.effAddr rs1 imm).toNat % 8 = 0 → s.allMapped (s.effAddr rs1 imm) 8 = false → s.env.xlen = .rv64 →
      exec (.ld r rs1 imm) s = .fault (.accessFault (s.effAddr rs1 imm) []) ∧
      exec (.sd rs1 r imm) s = .fault (.accessFault (s.effAddr rs1 imm) []))) ∧
  (∀ (s : State) (r rs1 : XReg) (imm : BitVec 12), s.env.misaligned = .bytewise →
    (s.allMapped (s.effAddr rs1 imm) 2 = false →
      exec (.lh r rs1 imm) s = .fault (.accessFault (s.effAddr rs1 imm) []) ∧
      exec (.lhu r rs1 imm) s = .fault (.accessFault (s.effAddr rs1 imm) [])) ∧
    (s.allMapped (s.effAddr rs1 imm) 4 = false →
      exec (.lw r rs1 imm) s = .fault (.accessFault (s.effAddr rs1 imm) []) ∧
      (s.env.xlen = .rv64 → exec (.lwu r rs1 imm) s = .fault (.accessFault (s.effAddr rs1 imm) []))) ∧
    (s.allMapped (s.effAddr rs1 imm) 8 = false → s.env.xlen = .rv64 →
      exec (.ld r rs1 imm) s = .fault (.accessFault (s.effAddr rs1 imm) [])))

/-- R54: a misaligned store done byte by byte that meets its first missing byte at offset m stops with AccessFault, and
the hart then holds the m earlier bytes in memory; every register, the pc, fflags, frm and the reservation are as
before. (The spec's own choice: D8; the model's: log entry 11). -/
def Obligations.BytewiseStoreFault : Prop :=
  ∀ (s : State) (rs1 rs2 : XReg) (imm : BitVec 12) (n m : Nat) (i : Instr),
    (n = 2 ∧ i = .sh rs1 rs2 imm) ∨ (n = 4 ∧ i = .sw rs1 rs2 imm) ∨
      (n = 8 ∧ i = .sd rs1 rs2 imm ∧ s.env.xlen = .rv64) →
    s.env.misaligned = .bytewise → (s.effAddr rs1 imm).toNat % n ≠ 0 → m < n →
    (∀ j < m, s.mapped (s.byteAddr (s.effAddr rs1 imm) j) = true) →
    s.mapped (s.byteAddr (s.effAddr rs1 imm) m) = false →
    ∃ landed, exec i s = .fault (.accessFault (s.effAddr rs1 imm) landed) ∧
      (∀ k, (s.settle (exec i s)).readByte k =
        ((s.cells (s.effAddr rs1 imm) m (s.readX rs2).toNat).lookup k).getD (s.readByte k)) ∧
      (s.settle (exec i s)).x = s.x ∧ (s.settle (exec i s)).f = s.f ∧ (s.settle (exec i s)).pc = s.pc ∧
      (s.settle (exec i s)).fflags = s.fflags ∧ (s.settle (exec i s)).frm = s.frm ∧
      (s.settle (exec i s)).reservation = s.reservation

/-- R400, R408: a fault or a refusal changes nothing but the hart's status; only a misaligned store done byte by byte
may leave bytes stored (R54). (The spec's own choice: D30; the model's: log entry 11). -/
def Obligations.StopsKeepState : Prop :=
  (∀ (i : Instr) (s : State) (f : Fault), exec i s = .fault f →
    ∃ m, s.settle (exec i s) = { s with status := .faulted f, mem := m } ∧
      (m = s.mem ∨
        s.env.misaligned = .bytewise ∧ ∃ rs1 rs2 imm,
          i = .sh rs1 rs2 imm ∧ (s.effAddr rs1 imm).toNat % 2 ≠ 0 ∨
          i = .sw rs1 rs2 imm ∧ (s.effAddr rs1 imm).toNat % 4 ≠ 0 ∨
          i = .sd rs1 rs2 imm ∧ (s.effAddr rs1 imm).toNat % 8 ≠ 0)) ∧
  (∀ (i : Instr) (s : State) (r : Refusal), exec i s = .refused r →
    s.settle (exec i s) = { s with status := .refused r })

/-! ## Multiply and divide -/

/-- R193 to R196, R200 to R203, R209 (decision D2): at both XLENs, the low half and the three high halves of the exact
product, quotients toward zero and remainders with the sign of the dividend (R192, general knowledge of the spec's),
and the fixed results of a zero divisor and of the signed overflow; nothing traps. And the words that spell the eight
and MULW (R90, R92, R93). (The spec's own choices: D2, D17, D3, G1). -/
def Obligations.MultiplyDivideResults : Prop :=
  (∀ (s : State) (rd rs1 rs2 : XReg),
    Does (.mul rd rs1 rs2) s { x := some (rd, s.trunc (s.signedX rs1 * s.signedX rs2)) } ∧
    Does (.mulh rd rs1 rs2) s
      { x := some (rd, s.trunc (s.signedX rs1 * s.signedX rs2 / 2 ^ s.env.xlen.bits)) } ∧
    Does (.mulhsu rd rs1 rs2) s
      { x := some (rd, s.trunc (s.signedX rs1 * s.unsignedX rs2 / 2 ^ s.env.xlen.bits)) } ∧
    Does (.mulhu rd rs1 rs2) s
      { x := some (rd, s.trunc (s.unsignedX rs1 * s.unsignedX rs2 / 2 ^ s.env.xlen.bits : Nat)) } ∧
    Does (.div rd rs1 rs2) s { x := some (rd,
      if s.signedX rs2 = 0 then s.trunc (-1)
      else if s.signedX rs1 = -2 ^ (s.env.xlen.bits - 1) ∧ s.signedX rs2 = -1 then s.readX rs1
      else s.trunc ((s.signedX rs1).tdiv (s.signedX rs2))) } ∧
    Does (.divu rd rs1 rs2) s { x := some (rd,
      if s.unsignedX rs2 = 0 then s.trunc (2 ^ s.env.xlen.bits - 1)
      else s.trunc (s.unsignedX rs1 / s.unsignedX rs2 : Nat)) } ∧
    Does (.rem rd rs1 rs2) s { x := some (rd,
      if s.signedX rs2 = 0 then s.readX rs1
      else if s.signedX rs1 = -2 ^ (s.env.xlen.bits - 1) ∧ s.signedX rs2 = -1 then 0
      else s.trunc ((s.signedX rs1).tmod (s.signedX rs2))) } ∧
    Does (.remu rd rs1 rs2) s { x := some (rd,
      if s.unsignedX rs2 = 0 then s.readX rs1
      else s.trunc (s.unsignedX rs1 % s.unsignedX rs2 : Nat)) }) ∧
  Spells 0xFE00707F 0x02000033 (fun w => .mul (fRd w) (fRs1 w) (fRs2 w)) ∧
  Spells 0xFE00707F 0x02004033 (fun w => .div (fRd w) (fRs1 w) (fRs2 w)) ∧
  Spells 0xFE00707F 0x02006033 (fun w => .rem (fRd w) (fRs1 w) (fRs2 w)) ∧
  Spells 0xFE00707F 0x02001033 (fun w => .mulh (fRd w) (fRs1 w) (fRs2 w)) ∧
  Spells 0xFE00707F 0x02002033 (fun w => .mulhsu (fRd w) (fRs1 w) (fRs2 w)) ∧
  Spells 0xFE00707F 0x02003033 (fun w => .mulhu (fRd w) (fRs1 w) (fRs2 w)) ∧
  Spells 0xFE00707F 0x0200003B (fun w => .mulw (fRd w) (fRs1 w) (fRs2 w)) ∧
  Spells 0xFE00707F 0x02005033 (fun w => .divu (fRd w) (fRs1 w) (fRs2 w)) ∧
  Spells 0xFE00707F 0x02007033 (fun w => .remu (fRd w) (fRs1 w) (fRs2 w))

/-- R204 to R207: the W forms of division, on the low words. And the words that spell them (R90, R92, R93). (The spec's
own choices: D17, D18, D3, G1). -/
def Obligations.DivideWordResults : Prop :=
  (∀ (s : State) (rd rs1 rs2 : XReg), s.env.xlen = .rv64 →
    Does (.divw rd rs1 rs2) s { x := some (rd,
      if s.lowX rs2 = 0 then sextW (-1)
      else if (s.lowX rs1).toInt = -2 ^ 31 ∧ (s.lowX rs2).toInt = -1 then sextW (-2 ^ 31)
      else sextW ((s.lowX rs1).toInt.tdiv (s.lowX rs2).toInt)) } ∧
    Does (.divuw rd rs1 rs2) s { x := some (rd,
      if s.lowX rs2 = 0 then sextW (2 ^ 32 - 1)
      else sextW ((s.lowX rs1).toNat / (s.lowX rs2).toNat : Nat)) } ∧
    Does (.remw rd rs1 rs2) s { x := some (rd,
      if s.lowX rs2 = 0 then (s.lowX rs1).signExtend 64
      else if (s.lowX rs1).toInt = -2 ^ 31 ∧ (s.lowX rs2).toInt = -1 then 0
      else sextW ((s.lowX rs1).toInt.tmod (s.lowX rs2).toInt)) } ∧
    Does (.remuw rd rs1 rs2) s { x := some (rd,
      if s.lowX rs2 = 0 then (s.lowX rs1).signExtend 64
      else sextW ((s.lowX rs1).toNat % (s.lowX rs2).toNat : Nat)) }) ∧
  Spells 0xFE00707F 0x0200403B (fun w => .divw (fRd w) (fRs1 w) (fRs2 w)) ∧
  Spells 0xFE00707F 0x0200503B (fun w => .divuw (fRd w) (fRs1 w) (fRs2 w)) ∧
  Spells 0xFE00707F 0x0200603B (fun w => .remw (fRd w) (fRs1 w) (fRs2 w)) ∧
  Spells 0xFE00707F 0x0200703B (fun w => .remuw (fRd w) (fRs1 w) (fRs2 w))

/-- R194 to R197, R201, R203 at XLEN = 64: the three high halves, MULW, and the unsigned quotient and remainder. -/
def Obligations.MultiplyDivide64 : Prop :=
  ∀ (s : State) (rd rs1 rs2 : XReg), s.env.xlen = .rv64 →
    Does (.mulh rd rs1 rs2) s
      { x := some (rd, BitVec.ofInt 64 ((s.readX rs1).toInt * (s.readX rs2).toInt / 2 ^ 64)) } ∧
    Does (.mulhsu rd rs1 rs2) s
      { x := some (rd, BitVec.ofInt 64 ((s.readX rs1).toInt * (s.readX rs2).toNat / 2 ^ 64)) } ∧
    Does (.mulhu rd rs1 rs2) s
      { x := some (rd, BitVec.ofNat 64 ((s.readX rs1).toNat * (s.readX rs2).toNat / 2 ^ 64)) } ∧
    Does (.mulw rd rs1 rs2) s { x := some (rd, sextW ((s.lowX rs1).toInt * (s.lowX rs2).toInt)) } ∧
    Does (.divu rd rs1 rs2) s { x := some (rd,
      if s.readX rs2 = 0 then 0xFFFFFFFFFFFFFFFF
      else BitVec.ofNat 64 ((s.readX rs1).toNat / (s.readX rs2).toNat)) } ∧
    Does (.remu rd rs1 rs2) s { x := some (rd,
      if s.readX rs2 = 0 then s.readX rs1
      else BitVec.ofNat 64 ((s.readX rs1).toNat % (s.readX rs2).toNat)) }

/-- Derived from R200 to R203: quotient times divisor plus remainder is the dividend modulo 2^XLEN, in the corner cases
too, signed and unsigned. (The spec's own choices: D2, D17). -/
def Obligations.DivisionIdentity : Prop :=
  ∀ (s tq tr uq ur : State) (rd rs1 rs2 : XReg), rd ≠ 0#5 →
    exec (.div rd rs1 rs2) s = .next tq → exec (.rem rd rs1 rs2) s = .next tr →
    exec (.divu rd rs1 rs2) s = .next uq → exec (.remu rd rs1 rs2) s = .next ur →
    s.env.xlen.canon (tq.readX rd * s.readX rs2 + tr.readX rd) = s.readX rs1 ∧
    s.env.xlen.canon (uq.readX rd * s.readX rs2 + ur.readX rd) = s.readX rs1

/-! ## Atomics -/

/-- R222, R223, R225 to R233: the .W read-modify-writes, at both XLENs. And the words that spell them (R90, R92, R93).
(The spec's own choices: D7, D8, D11, D3, G1). -/
def Obligations.AmoWordResults : Prop :=
  (∀ (s : State) (aq rl : Bool) (rd rs1 rs2 : XReg), s.atomOk rs1 .word →
    Does (.amoswapW aq rl rd rs1 rs2) s (amoEffectW s rd rs1 (s.lowX rs2)) ∧
    Does (.amoaddW aq rl rd rs1 rs2) s
      (amoEffectW s rd rs1 (BitVec.ofInt 32 ((s.memWord rs1).toInt + (s.lowX rs2).toInt))) ∧
    Does (.amoxorW aq rl rd rs1 rs2) s (amoEffectW s rd rs1 (s.memWord rs1 ^^^ s.lowX rs2)) ∧
    Does (.amoandW aq rl rd rs1 rs2) s (amoEffectW s rd rs1 (s.memWord rs1 &&& s.lowX rs2)) ∧
    Does (.amoorW aq rl rd rs1 rs2) s (amoEffectW s rd rs1 (s.memWord rs1 ||| s.lowX rs2)) ∧
    Does (.amominW aq rl rd rs1 rs2) s (amoEffectW s rd rs1
      (BitVec.ofInt 32 (min (s.memWord rs1).toInt (s.lowX rs2).toInt))) ∧
    Does (.amomaxW aq rl rd rs1 rs2) s (amoEffectW s rd rs1
      (BitVec.ofInt 32 (max (s.memWord rs1).toInt (s.lowX rs2).toInt))) ∧
    Does (.amominuW aq rl rd rs1 rs2) s (amoEffectW s rd rs1
      (BitVec.ofNat 32 (min (s.memWord rs1).toNat (s.lowX rs2).toNat))) ∧
    Does (.amomaxuW aq rl rd rs1 rs2) s (amoEffectW s rd rs1
      (BitVec.ofNat 32 (max (s.memWord rs1).toNat (s.lowX rs2).toNat)))) ∧
  Spells 0xF800707F 0x0800202F (fun w => .amoswapW (fAq w) (fRl w) (fRd w) (fRs1 w) (fRs2 w)) ∧
  Spells 0xF800707F 0x0000202F (fun w => .amoaddW (fAq w) (fRl w) (fRd w) (fRs1 w) (fRs2 w)) ∧
  Spells 0xF800707F 0x2000202F (fun w => .amoxorW (fAq w) (fRl w) (fRd w) (fRs1 w) (fRs2 w)) ∧
  Spells 0xF800707F 0x6000202F (fun w => .amoandW (fAq w) (fRl w) (fRd w) (fRs1 w) (fRs2 w)) ∧
  Spells 0xF800707F 0x4000202F (fun w => .amoorW (fAq w) (fRl w) (fRd w) (fRs1 w) (fRs2 w)) ∧
  Spells 0xF800707F 0x8000202F (fun w => .amominW (fAq w) (fRl w) (fRd w) (fRs1 w) (fRs2 w)) ∧
  Spells 0xF800707F 0xA000202F (fun w => .amomaxW (fAq w) (fRl w) (fRd w) (fRs1 w) (fRs2 w)) ∧
  Spells 0xF800707F 0xC000202F (fun w => .amominuW (fAq w) (fRl w) (fRd w) (fRs1 w) (fRs2 w)) ∧
  Spells 0xF800707F 0xE000202F (fun w => .amomaxuW (fAq w) (fRl w) (fRd w) (fRs1 w) (fRs2 w))

/-- R222, R224, R234 to R242: the .D read-modify-writes. And the words that spell them (R90, R92, R93). (The spec's own
choices: D7, D8, D11, D3, G1). -/
def Obligations.AmoDoubleResults : Prop :=
  (∀ (s : State) (aq rl : Bool) (rd rs1 rs2 : XReg), s.env.xlen = .rv64 → s.atomOk rs1 .double →
    Does (.amoswapD aq rl rd rs1 rs2) s (amoEffectD s rd rs1 (s.readX rs2)) ∧
    Does (.amoaddD aq rl rd rs1 rs2) s
      (amoEffectD s rd rs1 (BitVec.ofInt 64 ((s.memDouble rs1).toInt + s.signedX rs2))) ∧
    Does (.amoxorD aq rl rd rs1 rs2) s (amoEffectD s rd rs1 (s.memDouble rs1 ^^^ s.readX rs2)) ∧
    Does (.amoandD aq rl rd rs1 rs2) s (amoEffectD s rd rs1 (s.memDouble rs1 &&& s.readX rs2)) ∧
    Does (.amoorD aq rl rd rs1 rs2) s (amoEffectD s rd rs1 (s.memDouble rs1 ||| s.readX rs2)) ∧
    Does (.amominD aq rl rd rs1 rs2) s (amoEffectD s rd rs1
      (BitVec.ofInt 64 (min (s.memDouble rs1).toInt (s.signedX rs2)))) ∧
    Does (.amomaxD aq rl rd rs1 rs2) s (amoEffectD s rd rs1
      (BitVec.ofInt 64 (max (s.memDouble rs1).toInt (s.signedX rs2)))) ∧
    Does (.amominuD aq rl rd rs1 rs2) s (amoEffectD s rd rs1
      (BitVec.ofNat 64 (min (s.memDouble rs1).toNat (s.unsignedX rs2)))) ∧
    Does (.amomaxuD aq rl rd rs1 rs2) s (amoEffectD s rd rs1
      (BitVec.ofNat 64 (max (s.memDouble rs1).toNat (s.unsignedX rs2))))) ∧
  Spells 0xF800707F 0x0800302F (fun w => .amoswapD (fAq w) (fRl w) (fRd w) (fRs1 w) (fRs2 w)) ∧
  Spells 0xF800707F 0x0000302F (fun w => .amoaddD (fAq w) (fRl w) (fRd w) (fRs1 w) (fRs2 w)) ∧
  Spells 0xF800707F 0x2000302F (fun w => .amoxorD (fAq w) (fRl w) (fRd w) (fRs1 w) (fRs2 w)) ∧
  Spells 0xF800707F 0x6000302F (fun w => .amoandD (fAq w) (fRl w) (fRd w) (fRs1 w) (fRs2 w)) ∧
  Spells 0xF800707F 0x4000302F (fun w => .amoorD (fAq w) (fRl w) (fRd w) (fRs1 w) (fRs2 w)) ∧
  Spells 0xF800707F 0x8000302F (fun w => .amominD (fAq w) (fRl w) (fRd w) (fRs1 w) (fRs2 w)) ∧
  Spells 0xF800707F 0xA000302F (fun w => .amomaxD (fAq w) (fRl w) (fRd w) (fRs1 w) (fRs2 w)) ∧
  Spells 0xF800707F 0xC000302F (fun w => .amominuD (fAq w) (fRl w) (fRd w) (fRs1 w) (fRs2 w)) ∧
  Spells 0xF800707F 0xE000302F (fun w => .amomaxuD (fAq w) (fRl w) (fRd w) (fRs1 w) (fRs2 w))

/-- R55, R56: an AMO, LR or SC at a misaligned address faults whatever `misaligned_ldst` is, and an aligned one with a
missing byte raises AccessFault; nothing is stored. (The spec's own choices: D8, D9). -/
def Obligations.AtomicFaults : Prop :=
  (∀ (i : Instr) (s : State) (rs1 : XReg) (n : AtomSize), atomForm i = some (rs1, n) →
    (i.rv64Only = true → s.env.xlen = .rv64) →
    ((s.atomAddr rs1).toNat % n.bytes ≠ 0 → exec i s = .fault (.storeAddressMisaligned (s.atomAddr rs1))) ∧
    ((s.atomAddr rs1).toNat % n.bytes = 0 → s.allMapped (s.atomAddr rs1) n.bytes = false →
      exec i s = .fault (.accessFault (s.atomAddr rs1) []))) ∧
  (∀ (s : State) (aq rl : Bool) (rd rs1 : XReg),
    ((s.atomAddr rs1).toNat % 4 ≠ 0 →
      exec (.lrW aq rl rd rs1) s = .fault (.loadAddressMisaligned (s.atomAddr rs1))) ∧
    ((s.atomAddr rs1).toNat % 4 = 0 → s.allMapped (s.atomAddr rs1) 4 = false →
      exec (.lrW aq rl rd rs1) s = .fault (.accessFault (s.atomAddr rs1) [])) ∧
    (s.env.xlen = .rv64 →
      ((s.atomAddr rs1).toNat % 8 ≠ 0 →
        exec (.lrD aq rl rd rs1) s = .fault (.loadAddressMisaligned (s.atomAddr rs1))) ∧
      ((s.atomAddr rs1).toNat % 8 = 0 → s.allMapped (s.atomAddr rs1) 8 = false →
        exec (.lrD aq rl rd rs1) s = .fault (.accessFault (s.atomAddr rs1) []))))

/-- R245, R246, R250: LR loads and holds a reservation of exactly its address and size. And the words that spell them
(R90, R92, R93). (The spec's own choices: D12, D3, G1). -/
def Obligations.LoadReservedResults : Prop :=
  (∀ (s : State) (aq rl : Bool) (rd rs1 : XReg),
    (s.atomOk rs1 .word → Does (.lrW aq rl rd rs1) s
      { x := some (rd, (s.memWord rs1).signExtend 64), reservation := some (some ⟨s.atomAddr rs1, .word⟩) }) ∧
    (s.env.xlen = .rv64 → s.atomOk rs1 .double → Does (.lrD aq rl rd rs1) s
      { x := some (rd, s.memDouble rs1), reservation := some (some ⟨s.atomAddr rs1, .double⟩) })) ∧
  Spells 0xF9F0707F 0x1000202F (fun w => .lrW (fAq w) (fRl w) (fRd w) (fRs1 w)) ∧
  Spells 0xF9F0707F 0x1000302F (fun w => .lrD (fAq w) (fRl w) (fRd w) (fRs1 w))

/-- R247, R248, R404: SC with no reservation fails; with its own reservation it succeeds or fails as the draw says, and
always succeeds when `sc_may_fail` is false; any SC leaves no reservation; with a reservation of another address or
size it is refused. The draw is the free value of log entry 8. And the words that spell them (R90, R92, R93). (The
spec's own choices: D12, D13, D3, G1). -/
def Obligations.StoreConditionalResults : Prop :=
  (∀ (s : State) (aq rl : Bool) (rd rs1 rs2 : XReg),
    (s.atomOk rs1 .word → s.reservation = none → Does (.scW aq rl rd rs1 rs2) s (scFailEffect rd)) ∧
    (s.atomOk rs1 .word → s.reservation = some ⟨s.atomAddr rs1, .word⟩ →
      Does (.scW aq rl rd rs1 rs2) s (scDrawEffect s .word rd rs1 rs2)) ∧
    (s.env.xlen = .rv64 → s.atomOk rs1 .double → s.reservation = none →
      Does (.scD aq rl rd rs1 rs2) s (scFailEffect rd)) ∧
    (s.env.xlen = .rv64 → s.atomOk rs1 .double → s.reservation = some ⟨s.atomAddr rs1, .double⟩ →
      Does (.scD aq rl rd rs1 rs2) s (scDrawEffect s .double rd rs1 rs2)) ∧
    (s.env.scMayFail = false → s.scDrawFails = false) ∧
    (∀ r, s.reservation = some r →
      (s.atomOk rs1 .word → (r.addr ≠ s.atomAddr rs1 ∨ r.size = .double) →
        exec (.scW aq rl rd rs1 rs2) s = .refused .scAddressMismatch) ∧
      (s.env.xlen = .rv64 → s.atomOk rs1 .double → (r.addr ≠ s.atomAddr rs1 ∨ r.size = .word) →
        exec (.scD aq rl rd rs1 rs2) s = .refused .scAddressMismatch))) ∧
  Spells 0xF800707F 0x1800202F (fun w => .scW (fAq w) (fRl w) (fRd w) (fRs1 w) (fRs2 w)) ∧
  Spells 0xF800707F 0x1800302F (fun w => .scD (fAq w) (fRl w) (fRd w) (fRs1 w) (fRs2 w))

/-- Derived from R245 to R248, R251: with `sc_may_fail` false an LR that keeps its address register and then an SC of
the same size at that address store what x[rs2] holds after the LR and report 0; a second SC fails. (The spec's own
choices: D12, D13). -/
def Obligations.ReservedThenConditional : Prop :=
  ∀ (s : State) (aq rl : Bool) (rd rt rs1 rs2 : XReg), s.env.scMayFail = false → (rd = 0#5 ∨ rd ≠ rs1) →
    rt ≠ rs1 → rt ≠ 0#5 →
    (s.atomOk rs1 .word →
      ∃ t u v, exec (.lrW aq rl rd rs1) s = .next t ∧ exec (.scW aq rl rt rs1 rs2) t = .next u ∧
        u.readX rt = 0 ∧ u.reservation = none ∧ (rd ≠ rs2 → t.readX rs2 = s.readX rs2) ∧
        (∀ k, u.readByte k = ((s.cells (s.atomAddr rs1) 4 (t.readX rs2).toNat).lookup k).getD (s.readByte k)) ∧
        exec (.scW aq rl rt rs1 rs2) u = .next v ∧ v.readX rt = 1 ∧ ∀ k, v.readByte k = u.readByte k) ∧
    (s.env.xlen = .rv64 → s.atomOk rs1 .double →
      ∃ t u v, exec (.lrD aq rl rd rs1) s = .next t ∧ exec (.scD aq rl rt rs1 rs2) t = .next u ∧
        u.readX rt = 0 ∧ u.reservation = none ∧ (rd ≠ rs2 → t.readX rs2 = s.readX rs2) ∧
        (∀ k, u.readByte k = ((s.cells (s.atomAddr rs1) 8 (t.readX rs2).toNat).lookup k).getD (s.readByte k)) ∧
        exec (.scD aq rl rt rs1 rs2) u = .next v ∧ v.readX rt = 1 ∧ ∀ k, v.readByte k = u.readByte k)

/-! ## Floating-point control state -/

/-- R27, R265, R402, R404: the mode an rm field names: 0 to 4 themselves; 7 the mode of frm, or that of the external
selector when frm is 7, which is fixed (the launch's, else the free value); every instruction with an rm field raises
IllegalInstruction when the field is 5 or 6, and is refused when the field is 7 and frm holds 5 or 6; decoding already
answers illegal for a field of 5 or 6. (The spec's own choices: D20, D37; the model's: log entry 7). -/
def Obligations.RoundingModeResolution : Prop :=
  (∀ s : State,
    s.effRm 0 = .ok .rne ∧ s.effRm 1 = .ok .rtz ∧ s.effRm 2 = .ok .rdn ∧ s.effRm 3 = .ok .rup ∧
    s.effRm 4 = .ok .rmm ∧
    (s.frm = 0 → s.effRm 7 = .ok .rne) ∧ (s.frm = 1 → s.effRm 7 = .ok .rtz) ∧ (s.frm = 2 → s.effRm 7 = .ok .rdn) ∧
    (s.frm = 3 → s.effRm 7 = .ok .rup) ∧ (s.frm = 4 → s.effRm 7 = .ok .rmm) ∧
    (∀ m, s.frm = 7 → s.env.extRm = some m → s.effRm 7 = .ok m) ∧
    (s.frm = 7 → s.env.extRm = none → s.effRm 7 = .ok Config.extRm)) ∧
  (∀ (i : Instr) (s : State) (rm : RmField), i.rmField = some rm → (i.rv64Only = true → s.env.xlen = .rv64) →
    (rm = 5 ∨ rm = 6 → exec i s = .fault (.illegalInstruction s.pc)) ∧
    (rm = 7 → s.frm = 5 ∨ s.frm = 6 → exec i s = .refused .reservedRoundingMode)) ∧
  (∀ (xl : XLen) (w : InstrWord) (i : Instr) (rm : RmField), decode xl w = .instr i → i.rmField = some rm →
    rm ≠ 5 ∧ rm ≠ 6) ∧
  (∀ (xl : XLen) (w : InstrWord) (rm : RmField), ∀ r ∈ rows, r.hits w = true → (r.build w).rmField = some rm →
    rm = 5 ∨ rm = 6 → decode xl w = .illegal)

/-- R381 to R386 at XLEN = 64: the read accessors return a view zero-extended; the set accessors return the old view
and replace it, frm through FrmLegalize, which keeps 0 to 4 and 7 and whose values at 5 and 6 are parameters that are
by default 5 and 6; the masks of the five flags (R25); and the words that spell the accessors (R90 to R93). (The spec's
own choices: D19, D29, D3, G1). -/
def Obligations.AccessorResults : Prop :=
  (∀ (s : State) (rd rs1 : XReg), s.env.xlen = .rv64 →
    Does (.frcsr rd) s { x := some (rd, BitVec.ofNat 64 (s.frm.toNat * 32 + s.fflags.toNat)) } ∧
    Does (.frrm rd) s { x := some (rd, BitVec.ofNat 64 s.frm.toNat) } ∧
    Does (.frflags rd) s { x := some (rd, BitVec.ofNat 64 s.fflags.toNat) } ∧
    Does (.fsflags rd rs1) s
      { x := some (rd, BitVec.ofNat 64 s.fflags.toNat),
        fflags := some (BitVec.ofNat 5 ((s.readX rs1).toNat % 32)) } ∧
    Does (.fsrm rd rs1) s
      { x := some (rd, BitVec.ofNat 64 s.frm.toNat),
        frm := some (frmLegalize s.env (BitVec.ofNat 3 ((s.readX rs1).toNat % 8))) } ∧
    Does (.fscsr rd rs1) s
      { x := some (rd, BitVec.ofNat 64 (s.frm.toNat * 32 + s.fflags.toNat)),
        fflags := some (BitVec.ofNat 5 ((s.readX rs1).toNat % 32)),
        frm := some (frmLegalize s.env (BitVec.ofNat 3 ((s.readX rs1).toNat / 32 % 8))) }) ∧
  (∀ (e : Env) (v : RmField), (v ≠ 5 → v ≠ 6 → frmLegalize e v = v) ∧ frmLegalize e 5 = e.frmLegal5 ∧
    frmLegalize e 6 = e.frmLegal6) ∧
  Env.default.frmLegal5 = 5 ∧ Env.default.frmLegal6 = 6 ∧
  (flagNX = 0x01 ∧ flagUF = 0x02 ∧ flagOF = 0x04 ∧ flagDZ = 0x08 ∧ flagNV = 0x10) ∧
  Spells 0xFFFFF07F 0x00302073 (fun w => .frcsr (fRd w)) ∧
  Spells 0xFFFFF07F 0x00202073 (fun w => .frrm (fRd w)) ∧
  Spells 0xFFFFF07F 0x00102073 (fun w => .frflags (fRd w)) ∧
  Spells 0xFFF0707F 0x00101073 (fun w => .fsflags (fRd w) (fRs1 w)) ∧
  Spells 0xFFF0707F 0x00201073 (fun w => .fsrm (fRd w) (fRs1 w)) ∧
  Spells 0xFFF0707F 0x00301073 (fun w => .fscsr (fRd w) (fRs1 w))

/-! ## Floating-point instructions -/

/-- R31, R32: an S operand is the low word of a boxed register and the canonical NaN for any other; an S result is
boxed, and reading it back gives it; a D result fills the register. (The spec's own choices: D5, D21, D39). -/
def Obligations.NanBoxing : Prop :=
  ∀ (s : State) (i : FReg) (v : BitVec 32) (w : Word),
    ((s.readF i).toNat / 2 ^ 32 = 0xFFFFFFFF → (s.readFmt .s i).toNat = (s.readF i).toNat % 2 ^ 32) ∧
    ((s.readF i).toNat / 2 ^ 32 ≠ 0xFFFFFFFF → s.readFmt .s i = 0x7FC00000#32) ∧
    ((s.writeFmt .s i v).readF i).toNat = 0xFFFFFFFF * 2 ^ 32 + v.toNat ∧ (s.writeFmt .s i v).readFmt .s i = v ∧
    s.readFmt .d i = s.readF i ∧ (s.writeFmt .d i w).readF i = w

/-- R277 to R281, R291 to R295: add, subtract, multiply, divide and square root in both formats. And the words that
spell them (R90, R92, R93). (The spec's own choices: D5, D20, D3, G1). -/
def Obligations.FpArithmeticResults : Prop :=
  (∀ (s : State) (rd rs1 rs2 : FReg) (rm : RmField) (m : RoundingMode), s.effRm rm = .ok m →
    Does (.faddS rd rs1 rs2 rm) s (fpEffect .s rd (fpAdd .s m (s.readFmt .s rs1) (s.readFmt .s rs2))) ∧
    Does (.fsubS rd rs1 rs2 rm) s (fpEffect .s rd (fpSub .s m (s.readFmt .s rs1) (s.readFmt .s rs2))) ∧
    Does (.fmulS rd rs1 rs2 rm) s (fpEffect .s rd (fpMul .s m (s.readFmt .s rs1) (s.readFmt .s rs2))) ∧
    Does (.fdivS rd rs1 rs2 rm) s (fpEffect .s rd (fpDiv .s m (s.readFmt .s rs1) (s.readFmt .s rs2))) ∧
    Does (.fsqrtS rd rs1 rm) s (fpEffect .s rd (fpSqrt .s m (s.readFmt .s rs1))) ∧
    Does (.faddD rd rs1 rs2 rm) s (fpEffect .d rd (fpAdd .d m (s.readFmt .d rs1) (s.readFmt .d rs2))) ∧
    Does (.fsubD rd rs1 rs2 rm) s (fpEffect .d rd (fpSub .d m (s.readFmt .d rs1) (s.readFmt .d rs2))) ∧
    Does (.fmulD rd rs1 rs2 rm) s (fpEffect .d rd (fpMul .d m (s.readFmt .d rs1) (s.readFmt .d rs2))) ∧
    Does (.fdivD rd rs1 rs2 rm) s (fpEffect .d rd (fpDiv .d m (s.readFmt .d rs1) (s.readFmt .d rs2))) ∧
    Does (.fsqrtD rd rs1 rm) s (fpEffect .d rd (fpSqrt .d m (s.readFmt .d rs1)))) ∧
  SpellsRm 0xFE00007F 0x00000053 (fun w => .faddS (fRd w) (fRs1 w) (fRs2 w) (fRm w)) ∧
  SpellsRm 0xFE00007F 0x08000053 (fun w => .fsubS (fRd w) (fRs1 w) (fRs2 w) (fRm w)) ∧
  SpellsRm 0xFE00007F 0x10000053 (fun w => .fmulS (fRd w) (fRs1 w) (fRs2 w) (fRm w)) ∧
  SpellsRm 0xFE00007F 0x18000053 (fun w => .fdivS (fRd w) (fRs1 w) (fRs2 w) (fRm w)) ∧
  SpellsRm 0xFFF0007F 0x58000053 (fun w => .fsqrtS (fRd w) (fRs1 w) (fRm w)) ∧
  SpellsRm 0xFE00007F 0x02000053 (fun w => .faddD (fRd w) (fRs1 w) (fRs2 w) (fRm w)) ∧
  SpellsRm 0xFE00007F 0x0A000053 (fun w => .fsubD (fRd w) (fRs1 w) (fRs2 w) (fRm w)) ∧
  SpellsRm 0xFE00007F 0x12000053 (fun w => .fmulD (fRd w) (fRs1 w) (fRs2 w) (fRm w)) ∧
  SpellsRm 0xFE00007F 0x1A000053 (fun w => .fdivD (fRd w) (fRs1 w) (fRs2 w) (fRm w)) ∧
  SpellsRm 0xFFF0007F 0x5A000053 (fun w => .fsqrtD (fRd w) (fRs1 w) (fRm w))

/-- R282 to R285, R296 to R299: the fused forms negate the product and the addend as their names say. And the words
that spell them (R90, R92, R93). (The spec's own choices: D24, D3, G1). -/
def Obligations.FpFusedResults : Prop :=
  (∀ (s : State) (rd rs1 rs2 rs3 : FReg) (rm : RmField) (m : RoundingMode), s.effRm rm = .ok m →
    Does (.fmaddS rd rs1 rs2 rs3 rm) s (fpEffect .s rd
      (fpFma .s m (s.readFmt .s rs1) (s.readFmt .s rs2) (s.readFmt .s rs3) false false)) ∧
    Does (.fmsubS rd rs1 rs2 rs3 rm) s (fpEffect .s rd
      (fpFma .s m (s.readFmt .s rs1) (s.readFmt .s rs2) (s.readFmt .s rs3) false true)) ∧
    Does (.fnmsubS rd rs1 rs2 rs3 rm) s (fpEffect .s rd
      (fpFma .s m (s.readFmt .s rs1) (s.readFmt .s rs2) (s.readFmt .s rs3) true false)) ∧
    Does (.fnmaddS rd rs1 rs2 rs3 rm) s (fpEffect .s rd
      (fpFma .s m (s.readFmt .s rs1) (s.readFmt .s rs2) (s.readFmt .s rs3) true true)) ∧
    Does (.fmaddD rd rs1 rs2 rs3 rm) s (fpEffect .d rd
      (fpFma .d m (s.readFmt .d rs1) (s.readFmt .d rs2) (s.readFmt .d rs3) false false)) ∧
    Does (.fmsubD rd rs1 rs2 rs3 rm) s (fpEffect .d rd
      (fpFma .d m (s.readFmt .d rs1) (s.readFmt .d rs2) (s.readFmt .d rs3) false true)) ∧
    Does (.fnmsubD rd rs1 rs2 rs3 rm) s (fpEffect .d rd
      (fpFma .d m (s.readFmt .d rs1) (s.readFmt .d rs2) (s.readFmt .d rs3) true false)) ∧
    Does (.fnmaddD rd rs1 rs2 rs3 rm) s (fpEffect .d rd
      (fpFma .d m (s.readFmt .d rs1) (s.readFmt .d rs2) (s.readFmt .d rs3) true true))) ∧
  SpellsRm 0x0600007F 0x00000043 (fun w => .fmaddS (fRd w) (fRs1 w) (fRs2 w) (fRs3 w) (fRm w)) ∧
  SpellsRm 0x0600007F 0x00000047 (fun w => .fmsubS (fRd w) (fRs1 w) (fRs2 w) (fRs3 w) (fRm w)) ∧
  SpellsRm 0x0600007F 0x0000004B (fun w => .fnmsubS (fRd w) (fRs1 w) (fRs2 w) (fRs3 w) (fRm w)) ∧
  SpellsRm 0x0600007F 0x0000004F (fun w => .fnmaddS (fRd w) (fRs1 w) (fRs2 w) (fRs3 w) (fRm w)) ∧
  SpellsRm 0x0600007F 0x02000043 (fun w => .fmaddD (fRd w) (fRs1 w) (fRs2 w) (fRs3 w) (fRm w)) ∧
  SpellsRm 0x0600007F 0x02000047 (fun w => .fmsubD (fRd w) (fRs1 w) (fRs2 w) (fRs3 w) (fRm w)) ∧
  SpellsRm 0x0600007F 0x0200004B (fun w => .fnmsubD (fRd w) (fRs1 w) (fRs2 w) (fRs3 w) (fRm w)) ∧
  SpellsRm 0x0600007F 0x0200004F (fun w => .fnmaddD (fRd w) (fRs1 w) (fRs2 w) (fRs3 w) (fRm w))

/-- R276, R286 to R288, R300 to R302: sign injection replaces the top bit and nothing else, and raises no flag. And the
words that spell them (R90, R92, R93). (The spec's own choices: D5, D39, D3, G1). -/
def Obligations.SignInjectionResults : Prop :=
  (∀ (s : State) (rd rs1 rs2 : FReg),
    Does (.fsgnjS rd rs1 rs2) s { f := some (rd, boxed .s
      ((s.readS rs1 &&& 0x7FFFFFFF) ||| (s.readS rs2 &&& 0x80000000))) } ∧
    Does (.fsgnjnS rd rs1 rs2) s { f := some (rd, boxed .s
      ((s.readS rs1 &&& 0x7FFFFFFF) ||| (~~~s.readS rs2 &&& 0x80000000))) } ∧
    Does (.fsgnjxS rd rs1 rs2) s { f := some (rd, boxed .s (s.readS rs1 ^^^ (s.readS rs2 &&& 0x80000000))) } ∧
    Does (.fsgnjD rd rs1 rs2) s { f := some (rd,
      (s.readF rs1 &&& 0x7FFFFFFFFFFFFFFF) ||| (s.readF rs2 &&& 0x8000000000000000)) } ∧
    Does (.fsgnjnD rd rs1 rs2) s { f := some (rd,
      (s.readF rs1 &&& 0x7FFFFFFFFFFFFFFF) ||| (~~~s.readF rs2 &&& 0x8000000000000000)) } ∧
    Does (.fsgnjxD rd rs1 rs2) s { f := some (rd, s.readF rs1 ^^^ (s.readF rs2 &&& 0x8000000000000000)) }) ∧
  Spells 0xFE00707F 0x20000053 (fun w => .fsgnjS (fRd w) (fRs1 w) (fRs2 w)) ∧
  Spells 0xFE00707F 0x20001053 (fun w => .fsgnjnS (fRd w) (fRs1 w) (fRs2 w)) ∧
  Spells 0xFE00707F 0x20002053 (fun w => .fsgnjxS (fRd w) (fRs1 w) (fRs2 w)) ∧
  Spells 0xFE00707F 0x22000053 (fun w => .fsgnjD (fRd w) (fRs1 w) (fRs2 w)) ∧
  Spells 0xFE00707F 0x22001053 (fun w => .fsgnjnD (fRd w) (fRs1 w) (fRs2 w)) ∧
  Spells 0xFE00707F 0x22002053 (fun w => .fsgnjxD (fRd w) (fRs1 w) (fRs2 w))

/-- R276: the three sign injections on patterns: the sign they put, every other bit of operand 1 kept whatever it
spells, only the sign of operand 2 used; the instructions read no frm and touch no flag. -/
def Obligations.SignInjectionPatterns : Prop :=
  (∀ (fmt : Fmt) (a b : BitVec fmt.width),
    fmt.sign (fpSgnj fmt a b) = fmt.sign b ∧ fmt.sign (fpSgnjn fmt a b) = !fmt.sign b ∧
    fmt.sign (fpSgnjx fmt a b) = (fmt.sign a ^^ fmt.sign b) ∧
    (∀ k < fmt.width - 1, (fpSgnj fmt a b).getLsbD k = a.getLsbD k ∧ (fpSgnjn fmt a b).getLsbD k = a.getLsbD k ∧
      (fpSgnjx fmt a b).getLsbD k = a.getLsbD k)) ∧
  (∀ (i : Instr) (rd rs1 rs2 : FReg) (s : State) (m : RmField),
    i ∈ [.fsgnjS rd rs1 rs2, .fsgnjnS rd rs1 rs2, .fsgnjxS rd rs1 rs2, .fsgnjD rd rs1 rs2, .fsgnjnD rd rs1 rs2,
      .fsgnjxD rd rs1 rs2] →
    ∃ t, exec i s = .next t ∧ t.fflags = s.fflags ∧ t.frm = s.frm ∧
      exec i { s with frm := m } = .next { t with frm := m })

/-- R289, R290, R303, R304: minimum and maximum. And the words that spell them (R90, R92, R93). (The spec's own
choices: D5, D3, G1). -/
def Obligations.MinMaxResults : Prop :=
  (∀ (s : State) (rd rs1 rs2 : FReg),
    Does (.fminS rd rs1 rs2) s (fpEffect .s rd (fpMin .s (s.readFmt .s rs1) (s.readFmt .s rs2))) ∧
    Does (.fmaxS rd rs1 rs2) s (fpEffect .s rd (fpMax .s (s.readFmt .s rs1) (s.readFmt .s rs2))) ∧
    Does (.fminD rd rs1 rs2) s (fpEffect .d rd (fpMin .d (s.readFmt .d rs1) (s.readFmt .d rs2))) ∧
    Does (.fmaxD rd rs1 rs2) s (fpEffect .d rd (fpMax .d (s.readFmt .d rs1) (s.readFmt .d rs2)))) ∧
  Spells 0xFE00707F 0x28000053 (fun w => .fminS (fRd w) (fRs1 w) (fRs2 w)) ∧
  Spells 0xFE00707F 0x28001053 (fun w => .fmaxS (fRd w) (fRs1 w) (fRs2 w)) ∧
  Spells 0xFE00707F 0x2A000053 (fun w => .fminD (fRd w) (fRs1 w) (fRs2 w)) ∧
  Spells 0xFE00707F 0x2A001053 (fun w => .fmaxD (fRd w) (fRs1 w) (fRs2 w))

/-- R316 to R319, R328 to R331: float to integer, the 32-bit results sign-extended, signed or not. And the words that
spell them (R90, R92, R93). (The spec's own choices: D26, D3, G1). -/
def Obligations.FpToIntegerResults : Prop :=
  (∀ (s : State) (rd : XReg) (rs1 : FReg) (rm : RmField) (m : RoundingMode), s.effRm rm = .ok m →
    Does (.fcvtWS rd rs1 rm) s
      { x := some (rd, sextW (fpToInt .s tyW (s.readFmt .s rs1)).1), raised := (fpToInt .s tyW (s.readFmt .s rs1)).2 } ∧
    Does (.fcvtWuS rd rs1 rm) s
      { x := some (rd, sextW (fpToInt .s tyWU (s.readFmt .s rs1)).1),
        raised := (fpToInt .s tyWU (s.readFmt .s rs1)).2 } ∧
    Does (.fcvtWD rd rs1 rm) s
      { x := some (rd, sextW (fpToInt .d tyW (s.readFmt .d rs1)).1), raised := (fpToInt .d tyW (s.readFmt .d rs1)).2 } ∧
    Does (.fcvtWuD rd rs1 rm) s
      { x := some (rd, sextW (fpToInt .d tyWU (s.readFmt .d rs1)).1),
        raised := (fpToInt .d tyWU (s.readFmt .d rs1)).2 } ∧
    (s.env.xlen = .rv64 →
      Does (.fcvtLS rd rs1 rm) s
        { x := some (rd, s.trunc (fpToInt .s tyL (s.readFmt .s rs1)).1),
          raised := (fpToInt .s tyL (s.readFmt .s rs1)).2 } ∧
      Does (.fcvtLuS rd rs1 rm) s
        { x := some (rd, s.trunc (fpToInt .s tyLU (s.readFmt .s rs1)).1),
          raised := (fpToInt .s tyLU (s.readFmt .s rs1)).2 } ∧
      Does (.fcvtLD rd rs1 rm) s
        { x := some (rd, s.trunc (fpToInt .d tyL (s.readFmt .d rs1)).1),
          raised := (fpToInt .d tyL (s.readFmt .d rs1)).2 } ∧
      Does (.fcvtLuD rd rs1 rm) s
        { x := some (rd, s.trunc (fpToInt .d tyLU (s.readFmt .d rs1)).1),
          raised := (fpToInt .d tyLU (s.readFmt .d rs1)).2 })) ∧
  SpellsRm 0xFFF0007F 0xC0000053 (fun w => .fcvtWS (fRd w) (fRs1 w) (fRm w)) ∧
  SpellsRm 0xFFF0007F 0xC0100053 (fun w => .fcvtWuS (fRd w) (fRs1 w) (fRm w)) ∧
  SpellsRm 0xFFF0007F 0xC0200053 (fun w => .fcvtLS (fRd w) (fRs1 w) (fRm w)) ∧
  SpellsRm 0xFFF0007F 0xC0300053 (fun w => .fcvtLuS (fRd w) (fRs1 w) (fRm w)) ∧
  SpellsRm 0xFFF0007F 0xC2000053 (fun w => .fcvtWD (fRd w) (fRs1 w) (fRm w)) ∧
  SpellsRm 0xFFF0007F 0xC2100053 (fun w => .fcvtWuD (fRd w) (fRs1 w) (fRm w)) ∧
  SpellsRm 0xFFF0007F 0xC2200053 (fun w => .fcvtLD (fRd w) (fRs1 w) (fRm w)) ∧
  SpellsRm 0xFFF0007F 0xC2300053 (fun w => .fcvtLuD (fRd w) (fRs1 w) (fRm w))

/-- R311, R320 to R323, R332 to R335: integer to float, one rounding of the integer; zero gives +0. And the words that
spell them (R90, R92, R93). (The spec's own choices: D34, D3, G1). -/
def Obligations.IntegerToFpResults : Prop :=
  (∀ (s : State) (rd : FReg) (rs1 : XReg) (rm : RmField) (m : RoundingMode), s.effRm rm = .ok m →
    Does (.fcvtSW rd rs1 rm) s (fpEffect .s rd (roundFmt .s m ((s.lowX rs1).toInt : Rat) false)) ∧
    Does (.fcvtSWu rd rs1 rm) s (fpEffect .s rd (roundFmt .s m ((s.lowX rs1).toNat : Rat) false)) ∧
    Does (.fcvtDW rd rs1 rm) s (fpEffect .d rd (roundFmt .d m ((s.lowX rs1).toInt : Rat) false)) ∧
    Does (.fcvtDWu rd rs1 rm) s (fpEffect .d rd (roundFmt .d m ((s.lowX rs1).toNat : Rat) false)) ∧
    (s.env.xlen = .rv64 →
      Does (.fcvtSL rd rs1 rm) s (fpEffect .s rd (roundFmt .s m (s.signedX rs1 : Rat) false)) ∧
      Does (.fcvtSLu rd rs1 rm) s (fpEffect .s rd (roundFmt .s m (s.unsignedX rs1 : Rat) false)) ∧
      Does (.fcvtDL rd rs1 rm) s (fpEffect .d rd (roundFmt .d m (s.signedX rs1 : Rat) false)) ∧
      Does (.fcvtDLu rd rs1 rm) s (fpEffect .d rd (roundFmt .d m (s.unsignedX rs1 : Rat) false)))) ∧
  SpellsRm 0xFFF0007F 0xD0000053 (fun w => .fcvtSW (fRd w) (fRs1 w) (fRm w)) ∧
  SpellsRm 0xFFF0007F 0xD0100053 (fun w => .fcvtSWu (fRd w) (fRs1 w) (fRm w)) ∧
  SpellsRm 0xFFF0007F 0xD0200053 (fun w => .fcvtSL (fRd w) (fRs1 w) (fRm w)) ∧
  SpellsRm 0xFFF0007F 0xD0300053 (fun w => .fcvtSLu (fRd w) (fRs1 w) (fRm w)) ∧
  SpellsRm 0xFFF0007F 0xD2000053 (fun w => .fcvtDW (fRd w) (fRs1 w) (fRm w)) ∧
  SpellsRm 0xFFF0007F 0xD2100053 (fun w => .fcvtDWu (fRd w) (fRs1 w) (fRm w)) ∧
  SpellsRm 0xFFF0007F 0xD2200053 (fun w => .fcvtDL (fRd w) (fRs1 w) (fRm w)) ∧
  SpellsRm 0xFFF0007F 0xD2300053 (fun w => .fcvtDLu (fRd w) (fRs1 w) (fRm w))

/-- R312, R344, R345: between the formats. A signaling NaN gives the canonical NaN of the target with NV, a quiet one
that NaN, infinities and zeros keep their sign, none of these with another flag; every other value is rounded once,
with the flags of the rounding. And the words that spell them (R90, R92, R93). (The spec's own choices: D38, D3, G1).
-/
def Obligations.FpToFpResults : Prop :=
  (∀ (s : State) (rd rs1 : FReg) (rm : RmField) (m : RoundingMode), s.effRm rm = .ok m →
    Does (.fcvtSD rd rs1 rm) s (fpEffect .s rd (fpToFp .s .d m (s.readFmt .d rs1))) ∧
    Does (.fcvtDS rd rs1 rm) s (fpEffect .d rd (fpToFp .d .s m (s.readFmt .s rs1)))) ∧
  (∀ (dst src : Fmt) (m : RoundingMode) (a : BitVec src.width),
    (src.isSNaN a = true → fpToFp dst src m a = (dst.cNaN, flagNV)) ∧
    (src.isQNaN a = true → fpToFp dst src m a = (dst.cNaN, 0)) ∧
    (src.isInf a = true → fpToFp dst src m a = (dst.inf (src.sign a), 0)) ∧
    (src.isZero a = true → fpToFp dst src m a = (dst.zero (src.sign a), 0)) ∧
    (src.isFinite a = true → src.isZero a = false →
      ∀ zs : Bool, fpToFp dst src m a = roundFmt dst m (src.val a) zs)) ∧
  SpellsRm 0xFFF0007F 0x40100053 (fun w => .fcvtSD (fRd w) (fRs1 w) (fRm w)) ∧
  SpellsRm 0xFFF0007F 0x42000053 (fun w => .fcvtDS (fRd w) (fRs1 w) (fRm w))

/-- R313, R324 to R326, R336 to R338: comparisons write 0 or 1; FEQ raises NV only for a signaling NaN, FLT and FLE for
any. And the words that spell them (R90, R92, R93). (The spec's own choices: D27, D3, G1). -/
def Obligations.CompareResults : Prop :=
  (∀ (s : State) (rd : XReg) (rs1 rs2 : FReg),
    Does (.feqS rd rs1 rs2) s
      { x := some (rd, if (fpCompare .s .eq (s.readFmt .s rs1) (s.readFmt .s rs2)).1 then 1 else 0),
        raised := (fpCompare .s .eq (s.readFmt .s rs1) (s.readFmt .s rs2)).2 } ∧
    Does (.fltS rd rs1 rs2) s
      { x := some (rd, if (fpCompare .s .lt (s.readFmt .s rs1) (s.readFmt .s rs2)).1 then 1 else 0),
        raised := (fpCompare .s .lt (s.readFmt .s rs1) (s.readFmt .s rs2)).2 } ∧
    Does (.fleS rd rs1 rs2) s
      { x := some (rd, if (fpCompare .s .le (s.readFmt .s rs1) (s.readFmt .s rs2)).1 then 1 else 0),
        raised := (fpCompare .s .le (s.readFmt .s rs1) (s.readFmt .s rs2)).2 } ∧
    Does (.feqD rd rs1 rs2) s
      { x := some (rd, if (fpCompare .d .eq (s.readFmt .d rs1) (s.readFmt .d rs2)).1 then 1 else 0),
        raised := (fpCompare .d .eq (s.readFmt .d rs1) (s.readFmt .d rs2)).2 } ∧
    Does (.fltD rd rs1 rs2) s
      { x := some (rd, if (fpCompare .d .lt (s.readFmt .d rs1) (s.readFmt .d rs2)).1 then 1 else 0),
        raised := (fpCompare .d .lt (s.readFmt .d rs1) (s.readFmt .d rs2)).2 } ∧
    Does (.fleD rd rs1 rs2) s
      { x := some (rd, if (fpCompare .d .le (s.readFmt .d rs1) (s.readFmt .d rs2)).1 then 1 else 0),
        raised := (fpCompare .d .le (s.readFmt .d rs1) (s.readFmt .d rs2)).2 }) ∧
  Spells 0xFE00707F 0xA0002053 (fun w => .feqS (fRd w) (fRs1 w) (fRs2 w)) ∧
  Spells 0xFE00707F 0xA0001053 (fun w => .fltS (fRd w) (fRs1 w) (fRs2 w)) ∧
  Spells 0xFE00707F 0xA0000053 (fun w => .fleS (fRd w) (fRs1 w) (fRs2 w)) ∧
  Spells 0xFE00707F 0xA2002053 (fun w => .feqD (fRd w) (fRs1 w) (fRs2 w)) ∧
  Spells 0xFE00707F 0xA2001053 (fun w => .fltD (fRd w) (fRs1 w) (fRs2 w)) ∧
  Spells 0xFE00707F 0xA2000053 (fun w => .fleD (fRd w) (fRs1 w) (fRs2 w))

/-- R340 to R343 at XLEN = 64: the bit moves raise no flag, FMV.X.W takes the low word of its operand without the box
check and FMV.W.X boxes its result; and the words that spell them (R90 to R93). (The spec's own choices: D45, D3, G1).
-/
def Obligations.BitMoveResults : Prop :=
  (∀ (s : State) (rd xs : XReg) (fd rs1 : FReg), s.env.xlen = .rv64 →
    Does (.fmvXW rd rs1) s { x := some (rd, sextW ((s.readF rs1).toNat % 2 ^ 32 : Nat)) } ∧
    Does (.fmvWX fd xs) s { f := some (fd, 0xFFFFFFFF#32 ++ (s.readX xs).setWidth 32) } ∧
    Does (.fmvXD rd rs1) s { x := some (rd, s.readF rs1) } ∧
    Does (.fmvDX fd xs) s { f := some (fd, s.readX xs) }) ∧
  Spells 0xFFF0707F 0xE0000053 (fun w => .fmvXW (fRd w) (fRs1 w)) ∧
  Spells 0xFFF0707F 0xF0000053 (fun w => .fmvWX (fRd w) (fRs1 w)) ∧
  Spells 0xFFF0707F 0xE2000053 (fun w => .fmvXD (fRd w) (fRs1 w)) ∧
  Spells 0xFFF0707F 0xF2000053 (fun w => .fmvDX (fRd w) (fRs1 w))

/-- At XLEN = 32 the accessors and the bit moves of a word are those of XLEN = 64 on 32-bit registers (R346, decision
D2; log entry 2). (The spec's own choices: D2, D29, D45). -/
def Obligations.AccessorsAndMovesAtXlen32 : Prop :=
  ∀ (s : State) (rd rs1 : XReg) (fd fs : FReg), s.env.xlen = .rv32 →
    Does (.frcsr rd) s { x := some (rd, BitVec.ofNat 64 (s.frm.toNat * 32 + s.fflags.toNat)) } ∧
    Does (.frrm rd) s { x := some (rd, BitVec.ofNat 64 s.frm.toNat) } ∧
    Does (.frflags rd) s { x := some (rd, BitVec.ofNat 64 s.fflags.toNat) } ∧
    Does (.fsflags rd rs1) s
      { x := some (rd, BitVec.ofNat 64 s.fflags.toNat),
        fflags := some (BitVec.ofNat 5 ((s.readX rs1).toNat % 32)) } ∧
    Does (.fsrm rd rs1) s
      { x := some (rd, BitVec.ofNat 64 s.frm.toNat),
        frm := some (frmLegalize s.env (BitVec.ofNat 3 ((s.readX rs1).toNat % 8))) } ∧
    Does (.fscsr rd rs1) s
      { x := some (rd, BitVec.ofNat 64 (s.frm.toNat * 32 + s.fflags.toNat)),
        fflags := some (BitVec.ofNat 5 ((s.readX rs1).toNat % 32)),
        frm := some (frmLegalize s.env (BitVec.ofNat 3 ((s.readX rs1).toNat / 32 % 8))) } ∧
    Does (.fmvXW rd fs) s { x := some (rd, sextW ((s.readF fs).toNat % 2 ^ 32 : Nat)) } ∧
    Does (.fmvWX fd rs1) s { f := some (fd, boxed .s (s.lowX rs1)) }

/-! ## Floating-point values -/

/-- R260, R261: the parameters, fields and special patterns of the two formats, what the predicates test, and the
number a finite pattern spells. R262, R263: a NaN operand of an arithmetic operation gives the canonical NaN, with NV
exactly when an operand is signaling; for the fused forms also when the product is of an infinity and a zero (R274).
(The spec's own choices: D21, D22, D24, G4). -/
def Obligations.NanPropagation : Prop :=
  (Fmt.s.expBits = 8 ∧ Fmt.s.fracBits = 23 ∧ Fmt.s.bias = 127 ∧ Fmt.s.emin = -126 ∧ Fmt.s.emax = 127 ∧
    Fmt.s.inf false = 0x7F800000 ∧ Fmt.s.inf true = 0xFF800000 ∧ Fmt.s.zero false = 0x00000000 ∧
    Fmt.s.zero true = 0x80000000 ∧ Fmt.s.maxFin false = 0x7F7FFFFF ∧ Fmt.s.maxFin true = 0xFF7FFFFF) ∧
  (Fmt.d.expBits = 11 ∧ Fmt.d.fracBits = 52 ∧ Fmt.d.bias = 1023 ∧ Fmt.d.emin = -1022 ∧ Fmt.d.emax = 1023 ∧
    Fmt.d.inf false = 0x7FF0000000000000 ∧ Fmt.d.inf true = 0xFFF0000000000000 ∧
    Fmt.d.zero false = 0x0000000000000000 ∧ Fmt.d.zero true = 0x8000000000000000 ∧
    Fmt.d.maxFin false = 0x7FEFFFFFFFFFFFFF ∧ Fmt.d.maxFin true = 0xFFEFFFFFFFFFFFFF) ∧
  (∀ v : BitVec 32, Fmt.s.sign v = v.getLsbD 31 ∧ Fmt.s.exp v = (v.extractLsb' 23 8).toNat ∧
    Fmt.s.frac v = (v.extractLsb' 0 23).toNat) ∧
  (∀ v : BitVec 64, Fmt.d.sign v = v.getLsbD 63 ∧ Fmt.d.exp v = (v.extractLsb' 52 11).toNat ∧
    Fmt.d.frac v = (v.extractLsb' 0 52).toNat) ∧
  (∀ (fmt : Fmt) (v : BitVec fmt.width),
    (fmt.isFinite v = true ↔ fmt.exp v ≠ 2 ^ fmt.expBits - 1) ∧
    (fmt.isInf v = true ↔ fmt.exp v = 2 ^ fmt.expBits - 1 ∧ fmt.frac v = 0) ∧
    (fmt.isQNaN v = true ↔
      fmt.exp v = 2 ^ fmt.expBits - 1 ∧ fmt.frac v ≠ 0 ∧ fmt.frac v / 2 ^ (fmt.fracBits - 1) = 1) ∧
    (fmt.isSNaN v = true ↔
      fmt.exp v = 2 ^ fmt.expBits - 1 ∧ fmt.frac v ≠ 0 ∧ fmt.frac v / 2 ^ (fmt.fracBits - 1) = 0) ∧
    (fmt.isNaN v = true ↔ fmt.isQNaN v = true ∨ fmt.isSNaN v = true) ∧
    (fmt.isZero v = true ↔ fmt.exp v = 0 ∧ fmt.frac v = 0) ∧
    (fmt.isSubnormal v = true ↔ fmt.exp v = 0 ∧ fmt.frac v ≠ 0) ∧
    (fmt.isFinite v = true → fmt.val v = (if fmt.sign v then -1 else 1) *
      (if fmt.exp v = 0 then (fmt.frac v : Rat) * (2 : Rat) ^ (fmt.emin - fmt.fracBits)
       else ((2 : Rat) ^ fmt.fracBits + fmt.frac v) * (2 : Rat) ^ ((fmt.exp v : Int) - fmt.bias - fmt.fracBits)))) ∧
  ∀ (fmt : Fmt) (rm : RoundingMode) (a b c : BitVec fmt.width),
    fmt.cNaN = (match fmt with | .s => 0x7FC00000#32 | .d => 0x7FF8000000000000#64) ∧
    (fmt.isNaN a = true ∨ fmt.isNaN b = true →
      fpAdd fmt rm a b = (fmt.cNaN, if fmt.isSNaN a || fmt.isSNaN b then flagNV else 0) ∧
      fpSub fmt rm a b = (fmt.cNaN, if fmt.isSNaN a || fmt.isSNaN b then flagNV else 0) ∧
      fpMul fmt rm a b = (fmt.cNaN, if fmt.isSNaN a || fmt.isSNaN b then flagNV else 0) ∧
      fpDiv fmt rm a b = (fmt.cNaN, if fmt.isSNaN a || fmt.isSNaN b then flagNV else 0)) ∧
    (fmt.isNaN a = true → fpSqrt fmt rm a = (fmt.cNaN, if fmt.isSNaN a then flagNV else 0)) ∧
    (fmt.isNaN a = true ∨ fmt.isNaN b = true ∨ fmt.isNaN c = true → ∀ np nc,
      fpFma fmt rm a b c np nc = (fmt.cNaN,
        if fmt.isSNaN a || fmt.isSNaN b || fmt.isSNaN c || (fmt.isInf a && fmt.isZero b) ||
          (fmt.isZero a && fmt.isInf b) then flagNV else 0))

/-- R270 to R274: the invalid operations and the exact results of infinities, zeros and division by zero. (The spec's
own choices: D21, D35, C5). -/
def Obligations.SpecialOperands : Prop :=
  ∀ (fmt : Fmt) (rm : RoundingMode) (a b : BitVec fmt.width), fmt.isNaN a = false → fmt.isNaN b = false →
    (fmt.isInf a = true → fmt.isInf b = true →
      fpAdd fmt rm a b = (if fmt.sign a = fmt.sign b then (a, 0) else (fmt.cNaN, flagNV)) ∧
      fpSub fmt rm a b = (if fmt.sign a = fmt.sign b then (fmt.cNaN, flagNV) else (a, 0)) ∧
      fpDiv fmt rm a b = (fmt.cNaN, flagNV)) ∧
    (fmt.isInf a = true → fmt.isFinite b = true →
      fpAdd fmt rm a b = (a, 0) ∧ fpSub fmt rm a b = (a, 0) ∧ fpAdd fmt rm b a = (a, 0) ∧
      fpSub fmt rm b a = (fmt.inf (!fmt.sign a), 0) ∧
      fpDiv fmt rm a b = (fmt.inf (fmt.sign a != fmt.sign b), 0) ∧
      fpDiv fmt rm b a = (fmt.zero (fmt.sign b != fmt.sign a), 0)) ∧
    (fmt.isInf a = true → fmt.isZero b = true →
      fpMul fmt rm a b = (fmt.cNaN, flagNV) ∧ fpMul fmt rm b a = (fmt.cNaN, flagNV)) ∧
    (fmt.isInf a = true → fmt.isZero b = false →
      fpMul fmt rm a b = (fmt.inf (fmt.sign a != fmt.sign b), 0) ∧
      fpMul fmt rm b a = (fmt.inf (fmt.sign a != fmt.sign b), 0)) ∧
    (fmt.isZero a = true → fmt.isZero b = true → fpDiv fmt rm a b = (fmt.cNaN, flagNV)) ∧
    (fmt.isFinite a = true → fmt.isZero a = false → fmt.isZero b = true →
      fpDiv fmt rm a b = (fmt.inf (fmt.sign a != fmt.sign b), flagDZ)) ∧
    (fmt.isZero a = true → fpSqrt fmt rm a = (a, 0)) ∧
    (fmt.isZero a = false → fmt.sign a = true → fpSqrt fmt rm a = (fmt.cNaN, flagNV)) ∧
    (fmt.isInf a = true → fmt.sign a = false → fpSqrt fmt rm a = (a, 0)) ∧
    (∀ (c : BitVec fmt.width) (np nc : Bool), fmt.isNaN c = false →
      (fmt.isInf a = true → fmt.isZero b = true →
        fpFma fmt rm a b c np nc = (fmt.cNaN, flagNV) ∧ fpFma fmt rm b a c np nc = (fmt.cNaN, flagNV)) ∧
      (fmt.isInf a = true → fmt.isZero b = false →
        fpFma fmt rm a b c np nc = fpFma fmt rm b a c np nc ∧
        fpFma fmt rm a b c np nc =
          (if fmt.isInf c = true ∧ ((fmt.sign a != fmt.sign b) != np) ≠ (fmt.sign c != nc) then (fmt.cNaN, flagNV)
           else (fmt.inf ((fmt.sign a != fmt.sign b) != np), 0))) ∧
      (fmt.isFinite a = true → fmt.isFinite b = true → fmt.isInf c = true →
        fpFma fmt rm a b c np nc = (fmt.inf (fmt.sign c != nc), 0)))

/-- R269 to R272, R274: an exact zero result raises no flag; a sum of zeros of one sign keeps it, every other zero sum,
the one of a fused form among them, is +0, or -0 toward minus infinity; a zero product or quotient has the sign of the
exclusive or. (The spec's own choice: D24). -/
def Obligations.ExactZeroSign : Prop :=
  ∀ (fmt : Fmt) (rm : RoundingMode) (a b : BitVec fmt.width), fmt.isFinite a = true → fmt.isFinite b = true →
    (fmt.real a + fmt.real b = 0 → fpAdd fmt rm a b =
      (if fmt.isZero a = true ∧ fmt.isZero b = true ∧ fmt.sign a = fmt.sign b then fmt.zero (fmt.sign a)
       else fmt.zero (decide (rm = .rdn)), 0)) ∧
    (fmt.real a - fmt.real b = 0 → fpSub fmt rm a b =
      (if fmt.isZero a = true ∧ fmt.isZero b = true ∧ fmt.sign a ≠ fmt.sign b then fmt.zero (fmt.sign a)
       else fmt.zero (decide (rm = .rdn)), 0)) ∧
    (fmt.isZero a = true ∨ fmt.isZero b = true →
      fpMul fmt rm a b = (fmt.zero (fmt.sign a != fmt.sign b), 0)) ∧
    (fmt.isZero a = true → fmt.isZero b = false → fpDiv fmt rm a b = (fmt.zero (fmt.sign a != fmt.sign b), 0)) ∧
    (∀ (c : BitVec fmt.width) (np nc : Bool), fmt.isFinite c = true →
      (if np then -(fmt.real a * fmt.real b) else fmt.real a * fmt.real b) +
        (if nc then -fmt.real c else fmt.real c) = 0 →
      fpFma fmt rm a b c np nc =
        (if (fmt.isZero a = true ∨ fmt.isZero b = true) ∧ fmt.isZero c = true ∧
            ((fmt.sign a != fmt.sign b) != np) = (fmt.sign c != nc) then fmt.zero ((fmt.sign a != fmt.sign b) != np)
         else fmt.zero (decide (rm = .rdn)), 0))

/-- R264, R266 to R268, R270 to R274: on finite operands whose exact result is not zero, an operation answers the
pattern and the flags of rounding that exact result once; a finite answer is the exact result correctly rounded in the
mode. A square root is correctly rounded too, and raises NX alone or, when it is exact, nothing. (The spec's own
choice: G4). -/
def Obligations.ArithmeticIsCorrectlyRounded : Prop :=
  ∀ (fmt : Fmt) (rm : RoundingMode) (a b c : BitVec fmt.width),
    fmt.isFinite a = true → fmt.isFinite b = true → fmt.isFinite c = true →
    (fmt.real a + fmt.real b ≠ 0 → fmt.isFinite (fpAdd fmt rm a b).1 = true →
      Rounded fmt rm (fmt.real a + fmt.real b) (fpAdd fmt rm a b).1) ∧
    (fmt.real a - fmt.real b ≠ 0 → fmt.isFinite (fpSub fmt rm a b).1 = true →
      Rounded fmt rm (fmt.real a - fmt.real b) (fpSub fmt rm a b).1) ∧
    (fmt.real a * fmt.real b ≠ 0 → fmt.isFinite (fpMul fmt rm a b).1 = true →
      Rounded fmt rm (fmt.real a * fmt.real b) (fpMul fmt rm a b).1) ∧
    (fmt.real a ≠ 0 → fmt.real b ≠ 0 → fmt.isFinite (fpDiv fmt rm a b).1 = true →
      Rounded fmt rm (fmt.real a / fmt.real b) (fpDiv fmt rm a b).1) ∧
    (0 < fmt.real a → Rounded fmt rm (Real.sqrt (fmt.real a)) (fpSqrt fmt rm a).1) ∧
    (∀ np nc : Bool,
      (if np then -(fmt.real a * fmt.real b) else fmt.real a * fmt.real b) +
        (if nc then -fmt.real c else fmt.real c) ≠ 0 →
      fmt.isFinite (fpFma fmt rm a b c np nc).1 = true →
      Rounded fmt rm
        ((if np then -(fmt.real a * fmt.real b) else fmt.real a * fmt.real b) +
          (if nc then -fmt.real c else fmt.real c))
        (fpFma fmt rm a b c np nc).1) ∧
    (∀ zs : Bool,
      (fmt.val a + fmt.val b ≠ 0 → fpAdd fmt rm a b = roundFmt fmt rm (fmt.val a + fmt.val b) zs) ∧
      (fmt.val a - fmt.val b ≠ 0 → fpSub fmt rm a b = roundFmt fmt rm (fmt.val a - fmt.val b) zs) ∧
      (fmt.val a * fmt.val b ≠ 0 → fpMul fmt rm a b = roundFmt fmt rm (fmt.val a * fmt.val b) zs) ∧
      (fmt.val a ≠ 0 → fmt.val b ≠ 0 → fpDiv fmt rm a b = roundFmt fmt rm (fmt.val a / fmt.val b) zs) ∧
      (∀ np nc : Bool,
        (if np then -(fmt.val a * fmt.val b) else fmt.val a * fmt.val b) +
          (if nc then -fmt.val c else fmt.val c) ≠ 0 →
        fpFma fmt rm a b c np nc = roundFmt fmt rm
          ((if np then -(fmt.val a * fmt.val b) else fmt.val a * fmt.val b) +
            (if nc then -fmt.val c else fmt.val c)) zs)) ∧
    (0 < fmt.real a →
      fmt.isFinite (fpSqrt fmt rm a).1 = true ∧ fmt.sign (fpSqrt fmt rm a).1 = false ∧
      ((fpSqrt fmt rm a).2 = 0 ∨ (fpSqrt fmt rm a).2 = flagNX) ∧
      ((fpSqrt fmt rm a).2 = 0 ↔ fmt.real (fpSqrt fmt rm a).1 = Real.sqrt (fmt.real a)))

/-- R266, R268: without overflow the result is finite and has the sign of the exact value, the flags are none, NX, or
UF and NX, and there are none exactly when the value is exact; a value of the format is kept as it is; every finite
result is the exact value correctly rounded in the mode. (The spec's own choices: D23, G4). -/
def Obligations.RoundingFlags : Prop :=
  ∀ (fmt : Fmt) (rm : RoundingMode) (r : Rat) (zs : Bool), r ≠ 0 →
    ((roundFmt fmt rm r zs).2 &&& flagOF = 0 →
      fmt.isFinite (roundFmt fmt rm r zs).1 = true ∧ fmt.sign (roundFmt fmt rm r zs).1 = decide (r < 0) ∧
      ((roundFmt fmt rm r zs).2 = 0 ∨ (roundFmt fmt rm r zs).2 = flagNX ∨
        (roundFmt fmt rm r zs).2 = flagUF ||| flagNX) ∧
      ((roundFmt fmt rm r zs).2 = 0 ↔ fmt.real (roundFmt fmt rm r zs).1 = (r : ℝ))) ∧
    (∀ u, fmt.isFinite u = true → fmt.val u = r → roundFmt fmt rm r zs = (u, 0)) ∧
    (fmt.isFinite (roundFmt fmt rm r zs).1 = true → Rounded fmt rm (r : ℝ) (roundFmt fmt rm r zs).1)

/-- R268: UF is raised exactly when the result is inexact and the value rounded to the format's precision with an
unbounded exponent stays below 2^emin (tininess after rounding, the spec's decision D23). So it is raised only below
2^emin, always with NX, and for every inexact value that is a quantum of that precision, 2^(emin-1-F), or more below
2^emin. (The spec's own choice: D23). -/
def Obligations.UnderflowFlag : Prop :=
  ∀ (fmt : Fmt) (rm : RoundingMode) (r : Rat) (zs : Bool), r ≠ 0 →
    ((roundFmt fmt rm r zs).2 &&& flagUF ≠ 0 →
      |r| < (2 : Rat) ^ fmt.emin ∧ (roundFmt fmt rm r zs).2 = flagUF ||| flagNX) ∧
    (|r| ≤ (2 : Rat) ^ fmt.emin - (2 : Rat) ^ (fmt.emin - 1 - fmt.fracBits) → (roundFmt fmt rm r zs).2 ≠ 0 →
      (roundFmt fmt rm r zs).2 = flagUF ||| flagNX) ∧
    ((roundFmt fmt rm r zs).2 &&& flagUF ≠ 0 ↔
      ¬ fmt.reaches rm r fmt.emin ∧ fmt.real (roundFmt fmt rm r zs).1 ≠ (r : ℝ))

/-- R266, R267: OF is raised exactly when the magnitude rounded to the format's precision with an unbounded exponent
reaches 2^(emax+1), which every magnitude from there on does and none up to the largest finite value; the flags are
then OF and NX, and the result is infinity or the largest finite value by mode and sign. (The spec's own choice: G4).
-/
def Obligations.OverflowResults : Prop :=
  ∀ (fmt : Fmt) (rm : RoundingMode) (r : Rat) (zs : Bool), r ≠ 0 →
    ((roundFmt fmt rm r zs).2 &&& flagOF ≠ 0 ↔ fmt.reaches rm r (fmt.emax + 1)) ∧
    (fmt.reaches rm r (fmt.emax + 1) →
      (roundFmt fmt rm r zs).2 = flagOF ||| flagNX ∧
      (roundFmt fmt rm r zs).1 =
        (if rm = .rne ∨ rm = .rmm ∨ (rm = .rup ∧ 0 < r) ∨ (rm = .rdn ∧ r < 0) then fmt.inf (decide (r < 0))
         else fmt.maxFin (decide (r < 0)))) ∧
    ((2 : Rat) ^ (fmt.emax + 1) ≤ |r| → fmt.reaches rm r (fmt.emax + 1)) ∧
    (∀ u, fmt.isFinite u = true → |r| ≤ |fmt.val u| → (roundFmt fmt rm r zs).2 &&& flagOF = 0)

/-- R310: the bounds of the four integer types; a NaN or a value beyond the type saturates with NV; any other value is
truncated toward zero, with NX exactly when that changes it. (The spec's own choice: D26). -/
def Obligations.FpToIntegerValues : Prop :=
  (tyW.lo = -2 ^ 31 ∧ tyW.hi = 2 ^ 31 - 1 ∧ tyWU.lo = 0 ∧ tyWU.hi = 2 ^ 32 - 1 ∧
    tyL.lo = -2 ^ 63 ∧ tyL.hi = 2 ^ 63 - 1 ∧ tyLU.lo = 0 ∧ tyLU.hi = 2 ^ 64 - 1) ∧
  ∀ (fmt : Fmt) (ty : IntType) (a : BitVec fmt.width),
    (fmt.isNaN a = true → fpToInt fmt ty a = (ty.hi, flagNV)) ∧
    (fmt.isInf a = true → fpToInt fmt ty a = (if fmt.sign a then ty.lo else ty.hi, flagNV)) ∧
    (fmt.isFinite a = true → ∃ t : Int,
      |(t : ℝ)| ≤ |fmt.real a| ∧ |fmt.real a| < |(t : ℝ)| + 1 ∧ 0 ≤ (t : ℝ) * fmt.real a ∧
      fpToInt fmt ty a =
        if ty.hi < t then (ty.hi, flagNV) else if t < ty.lo then (ty.lo, flagNV)
        else (t, if fmt.val a = (t : Rat) then 0 else flagNX))

/-- R312: widening a finite value is exact and raises no flag, and narrowing the widened value gives it back. (The
spec's own choice: D38). -/
def Obligations.WideningIsExact : Prop :=
  ∀ (rm rm' : RoundingMode) (a : BitVec 32), Fmt.s.isFinite a = true →
    (fpToFp .d .s rm a).2 = 0 ∧ Fmt.d.real (fpToFp .d .s rm a).1 = Fmt.s.real a ∧
    Fmt.d.sign (fpToFp .d .s rm a).1 = Fmt.s.sign a ∧
    fpToFp .s .d rm' (fpToFp .d .s rm a).1 = (a, 0)

/-- R313: without a NaN, the comparisons are those of the numbers, infinities beyond every finite value and -0 equal to
+0, and no flag is raised; with one the answer is 0. (The spec's own choice: D27). -/
def Obligations.CompareValues : Prop :=
  ∀ (fmt : Fmt) (a b : BitVec fmt.width),
    (fmt.isFinite a = true → fmt.isFinite b = true →
      fpCompare fmt .eq a b = (decide (fmt.val a = fmt.val b), 0) ∧
      fpCompare fmt .lt a b = (decide (fmt.val a < fmt.val b), 0) ∧
      fpCompare fmt .le a b = (decide (fmt.val a ≤ fmt.val b), 0)) ∧
    (fmt.isInf a = true → fmt.isFinite b = true →
      fpCompare fmt .eq a b = (false, 0) ∧ fpCompare fmt .eq b a = (false, 0) ∧
      fpCompare fmt .lt a b = (fmt.sign a, 0) ∧ fpCompare fmt .lt b a = (!fmt.sign a, 0) ∧
      fpCompare fmt .le a b = (fmt.sign a, 0) ∧ fpCompare fmt .le b a = (!fmt.sign a, 0)) ∧
    (fmt.isInf a = true → fmt.isInf b = true →
      fpCompare fmt .eq a b = (fmt.sign a == fmt.sign b, 0) ∧
      fpCompare fmt .lt a b = (fmt.sign a && !fmt.sign b, 0) ∧
      fpCompare fmt .le a b = (fmt.sign a || !fmt.sign b, 0)) ∧
    (fmt.isNaN a = true ∨ fmt.isNaN b = true →
      fpCompare fmt .eq a b = (false, if fmt.isSNaN a || fmt.isSNaN b then flagNV else 0) ∧
      fpCompare fmt .lt a b = (false, flagNV) ∧ fpCompare fmt .le a b = (false, flagNV))

/-- R275: one quiet NaN gives the other operand; a signaling NaN raises NV; two NaNs give the canonical NaN; -0 is
below +0; otherwise the smaller or larger operand itself, in either order of the operands. (The spec's own choice:
D25). -/
def Obligations.MinMaxValues : Prop :=
  ∀ (fmt : Fmt) (a b : BitVec fmt.width),
    (fmt.isNaN a = true → fmt.isNaN b = true →
      fpMin fmt a b = (fmt.cNaN, if fmt.isSNaN a || fmt.isSNaN b then flagNV else 0) ∧
      fpMax fmt a b = (fmt.cNaN, if fmt.isSNaN a || fmt.isSNaN b then flagNV else 0)) ∧
    (fmt.isNaN a = true → fmt.isNaN b = false →
      fpMin fmt a b = (b, if fmt.isSNaN a then flagNV else 0) ∧ fpMin fmt b a = fpMin fmt a b ∧
      fpMax fmt a b = (b, if fmt.isSNaN a then flagNV else 0) ∧ fpMax fmt b a = fpMax fmt a b) ∧
    (fmt.isFinite a = true → fmt.isFinite b = true → fmt.real a ≤ fmt.real b →
      (fmt.isZero a = true → fmt.isZero b = true → fmt.sign b = true → fmt.sign a = true) →
      fpMin fmt a b = (a, 0) ∧ fpMin fmt b a = (a, 0) ∧ fpMax fmt a b = (b, 0) ∧ fpMax fmt b a = (b, 0)) ∧
    (fmt.isInf a = true → fmt.isNaN b = false →
      fpMin fmt a b = (if fmt.sign a then a else b, 0) ∧ fpMin fmt b a = fpMin fmt a b ∧
      fpMax fmt a b = (if fmt.sign a then b else a, 0) ∧ fpMax fmt b a = fpMax fmt a b)

/-- R314, R327, R339: FCLASS writes a mask of ten bits, zero-extended, and raises no flag; exactly one bit is set, and
which one is decided by the kind of value and its sign. The order of the bits is general knowledge of the spec's. And
the words that spell them (R90, R92, R93). (The spec's own choices: D28, D3, G1). -/
def Obligations.ClassResults : Prop :=
  (∀ (s : State) (rd : XReg) (rs1 : FReg),
    Does (.fclassS rd rs1) s { x := some (rd, BitVec.ofNat 64 (fpClass .s (s.readFmt .s rs1)).toNat) } ∧
    Does (.fclassD rd rs1) s { x := some (rd, BitVec.ofNat 64 (fpClass .d (s.readFmt .d rs1)).toNat) }) ∧
  (∀ (fmt : Fmt) (a : BitVec fmt.width),
      (∃ k < 10, fpClass fmt a = BitVec.twoPow 10 k) ∧
      (fpClass fmt a = 0x001 ↔ fmt.isInf a = true ∧ fmt.sign a = true) ∧
      (fpClass fmt a = 0x002 ↔
        fmt.exp a ≠ 0 ∧ fmt.isFinite a = true ∧ fmt.sign a = true) ∧
      (fpClass fmt a = 0x004 ↔ fmt.isSubnormal a = true ∧ fmt.sign a = true) ∧
      (fpClass fmt a = 0x008 ↔ fmt.isZero a = true ∧ fmt.sign a = true) ∧
      (fpClass fmt a = 0x010 ↔ fmt.isZero a = true ∧ fmt.sign a = false) ∧
      (fpClass fmt a = 0x020 ↔ fmt.isSubnormal a = true ∧ fmt.sign a = false) ∧
      (fpClass fmt a = 0x040 ↔
        fmt.exp a ≠ 0 ∧ fmt.isFinite a = true ∧ fmt.sign a = false) ∧
      (fpClass fmt a = 0x080 ↔ fmt.isInf a = true ∧ fmt.sign a = false) ∧
      (fpClass fmt a = 0x100 ↔ fmt.isSNaN a = true) ∧ (fpClass fmt a = 0x200 ↔ fmt.isQNaN a = true)) ∧
  Spells 0xFFF0707F 0xE0001053 (fun w => .fclassS (fRd w) (fRs1 w)) ∧
  Spells 0xFFF0707F 0xE2001053 (fun w => .fclassD (fRd w) (fRs1 w))

/-! ## The machine -/

/-- R37, R430: what reset leaves where the spec gives the value: no flag, RNE, no reservation, a running hart, and the
pc at `reset_pc`. (The spec's own choice: D31; the model's: log entries 3, 4, 5, 6 and 9). -/
def Obligations.ResetValues : Prop :=
  (∀ (e : Env) (x f : Vector Word 32) (mem : Memory),
    (State.launch e x f mem).fflags = 0 ∧ (State.launch e x f mem).frm = 0 ∧ (State.launch e x f mem).fcsr = 0 ∧
    (State.launch e x f mem).reservation = none ∧ (State.launch e x f mem).status = .running ∧
    (State.launch e x f mem).pc = e.resetPc ∧ (State.launch e x f mem).readX 0#5 = 0 ∧
    (State.launch e x f mem).mem = mem) ∧
  State.reset = State.launch Env.default (Vector.replicate 32 0) (Vector.replicate 32 0) []

/-- R434: the step of a running hart that is not at its end runs the instruction that the word at the pc decodes to.
(The spec's own choices: D3, D6, D14). -/
def Obligations.StepRunsDecodedInstruction : Prop :=
  ∀ (s : State) (w : InstrWord) (i : Instr), s.status = .running → endAddr s.env ≠ some s.pc →
    s.pc.toNat % 4 = 0 → textAt s.env.text s.pc.toNat = some w → decode s.env.xlen w = .instr i →
    i.wellFormed s.env.xlen = true ∧ step s = exec i s

/-- R402, R404, R412, R434: how a step ends without running an instruction: at `end_pc` the run ends well; a pc that is
no multiple of 4, a missing word and an illegal word fault; a word outside CORE is refused; a hart that does not run
has no next state. `end_pc` is by default the address after the last word of `text` (log entry 6 for an empty `text`).
(The spec's own choices: D6, D30, D36, D40). -/
def Obligations.StepWithoutInstruction : Prop :=
  (∀ s : State,
    (s.status = .running → endAddr s.env = some s.pc → step s = .next { s with status := .ended }) ∧
    (s.status = .running → endAddr s.env ≠ some s.pc → s.pc.toNat % 4 ≠ 0 →
      step s = .fault (.illegalInstruction s.pc)) ∧
    (s.status = .running → endAddr s.env ≠ some s.pc → textAt s.env.text s.pc.toNat = none →
      step s = .fault (.illegalInstruction s.pc)) ∧
    (∀ w, s.status = .running → endAddr s.env ≠ some s.pc → s.pc.toNat % 4 = 0 →
      textAt s.env.text s.pc.toNat = some w →
      (decode s.env.xlen w = .illegal → step s = .fault (.illegalInstruction s.pc)) ∧
      (∀ u, decode s.env.xlen w = .notInCore u → u = w ∧ step s = .refused (.notInCore w))) ∧
    (s.status ≠ .running → ∀ t, step s ≠ .next t)) ∧
  (∀ (e : Env) (a : Word), e.endPc = .fixed a → endAddr e = some a) ∧
  (∀ (e : Env) (t : List (Nat × InstrWord)) (k : Nat) (w : InstrWord), e.endPc = .afterText → e.text = t ++ [(k, w)] →
    endAddr e = some (e.xlen.addr (BitVec.ofNat 64 (k + 4)))) ∧
  (∀ e : Env, e.endPc = .afterText → e.text = [] → endAddr e = none)

/-! ## Encoding -/

/-- A few words written out from the spec's encodings, one or more of each family (a sanity statement; the words of
every row are in the statements of its family). -/
def Obligations.WrittenWordsDecode : Prop :=
  decode .rv64 0x0FF50593 = .instr (.addi 11 10 255) ∧
  decode .rv64 0x03F51593 = .instr (.slli 11 10 63) ∧
  decode .rv32 0x03F51593 = .illegal ∧
  decode .rv64 0xFFC52603 = .instr (.lw 12 10 0xFFC) ∧
  decode .rv64 0x00B53023 = .instr (.sd 10 11 0) ∧
  decode .rv32 0x00B53023 = .illegal ∧
  decode .rv64 0x02B53633 = .instr (.mulhu 12 10 11) ∧
  decode .rv64 0x00B5262F = .instr (.amoaddW false false 12 10 11) ∧
  decode .rv64 0x18B5372F = .instr (.scD false false 14 10 11) ∧
  decode .rv64 0x0020F1D3 = .instr (.faddS 3 1 2 7) ∧
  decode .rv64 0x0020D1D3 = .illegal ∧
  decode .rv64 0x202081C3 = .instr (.fmaddS 3 1 2 4 0) ∧
  decode .rv64 0xC0009653 = .instr (.fcvtWS 12 1 1) ∧
  decode .rv64 0x00351673 = .instr (.fscsr 12 10) ∧
  decode .rv64 0x0000006F = .notInCore 0x0000006F ∧
  decode .rv64 0xFFFFFFFF = .illegal ∧ decode .rv64 0x0000000B = .illegal

/-- R90, R92, R93: encoding a well-formed instruction and decoding the word gives the instruction back, for every
instruction, every operand value and both XLENs. (The spec's own choice: G1). -/
def Obligations.DecodeOfEncode : Prop :=
  ∀ (xl : XLen) (i : Instr), i.wellFormed xl = true → decode xl (encode i) = .instr i

/-- R90, R93: a word that decodes to an instruction is that instruction's word: decoding drops no bit, and no two words
decode to one instruction. (The spec's own choice: G1). -/
def Obligations.EncodeOfDecode : Prop :=
  ∀ (xl : XLen) (w : InstrWord) (i : Instr), decode xl w = .instr i → encode i = w ∧ i.wellFormed xl = true

/-- R90: no word matches two rows of the opcode table; R94, R404: a word that matches none is outside CORE when its low
bits are not 11 or its major opcode is one of the refused ones, and illegal otherwise; R93, R94, R402: a word that
matches a row decodes to the row's instruction or is illegal, and is illegal exactly when its rm field is 5 or 6 or, at
XLEN = 32, its row is RV64-only or its 6-bit shift amount has the top bit set. (The spec's own choices: D3, D36, D37,
G1). -/
def Obligations.TableIsUnambiguous : Prop :=
  (rows.length = 138) ∧
  (∀ (j k : Nat) (r q : Row) (w : InstrWord), rows[j]? = some r → rows[k]? = some q → r.hits w = true →
    q.hits w = true → j = k) ∧
  (∀ (xl : XLen) (w : InstrWord), (∀ r ∈ rows, r.hits w = false) →
    decode xl w = if w.toNat % 4 ≠ 3 ∨ w.toNat % 128 ∈ [0x37, 0x17, 0x6F, 0x67, 0x63, 0x0F, 0x07, 0x27, 0x73]
      then .notInCore w else .illegal) ∧
  (∀ r ∈ rows, ∀ (xl : XLen) (w : InstrWord), r.hits w = true →
    (decode xl w = .instr (r.build w) ∨ decode xl w = .illegal) ∧
    (decode xl w = .illegal ↔
      (r.build w).rmField = some 5 ∨ (r.build w).rmField = some 6 ∨
      xl = .rv32 ∧ ((r.build w).rv64Only = true ∨ ∃ n, (r.build w).shamt6 = some n ∧ n.getLsbD 5 = true)))

/-! ## Invariants and frames of every instruction -/

/-- The invariant (memory in canonical form, x[0] = 0, registers and pc of XLEN bits, pc a multiple of 4, an aligned
reservation) is kept by every step. (The spec's own choices: D4, D6, D12). -/
def Obligations.StepKeepsInvariant : Prop :=
  ∀ s t : State, Inv s → step s = .next t → Inv t

/-- The invariant holds at reset. (The spec's own choice: D31; the model's: log entries 3, 5 and 9). -/
def Obligations.ResetInvariant : Prop := Inv State.reset

/-- R21, R23, R26, R34, R36, R57: whatever instruction completes, the new state is the old one after an effect that
names only what that instruction may change; the pc goes to the next instruction and the parameters and the status
stay. (The spec's own choices: D4, D6, D43). -/
def Obligations.EveryInstructionFrame : Prop :=
  ∀ (i : Instr) (s t : State), exec i s = .next t →
    t.pc = s.env.xlen.addr (s.pc + 4) ∧ t.env = s.env ∧ t.status = s.status ∧
    (∀ r, xDest i ≠ some r → t.readX r = s.readX r) ∧ t.readX 0#5 = 0 ∧
    (∀ r, fDest i ≠ some r → t.readF r = s.readF r) ∧
    (∀ k, k ∉ written i s → t.readByte k = s.readByte k) ∧
    (¬ writesReservation i → t.reservation = s.reservation ∧ t.draws = s.draws)

/-- R24, R26: no instruction but FSFLAGS and FSCSR clears a flag, none that may not raise one changes fflags, and none
but FSRM and FSCSR changes frm. (The spec's own choice: D32). -/
def Obligations.ControlStateFrame : Prop :=
  ∀ (i : Instr) (s t : State), exec i s = .next t →
    (¬ replacesFlags i → ∃ m, t.fflags = s.fflags ||| m) ∧
    (¬ replacesFlags i → mayRaise i = false → t.fflags = s.fflags) ∧
    (¬ writesFrm i → t.frm = s.frm)

/-! ## Several harts -/

/-- R53, R54, R58, R62, R249, R250: a turn of one hart leaves every other hart as it was, but for a reservation that
the turn's writes touch, which is lost. A turn is one whole step; of a misaligned access done byte by byte it is one
byte, so that other harts' turns may fall between: a store writes that byte alone, a load keeps the byte it read, the
last byte completes the instruction as it runs on a memory with the bytes that passed, and a missing byte faults the
hart. (The spec's own choices: D8, D10, D12, D41; the model's: log entry 8). -/
def Obligations.OtherHartsFrame : Prop :=
  ∀ (y z : System) (k : Nat) (h : Hart), y.step k = some z → y.hart k = some h →
    (∀ (j : Nat) (g : Hart), j ≠ k → y.harts[j]? = some g →
      ∃ g', z.harts[j]? = some g' ∧ g'.seen = g.seen ∧ g'.state.x = g.state.x ∧ g'.state.f = g.state.f ∧
        g'.state.pc = g.state.pc ∧ g'.state.fflags = g.state.fflags ∧ g'.state.frm = g.state.frm ∧
        g'.state.status = g.state.status ∧ g'.state.env = g.state.env ∧
        (∀ r, g.state.reservation = some r →
          (∀ a ∈ h.written, a < r.addr.toNat ∨ r.addr.toNat + r.size.bytes ≤ a) → g'.state.reservation = some r) ∧
        (∀ r a, g.state.reservation = some r → a ∈ h.written → r.addr.toNat ≤ a →
          a < r.addr.toNat + r.size.bytes → g'.state.reservation = none) ∧
        (g.state.reservation = none → g'.state.reservation = none)) ∧
    (h.state.splitAccess = none →
      z.harts[k]? = some ⟨h.state.settle (step h.state), []⟩ ∧ z.mem = (h.state.settle (step h.state)).mem ∧
      h.written = stepWritten h.state) ∧
    (∀ i a, h.state.splitAccess = some (i, a) →
      (a.stored = none ∨ h.state.mapped (h.state.accessAddr a h.seen.length) = false →
        z.mem = y.mem ∧ h.written = []) ∧
      (∀ v, a.stored = some v → h.state.mapped (h.state.accessAddr a h.seen.length) = true →
        h.written = [h.state.accessAddr a h.seen.length] ∧
        ∀ q, Memory.read z.mem q =
          if q = h.state.accessAddr a h.seen.length then BitVec.ofNat 8 (v.toNat / 256 ^ h.seen.length)
          else Memory.read y.mem q) ∧
      (h.state.mapped (h.state.accessAddr a h.seen.length) = true → h.seen.length + 1 < a.size →
        z.harts[k]? = some ⟨{ h.state with mem := z.mem },
          h.seen ++ [Memory.read z.mem (h.state.accessAddr a h.seen.length)]⟩) ∧
      (h.state.allMapped a.addr a.size = true → h.seen.length + 1 = a.size →
        ∃ t, z.harts[k]? = some ⟨t, []⟩ ∧ t.mem = z.mem ∧
          ∀ m, (∀ j < a.size, Memory.read m (h.state.accessAddr a j) =
              (h.seen ++ [Memory.read z.mem (h.state.accessAddr a h.seen.length)])[j]?.getD 0) →
            ∃ u, exec i { h.state with mem := m } = .next u ∧ t = { u with mem := z.mem }) ∧
      (h.state.mapped (h.state.accessAddr a h.seen.length) = false →
        ∃ landed, z.harts[k]? =
          some ⟨{ h.state with status := .faulted (.accessFault a.addr landed) }, []⟩))
end

