-- ==== Sys2Proof/Laws/Decode.lean ====
section
/-! SUPPORT. Instruction words as concatenations of fields (spec/30_encoding.md R81 to R89): a field cut from a word
built in its format is the field put in, a mask keeps the fields it covers, and no word matches two rows (R90). -/

namespace Sys2Proof

/-! ## Words as numbers -/

theorem append_toNat {w v : Nat} (x : BitVec w) (y : BitVec v) : (x ++ y).toNat = x.toNat * 2 ^ v + y.toNat := by
  rw [BitVec.toNat_append, ← Nat.shiftLeft_add_eq_or_of_lt y.isLt, Nat.shiftLeft_eq]

theorem field_eq {w : InstrWord} {lo n : Nat} {x : BitVec n} (h : w.toNat / 2 ^ lo % 2 ^ n = x.toNat) :
    w.extractLsb' lo n = x := by
  apply BitVec.eq_of_toNat_eq
  rw [BitVec.extractLsb'_toNat, Nat.shiftRight_eq_div_pow, h]

theorem toNat_field (w : InstrWord) (lo n : Nat) : (w.extractLsb' lo n).toNat = w.toNat / 2 ^ lo % 2 ^ n := by
  rw [BitVec.extractLsb'_toNat, Nat.shiftRight_eq_div_pow]

/-! ## rWord -/

theorem rWord_toNat (f7 : BitVec 7) (rs2 : BitVec 5) (rs1 : BitVec 5) (f3 : BitVec 3) (rd : BitVec 5) (op : BitVec 7) :
    (rWord f7 rs2 rs1 f3 rd op).toNat =
      ((((f7.toNat * 32 + rs2.toNat) * 32 + rs1.toNat) * 8 + f3.toNat) * 32 + rd.toNat) * 128 + op.toNat := by
  simp only [rWord, append_toNat, Nat.reducePow]

@[simp] theorem rWord_rs2 (f7 : BitVec 7) (rs2 : BitVec 5) (rs1 : BitVec 5) (f3 : BitVec 3) (rd : BitVec 5) (op : BitVec 7) :
    fRs2 (rWord f7 rs2 rs1 f3 rd op) = rs2 := by
  have := f7.isLt; have := rs2.isLt; have := rs1.isLt; have := f3.isLt; have := rd.isLt; have := op.isLt
  apply field_eq; rw [rWord_toNat]; omega

@[simp] theorem rWord_rs1 (f7 : BitVec 7) (rs2 : BitVec 5) (rs1 : BitVec 5) (f3 : BitVec 3) (rd : BitVec 5) (op : BitVec 7) :
    fRs1 (rWord f7 rs2 rs1 f3 rd op) = rs1 := by
  have := f7.isLt; have := rs2.isLt; have := rs1.isLt; have := f3.isLt; have := rd.isLt; have := op.isLt
  apply field_eq; rw [rWord_toNat]; omega

@[simp] theorem rWord_f3 (f7 : BitVec 7) (rs2 : BitVec 5) (rs1 : BitVec 5) (f3 : BitVec 3) (rd : BitVec 5) (op : BitVec 7) :
    fRm (rWord f7 rs2 rs1 f3 rd op) = f3 := by
  have := f7.isLt; have := rs2.isLt; have := rs1.isLt; have := f3.isLt; have := rd.isLt; have := op.isLt
  apply field_eq; rw [rWord_toNat]; omega

@[simp] theorem rWord_rd (f7 : BitVec 7) (rs2 : BitVec 5) (rs1 : BitVec 5) (f3 : BitVec 3) (rd : BitVec 5) (op : BitVec 7) :
    fRd (rWord f7 rs2 rs1 f3 rd op) = rd := by
  have := f7.isLt; have := rs2.isLt; have := rs1.isLt; have := f3.isLt; have := rd.isLt; have := op.isLt
  apply field_eq; rw [rWord_toNat]; omega

@[simp] theorem rWord_op (f7 : BitVec 7) (rs2 : BitVec 5) (rs1 : BitVec 5) (f3 : BitVec 3) (rd : BitVec 5) (op : BitVec 7) :
    fOpcode (rWord f7 rs2 rs1 f3 rd op) = op := by
  have := f7.isLt; have := rs2.isLt; have := rs1.isLt; have := f3.isLt; have := rd.isLt; have := op.isLt
  apply field_eq; rw [rWord_toNat]; omega

/-- A word is made of its fields. -/
theorem rWord_parts (w : InstrWord) :
    rWord (w.extractLsb' 25 7) (fRs2 w) (fRs1 w) (fRm w) (fRd w) (fOpcode w) = w := by
  have := w.isLt
  apply BitVec.eq_of_toNat_eq
  simp only [rWord_toNat, fRs2, fRs1, fRm, fRd, fOpcode, toNat_field]
  omega

theorem rWord_inj {f7 f7' : BitVec 7} {rs2 rs2' : BitVec 5} {rs1 rs1' : BitVec 5} {f3 f3' : BitVec 3} {rd rd' : BitVec 5} {op op' : BitVec 7}
    (h : rWord f7 rs2 rs1 f3 rd op = rWord f7' rs2' rs1' f3' rd' op') :
    f7 = f7' ∧ rs2 = rs2' ∧ rs1 = rs1' ∧ f3 = f3' ∧ rd = rd' ∧ op = op' := by
  have h := congrArg BitVec.toNat h
  rw [rWord_toNat, rWord_toNat] at h
  have := f7.isLt; have := rs2.isLt; have := rs1.isLt; have := f3.isLt; have := rd.isLt; have := op.isLt
  have := f7'.isLt; have := rs2'.isLt; have := rs1'.isLt; have := f3'.isLt; have := rd'.isLt; have := op'.isLt
  refine ⟨?_, ?_, ?_, ?_, ?_, ?_⟩ <;> apply BitVec.eq_of_toNat_eq <;> omega

theorem rWord_and (f7 f7' : BitVec 7) (rs2 rs2' : BitVec 5) (rs1 rs1' : BitVec 5) (f3 f3' : BitVec 3) (rd rd' : BitVec 5) (op op' : BitVec 7) :
    rWord f7 rs2 rs1 f3 rd op &&& rWord f7' rs2' rs1' f3' rd' op' =
      rWord (f7 &&& f7') (rs2 &&& rs2') (rs1 &&& rs1') (f3 &&& f3') (rd &&& rd') (op &&& op') := by
  refine (BitVec.and_append (w := 25) (v := 7)).trans (congrArg (· ++ _) ?_)
  refine (BitVec.and_append (w := 20) (v := 5)).trans (congrArg (· ++ _) ?_)
  refine (BitVec.and_append (w := 17) (v := 3)).trans (congrArg (· ++ _) ?_)
  refine (BitVec.and_append (w := 12) (v := 5)).trans (congrArg (· ++ _) ?_)
  exact BitVec.and_append (w := 7) (v := 5)

/-! ## iWord -/

theorem iWord_toNat (imm : BitVec 12) (rs1 : BitVec 5) (f3 : BitVec 3) (rd : BitVec 5) (op : BitVec 7) :
    (iWord imm rs1 f3 rd op).toNat =
      (((imm.toNat * 32 + rs1.toNat) * 8 + f3.toNat) * 32 + rd.toNat) * 128 + op.toNat := by
  simp only [iWord, append_toNat, Nat.reducePow]

@[simp] theorem iWord_imm (imm : BitVec 12) (rs1 : BitVec 5) (f3 : BitVec 3) (rd : BitVec 5) (op : BitVec 7) :
    fImmI (iWord imm rs1 f3 rd op) = imm := by
  have := imm.isLt; have := rs1.isLt; have := f3.isLt; have := rd.isLt; have := op.isLt
  apply field_eq; rw [iWord_toNat]; omega

@[simp] theorem iWord_rs1 (imm : BitVec 12) (rs1 : BitVec 5) (f3 : BitVec 3) (rd : BitVec 5) (op : BitVec 7) :
    fRs1 (iWord imm rs1 f3 rd op) = rs1 := by
  have := imm.isLt; have := rs1.isLt; have := f3.isLt; have := rd.isLt; have := op.isLt
  apply field_eq; rw [iWord_toNat]; omega

@[simp] theorem iWord_f3 (imm : BitVec 12) (rs1 : BitVec 5) (f3 : BitVec 3) (rd : BitVec 5) (op : BitVec 7) :
    fRm (iWord imm rs1 f3 rd op) = f3 := by
  have := imm.isLt; have := rs1.isLt; have := f3.isLt; have := rd.isLt; have := op.isLt
  apply field_eq; rw [iWord_toNat]; omega

@[simp] theorem iWord_rd (imm : BitVec 12) (rs1 : BitVec 5) (f3 : BitVec 3) (rd : BitVec 5) (op : BitVec 7) :
    fRd (iWord imm rs1 f3 rd op) = rd := by
  have := imm.isLt; have := rs1.isLt; have := f3.isLt; have := rd.isLt; have := op.isLt
  apply field_eq; rw [iWord_toNat]; omega

@[simp] theorem iWord_op (imm : BitVec 12) (rs1 : BitVec 5) (f3 : BitVec 3) (rd : BitVec 5) (op : BitVec 7) :
    fOpcode (iWord imm rs1 f3 rd op) = op := by
  have := imm.isLt; have := rs1.isLt; have := f3.isLt; have := rd.isLt; have := op.isLt
  apply field_eq; rw [iWord_toNat]; omega

/-- A word is made of its fields. -/
theorem iWord_parts (w : InstrWord) :
    iWord (fImmI w) (fRs1 w) (fRm w) (fRd w) (fOpcode w) = w := by
  have := w.isLt
  apply BitVec.eq_of_toNat_eq
  simp only [iWord_toNat, fImmI, fRs1, fRm, fRd, fOpcode, toNat_field]
  omega

theorem iWord_inj {imm imm' : BitVec 12} {rs1 rs1' : BitVec 5} {f3 f3' : BitVec 3} {rd rd' : BitVec 5} {op op' : BitVec 7}
    (h : iWord imm rs1 f3 rd op = iWord imm' rs1' f3' rd' op') :
    imm = imm' ∧ rs1 = rs1' ∧ f3 = f3' ∧ rd = rd' ∧ op = op' := by
  have h := congrArg BitVec.toNat h
  rw [iWord_toNat, iWord_toNat] at h
  have := imm.isLt; have := rs1.isLt; have := f3.isLt; have := rd.isLt; have := op.isLt
  have := imm'.isLt; have := rs1'.isLt; have := f3'.isLt; have := rd'.isLt; have := op'.isLt
  refine ⟨?_, ?_, ?_, ?_, ?_⟩ <;> apply BitVec.eq_of_toNat_eq <;> omega

theorem iWord_and (imm imm' : BitVec 12) (rs1 rs1' : BitVec 5) (f3 f3' : BitVec 3) (rd rd' : BitVec 5) (op op' : BitVec 7) :
    iWord imm rs1 f3 rd op &&& iWord imm' rs1' f3' rd' op' =
      iWord (imm &&& imm') (rs1 &&& rs1') (f3 &&& f3') (rd &&& rd') (op &&& op') := by
  refine (BitVec.and_append (w := 25) (v := 7)).trans (congrArg (· ++ _) ?_)
  refine (BitVec.and_append (w := 20) (v := 5)).trans (congrArg (· ++ _) ?_)
  refine (BitVec.and_append (w := 17) (v := 3)).trans (congrArg (· ++ _) ?_)
  exact BitVec.and_append (w := 12) (v := 5)

/-! ## shiftWord -/

theorem shiftWord_toNat (f6 : BitVec 6) (sh : BitVec 6) (rs1 : BitVec 5) (f3 : BitVec 3) (rd : BitVec 5) (op : BitVec 7) :
    (shiftWord f6 sh rs1 f3 rd op).toNat =
      ((((f6.toNat * 64 + sh.toNat) * 32 + rs1.toNat) * 8 + f3.toNat) * 32 + rd.toNat) * 128 + op.toNat := by
  simp only [shiftWord, append_toNat, Nat.reducePow]

@[simp] theorem shiftWord_sh (f6 : BitVec 6) (sh : BitVec 6) (rs1 : BitVec 5) (f3 : BitVec 3) (rd : BitVec 5) (op : BitVec 7) :
    fShamt6 (shiftWord f6 sh rs1 f3 rd op) = sh := by
  have := f6.isLt; have := sh.isLt; have := rs1.isLt; have := f3.isLt; have := rd.isLt; have := op.isLt
  apply field_eq; rw [shiftWord_toNat]; omega

@[simp] theorem shiftWord_rs1 (f6 : BitVec 6) (sh : BitVec 6) (rs1 : BitVec 5) (f3 : BitVec 3) (rd : BitVec 5) (op : BitVec 7) :
    fRs1 (shiftWord f6 sh rs1 f3 rd op) = rs1 := by
  have := f6.isLt; have := sh.isLt; have := rs1.isLt; have := f3.isLt; have := rd.isLt; have := op.isLt
  apply field_eq; rw [shiftWord_toNat]; omega

@[simp] theorem shiftWord_f3 (f6 : BitVec 6) (sh : BitVec 6) (rs1 : BitVec 5) (f3 : BitVec 3) (rd : BitVec 5) (op : BitVec 7) :
    fRm (shiftWord f6 sh rs1 f3 rd op) = f3 := by
  have := f6.isLt; have := sh.isLt; have := rs1.isLt; have := f3.isLt; have := rd.isLt; have := op.isLt
  apply field_eq; rw [shiftWord_toNat]; omega

@[simp] theorem shiftWord_rd (f6 : BitVec 6) (sh : BitVec 6) (rs1 : BitVec 5) (f3 : BitVec 3) (rd : BitVec 5) (op : BitVec 7) :
    fRd (shiftWord f6 sh rs1 f3 rd op) = rd := by
  have := f6.isLt; have := sh.isLt; have := rs1.isLt; have := f3.isLt; have := rd.isLt; have := op.isLt
  apply field_eq; rw [shiftWord_toNat]; omega

@[simp] theorem shiftWord_op (f6 : BitVec 6) (sh : BitVec 6) (rs1 : BitVec 5) (f3 : BitVec 3) (rd : BitVec 5) (op : BitVec 7) :
    fOpcode (shiftWord f6 sh rs1 f3 rd op) = op := by
  have := f6.isLt; have := sh.isLt; have := rs1.isLt; have := f3.isLt; have := rd.isLt; have := op.isLt
  apply field_eq; rw [shiftWord_toNat]; omega

/-- A word is made of its fields. -/
theorem shiftWord_parts (w : InstrWord) :
    shiftWord (w.extractLsb' 26 6) (fShamt6 w) (fRs1 w) (fRm w) (fRd w) (fOpcode w) = w := by
  have := w.isLt
  apply BitVec.eq_of_toNat_eq
  simp only [shiftWord_toNat, fShamt6, fRs1, fRm, fRd, fOpcode, toNat_field]
  omega

theorem shiftWord_inj {f6 f6' : BitVec 6} {sh sh' : BitVec 6} {rs1 rs1' : BitVec 5} {f3 f3' : BitVec 3} {rd rd' : BitVec 5} {op op' : BitVec 7}
    (h : shiftWord f6 sh rs1 f3 rd op = shiftWord f6' sh' rs1' f3' rd' op') :
    f6 = f6' ∧ sh = sh' ∧ rs1 = rs1' ∧ f3 = f3' ∧ rd = rd' ∧ op = op' := by
  have h := congrArg BitVec.toNat h
  rw [shiftWord_toNat, shiftWord_toNat] at h
  have := f6.isLt; have := sh.isLt; have := rs1.isLt; have := f3.isLt; have := rd.isLt; have := op.isLt
  have := f6'.isLt; have := sh'.isLt; have := rs1'.isLt; have := f3'.isLt; have := rd'.isLt; have := op'.isLt
  refine ⟨?_, ?_, ?_, ?_, ?_, ?_⟩ <;> apply BitVec.eq_of_toNat_eq <;> omega

theorem shiftWord_and (f6 f6' : BitVec 6) (sh sh' : BitVec 6) (rs1 rs1' : BitVec 5) (f3 f3' : BitVec 3) (rd rd' : BitVec 5) (op op' : BitVec 7) :
    shiftWord f6 sh rs1 f3 rd op &&& shiftWord f6' sh' rs1' f3' rd' op' =
      shiftWord (f6 &&& f6') (sh &&& sh') (rs1 &&& rs1') (f3 &&& f3') (rd &&& rd') (op &&& op') := by
  refine (BitVec.and_append (w := 25) (v := 7)).trans (congrArg (· ++ _) ?_)
  refine (BitVec.and_append (w := 20) (v := 5)).trans (congrArg (· ++ _) ?_)
  refine (BitVec.and_append (w := 17) (v := 3)).trans (congrArg (· ++ _) ?_)
  refine (BitVec.and_append (w := 12) (v := 5)).trans (congrArg (· ++ _) ?_)
  exact BitVec.and_append (w := 6) (v := 6)

/-! ## r4Word -/

theorem r4Word_toNat (rs3 : BitVec 5) (fmt : BitVec 2) (rs2 : BitVec 5) (rs1 : BitVec 5) (rm : BitVec 3) (rd : BitVec 5) (op : BitVec 7) :
    (r4Word rs3 fmt rs2 rs1 rm rd op).toNat =
      (((((rs3.toNat * 4 + fmt.toNat) * 32 + rs2.toNat) * 32 + rs1.toNat) * 8 + rm.toNat) * 32 + rd.toNat) * 128 + op.toNat := by
  simp only [r4Word, append_toNat, Nat.reducePow]

@[simp] theorem r4Word_rs3 (rs3 : BitVec 5) (fmt : BitVec 2) (rs2 : BitVec 5) (rs1 : BitVec 5) (rm : BitVec 3) (rd : BitVec 5) (op : BitVec 7) :
    fRs3 (r4Word rs3 fmt rs2 rs1 rm rd op) = rs3 := by
  have := rs3.isLt; have := fmt.isLt; have := rs2.isLt; have := rs1.isLt; have := rm.isLt; have := rd.isLt; have := op.isLt
  apply field_eq; rw [r4Word_toNat]; omega

@[simp] theorem r4Word_rs2 (rs3 : BitVec 5) (fmt : BitVec 2) (rs2 : BitVec 5) (rs1 : BitVec 5) (rm : BitVec 3) (rd : BitVec 5) (op : BitVec 7) :
    fRs2 (r4Word rs3 fmt rs2 rs1 rm rd op) = rs2 := by
  have := rs3.isLt; have := fmt.isLt; have := rs2.isLt; have := rs1.isLt; have := rm.isLt; have := rd.isLt; have := op.isLt
  apply field_eq; rw [r4Word_toNat]; omega

@[simp] theorem r4Word_rs1 (rs3 : BitVec 5) (fmt : BitVec 2) (rs2 : BitVec 5) (rs1 : BitVec 5) (rm : BitVec 3) (rd : BitVec 5) (op : BitVec 7) :
    fRs1 (r4Word rs3 fmt rs2 rs1 rm rd op) = rs1 := by
  have := rs3.isLt; have := fmt.isLt; have := rs2.isLt; have := rs1.isLt; have := rm.isLt; have := rd.isLt; have := op.isLt
  apply field_eq; rw [r4Word_toNat]; omega

@[simp] theorem r4Word_rm (rs3 : BitVec 5) (fmt : BitVec 2) (rs2 : BitVec 5) (rs1 : BitVec 5) (rm : BitVec 3) (rd : BitVec 5) (op : BitVec 7) :
    fRm (r4Word rs3 fmt rs2 rs1 rm rd op) = rm := by
  have := rs3.isLt; have := fmt.isLt; have := rs2.isLt; have := rs1.isLt; have := rm.isLt; have := rd.isLt; have := op.isLt
  apply field_eq; rw [r4Word_toNat]; omega

@[simp] theorem r4Word_rd (rs3 : BitVec 5) (fmt : BitVec 2) (rs2 : BitVec 5) (rs1 : BitVec 5) (rm : BitVec 3) (rd : BitVec 5) (op : BitVec 7) :
    fRd (r4Word rs3 fmt rs2 rs1 rm rd op) = rd := by
  have := rs3.isLt; have := fmt.isLt; have := rs2.isLt; have := rs1.isLt; have := rm.isLt; have := rd.isLt; have := op.isLt
  apply field_eq; rw [r4Word_toNat]; omega

@[simp] theorem r4Word_op (rs3 : BitVec 5) (fmt : BitVec 2) (rs2 : BitVec 5) (rs1 : BitVec 5) (rm : BitVec 3) (rd : BitVec 5) (op : BitVec 7) :
    fOpcode (r4Word rs3 fmt rs2 rs1 rm rd op) = op := by
  have := rs3.isLt; have := fmt.isLt; have := rs2.isLt; have := rs1.isLt; have := rm.isLt; have := rd.isLt; have := op.isLt
  apply field_eq; rw [r4Word_toNat]; omega

/-- A word is made of its fields. -/
theorem r4Word_parts (w : InstrWord) :
    r4Word (fRs3 w) (w.extractLsb' 25 2) (fRs2 w) (fRs1 w) (fRm w) (fRd w) (fOpcode w) = w := by
  have := w.isLt
  apply BitVec.eq_of_toNat_eq
  simp only [r4Word_toNat, fRs3, fRs2, fRs1, fRm, fRd, fOpcode, toNat_field]
  omega

theorem r4Word_inj {rs3 rs3' : BitVec 5} {fmt fmt' : BitVec 2} {rs2 rs2' : BitVec 5} {rs1 rs1' : BitVec 5} {rm rm' : BitVec 3} {rd rd' : BitVec 5} {op op' : BitVec 7}
    (h : r4Word rs3 fmt rs2 rs1 rm rd op = r4Word rs3' fmt' rs2' rs1' rm' rd' op') :
    rs3 = rs3' ∧ fmt = fmt' ∧ rs2 = rs2' ∧ rs1 = rs1' ∧ rm = rm' ∧ rd = rd' ∧ op = op' := by
  have h := congrArg BitVec.toNat h
  rw [r4Word_toNat, r4Word_toNat] at h
  have := rs3.isLt; have := fmt.isLt; have := rs2.isLt; have := rs1.isLt; have := rm.isLt; have := rd.isLt; have := op.isLt
  have := rs3'.isLt; have := fmt'.isLt; have := rs2'.isLt; have := rs1'.isLt; have := rm'.isLt; have := rd'.isLt; have := op'.isLt
  refine ⟨?_, ?_, ?_, ?_, ?_, ?_, ?_⟩ <;> apply BitVec.eq_of_toNat_eq <;> omega

theorem r4Word_and (rs3 rs3' : BitVec 5) (fmt fmt' : BitVec 2) (rs2 rs2' : BitVec 5) (rs1 rs1' : BitVec 5) (rm rm' : BitVec 3) (rd rd' : BitVec 5) (op op' : BitVec 7) :
    r4Word rs3 fmt rs2 rs1 rm rd op &&& r4Word rs3' fmt' rs2' rs1' rm' rd' op' =
      r4Word (rs3 &&& rs3') (fmt &&& fmt') (rs2 &&& rs2') (rs1 &&& rs1') (rm &&& rm') (rd &&& rd') (op &&& op') := by
  refine (BitVec.and_append (w := 25) (v := 7)).trans (congrArg (· ++ _) ?_)
  refine (BitVec.and_append (w := 20) (v := 5)).trans (congrArg (· ++ _) ?_)
  refine (BitVec.and_append (w := 17) (v := 3)).trans (congrArg (· ++ _) ?_)
  refine (BitVec.and_append (w := 12) (v := 5)).trans (congrArg (· ++ _) ?_)
  refine (BitVec.and_append (w := 7) (v := 5)).trans (congrArg (· ++ _) ?_)
  exact BitVec.and_append (w := 5) (v := 2)

/-! ## What a mask keeps (R90) -/

theorem rWord_maskR (f7 : BitVec 7) (rs2 : BitVec 5) (rs1 : BitVec 5) (f3 : BitVec 3) (rd : BitVec 5) (op : BitVec 7) :
    rWord f7 rs2 rs1 f3 rd op &&& 0xFE00707F#32 = rWord f7 0#5 0#5 f3 0#5 op := by
  rw [show 0xFE00707F#32 = rWord (.allOnes 7) 0#5 0#5 (.allOnes 3) 0#5 (.allOnes 7) from by decide, rWord_and]
  simp only [BitVec.and_allOnes, BitVec.and_zero]

theorem rWord_maskUnary (f7 : BitVec 7) (rs2 : BitVec 5) (rs1 : BitVec 5) (f3 : BitVec 3) (rd : BitVec 5) (op : BitVec 7) :
    rWord f7 rs2 rs1 f3 rd op &&& 0xFFF0707F#32 = rWord f7 rs2 0#5 f3 0#5 op := by
  rw [show 0xFFF0707F#32 = rWord (.allOnes 7) (.allOnes 5) 0#5 (.allOnes 3) 0#5 (.allOnes 7) from by decide, rWord_and]
  simp only [BitVec.and_allOnes, BitVec.and_zero]

theorem rWord_maskRm (f7 : BitVec 7) (rs2 : BitVec 5) (rs1 : BitVec 5) (f3 : BitVec 3) (rd : BitVec 5) (op : BitVec 7) :
    rWord f7 rs2 rs1 f3 rd op &&& 0xFE00007F#32 = rWord f7 0#5 0#5 0#3 0#5 op := by
  rw [show 0xFE00007F#32 = rWord (.allOnes 7) 0#5 0#5 0#3 0#5 (.allOnes 7) from by decide, rWord_and]
  simp only [BitVec.and_allOnes, BitVec.and_zero]

theorem rWord_maskUnaryRm (f7 : BitVec 7) (rs2 : BitVec 5) (rs1 : BitVec 5) (f3 : BitVec 3) (rd : BitVec 5) (op : BitVec 7) :
    rWord f7 rs2 rs1 f3 rd op &&& 0xFFF0007F#32 = rWord f7 rs2 0#5 0#3 0#5 op := by
  rw [show 0xFFF0007F#32 = rWord (.allOnes 7) (.allOnes 5) 0#5 0#3 0#5 (.allOnes 7) from by decide, rWord_and]
  simp only [BitVec.and_allOnes, BitVec.and_zero]

theorem iWord_maskI (imm : BitVec 12) (rs1 : BitVec 5) (f3 : BitVec 3) (rd : BitVec 5) (op : BitVec 7) :
    iWord imm rs1 f3 rd op &&& 0x0000707F#32 = iWord 0#12 0#5 f3 0#5 op := by
  rw [show 0x0000707F#32 = iWord 0#12 0#5 (.allOnes 3) 0#5 (.allOnes 7) from by decide, iWord_and]
  simp only [BitVec.and_allOnes, BitVec.and_zero]

theorem iWord_maskCsr (imm : BitVec 12) (rs1 : BitVec 5) (f3 : BitVec 3) (rd : BitVec 5) (op : BitVec 7) :
    iWord imm rs1 f3 rd op &&& 0xFFFFF07F#32 = iWord imm rs1 f3 0#5 op := by
  rw [show 0xFFFFF07F#32 = iWord (.allOnes 12) (.allOnes 5) (.allOnes 3) 0#5 (.allOnes 7) from by decide, iWord_and]
  simp only [BitVec.and_allOnes, BitVec.and_zero]

theorem iWord_maskCsrSet (imm : BitVec 12) (rs1 : BitVec 5) (f3 : BitVec 3) (rd : BitVec 5) (op : BitVec 7) :
    iWord imm rs1 f3 rd op &&& 0xFFF0707F#32 = iWord imm 0#5 f3 0#5 op := by
  rw [show 0xFFF0707F#32 = iWord (.allOnes 12) 0#5 (.allOnes 3) 0#5 (.allOnes 7) from by decide, iWord_and]
  simp only [BitVec.and_allOnes, BitVec.and_zero]

theorem shiftWord_maskShift (f6 : BitVec 6) (sh : BitVec 6) (rs1 : BitVec 5) (f3 : BitVec 3) (rd : BitVec 5) (op : BitVec 7) :
    shiftWord f6 sh rs1 f3 rd op &&& 0xFC00707F#32 = shiftWord f6 0#6 0#5 f3 0#5 op := by
  rw [show 0xFC00707F#32 = shiftWord (.allOnes 6) 0#6 0#5 (.allOnes 3) 0#5 (.allOnes 7) from by decide, shiftWord_and]
  simp only [BitVec.and_allOnes, BitVec.and_zero]

theorem r4Word_maskR4 (rs3 : BitVec 5) (fmt : BitVec 2) (rs2 : BitVec 5) (rs1 : BitVec 5) (rm : BitVec 3) (rd : BitVec 5) (op : BitVec 7) :
    r4Word rs3 fmt rs2 rs1 rm rd op &&& 0x0600007F#32 = r4Word 0#5 fmt 0#5 0#5 0#3 0#5 op := by
  rw [show 0x0600007F#32 = r4Word 0#5 (.allOnes 2) 0#5 0#5 0#3 0#5 (.allOnes 7) from by decide, r4Word_and]
  simp only [BitVec.and_allOnes, BitVec.and_zero]

/-! ## Stores and atomics -/

/-- An S-format word is an R-format word whose upper and lower immediate fields are the immediate's (R85). -/
theorem sWord_eq (imm : BitVec 12) (rs2 rs1 : BitVec 5) (f3 : BitVec 3) (op : BitVec 7) :
    sWord imm rs2 rs1 f3 op = rWord (imm.extractLsb' 5 7) rs2 rs1 f3 (imm.extractLsb' 0 5) op := rfl

/-- The 5-bit shift amount stands in the place of rs2 (R84). -/
@[simp] theorem rWord_shamt (f7 : BitVec 7) (rs2 rs1 : BitVec 5) (f3 : BitVec 3) (rd : BitVec 5) (op : BitVec 7) :
    fShamt5 (rWord f7 rs2 rs1 f3 rd op) = rs2 := rWord_rs2 ..

theorem imm_parts (imm : BitVec 12) : imm.extractLsb' 5 7 ++ imm.extractLsb' 0 5 = imm := by
  have := imm.isLt
  apply BitVec.eq_of_toNat_eq
  rw [append_toNat, BitVec.extractLsb'_toNat, BitVec.extractLsb'_toNat, Nat.shiftRight_eq_div_pow]
  omega

theorem rWord_top (f7 : BitVec 7) (rs2 rs1 : BitVec 5) (f3 : BitVec 3) (rd : BitVec 5) (op : BitVec 7) :
    (rWord f7 rs2 rs1 f3 rd op).extractLsb' 25 7 = f7 := by
  have := f7.isLt; have := rs2.isLt; have := rs1.isLt; have := f3.isLt; have := rd.isLt; have := op.isLt
  apply field_eq; rw [rWord_toNat]; omega

@[simp] theorem sWord_imm (imm : BitVec 12) (rs2 rs1 : BitVec 5) (f3 : BitVec 3) (op : BitVec 7) :
    fImmS (sWord imm rs2 rs1 f3 op) = imm := by
  rw [fImmS, sWord_eq, rWord_top]
  exact (congrArg (_ ++ ·) (rWord_rd ..)).trans (imm_parts imm)

theorem sWord_mask (imm : BitVec 12) (rs2 rs1 : BitVec 5) (f3 : BitVec 3) (op : BitVec 7) :
    sWord imm rs2 rs1 f3 op &&& 0x0000707F#32 = rWord 0#7 0#5 0#5 f3 0#5 op := by
  rw [sWord_eq, show 0x0000707F#32 = rWord 0#7 0#5 0#5 (.allOnes 3) 0#5 (.allOnes 7) from by decide, rWord_and]
  simp only [BitVec.and_allOnes, BitVec.and_zero]

theorem sWord_parts (w : InstrWord) : sWord (fImmS w) (fRs2 w) (fRs1 w) (fRm w) (fOpcode w) = w := by
  have hi : (fImmS w).toNat = w.toNat / 2 ^ 25 % 2 ^ 7 * 2 ^ 5 + w.toNat / 2 ^ 7 % 2 ^ 5 := by
    rw [fImmS, append_toNat, toNat_field, toNat_field]
  have h1 : (fImmS w).extractLsb' 5 7 = w.extractLsb' 25 7 := by
    apply BitVec.eq_of_toNat_eq
    rw [BitVec.extractLsb'_toNat, Nat.shiftRight_eq_div_pow, hi, toNat_field]
    omega
  have h2 : (fImmS w).extractLsb' 0 5 = fRd w := by
    apply BitVec.eq_of_toNat_eq
    rw [BitVec.extractLsb'_toNat, Nat.shiftRight_eq_div_pow, hi, fRd, toNat_field]
    omega
  rw [sWord_eq, h1, h2, rWord_parts]

@[simp] theorem sWord_rs1 (imm : BitVec 12) (rs2 rs1 : BitVec 5) (f3 : BitVec 3) (op : BitVec 7) :
    fRs1 (sWord imm rs2 rs1 f3 op) = rs1 := rWord_rs1 ..

@[simp] theorem sWord_rs2 (imm : BitVec 12) (rs2 rs1 : BitVec 5) (f3 : BitVec 3) (op : BitVec 7) :
    fRs2 (sWord imm rs2 rs1 f3 op) = rs2 := rWord_rs2 ..

/-- What the two ordering bits and the 5-bit function make of the upper seven bits (R87). -/
def amoTop (f5 : BitVec 5) (aq rl : Bool) : BitVec 7 := f5 ++ BitVec.ofBool aq ++ BitVec.ofBool rl

theorem amoWord_eq (f5 : BitVec 5) (aq rl : Bool) (rs2 rs1 : BitVec 5) (f3 : BitVec 3) (rd : BitVec 5) :
    amoWord f5 aq rl rs2 rs1 f3 rd = rWord (amoTop f5 aq rl) rs2 rs1 f3 rd 0b0101111 := rfl

theorem amoTop_toNat (f5 : BitVec 5) (aq rl : Bool) :
    (amoTop f5 aq rl).toNat = (f5.toNat * 2 + aq.toNat) * 2 + rl.toNat := by
  simp only [amoTop, append_toNat, BitVec.toNat_ofBool, Nat.reducePow]

theorem amoTop_mask (f5 : BitVec 5) (aq rl : Bool) : amoTop f5 aq rl &&& 0x7C#7 = amoTop f5 false false := by
  refine (BitVec.and_append (w := 6) (v := 1) (x₂ := 0b111110) (y₂ := 0)).trans ?_
  refine congrArg₂ (· ++ ·) ?_ (by cases rl <;> rfl)
  refine (BitVec.and_append (w := 5) (v := 1) (x₂ := 0b11111) (y₂ := 0)).trans ?_
  exact congrArg₂ (· ++ ·) (BitVec.and_allOnes (x := f5)) (by cases aq <;> rfl)

theorem amoWord_mask (f5 : BitVec 5) (aq rl : Bool) (rs2 rs1 : BitVec 5) (f3 : BitVec 3) (rd : BitVec 5) :
    amoWord f5 aq rl rs2 rs1 f3 rd &&& 0xF800707F#32 = amoWord f5 false false 0#5 0#5 f3 0#5 := by
  rw [amoWord_eq, show 0xF800707F#32 = rWord 0x7C#7 0#5 0#5 (.allOnes 3) 0#5 (.allOnes 7) from by decide, rWord_and, amoTop_mask, amoWord_eq]
  simp only [BitVec.and_allOnes, BitVec.and_zero]

theorem amoWord_maskLr (f5 : BitVec 5) (aq rl : Bool) (rs2 rs1 : BitVec 5) (f3 : BitVec 3) (rd : BitVec 5) :
    amoWord f5 aq rl rs2 rs1 f3 rd &&& 0xF9F0707F#32 = amoWord f5 false false rs2 0#5 f3 0#5 := by
  rw [amoWord_eq, show 0xF9F0707F#32 = rWord 0x7C#7 (.allOnes 5) 0#5 (.allOnes 3) 0#5 (.allOnes 7) from by decide, rWord_and, amoTop_mask,
    amoWord_eq]
  simp only [BitVec.and_allOnes, BitVec.and_zero]

@[simp] theorem amoWord_aq (f5 : BitVec 5) (aq rl : Bool) (rs2 rs1 : BitVec 5) (f3 : BitVec 3) (rd : BitVec 5) :
    fAq (amoWord f5 aq rl rs2 rs1 f3 rd) = aq := by
  have := f5.isLt; have := rs2.isLt; have := rs1.isLt; have := f3.isLt; have := rd.isLt
  rw [fAq, BitVec.getLsbD, Nat.testBit_eq_decide_div_mod_eq, amoWord_eq, rWord_toNat, amoTop_toNat]
  cases aq <;> cases rl <;> simp <;> omega

@[simp] theorem amoWord_rl (f5 : BitVec 5) (aq rl : Bool) (rs2 rs1 : BitVec 5) (f3 : BitVec 3) (rd : BitVec 5) :
    fRl (amoWord f5 aq rl rs2 rs1 f3 rd) = rl := by
  have := f5.isLt; have := rs2.isLt; have := rs1.isLt; have := f3.isLt; have := rd.isLt
  rw [fRl, BitVec.getLsbD, Nat.testBit_eq_decide_div_mod_eq, amoWord_eq, rWord_toNat, amoTop_toNat]
  cases aq <;> cases rl <;> simp <;> omega

@[simp] theorem amoWord_rs2 (f5 : BitVec 5) (aq rl : Bool) (rs2 rs1 : BitVec 5) (f3 : BitVec 3) (rd : BitVec 5) :
    fRs2 (amoWord f5 aq rl rs2 rs1 f3 rd) = rs2 := rWord_rs2 ..

@[simp] theorem amoWord_rs1 (f5 : BitVec 5) (aq rl : Bool) (rs2 rs1 : BitVec 5) (f3 : BitVec 3) (rd : BitVec 5) :
    fRs1 (amoWord f5 aq rl rs2 rs1 f3 rd) = rs1 := rWord_rs1 ..

@[simp] theorem amoWord_rd (f5 : BitVec 5) (aq rl : Bool) (rs2 rs1 : BitVec 5) (f3 : BitVec 3) (rd : BitVec 5) :
    fRd (amoWord f5 aq rl rs2 rs1 f3 rd) = rd := rWord_rd ..

theorem amoTop_parts (w : InstrWord) :
    amoTop (w.extractLsb' 27 5) (fAq w) (fRl w) = w.extractLsb' 25 7 := by
  have := w.isLt
  have bit (x : Nat) : (decide (x % 2 = 1)).toNat = x % 2 := by
    rcases Nat.mod_two_eq_zero_or_one x with h | h <;> simp [h]
  apply BitVec.eq_of_toNat_eq
  rw [amoTop_toNat, toNat_field, toNat_field, fAq, fRl, BitVec.getLsbD, BitVec.getLsbD,
    Nat.testBit_eq_decide_div_mod_eq, Nat.testBit_eq_decide_div_mod_eq, bit, bit]
  omega

/-! ## The table (R90) -/

/-- Two rows name a bit that both fix and that they fix differently, so no word matches both. -/
def Row.disjoint (r q : Row) : Bool := r.mask &&& q.mask &&& (r.pattern ^^^ q.pattern) != 0

theorem rows_disjoint : rows.Pairwise (fun r q => Row.disjoint r q = true) := by decide +kernel

theorem Row.disjoint_hits {r q : Row} (h : r.disjoint q = true) (w : InstrWord) : ¬ (r.hits w = true ∧ q.hits w = true) := by
  rintro ⟨hr, hq⟩
  simp only [Row.hits, beq_iff_eq] at hr hq
  have : r.mask &&& q.mask &&& (r.pattern ^^^ q.pattern) = 0#32 := by
    rw [← hr, ← hq]
    ext i hi
    simp only [BitVec.getElem_and, BitVec.getElem_xor, BitVec.getElem_zero]
    cases r.mask[i] <;> cases q.mask[i] <;> simp
  simp [Row.disjoint, this] at h

theorem find_of_disjoint {l : List Row} (hl : l.Pairwise (fun r q => Row.disjoint r q = true)) {r : Row} (hr : r ∈ l)
    {w : InstrWord} (hw : r.hits w = true) : l.find? (fun q => q.hits w) = some r := by
  induction l with
  | nil => cases hr
  | cons q l ih =>
    rw [List.pairwise_cons] at hl
    rcases List.mem_cons.1 hr with rfl | hr
    · simp [hw]
    · have : q.hits w = false := Bool.eq_false_iff.2 fun hq => Row.disjoint_hits (hl.1 r hr) w ⟨hq, hw⟩
      rw [List.find?_cons, this]
      exact ih hl.2 hr

/-- A word that matches a row is read by that row, wherever it stands in the table. -/
theorem decodeRow_of_mem {r : Row} (hr : r ∈ rows) {w : InstrWord} (hw : r.hits w = true) :
    decodeRow w = some (r.build w) := by
  rw [decodeRow, find_of_disjoint rows_disjoint hr hw]; rfl

/-- The same, for the row at a place of the table. -/
theorem decodeRow_at (k : Nat) {r : Row} (hk : rows[k]? = some r) {w : InstrWord} {i : Instr}
    (hw : w &&& r.mask = r.pattern) (hi : r.build w = i) : decodeRow w = some i := by
  rw [decodeRow_of_mem (List.mem_of_getElem? hk) (by simp [Row.hits, hw]), hi]

/-- What decoding reads is the build of a row that the word matches. -/
theorem decodeRow_some {w : InstrWord} {i : Instr} (h : decodeRow w = some i) :
    ∃ r ∈ rows, r.hits w = true ∧ r.build w = i := by
  rw [decodeRow, Option.map_eq_some_iff] at h
  obtain ⟨r, hr, hi⟩ := h
  exact ⟨r, List.mem_of_find?_eq_some hr, List.find?_some (p := fun r : Row => r.hits w) hr, hi⟩

end Sys2Proof
end

