-- ==== Sys2Proof/Laws/State.lean ====
section
/-! SUPPORT. For every update of State, what each field holds after it; for every update, what each reading gives. -/

namespace Sys2Proof.Machine

variable (s : State)

/-! ## writeX -/

@[simp] theorem State.writeX_f (i : XReg) (v : Word) : (s.writeX i v).f = s.f := by unfold State.writeX; split <;> rfl
@[simp] theorem State.writeX_pc (i : XReg) (v : Word) : (s.writeX i v).pc = s.pc :=
  by unfold State.writeX; split <;> rfl
@[simp] theorem State.writeX_fflags (i : XReg) (v : Word) : (s.writeX i v).fflags = s.fflags :=
  by unfold State.writeX; split <;> rfl
@[simp] theorem State.writeX_frm (i : XReg) (v : Word) : (s.writeX i v).frm = s.frm :=
  by unfold State.writeX; split <;> rfl
@[simp] theorem State.writeX_mem (i : XReg) (v : Word) : (s.writeX i v).mem = s.mem :=
  by unfold State.writeX; split <;> rfl
@[simp] theorem State.writeX_reservation (i : XReg) (v : Word) : (s.writeX i v).reservation = s.reservation :=
  by unfold State.writeX; split <;> rfl
@[simp] theorem State.writeX_status (i : XReg) (v : Word) : (s.writeX i v).status = s.status :=
  by unfold State.writeX; split <;> rfl
@[simp] theorem State.writeX_draws (i : XReg) (v : Word) : (s.writeX i v).draws = s.draws :=
  by unfold State.writeX; split <;> rfl
@[simp] theorem State.writeX_env (i : XReg) (v : Word) : (s.writeX i v).env = s.env :=
  by unfold State.writeX; split <;> rfl
@[simp] theorem State.writeX_readF (i : XReg) (v : Word) (j : FReg) : (s.writeX i v).readF j = s.readF j :=
  by simp [State.readF]
@[simp] theorem State.writeX_readS (i : XReg) (v : Word) (j : FReg) : (s.writeX i v).readS j = s.readS j :=
  by simp only [State.readS, State.writeX_readF]
@[simp] theorem State.writeX_readByte (i : XReg) (v : Word) (k : Nat) : (s.writeX i v).readByte k = s.readByte k :=
  by simp [State.readByte]

/-! ## writeF -/

@[simp] theorem State.writeF_x (i : FReg) (v : Word) : (s.writeF i v).x = s.x := rfl
@[simp] theorem State.writeF_pc (i : FReg) (v : Word) : (s.writeF i v).pc = s.pc := rfl
@[simp] theorem State.writeF_fflags (i : FReg) (v : Word) : (s.writeF i v).fflags = s.fflags := rfl
@[simp] theorem State.writeF_frm (i : FReg) (v : Word) : (s.writeF i v).frm = s.frm := rfl
@[simp] theorem State.writeF_mem (i : FReg) (v : Word) : (s.writeF i v).mem = s.mem := rfl
@[simp] theorem State.writeF_reservation (i : FReg) (v : Word) : (s.writeF i v).reservation = s.reservation := rfl
@[simp] theorem State.writeF_status (i : FReg) (v : Word) : (s.writeF i v).status = s.status := rfl
@[simp] theorem State.writeF_draws (i : FReg) (v : Word) : (s.writeF i v).draws = s.draws := rfl
@[simp] theorem State.writeF_env (i : FReg) (v : Word) : (s.writeF i v).env = s.env := rfl
@[simp] theorem State.writeF_f (i : FReg) (v : Word) : (s.writeF i v).f = s.f.set i.toFin v := rfl
@[simp] theorem State.writeF_readX (i : FReg) (v : Word) (j : XReg) : (s.writeF i v).readX j = s.readX j :=
  by simp [State.readX]
@[simp] theorem State.writeF_readByte (i : FReg) (v : Word) (k : Nat) : (s.writeF i v).readByte k = s.readByte k :=
  by simp [State.readByte]

/-! ## writeS -/

@[simp] theorem State.writeS_x (i : FReg) (v : BitVec 32) : (s.writeS i v).x = s.x := rfl
@[simp] theorem State.writeS_pc (i : FReg) (v : BitVec 32) : (s.writeS i v).pc = s.pc := rfl
@[simp] theorem State.writeS_fflags (i : FReg) (v : BitVec 32) : (s.writeS i v).fflags = s.fflags := rfl
@[simp] theorem State.writeS_frm (i : FReg) (v : BitVec 32) : (s.writeS i v).frm = s.frm := rfl
@[simp] theorem State.writeS_mem (i : FReg) (v : BitVec 32) : (s.writeS i v).mem = s.mem := rfl
@[simp] theorem State.writeS_reservation (i : FReg) (v : BitVec 32) : (s.writeS i v).reservation = s.reservation :=
  rfl
@[simp] theorem State.writeS_status (i : FReg) (v : BitVec 32) : (s.writeS i v).status = s.status := rfl
@[simp] theorem State.writeS_draws (i : FReg) (v : BitVec 32) : (s.writeS i v).draws = s.draws := rfl
@[simp] theorem State.writeS_env (i : FReg) (v : BitVec 32) : (s.writeS i v).env = s.env := rfl
@[simp] theorem State.writeS_readX (i : FReg) (v : BitVec 32) (j : XReg) : (s.writeS i v).readX j = s.readX j :=
  by simp [State.readX]
@[simp] theorem State.writeS_readByte (i : FReg) (v : BitVec 32) (k : Nat) : (s.writeS i v).readByte k = s.readByte k :=
  by simp [State.readByte]

/-! ## writeFmt -/

@[simp] theorem State.writeFmt_x (fmt : Fmt) (i : FReg) (v : BitVec fmt.width) : (s.writeFmt fmt i v).x = s.x :=
  by cases fmt <;> rfl
@[simp] theorem State.writeFmt_pc (fmt : Fmt) (i : FReg) (v : BitVec fmt.width) : (s.writeFmt fmt i v).pc = s.pc :=
  by cases fmt <;> rfl
@[simp] theorem State.writeFmt_fflags (fmt : Fmt) (i : FReg) (v : BitVec fmt.width) : (s.writeFmt fmt i v).fflags = s.fflags :=
  by cases fmt <;> rfl
@[simp] theorem State.writeFmt_frm (fmt : Fmt) (i : FReg) (v : BitVec fmt.width) : (s.writeFmt fmt i v).frm = s.frm :=
  by cases fmt <;> rfl
@[simp] theorem State.writeFmt_mem (fmt : Fmt) (i : FReg) (v : BitVec fmt.width) : (s.writeFmt fmt i v).mem = s.mem :=
  by cases fmt <;> rfl
@[simp] theorem State.writeFmt_reservation (fmt : Fmt) (i : FReg) (v : BitVec fmt.width) : (s.writeFmt fmt i v).reservation = s.reservation :=
  by cases fmt <;> rfl
@[simp] theorem State.writeFmt_status (fmt : Fmt) (i : FReg) (v : BitVec fmt.width) : (s.writeFmt fmt i v).status = s.status :=
  by cases fmt <;> rfl
@[simp] theorem State.writeFmt_draws (fmt : Fmt) (i : FReg) (v : BitVec fmt.width) : (s.writeFmt fmt i v).draws = s.draws :=
  by cases fmt <;> rfl
@[simp] theorem State.writeFmt_env (fmt : Fmt) (i : FReg) (v : BitVec fmt.width) : (s.writeFmt fmt i v).env = s.env :=
  by cases fmt <;> rfl
@[simp] theorem State.writeFmt_readX (fmt : Fmt) (i : FReg) (v : BitVec fmt.width) (j : XReg) : (s.writeFmt fmt i v).readX j = s.readX j :=
  by simp [State.readX]
@[simp] theorem State.writeFmt_readByte (fmt : Fmt) (i : FReg) (v : BitVec fmt.width) (k : Nat) : (s.writeFmt fmt i v).readByte k = s.readByte k :=
  by simp [State.readByte]

/-! ## raiseFlags -/

@[simp] theorem State.raiseFlags_x (m : Flags) : (s.raiseFlags m).x = s.x := rfl
@[simp] theorem State.raiseFlags_f (m : Flags) : (s.raiseFlags m).f = s.f := rfl
@[simp] theorem State.raiseFlags_pc (m : Flags) : (s.raiseFlags m).pc = s.pc := rfl
@[simp] theorem State.raiseFlags_frm (m : Flags) : (s.raiseFlags m).frm = s.frm := rfl
@[simp] theorem State.raiseFlags_mem (m : Flags) : (s.raiseFlags m).mem = s.mem := rfl
@[simp] theorem State.raiseFlags_reservation (m : Flags) : (s.raiseFlags m).reservation = s.reservation := rfl
@[simp] theorem State.raiseFlags_status (m : Flags) : (s.raiseFlags m).status = s.status := rfl
@[simp] theorem State.raiseFlags_draws (m : Flags) : (s.raiseFlags m).draws = s.draws := rfl
@[simp] theorem State.raiseFlags_env (m : Flags) : (s.raiseFlags m).env = s.env := rfl
@[simp] theorem State.raiseFlags_fflags (m : Flags) : (s.raiseFlags m).fflags = s.fflags ||| m := rfl
@[simp] theorem State.raiseFlags_readX (m : Flags) (j : XReg) : (s.raiseFlags m).readX j = s.readX j := rfl
@[simp] theorem State.raiseFlags_readF (m : Flags) (j : FReg) : (s.raiseFlags m).readF j = s.readF j := rfl
@[simp] theorem State.raiseFlags_readS (m : Flags) (j : FReg) : (s.raiseFlags m).readS j = s.readS j := rfl
@[simp] theorem State.raiseFlags_readByte (m : Flags) (k : Nat) : (s.raiseFlags m).readByte k = s.readByte k := rfl

/-! ## setFflags -/

@[simp] theorem State.setFflags_x (v : Word) : (s.setFflags v).x = s.x := rfl
@[simp] theorem State.setFflags_f (v : Word) : (s.setFflags v).f = s.f := rfl
@[simp] theorem State.setFflags_pc (v : Word) : (s.setFflags v).pc = s.pc := rfl
@[simp] theorem State.setFflags_frm (v : Word) : (s.setFflags v).frm = s.frm := rfl
@[simp] theorem State.setFflags_mem (v : Word) : (s.setFflags v).mem = s.mem := rfl
@[simp] theorem State.setFflags_reservation (v : Word) : (s.setFflags v).reservation = s.reservation := rfl
@[simp] theorem State.setFflags_status (v : Word) : (s.setFflags v).status = s.status := rfl
@[simp] theorem State.setFflags_draws (v : Word) : (s.setFflags v).draws = s.draws := rfl
@[simp] theorem State.setFflags_env (v : Word) : (s.setFflags v).env = s.env := rfl
@[simp] theorem State.setFflags_fflags (v : Word) : (s.setFflags v).fflags = v.setWidth 5 := rfl
@[simp] theorem State.setFflags_readX (v : Word) (j : XReg) : (s.setFflags v).readX j = s.readX j := rfl
@[simp] theorem State.setFflags_readF (v : Word) (j : FReg) : (s.setFflags v).readF j = s.readF j := rfl
@[simp] theorem State.setFflags_readS (v : Word) (j : FReg) : (s.setFflags v).readS j = s.readS j := rfl
@[simp] theorem State.setFflags_readByte (v : Word) (k : Nat) : (s.setFflags v).readByte k = s.readByte k := rfl

/-! ## setFrm -/

@[simp] theorem State.setFrm_x (v : Word) : (s.setFrm v).x = s.x := rfl
@[simp] theorem State.setFrm_f (v : Word) : (s.setFrm v).f = s.f := rfl
@[simp] theorem State.setFrm_pc (v : Word) : (s.setFrm v).pc = s.pc := rfl
@[simp] theorem State.setFrm_fflags (v : Word) : (s.setFrm v).fflags = s.fflags := rfl
@[simp] theorem State.setFrm_mem (v : Word) : (s.setFrm v).mem = s.mem := rfl
@[simp] theorem State.setFrm_reservation (v : Word) : (s.setFrm v).reservation = s.reservation := rfl
@[simp] theorem State.setFrm_status (v : Word) : (s.setFrm v).status = s.status := rfl
@[simp] theorem State.setFrm_draws (v : Word) : (s.setFrm v).draws = s.draws := rfl
@[simp] theorem State.setFrm_env (v : Word) : (s.setFrm v).env = s.env := rfl
@[simp] theorem State.setFrm_frm (v : Word) : (s.setFrm v).frm = frmLegalize s.env (v.setWidth 3) := rfl
@[simp] theorem State.setFrm_readX (v : Word) (j : XReg) : (s.setFrm v).readX j = s.readX j := rfl
@[simp] theorem State.setFrm_readF (v : Word) (j : FReg) : (s.setFrm v).readF j = s.readF j := rfl
@[simp] theorem State.setFrm_readS (v : Word) (j : FReg) : (s.setFrm v).readS j = s.readS j := rfl
@[simp] theorem State.setFrm_readByte (v : Word) (k : Nat) : (s.setFrm v).readByte k = s.readByte k := rfl

/-! ## setFcsr -/

@[simp] theorem State.setFcsr_x (v : Word) : (s.setFcsr v).x = s.x := rfl
@[simp] theorem State.setFcsr_f (v : Word) : (s.setFcsr v).f = s.f := rfl
@[simp] theorem State.setFcsr_pc (v : Word) : (s.setFcsr v).pc = s.pc := rfl
@[simp] theorem State.setFcsr_mem (v : Word) : (s.setFcsr v).mem = s.mem := rfl
@[simp] theorem State.setFcsr_reservation (v : Word) : (s.setFcsr v).reservation = s.reservation := rfl
@[simp] theorem State.setFcsr_status (v : Word) : (s.setFcsr v).status = s.status := rfl
@[simp] theorem State.setFcsr_draws (v : Word) : (s.setFcsr v).draws = s.draws := rfl
@[simp] theorem State.setFcsr_env (v : Word) : (s.setFcsr v).env = s.env := rfl
@[simp] theorem State.setFcsr_fflags (v : Word) : (s.setFcsr v).fflags = v.setWidth 5 := rfl
@[simp] theorem State.setFcsr_frm (v : Word) : (s.setFcsr v).frm = frmLegalize s.env ((v >>> 5).setWidth 3) := rfl
@[simp] theorem State.setFcsr_readX (v : Word) (j : XReg) : (s.setFcsr v).readX j = s.readX j := rfl
@[simp] theorem State.setFcsr_readF (v : Word) (j : FReg) : (s.setFcsr v).readF j = s.readF j := rfl
@[simp] theorem State.setFcsr_readS (v : Word) (j : FReg) : (s.setFcsr v).readS j = s.readS j := rfl
@[simp] theorem State.setFcsr_readByte (v : Word) (k : Nat) : (s.setFcsr v).readByte k = s.readByte k := rfl

/-! ## advance -/

@[simp] theorem State.advance_x : (s.advance).x = s.x := rfl
@[simp] theorem State.advance_f : (s.advance).f = s.f := rfl
@[simp] theorem State.advance_fflags : (s.advance).fflags = s.fflags := rfl
@[simp] theorem State.advance_frm : (s.advance).frm = s.frm := rfl
@[simp] theorem State.advance_mem : (s.advance).mem = s.mem := rfl
@[simp] theorem State.advance_reservation : (s.advance).reservation = s.reservation := rfl
@[simp] theorem State.advance_status : (s.advance).status = s.status := rfl
@[simp] theorem State.advance_draws : (s.advance).draws = s.draws := rfl
@[simp] theorem State.advance_env : (s.advance).env = s.env := rfl
@[simp] theorem State.advance_pc : (s.advance).pc = s.env.xlen.addr (s.pc + 4) := rfl
@[simp] theorem State.advance_readX (j : XReg) : (s.advance).readX j = s.readX j := rfl
@[simp] theorem State.advance_readF (j : FReg) : (s.advance).readF j = s.readF j := rfl
@[simp] theorem State.advance_readS (j : FReg) : (s.advance).readS j = s.readS j := rfl
@[simp] theorem State.advance_readByte (k : Nat) : (s.advance).readByte k = s.readByte k := rfl

/-! ## finish -/

@[simp] theorem State.finish_x : (s.finish).x = s.x := rfl
@[simp] theorem State.finish_f : (s.finish).f = s.f := rfl
@[simp] theorem State.finish_pc : (s.finish).pc = s.pc := rfl
@[simp] theorem State.finish_fflags : (s.finish).fflags = s.fflags := rfl
@[simp] theorem State.finish_frm : (s.finish).frm = s.frm := rfl
@[simp] theorem State.finish_mem : (s.finish).mem = s.mem := rfl
@[simp] theorem State.finish_reservation : (s.finish).reservation = s.reservation := rfl
@[simp] theorem State.finish_draws : (s.finish).draws = s.draws := rfl
@[simp] theorem State.finish_env : (s.finish).env = s.env := rfl
@[simp] theorem State.finish_status : (s.finish).status = .ended := rfl
@[simp] theorem State.finish_readX (j : XReg) : (s.finish).readX j = s.readX j := rfl
@[simp] theorem State.finish_readF (j : FReg) : (s.finish).readF j = s.readF j := rfl
@[simp] theorem State.finish_readS (j : FReg) : (s.finish).readS j = s.readS j := rfl
@[simp] theorem State.finish_readByte (k : Nat) : (s.finish).readByte k = s.readByte k := rfl

/-! ## writeByte -/

@[simp] theorem State.writeByte_x (k : Nat) (v : Byte) : (s.writeByte k v).x = s.x := rfl
@[simp] theorem State.writeByte_f (k : Nat) (v : Byte) : (s.writeByte k v).f = s.f := rfl
@[simp] theorem State.writeByte_pc (k : Nat) (v : Byte) : (s.writeByte k v).pc = s.pc := rfl
@[simp] theorem State.writeByte_fflags (k : Nat) (v : Byte) : (s.writeByte k v).fflags = s.fflags := rfl
@[simp] theorem State.writeByte_frm (k : Nat) (v : Byte) : (s.writeByte k v).frm = s.frm := rfl
@[simp] theorem State.writeByte_reservation (k : Nat) (v : Byte) : (s.writeByte k v).reservation = s.reservation :=
  rfl
@[simp] theorem State.writeByte_status (k : Nat) (v : Byte) : (s.writeByte k v).status = s.status := rfl
@[simp] theorem State.writeByte_draws (k : Nat) (v : Byte) : (s.writeByte k v).draws = s.draws := rfl
@[simp] theorem State.writeByte_env (k : Nat) (v : Byte) : (s.writeByte k v).env = s.env := rfl
@[simp] theorem State.writeByte_mem (k : Nat) (v : Byte) : (s.writeByte k v).mem = Memory.write s.mem k v := rfl
@[simp] theorem State.writeByte_readX (k : Nat) (v : Byte) (j : XReg) : (s.writeByte k v).readX j = s.readX j := rfl
@[simp] theorem State.writeByte_readF (k : Nat) (v : Byte) (j : FReg) : (s.writeByte k v).readF j = s.readF j := rfl
@[simp] theorem State.writeByte_readS (k : Nat) (v : Byte) (j : FReg) : (s.writeByte k v).readS j = s.readS j := rfl

/-! ## storeBytes -/

@[simp] theorem State.storeBytes_x (a v : Word) (n : Nat) : (s.storeBytes a v n).x = s.x := by induction n with
  | zero => rfl
  | succ n ih => exact ih
@[simp] theorem State.storeBytes_f (a v : Word) (n : Nat) : (s.storeBytes a v n).f = s.f := by induction n with
  | zero => rfl
  | succ n ih => exact ih
@[simp] theorem State.storeBytes_pc (a v : Word) (n : Nat) : (s.storeBytes a v n).pc = s.pc := by induction n with
  | zero => rfl
  | succ n ih => exact ih
@[simp] theorem State.storeBytes_fflags (a v : Word) (n : Nat) : (s.storeBytes a v n).fflags = s.fflags := by induction n with
  | zero => rfl
  | succ n ih => exact ih
@[simp] theorem State.storeBytes_frm (a v : Word) (n : Nat) : (s.storeBytes a v n).frm = s.frm := by induction n with
  | zero => rfl
  | succ n ih => exact ih
@[simp] theorem State.storeBytes_reservation (a v : Word) (n : Nat) : (s.storeBytes a v n).reservation = s.reservation := by induction n with
  | zero => rfl
  | succ n ih => exact ih
@[simp] theorem State.storeBytes_status (a v : Word) (n : Nat) : (s.storeBytes a v n).status = s.status := by induction n with
  | zero => rfl
  | succ n ih => exact ih
@[simp] theorem State.storeBytes_draws (a v : Word) (n : Nat) : (s.storeBytes a v n).draws = s.draws := by induction n with
  | zero => rfl
  | succ n ih => exact ih
@[simp] theorem State.storeBytes_env (a v : Word) (n : Nat) : (s.storeBytes a v n).env = s.env := by induction n with
  | zero => rfl
  | succ n ih => exact ih
@[simp] theorem State.storeBytes_readX (a v : Word) (n : Nat) (j : XReg) : (s.storeBytes a v n).readX j = s.readX j :=
  by simp [State.readX]
@[simp] theorem State.storeBytes_readF (a v : Word) (n : Nat) (j : FReg) : (s.storeBytes a v n).readF j = s.readF j :=
  by simp [State.readF]
@[simp] theorem State.storeBytes_readS (a v : Word) (n : Nat) (j : FReg) : (s.storeBytes a v n).readS j = s.readS j :=
  by simp only [State.readS, State.storeBytes_readF]

/-! ## setReservation -/

@[simp] theorem State.setReservation_x (r : Option Reservation) : (s.setReservation r).x = s.x := rfl
@[simp] theorem State.setReservation_f (r : Option Reservation) : (s.setReservation r).f = s.f := rfl
@[simp] theorem State.setReservation_pc (r : Option Reservation) : (s.setReservation r).pc = s.pc := rfl
@[simp] theorem State.setReservation_fflags (r : Option Reservation) : (s.setReservation r).fflags = s.fflags := rfl
@[simp] theorem State.setReservation_frm (r : Option Reservation) : (s.setReservation r).frm = s.frm := rfl
@[simp] theorem State.setReservation_mem (r : Option Reservation) : (s.setReservation r).mem = s.mem := rfl
@[simp] theorem State.setReservation_status (r : Option Reservation) : (s.setReservation r).status = s.status := rfl
@[simp] theorem State.setReservation_draws (r : Option Reservation) : (s.setReservation r).draws = s.draws := rfl
@[simp] theorem State.setReservation_env (r : Option Reservation) : (s.setReservation r).env = s.env := rfl
@[simp] theorem State.setReservation_reservation (r : Option Reservation) : (s.setReservation r).reservation = r :=
  rfl
@[simp] theorem State.setReservation_readX (r : Option Reservation) (j : XReg) : (s.setReservation r).readX j = s.readX j :=
  rfl
@[simp] theorem State.setReservation_readF (r : Option Reservation) (j : FReg) : (s.setReservation r).readF j = s.readF j :=
  rfl
@[simp] theorem State.setReservation_readS (r : Option Reservation) (j : FReg) : (s.setReservation r).readS j = s.readS j :=
  rfl
@[simp] theorem State.setReservation_readByte (r : Option Reservation) (k : Nat) : (s.setReservation r).readByte k = s.readByte k :=
  rfl

/-! ## takeDraw -/

@[simp] theorem State.takeDraw_x : (s.takeDraw).x = s.x := rfl
@[simp] theorem State.takeDraw_f : (s.takeDraw).f = s.f := rfl
@[simp] theorem State.takeDraw_pc : (s.takeDraw).pc = s.pc := rfl
@[simp] theorem State.takeDraw_fflags : (s.takeDraw).fflags = s.fflags := rfl
@[simp] theorem State.takeDraw_frm : (s.takeDraw).frm = s.frm := rfl
@[simp] theorem State.takeDraw_mem : (s.takeDraw).mem = s.mem := rfl
@[simp] theorem State.takeDraw_reservation : (s.takeDraw).reservation = s.reservation := rfl
@[simp] theorem State.takeDraw_status : (s.takeDraw).status = s.status := rfl
@[simp] theorem State.takeDraw_env : (s.takeDraw).env = s.env := rfl
@[simp] theorem State.takeDraw_draws : (s.takeDraw).draws = s.draws + 1 := rfl
@[simp] theorem State.takeDraw_readX (j : XReg) : (s.takeDraw).readX j = s.readX j := rfl
@[simp] theorem State.takeDraw_readF (j : FReg) : (s.takeDraw).readF j = s.readF j := rfl
@[simp] theorem State.takeDraw_readS (j : FReg) : (s.takeDraw).readS j = s.readS j := rfl
@[simp] theorem State.takeDraw_readByte (k : Nat) : (s.takeDraw).readByte k = s.readByte k := rfl

/-! ## retireX -/

@[simp] theorem State.retireX_f (rd : XReg) (v : Word) : (s.retireX rd v).f = s.f := by unfold State.retireX; simp
@[simp] theorem State.retireX_fflags (rd : XReg) (v : Word) : (s.retireX rd v).fflags = s.fflags :=
  by unfold State.retireX; simp
@[simp] theorem State.retireX_frm (rd : XReg) (v : Word) : (s.retireX rd v).frm = s.frm :=
  by unfold State.retireX; simp
@[simp] theorem State.retireX_mem (rd : XReg) (v : Word) : (s.retireX rd v).mem = s.mem :=
  by unfold State.retireX; simp
@[simp] theorem State.retireX_reservation (rd : XReg) (v : Word) : (s.retireX rd v).reservation = s.reservation :=
  by unfold State.retireX; simp
@[simp] theorem State.retireX_status (rd : XReg) (v : Word) : (s.retireX rd v).status = s.status :=
  by unfold State.retireX; simp
@[simp] theorem State.retireX_draws (rd : XReg) (v : Word) : (s.retireX rd v).draws = s.draws :=
  by unfold State.retireX; simp
@[simp] theorem State.retireX_env (rd : XReg) (v : Word) : (s.retireX rd v).env = s.env :=
  by unfold State.retireX; simp
@[simp] theorem State.retireX_pc (rd : XReg) (v : Word) : (s.retireX rd v).pc = s.env.xlen.addr (s.pc + 4) :=
  by unfold State.retireX; simp
@[simp] theorem State.retireX_readF (rd : XReg) (v : Word) (j : FReg) : (s.retireX rd v).readF j = s.readF j :=
  by simp [State.readF]
@[simp] theorem State.retireX_readS (rd : XReg) (v : Word) (j : FReg) : (s.retireX rd v).readS j = s.readS j :=
  by simp only [State.readS, State.retireX_readF]
@[simp] theorem State.retireX_readByte (rd : XReg) (v : Word) (k : Nat) : (s.retireX rd v).readByte k = s.readByte k :=
  by simp [State.readByte]

/-! ## retireF -/

@[simp] theorem State.retireF_x (fmt : Fmt) (rd : FReg) (r : BitVec fmt.width × Flags) : (s.retireF fmt rd r).x = s.x :=
  by unfold State.retireF; simp
@[simp] theorem State.retireF_frm (fmt : Fmt) (rd : FReg) (r : BitVec fmt.width × Flags) : (s.retireF fmt rd r).frm = s.frm :=
  by unfold State.retireF; simp
@[simp] theorem State.retireF_mem (fmt : Fmt) (rd : FReg) (r : BitVec fmt.width × Flags) : (s.retireF fmt rd r).mem = s.mem :=
  by unfold State.retireF; simp
@[simp] theorem State.retireF_reservation (fmt : Fmt) (rd : FReg) (r : BitVec fmt.width × Flags) : (s.retireF fmt rd r).reservation = s.reservation :=
  by unfold State.retireF; simp
@[simp] theorem State.retireF_status (fmt : Fmt) (rd : FReg) (r : BitVec fmt.width × Flags) : (s.retireF fmt rd r).status = s.status :=
  by unfold State.retireF; simp
@[simp] theorem State.retireF_draws (fmt : Fmt) (rd : FReg) (r : BitVec fmt.width × Flags) : (s.retireF fmt rd r).draws = s.draws :=
  by unfold State.retireF; simp
@[simp] theorem State.retireF_env (fmt : Fmt) (rd : FReg) (r : BitVec fmt.width × Flags) : (s.retireF fmt rd r).env = s.env :=
  by unfold State.retireF; simp
@[simp] theorem State.retireF_pc (fmt : Fmt) (rd : FReg) (r : BitVec fmt.width × Flags) : (s.retireF fmt rd r).pc = s.env.xlen.addr (s.pc + 4) :=
  by unfold State.retireF; simp
@[simp] theorem State.retireF_fflags (fmt : Fmt) (rd : FReg) (r : BitVec fmt.width × Flags) : (s.retireF fmt rd r).fflags = s.fflags ||| r.2 :=
  by unfold State.retireF; simp
@[simp] theorem State.retireF_readX (fmt : Fmt) (rd : FReg) (r : BitVec fmt.width × Flags) (j : XReg) : (s.retireF fmt rd r).readX j = s.readX j :=
  by simp [State.readX]
@[simp] theorem State.retireF_readByte (fmt : Fmt) (rd : FReg) (r : BitVec fmt.width × Flags) (k : Nat) : (s.retireF fmt rd r).readByte k = s.readByte k :=
  by simp [State.readByte]

/-! ## scFail -/

@[simp] theorem State.scFail_f (rd : XReg) : (s.scFail rd).f = s.f := by unfold State.scFail; simp
@[simp] theorem State.scFail_fflags (rd : XReg) : (s.scFail rd).fflags = s.fflags := by unfold State.scFail; simp
@[simp] theorem State.scFail_frm (rd : XReg) : (s.scFail rd).frm = s.frm := by unfold State.scFail; simp
@[simp] theorem State.scFail_mem (rd : XReg) : (s.scFail rd).mem = s.mem := by unfold State.scFail; simp
@[simp] theorem State.scFail_status (rd : XReg) : (s.scFail rd).status = s.status := by unfold State.scFail; simp
@[simp] theorem State.scFail_draws (rd : XReg) : (s.scFail rd).draws = s.draws := by unfold State.scFail; simp
@[simp] theorem State.scFail_env (rd : XReg) : (s.scFail rd).env = s.env := by unfold State.scFail; simp
@[simp] theorem State.scFail_pc (rd : XReg) : (s.scFail rd).pc = s.env.xlen.addr (s.pc + 4) :=
  by unfold State.scFail; simp
@[simp] theorem State.scFail_reservation (rd : XReg) : (s.scFail rd).reservation = none :=
  by unfold State.scFail; simp
@[simp] theorem State.scFail_readF (rd : XReg) (j : FReg) : (s.scFail rd).readF j = s.readF j := by simp [State.readF]
@[simp] theorem State.scFail_readS (rd : XReg) (j : FReg) : (s.scFail rd).readS j = s.readS j :=
  by simp only [State.readS, State.scFail_readF]
@[simp] theorem State.scFail_readByte (rd : XReg) (k : Nat) : (s.scFail rd).readByte k = s.readByte k :=
  by simp [State.readByte]

/-! ## scStore -/

@[simp] theorem State.scStore_f (n : AtomSize) (rd : XReg) (a v : Word) : (s.scStore n rd a v).f = s.f :=
  by unfold State.scStore; simp
@[simp] theorem State.scStore_fflags (n : AtomSize) (rd : XReg) (a v : Word) : (s.scStore n rd a v).fflags = s.fflags :=
  by unfold State.scStore; simp
@[simp] theorem State.scStore_frm (n : AtomSize) (rd : XReg) (a v : Word) : (s.scStore n rd a v).frm = s.frm :=
  by unfold State.scStore; simp
@[simp] theorem State.scStore_status (n : AtomSize) (rd : XReg) (a v : Word) : (s.scStore n rd a v).status = s.status :=
  by unfold State.scStore; simp
@[simp] theorem State.scStore_draws (n : AtomSize) (rd : XReg) (a v : Word) : (s.scStore n rd a v).draws = s.draws :=
  by unfold State.scStore; simp
@[simp] theorem State.scStore_env (n : AtomSize) (rd : XReg) (a v : Word) : (s.scStore n rd a v).env = s.env :=
  by unfold State.scStore; simp
@[simp] theorem State.scStore_pc (n : AtomSize) (rd : XReg) (a v : Word) : (s.scStore n rd a v).pc = s.env.xlen.addr (s.pc + 4) :=
  by unfold State.scStore; simp
@[simp] theorem State.scStore_reservation (n : AtomSize) (rd : XReg) (a v : Word) : (s.scStore n rd a v).reservation = none :=
  by unfold State.scStore; simp
@[simp] theorem State.scStore_readF (n : AtomSize) (rd : XReg) (a v : Word) (j : FReg) : (s.scStore n rd a v).readF j = s.readF j :=
  by simp [State.readF]
@[simp] theorem State.scStore_readS (n : AtomSize) (rd : XReg) (a v : Word) (j : FReg) : (s.scStore n rd a v).readS j = s.readS j :=
  by simp only [State.readS, State.scStore_readF]

/-! ## Registers that were written -/

theorem XLen.canon_canon (xl : XLen) (v : Word) : xl.canon (xl.canon v) = xl.canon v := by
  cases xl
  · simp only [XLen.canon]
    congr 1
    ext i h
    simp [BitVec.getElem_signExtend, h, show i < 64 by omega]
  · rfl

@[simp] theorem State.writeX_readX (i j : XReg) (v : Word) :
    (s.writeX i v).readX j = if j = 0#5 then 0 else if j = i then s.env.xlen.canon v else s.readX j := by
  unfold State.readX
  by_cases hj : j = 0#5
  · simp [hj]
  by_cases hi : i = 0#5
  · have : j ≠ i := fun h => hj (h.trans hi)
    simp [hj, hi, State.writeX]
  by_cases h : j = i
  · subst h
    simp [hj, State.writeX, XLen.canon_canon]
  · have hne : i.toNat ≠ j.toNat := fun e => h (BitVec.eq_of_toNat_eq e.symm)
    simp [hj, hi, h, State.writeX, hne]

@[simp] theorem State.readX_zero : s.readX 0#5 = 0 := by simp [State.readX]

@[simp] theorem State.writeF_readF (i j : FReg) (v : Word) :
    (s.writeF i v).readF j = if j = i then v else s.readF j := by
  unfold State.readF State.writeF
  by_cases h : j = i
  · subst h; simp
  · have hne : i.toNat ≠ j.toNat := fun e => h (BitVec.eq_of_toNat_eq e.symm)
    simp [h, hne]

@[simp] theorem State.writeS_readF (i j : FReg) (v : BitVec 32) :
    (s.writeS i v).readF j = if j = i then 0xFFFFFFFF#32 ++ v else s.readF j := by
  simp [State.writeS]

@[simp] theorem State.retireX_readX (rd j : XReg) (v : Word) :
    (s.retireX rd v).readX j = if j = 0#5 then 0 else if j = rd then s.env.xlen.canon v else s.readX j := by
  simp [State.retireX]

/-- A boxed pattern (R31) as one number, for arithmetic on its halves. -/
theorem box_toNat (v : BitVec 32) : (0xFFFFFFFF#32 ++ v).toNat = 0xFFFFFFFF * 2 ^ 32 + v.toNat := by
  rw [BitVec.toNat_append, ← Nat.shiftLeft_add_eq_or_of_lt v.isLt, Nat.shiftLeft_eq]
  rfl

/-- Reading back an S result: the box passes the check (R31, R32). -/
theorem State.writeS_readS (i : FReg) (v : BitVec 32) : (s.writeS i v).readS i = v := by
  have hv := v.isLt
  have h1 : BitVec.extractLsb' 32 32 (0xFFFFFFFF#32 ++ v) = 0xFFFFFFFF#32 := by
    apply BitVec.eq_of_toNat_eq
    rw [BitVec.extractLsb'_toNat, box_toNat, Nat.shiftRight_eq_div_pow]
    simp only [BitVec.toNat_ofNat]
    omega
  have h2 : BitVec.setWidth 32 (0xFFFFFFFF#32 ++ v) = v := by
    apply BitVec.eq_of_toNat_eq
    rw [BitVec.toNat_setWidth, box_toNat]
    omega
  rw [State.readS, State.writeS_readF, if_pos rfl, if_pos h1]
  exact h2

/-- A result read back at its own format (R31, R32). -/
theorem State.writeFmt_readFmt (fmt : Fmt) (i : FReg) (v : BitVec fmt.width) :
    (s.writeFmt fmt i v).readFmt fmt i = v := by
  cases fmt
  · exact s.writeS_readS i v
  · simp [State.writeFmt, State.readFmt]

end Sys2Proof.Machine
end

