-- ==== Sys2Proof/Laws/Memory.lean ====
section
/-! SUPPORT. Memory: reading after writing, the canonical form and that every operation keeps it, and the bytes of a
store (spec/20_memory.md R51 to R56). -/

namespace Sys2Proof.Machine

/-! ## Reading after writing -/

theorem Memory.read_put (m : Memory) (a k : Nat) (v : Byte) :
    Memory.read (Memory.put m a v) k = if k = a then v else Memory.read m k := by
  induction m with
  | nil => simp [Memory.put, Memory.read]
  | cons c m ih =>
    obtain ⟨j, b⟩ := c
    unfold Memory.put
    split
    · simp [Memory.read]
    · split
      · simp only [Memory.read]
        split <;> simp_all
      · simp only [Memory.read, ih]
        split <;> split <;> simp_all

theorem Memory.read_remove (m : Memory) (a k : Nat) :
    Memory.read (m.filter (fun c => c.1 != a)) k = if k = a then 0 else Memory.read m k := by
  induction m with
  | nil => simp [Memory.read]
  | cons c m ih =>
    obtain ⟨j, b⟩ := c
    by_cases h : j = a
    · simp only [List.filter_cons, h, bne_self_eq_false, Bool.false_eq_true, if_false, ih, Memory.read]
      split <;> simp_all
    · simp only [List.filter_cons, bne_iff_ne, ne_eq, h, not_false_eq_true, if_true, ih, Memory.read]
      split <;> split <;> simp_all

/-- A read gives the value last written there, and elsewhere what was there. -/
@[simp] theorem Memory.read_write (m : Memory) (a k : Nat) (v : Byte) :
    Memory.read (Memory.write m a v) k = if k = a then v else Memory.read m k := by
  unfold Memory.write
  split
  · rename_i h; rw [Memory.read_remove, h]
  · exact Memory.read_put m a k v

/-! ## The canonical form -/

theorem Memory.wfFrom_cons (lo k : Nat) (b : Byte) (m : Memory) :
    Memory.wfFrom lo ((k, b) :: m) = true ↔
      lo ≤ k ∧ k < 2 ^ 64 ∧ b ≠ 0 ∧ Memory.wfFrom (k + 1) m = true := by
  simp [Memory.wfFrom, and_assoc]

theorem Memory.wfFrom_mono {lo lo' : Nat} (h : lo' ≤ lo) : ∀ {m : Memory},
    Memory.wfFrom lo m = true → Memory.wfFrom lo' m = true
  | [], _ => rfl
  | (k, b) :: m, hm => by
    rw [Memory.wfFrom_cons] at hm ⊢
    exact ⟨h.trans hm.1, hm.2⟩

theorem Memory.wfFrom_put {a : Nat} {v : Byte} (ha : a < 2 ^ 64) (hv : v ≠ 0) : ∀ {m : Memory} {lo : Nat},
    lo ≤ a → Memory.wfFrom lo m = true → Memory.wfFrom lo (Memory.put m a v) = true
  | [], lo, hlo, _ => by
    rw [Memory.put, Memory.wfFrom_cons]
    exact ⟨hlo, ha, hv, rfl⟩
  | (k, b) :: m, lo, hlo, hm => by
    rw [Memory.wfFrom_cons] at hm
    unfold Memory.put
    split
    · rw [Memory.wfFrom_cons, Memory.wfFrom_cons]
      exact ⟨hlo, ha, hv, by omega, hm.2⟩
    · split
      · rename_i h
        subst h
        rw [Memory.wfFrom_cons]
        exact ⟨hlo, ha, hv, hm.2.2.2⟩
      · rw [Memory.wfFrom_cons]
        exact ⟨hm.1, hm.2.1, hm.2.2.1, Memory.wfFrom_put ha hv (by omega) hm.2.2.2⟩

theorem Memory.wfFrom_remove (a : Nat) : ∀ {m : Memory} {lo : Nat},
    Memory.wfFrom lo m = true → Memory.wfFrom lo (m.filter (fun c => c.1 != a)) = true
  | [], _, _ => rfl
  | (k, b) :: m, lo, hm => by
    rw [Memory.wfFrom_cons] at hm
    have ih := Memory.wfFrom_remove a hm.2.2.2
    rw [List.filter_cons]
    split
    · rw [Memory.wfFrom_cons]
      exact ⟨hm.1, hm.2.1, hm.2.2.1, ih⟩
    · exact Memory.wfFrom_mono (by omega) ih

/-- Writing a byte keeps the canonical form. -/
theorem Memory.wf_write {m : Memory} {a : Nat} (v : Byte) (ha : a < 2 ^ 64) (hm : Memory.wf m = true) :
    Memory.wf (Memory.write m a v) = true := by
  unfold Memory.write
  split
  · exact Memory.wfFrom_remove a hm
  · rename_i hv
    exact Memory.wfFrom_put ha hv (Nat.zero_le a) hm

theorem Memory.read_below {m : Memory} {lo k : Nat} (hm : Memory.wfFrom lo m = true) (h : k < lo) :
    Memory.read m k = 0 := by
  induction m generalizing lo with
  | nil => rfl
  | cons c m ih =>
    obtain ⟨j, b⟩ := c
    rw [Memory.wfFrom_cons] at hm
    rw [Memory.read, if_neg (by omega)]
    exact ih hm.2.2.2 (by omega)

theorem Memory.ext_from : ∀ {m m' : Memory} {lo : Nat}, Memory.wfFrom lo m = true → Memory.wfFrom lo m' = true →
    (∀ k, Memory.read m k = Memory.read m' k) → m = m'
  | [], [], _, _, _, _ => rfl
  | [], (k, b) :: m', lo, _, h', h => by
    have := h k
    rw [Memory.wfFrom_cons] at h'
    simp [Memory.read] at this
    exact absurd this.symm h'.2.2.1
  | (k, b) :: m, [], lo, h1, _, h => by
    have := h k
    rw [Memory.wfFrom_cons] at h1
    simp [Memory.read] at this
    exact absurd this h1.2.2.1
  | (k, b) :: m, (k', b') :: m', lo, h1, h2, h => by
    rw [Memory.wfFrom_cons] at h1 h2
    have e : k = k' := by
      rcases Nat.lt_trichotomy k k' with lt | e | gt
      · have := h k
        rw [Memory.read, if_pos rfl, Memory.read, if_neg (by omega),
          Memory.read_below h2.2.2.2 (by omega)] at this
        exact absurd this h1.2.2.1
      · exact e
      · have := h k'
        rw [Memory.read, if_neg (by omega), Memory.read_below h1.2.2.2 (by omega), Memory.read, if_pos rfl] at this
        exact absurd this.symm h2.2.2.1
    subst e
    have eb : b = b' := by simpa [Memory.read] using h k
    subst eb
    refine congrArg _ (Memory.ext_from h1.2.2.2 h2.2.2.2 fun j => ?_)
    by_cases hj : j = k
    · subst hj
      rw [Memory.read_below h1.2.2.2 (by omega), Memory.read_below h2.2.2.2 (by omega)]
    · simpa [Memory.read, hj] using h j

/-- Memories in canonical form that read the same are the same list. -/
theorem Memory.ext {m m' : Memory} (hm : Memory.wf m = true) (hm' : Memory.wf m' = true)
    (h : ∀ k, Memory.read m k = Memory.read m' k) : m = m' :=
  Memory.ext_from hm hm' h

/-- Reset memory is in canonical form. -/
theorem State.reset_mem_wf : Memory.wf State.reset.mem = true := rfl

/-! ## The bytes of an access -/

theorem State.byteAddr_lt (s : State) (a : Word) (i : Nat) : s.byteAddr a i < 2 ^ 64 :=
  BitVec.isLt _

theorem State.byteAddr_env {s t : State} (h : t.env = s.env) (a : Word) (i : Nat) :
    t.byteAddr a i = s.byteAddr a i := by
  simp only [State.byteAddr, h]

theorem State.byteAddr_eq (s : State) (a : Word) (i : Nat) :
    s.byteAddr a i = (a.toNat + i) % 2 ^ s.env.xlen.bits := by
  unfold State.byteAddr
  cases s.env.xlen <;>
    simp only [XLen.addr, XLen.bits, BitVec.toNat_setWidth, BitVec.toNat_add, BitVec.toNat_ofNat] <;> omega

/-- The bytes of an access have different addresses. -/
theorem State.byteAddr_inj (s : State) (a : Word) {i j : Nat} (hi : i < 2 ^ 32) (hj : j < 2 ^ 32)
    (h : s.byteAddr a i = s.byteAddr a j) : i = j := by
  rw [State.byteAddr_eq, State.byteAddr_eq] at h
  cases hx : s.env.xlen <;> simp only [hx, XLen.bits] at h <;> omega

/-- Byte i of a value (R51). -/
theorem byte_eq (v : Word) (i : Nat) : (v >>> (8 * i)).setWidth 8 = BitVec.ofNat 8 (v.toNat / 256 ^ i) := by
  apply BitVec.eq_of_toNat_eq
  simp [BitVec.toNat_setWidth, BitVec.toNat_ushiftRight, Nat.shiftRight_eq_div_pow, Nat.pow_mul]

@[simp] theorem State.byteAddr_storeBytes (s : State) (a v b : Word) (n i : Nat) :
    (s.storeBytes a v n).byteAddr b i = s.byteAddr b i :=
  State.byteAddr_env (by simp) b i

/-- A stored byte reads as the value's byte. -/
theorem State.storeBytes_read (s : State) (a v : Word) {n i : Nat} (hn : n ≤ 8) (hi : i < n) :
    (s.storeBytes a v n).readByte (s.byteAddr a i) = (v >>> (8 * i)).setWidth 8 := by
  induction n with
  | zero => omega
  | succ n ih =>
    simp only [State.storeBytes, State.readByte, State.writeByte, Memory.read_write]
    split
    · rename_i h
      rw [s.byteAddr_inj a (by omega) (by omega) h]
    · rename_i h
      have : i ≠ n := fun e => h (by rw [e])
      exact ih (by omega) (by omega)

/-- Every other byte reads as before. -/
theorem State.storeBytes_read_other (s : State) (a v : Word) (n k : Nat) (h : ∀ i < n, k ≠ s.byteAddr a i) :
    (s.storeBytes a v n).readByte k = s.readByte k := by
  induction n with
  | zero => rfl
  | succ n ih =>
    simp only [State.storeBytes, State.readByte, State.writeByte, Memory.read_write]
    rw [if_neg (h n (by omega))]
    exact ih fun i hi => h i (by omega)

theorem State.storeBytes_wf (s : State) (a v : Word) (n : Nat) (h : Memory.wf s.mem = true) :
    Memory.wf (s.storeBytes a v n).mem = true := by
  induction n with
  | zero => exact h
  | succ n ih => exact Memory.wf_write _ (State.byteAddr_lt _ _ _) ih

theorem State.lookup_cells (s : State) (a : Word) {n : Nat} (v k : Nat) (hn : n ≤ 8) :
    (∃ i < n, k = s.byteAddr a i ∧ (s.cells a n v).lookup k = some (BitVec.ofNat 8 (v / 256 ^ i))) ∨
    ((∀ i < n, k ≠ s.byteAddr a i) ∧ (s.cells a n v).lookup k = none) := by
  unfold State.cells
  induction n with
  | zero => exact .inr ⟨by simp, rfl⟩
  | succ n ih =>
    rw [List.range_succ, List.map_append, List.lookup_append]
    rcases ih (by omega) with ⟨i, hi, e, h⟩ | ⟨hne, h⟩
    · exact .inl ⟨i, by omega, e, by rw [h]; rfl⟩
    · by_cases e : k = s.byteAddr a n
      · exact .inl ⟨n, by omega, e, by rw [h]; simp [e]⟩
      · refine .inr ⟨fun i hi => ?_, ?_⟩
        · rcases Nat.lt_succ_iff_lt_or_eq.1 hi with h' | h'
          · exact hne i h'
          · rw [h']; exact e
        · rw [h]
          simp only [List.map_cons, List.map_nil, List.lookup, Option.none_or]
          simp [beq_false_of_ne e]

/-- Memory after a store of n bytes, as the effect of the stored cells (R53). -/
theorem State.storeBytes_readByte (s : State) (a v : Word) {n : Nat} (hn : n ≤ 8) (k : Nat) :
    (s.storeBytes a v n).readByte k = ((s.cells a n v.toNat).lookup k).getD (s.readByte k) := by
  rcases s.lookup_cells a v.toNat k hn with ⟨i, hi, e, h⟩ | ⟨hne, h⟩
  · rw [h, e, State.storeBytes_read s a v hn hi, byte_eq]; rfl
  · rw [h, State.storeBytes_read_other s a v n k hne]; rfl

/-- A loaded value as a number (R51, R52). -/
theorem State.loadBytes_toNat (s : State) (a : Word) {n : Nat} (hn : n ≤ 8) :
    (s.loadBytes a n).toNat = s.leNat a n ∧ s.leNat a n < 256 ^ n := by
  induction n with
  | zero => exact ⟨rfl, by simp [State.leNat]⟩
  | succ n ih =>
    obtain ⟨h1, h2⟩ := ih (by omega)
    have hb := (s.readByte (s.byteAddr a n)).isLt
    have e : s.leNat a (n + 1) = s.leNat a n + (s.readByte (s.byteAddr a n)).toNat * 256 ^ n := by
      simp [State.leNat, List.range_succ]
    have p : (256 : Nat) ^ n = 2 ^ (8 * n) := by rw [Nat.pow_mul]
    have le64 : 2 ^ (8 * n) * 256 ≤ 2 ^ 64 := by
      have : 2 ^ (8 * n) * 256 = 2 ^ (8 * n + 8) := by rw [Nat.pow_add]
      rw [this]
      exact Nat.pow_le_pow_right (by omega) (by omega)
    have hlt : (s.readByte (s.byteAddr a n)).toNat * 2 ^ (8 * n) + 2 ^ (8 * n) ≤ 2 ^ (8 * n) * 256 := by nlinarith
    have hsh : ((s.readByte (s.byteAddr a n)).setWidth 64 <<< (8 * n)).toNat =
        (s.readByte (s.byteAddr a n)).toNat <<< (8 * n) := by
      rw [BitVec.toNat_shiftLeft, BitVec.toNat_setWidth, Nat.shiftLeft_eq,
        Nat.mod_eq_of_lt (show (s.readByte (s.byteAddr a n)).toNat < 2 ^ 64 by omega), Nat.mod_eq_of_lt (by omega),
        Nat.shiftLeft_eq]
    refine ⟨?_, by rw [e, Nat.pow_succ, p]; rw [p] at h2; omega⟩
    rw [e, State.loadBytes, BitVec.toNat_or, hsh, h1, Nat.or_comm,
      ← Nat.shiftLeft_add_eq_or_of_lt (by rwa [p] at h2), Nat.shiftLeft_eq, p, Nat.add_comm]

end Sys2Proof.Machine
end

