-- ==== Sys2Proof/Laws/Effect.lean ====
section
/-! SUPPORT. What each shared operation answers, once: when it gives a next state and what that state is, as an effect
(spec/20_memory.md, spec/40_integer_alu.md to spec/46_fcsr_access.md). -/

namespace Sys2Proof.Machine

variable {s t : State}

/-! ## Stopping -/

theorem raise_ne_next {f : Fault} : raise f ≠ .next t := nofun

theorem refuse_ne_next {r : Refusal} : refuse r ≠ .next t := nofun

theorem Stop.outcome_ne_next (w : Stop) : w.outcome ≠ .next t := by
  cases w <;> nofun

theorem attempt_next {α : Type} {e : Except Stop α} {k : α → Host.Outcome State Fault Refusal} :
    attempt e k = .next t ↔ ∃ a, e = .ok a ∧ k a = .next t := by
  cases e with
  | ok a => simp [attempt]
  | error w => simp [attempt, Stop.outcome_ne_next]

theorem State.rv64Only_next {o : Host.Outcome State Fault Refusal} :
    s.rv64Only o = .next t ↔ s.env.xlen = .rv64 ∧ o = .next t := by
  unfold State.rv64Only
  split <;> simp_all [raise]

theorem State.rv64Only_of (h : s.env.xlen = .rv64) (o : Host.Outcome State Fault Refusal) : s.rv64Only o = o := by
  simp [State.rv64Only, h]

/-! ## Access checks -/

theorem State.memRead_ok {a : Word} {n : Nat} {v : Word} :
    s.memRead a n = .ok v ↔ s.accessible a n ∧ v = s.loadBytes a n := by
  unfold State.memRead State.accessible
  cases hm : s.env.misaligned <;> cases ha : aligned a n <;> cases hp : s.allMapped a n <;> simp [eq_comm (a := v)]

theorem State.memWrite_ok {a : Word} {n : Nat} {v : Word} :
    s.memWrite a n v = .ok t ↔ s.accessible a n ∧ t = s.storeBytes a v n := by
  unfold State.memWrite State.accessible
  cases hm : s.env.misaligned <;> cases ha : aligned a n <;> cases hp : s.allMapped a n <;> simp [eq_comm (a := t)]

theorem State.atomCheck_ok {mis : Word → Fault} {a : Word} {n : AtomSize} {u : Unit} :
    s.atomCheck mis a n = .ok u ↔ aligned a n.bytes = true ∧ s.allMapped a n.bytes = true := by
  unfold State.atomCheck
  cases aligned a n.bytes <;> cases s.allMapped a n.bytes <;> simp

/-! ## The effects of the updates -/

theorem becomes_retireX (s : State) (rd : XReg) (v : Word) :
    Becomes s (s.retireX rd v) { x := some (rd, s.env.xlen.canon v) } := by
  constructor <;> simp

theorem State.writeFmt_readF (s : State) (fmt : Fmt) (i j : FReg) (v : BitVec fmt.width) :
    (s.writeFmt fmt i v).readF j = if j = i then boxed fmt v else s.readF j := by
  cases fmt
  · exact s.writeS_readF i j v
  · exact s.writeF_readF i j v

theorem becomes_retireF (s : State) (fmt : Fmt) (rd : FReg) (r : BitVec fmt.width × Flags) :
    Becomes s (s.retireF fmt rd r) { f := some (rd, boxed fmt r.1), raised := r.2 } := by
  constructor <;> intros <;> simp +contextual [State.retireF, State.writeFmt_readF]

theorem becomes_writeFmt (s : State) (fmt : Fmt) (rd : FReg) (v : BitVec fmt.width) :
    Becomes s (s.writeFmt fmt rd v).advance { f := some (rd, boxed fmt v) } := by
  constructor <;> intros <;> simp +contextual [State.writeFmt_readF]

theorem becomes_writeX_raise (s : State) (rd : XReg) (v : Word) (m : Flags) :
    Becomes s ((s.writeX rd v).raiseFlags m).advance { x := some (rd, s.env.xlen.canon v), raised := m } := by
  constructor <;> intros <;> simp

theorem becomes_store (s : State) (a v : Word) {n : Nat} (hn : n ≤ 8) :
    Becomes s (s.storeBytes a v n).advance { bytes := s.cells a n v.toNat } := by
  constructor <;> intros <;> simp +contextual [State.storeBytes_readByte s a v hn]

theorem becomes_amo (s : State) (a v w : Word) (rd : XReg) {n : Nat} (hn : n ≤ 8) :
    Becomes s ((s.storeBytes a v n).retireX rd w)
      { x := some (rd, s.env.xlen.canon w), bytes := s.cells a n v.toNat } := by
  constructor <;> intros <;> simp [State.storeBytes_readByte s a v hn]

theorem becomes_loadReserved (s : State) (r : Option Reservation) (rd : XReg) (v : Word) :
    Becomes s ((s.setReservation r).retireX rd v)
      { x := some (rd, s.env.xlen.canon v), reservation := some r } := by
  constructor <;> intros <;> simp

theorem AtomSize.bytes_le (n : AtomSize) : n.bytes ≤ 8 := by cases n <;> decide

theorem XLen.canon_zero (xl : XLen) : xl.canon 0#64 = 0#64 := by cases xl <;> rfl

theorem XLen.canon_one (xl : XLen) : xl.canon 1#64 = 1#64 := by cases xl <;> rfl

theorem becomes_scFail (s : State) (rd : XReg) :
    Becomes s (s.scFail rd) { x := some (rd, 1), reservation := some none } := by
  constructor <;> intros <;> simp [State.scFail, XLen.canon_one]

theorem becomes_scFail_drawn (s : State) (rd : XReg) :
    Becomes s (s.takeDraw.scFail rd) { x := some (rd, 1), reservation := some none, draws := 1 } := by
  constructor <;> intros <;> simp [State.scFail, XLen.canon_one]

theorem becomes_scStore (s : State) (n : AtomSize) (rd : XReg) (a v : Word) :
    Becomes s (s.takeDraw.scStore n rd a v)
      { x := some (rd, 0), bytes := s.cells a n.bytes v.toNat, reservation := some none, draws := 1 } := by
  have h k := State.storeBytes_readByte s.takeDraw a v n.bytes_le k
  have e : s.takeDraw.cells a n.bytes v.toNat = s.cells a n.bytes v.toNat := rfl
  constructor <;> intros <;> simp [State.scStore, XLen.canon_zero, h, e]

/-! ## The shapes of the instructions -/

theorem load_next {n : Nat} {ext : Word → Word} {rd rs1 : XReg} {imm : BitVec 12} :
    load n ext rd rs1 imm s = .next t ↔
      s.accessible (s.effAddr rs1 imm) n ∧ t = s.retireX rd (ext (s.loadBytes (s.effAddr rs1 imm) n)) := by
  simp only [load, attempt_next, State.memRead_ok, Host.Outcome.next.injEq]
  constructor
  · rintro ⟨v, ⟨h, rfl⟩, rfl⟩; exact ⟨h, rfl⟩
  · rintro ⟨h, rfl⟩; exact ⟨_, ⟨h, rfl⟩, rfl⟩

theorem store_next {n : Nat} {rs1 rs2 : XReg} {imm : BitVec 12} :
    store n rs1 rs2 imm s = .next t ↔
      s.accessible (s.effAddr rs1 imm) n ∧ t = (s.storeBytes (s.effAddr rs1 imm) (s.readX rs2) n).advance := by
  simp only [store, attempt_next, State.memWrite_ok, Host.Outcome.next.injEq]
  constructor
  · rintro ⟨v, ⟨h, rfl⟩, rfl⟩; exact ⟨h, rfl⟩
  · rintro ⟨h, rfl⟩; exact ⟨_, ⟨h, rfl⟩, rfl⟩

theorem amo_next {n : AtomSize} {unit : Word → Word → Word × Word} {rd rs1 rs2 : XReg} :
    amo n unit rd rs1 rs2 s = .next t ↔ s.atomOk rs1 n ∧
      t = (s.storeBytes (s.atomAddr rs1) (unit (s.loadBytes (s.atomAddr rs1) n.bytes) (s.readX rs2)).2
        n.bytes).retireX rd (unit (s.loadBytes (s.atomAddr rs1) n.bytes) (s.readX rs2)).1 := by
  simp only [amo, State.atomOk, attempt_next, State.atomCheck_ok, Host.Outcome.next.injEq, exists_const, eq_comm (b := t)]

theorem loadReserved_next {n : AtomSize} {ext : Word → Word} {rd rs1 : XReg} :
    loadReserved n ext rd rs1 s = .next t ↔ s.atomOk rs1 n ∧
      t = (s.setReservation (some ⟨s.atomAddr rs1, n⟩)).retireX rd
        (ext (s.loadBytes (s.atomAddr rs1) n.bytes)) := by
  simp only [loadReserved, State.atomOk, attempt_next, State.atomCheck_ok, Host.Outcome.next.injEq, exists_const,
    eq_comm (b := t)]

theorem storeConditional_next {n : AtomSize} {rd rs1 rs2 : XReg} :
    storeConditional n rd rs1 rs2 s = .next t ↔ s.atomOk rs1 n ∧
      ((s.reservation = none ∧ t = s.scFail rd) ∨
       (s.reservation = some ⟨s.atomAddr rs1, n⟩ ∧ s.scDrawFails = true ∧ t = s.takeDraw.scFail rd) ∨
       (s.reservation = some ⟨s.atomAddr rs1, n⟩ ∧ s.scDrawFails = false ∧
         t = s.takeDraw.scStore n rd (s.atomAddr rs1) (s.readX rs2))) := by
  simp only [storeConditional, State.atomOk, attempt_next, State.atomCheck_ok, exists_const]
  refine and_congr_right fun _ => ?_
  cases hr : s.reservation with
  | none => simp [eq_comm (a := t)]
  | some r =>
    by_cases h : r = ⟨s.atomAddr rs1, n⟩
    · cases hd : s.scDrawFails <;> simp [h, eq_comm (a := t)]
    · simp [h, refuse]

theorem fpBinary_next {fmt : Fmt} {f : RoundingMode → BitVec fmt.width → BitVec fmt.width → BitVec fmt.width × Flags}
    {rd rs1 rs2 : FReg} {rm : RmField} :
    fpBinary fmt f rd rs1 rs2 rm s = .next t ↔ ∃ m, s.effRm rm = .ok m ∧
      t = s.retireF fmt rd (f m (s.readFmt fmt rs1) (s.readFmt fmt rs2)) := by
  simp only [fpBinary, attempt_next, Host.Outcome.next.injEq, eq_comm (b := t)]

theorem fpUnary_next {fmt : Fmt} {f : RoundingMode → BitVec fmt.width → BitVec fmt.width × Flags}
    {rd rs1 : FReg} {rm : RmField} :
    fpUnary fmt f rd rs1 rm s = .next t ↔ ∃ m, s.effRm rm = .ok m ∧
      t = s.retireF fmt rd (f m (s.readFmt fmt rs1)) := by
  simp only [fpUnary, attempt_next, Host.Outcome.next.injEq, eq_comm (b := t)]

theorem fpFused_next {fmt : Fmt} {np nc : Bool} {rd rs1 rs2 rs3 : FReg} {rm : RmField} :
    fpFused fmt np nc rd rs1 rs2 rs3 rm s = .next t ↔ ∃ m, s.effRm rm = .ok m ∧
      t = s.retireF fmt rd
        (fpFma fmt m (s.readFmt fmt rs1) (s.readFmt fmt rs2) (s.readFmt fmt rs3) np nc) := by
  simp only [fpFused, attempt_next, Host.Outcome.next.injEq, eq_comm (b := t)]

theorem fpToX_next {fmt : Fmt} {ty : IntType} {rd : XReg} {rs1 : FReg} {rm : RmField} :
    fpToX fmt ty rd rs1 rm s = .next t ↔ (∃ m, s.effRm rm = .ok m) ∧
      t = ((s.writeX rd ((BitVec.ofInt ty.bits (fpToInt fmt ty (s.readFmt fmt rs1)).1).signExtend 64)).raiseFlags
        (fpToInt fmt ty (s.readFmt fmt rs1)).2).advance := by
  simp only [fpToX, attempt_next, Host.Outcome.next.injEq, eq_comm (b := t)]
  exact ⟨fun ⟨m, h, e⟩ => ⟨⟨m, h⟩, e⟩, fun ⟨⟨m, h⟩, e⟩ => ⟨m, h, e⟩⟩

theorem xToFp_next {fmt : Fmt} {ty : IntType} {rd : FReg} {rs1 : XReg} {rm : RmField} :
    xToFp fmt ty rd rs1 rm s = .next t ↔ ∃ m, s.effRm rm = .ok m ∧
      t = s.retireF fmt rd (intToFp fmt m (if ty.signed then ((s.readX rs1).setWidth ty.bits).toInt
        else ((s.readX rs1).setWidth ty.bits).toNat)) := by
  simp only [xToFp, attempt_next, Host.Outcome.next.injEq, eq_comm (b := t)]

theorem fpToFpInstr_next {dst src : Fmt} {rd rs1 : FReg} {rm : RmField} :
    fpToFpInstr dst src rd rs1 rm s = .next t ↔ ∃ m, s.effRm rm = .ok m ∧
      t = s.retireF dst rd (fpToFp dst src m (s.readFmt src rs1)) := by
  simp only [fpToFpInstr, attempt_next, Host.Outcome.next.injEq, eq_comm (b := t)]

end Sys2Proof.Machine
end

