-- ==== Sys2Proof/Laws/Exec.lean ====
section
/-! SUPPORT. What exec can do: whenever an instruction gives a next state, that state is the old one after an effect
that names only what the instruction may change (spec/10_state.md R21 to R34, spec/20_memory.md R57). -/

namespace Sys2Proof.Machine

variable {i : Instr} {s t : State}

theorem State.map_fst_cells (s : State) (a : Word) (n v : Nat) :
    (s.cells a n v).map (fun c => c.1) = s.span a n := by
  simp [State.cells, State.span]

/-- An effect on x[rd], perhaps with flags. -/
theorem allows_x {rd : XReg} {v : Word} {m : Flags} (hx : xDest i = some rd) (hf : fDest i = none)
    (hw : written i s = []) (hm : mayRaise i = false → m = 0) :
    Allows i s { x := some (rd, v), raised := m } :=
  ⟨hx.symm, hf.symm, hw.symm, hm, nofun, nofun, nofun, nofun⟩

/-- An effect on f[rd], perhaps with flags. -/
theorem allows_f {rd : FReg} {v : Word} {m : Flags} (hx : xDest i = none) (hf : fDest i = some rd)
    (hw : written i s = []) (hm : mayRaise i = false → m = 0) :
    Allows i s { f := some (rd, v), raised := m } :=
  ⟨hx.symm, hf.symm, hw.symm, hm, nofun, nofun, nofun, nofun⟩

/-- A store. -/
theorem allows_store {a : Word} {n v : Nat} (hx : xDest i = none) (hf : fDest i = none)
    (hw : written i s = s.span a n) : Allows i s { bytes := s.cells a n v } :=
  ⟨hx.symm, hf.symm, (s.map_fst_cells a n v).trans hw.symm, fun _ => rfl, nofun, nofun, nofun, nofun⟩

/-- A read-modify-write. -/
theorem allows_amo {rd : XReg} {w a : Word} {n v : Nat} (hx : xDest i = some rd) (hf : fDest i = none)
    (hw : written i s = s.span a n) : Allows i s { x := some (rd, w), bytes := s.cells a n v } :=
  ⟨hx.symm, hf.symm, (s.map_fst_cells a n v).trans hw.symm, fun _ => rfl, nofun, nofun, nofun, nofun⟩

/-- LR. -/
theorem allows_lr {rd : XReg} {v : Word} {r : Option Reservation} (hx : xDest i = some rd) (hf : fDest i = none)
    (hw : written i s = []) (hr : writesReservation i) :
    Allows i s { x := some (rd, v), reservation := some r } :=
  ⟨hx.symm, hf.symm, hw.symm, fun _ => rfl, nofun, nofun, fun _ => hr, fun _ => hr⟩

/-- SC, which stores only when the reservation matches and the draw lets it. -/
theorem sc_effect {n : AtomSize} {rd rs1 rs2 : XReg} (hx : xDest i = some rd) (hf : fDest i = none)
    (hw : written i s = s.scSpan n rs1) (hr : writesReservation i)
    (h : storeConditional n rd rs1 rs2 s = .next t) : ∃ e, Becomes s t e ∧ Allows i s e := by
  obtain ⟨-, ⟨hs, rfl⟩ | ⟨hs, hd, rfl⟩ | ⟨hs, hd, rfl⟩⟩ := storeConditional_next.1 h
  · refine ⟨_, becomes_scFail s rd, hx.symm, hf.symm, ?_, fun _ => rfl, nofun, nofun, fun _ => hr, fun _ => hr⟩
    simp [hw, State.scSpan, hs]
  · refine ⟨_, becomes_scFail_drawn s rd, hx.symm, hf.symm, ?_, fun _ => rfl, nofun, nofun, fun _ => hr, fun _ => hr⟩
    simp [hw, State.scSpan, hd]
  · refine ⟨_, becomes_scStore s n rd _ _, hx.symm, hf.symm, ?_, fun _ => rfl, nofun, nofun, fun _ => hr, fun _ => hr⟩
    rw [hw, State.scSpan, if_pos ⟨hs, hd⟩]
    exact s.map_fst_cells _ _ _

/-- What an instruction can do: everything it does not name in its effect is unchanged. -/
theorem exec_effect (h : exec i s = .next t) : ∃ e, Becomes s t e ∧ Allows i s e := by
  cases i with
  | add rd rs1 rs2 =>
    obtain rfl := Host.Outcome.next.inj h
    exact ⟨_, becomes_retireX _ _ _, allows_x rfl rfl rfl fun _ => rfl⟩
  | sub rd rs1 rs2 =>
    obtain rfl := Host.Outcome.next.inj h
    exact ⟨_, becomes_retireX _ _ _, allows_x rfl rfl rfl fun _ => rfl⟩
  | sll rd rs1 rs2 =>
    obtain rfl := Host.Outcome.next.inj h
    exact ⟨_, becomes_retireX _ _ _, allows_x rfl rfl rfl fun _ => rfl⟩
  | slt rd rs1 rs2 =>
    obtain rfl := Host.Outcome.next.inj h
    exact ⟨_, becomes_retireX _ _ _, allows_x rfl rfl rfl fun _ => rfl⟩
  | sltu rd rs1 rs2 =>
    obtain rfl := Host.Outcome.next.inj h
    exact ⟨_, becomes_retireX _ _ _, allows_x rfl rfl rfl fun _ => rfl⟩
  | xor rd rs1 rs2 =>
    obtain rfl := Host.Outcome.next.inj h
    exact ⟨_, becomes_retireX _ _ _, allows_x rfl rfl rfl fun _ => rfl⟩
  | srl rd rs1 rs2 =>
    obtain rfl := Host.Outcome.next.inj h
    exact ⟨_, becomes_retireX _ _ _, allows_x rfl rfl rfl fun _ => rfl⟩
  | sra rd rs1 rs2 =>
    obtain rfl := Host.Outcome.next.inj h
    exact ⟨_, becomes_retireX _ _ _, allows_x rfl rfl rfl fun _ => rfl⟩
  | or rd rs1 rs2 =>
    obtain rfl := Host.Outcome.next.inj h
    exact ⟨_, becomes_retireX _ _ _, allows_x rfl rfl rfl fun _ => rfl⟩
  | and rd rs1 rs2 =>
    obtain rfl := Host.Outcome.next.inj h
    exact ⟨_, becomes_retireX _ _ _, allows_x rfl rfl rfl fun _ => rfl⟩
  | addi rd rs1 imm =>
    obtain rfl := Host.Outcome.next.inj h
    exact ⟨_, becomes_retireX _ _ _, allows_x rfl rfl rfl fun _ => rfl⟩
  | slti rd rs1 imm =>
    obtain rfl := Host.Outcome.next.inj h
    exact ⟨_, becomes_retireX _ _ _, allows_x rfl rfl rfl fun _ => rfl⟩
  | sltiu rd rs1 imm =>
    obtain rfl := Host.Outcome.next.inj h
    exact ⟨_, becomes_retireX _ _ _, allows_x rfl rfl rfl fun _ => rfl⟩
  | xori rd rs1 imm =>
    obtain rfl := Host.Outcome.next.inj h
    exact ⟨_, becomes_retireX _ _ _, allows_x rfl rfl rfl fun _ => rfl⟩
  | ori rd rs1 imm =>
    obtain rfl := Host.Outcome.next.inj h
    exact ⟨_, becomes_retireX _ _ _, allows_x rfl rfl rfl fun _ => rfl⟩
  | andi rd rs1 imm =>
    obtain rfl := Host.Outcome.next.inj h
    exact ⟨_, becomes_retireX _ _ _, allows_x rfl rfl rfl fun _ => rfl⟩
  | slli rd rs1 shamt =>
    obtain rfl := Host.Outcome.next.inj h
    exact ⟨_, becomes_retireX _ _ _, allows_x rfl rfl rfl fun _ => rfl⟩
  | srli rd rs1 shamt =>
    obtain rfl := Host.Outcome.next.inj h
    exact ⟨_, becomes_retireX _ _ _, allows_x rfl rfl rfl fun _ => rfl⟩
  | srai rd rs1 shamt =>
    obtain rfl := Host.Outcome.next.inj h
    exact ⟨_, becomes_retireX _ _ _, allows_x rfl rfl rfl fun _ => rfl⟩
  | addw rd rs1 rs2 =>
    obtain ⟨-, h⟩ := State.rv64Only_next.1 h
    obtain rfl := Host.Outcome.next.inj h
    exact ⟨_, becomes_retireX _ _ _, allows_x rfl rfl rfl fun _ => rfl⟩
  | subw rd rs1 rs2 =>
    obtain ⟨-, h⟩ := State.rv64Only_next.1 h
    obtain rfl := Host.Outcome.next.inj h
    exact ⟨_, becomes_retireX _ _ _, allows_x rfl rfl rfl fun _ => rfl⟩
  | sllw rd rs1 rs2 =>
    obtain ⟨-, h⟩ := State.rv64Only_next.1 h
    obtain rfl := Host.Outcome.next.inj h
    exact ⟨_, becomes_retireX _ _ _, allows_x rfl rfl rfl fun _ => rfl⟩
  | srlw rd rs1 rs2 =>
    obtain ⟨-, h⟩ := State.rv64Only_next.1 h
    obtain rfl := Host.Outcome.next.inj h
    exact ⟨_, becomes_retireX _ _ _, allows_x rfl rfl rfl fun _ => rfl⟩
  | sraw rd rs1 rs2 =>
    obtain ⟨-, h⟩ := State.rv64Only_next.1 h
    obtain rfl := Host.Outcome.next.inj h
    exact ⟨_, becomes_retireX _ _ _, allows_x rfl rfl rfl fun _ => rfl⟩
  | addiw rd rs1 imm =>
    obtain ⟨-, h⟩ := State.rv64Only_next.1 h
    obtain rfl := Host.Outcome.next.inj h
    exact ⟨_, becomes_retireX _ _ _, allows_x rfl rfl rfl fun _ => rfl⟩
  | slliw rd rs1 shamt =>
    obtain ⟨-, h⟩ := State.rv64Only_next.1 h
    obtain rfl := Host.Outcome.next.inj h
    exact ⟨_, becomes_retireX _ _ _, allows_x rfl rfl rfl fun _ => rfl⟩
  | srliw rd rs1 shamt =>
    obtain ⟨-, h⟩ := State.rv64Only_next.1 h
    obtain rfl := Host.Outcome.next.inj h
    exact ⟨_, becomes_retireX _ _ _, allows_x rfl rfl rfl fun _ => rfl⟩
  | sraiw rd rs1 shamt =>
    obtain ⟨-, h⟩ := State.rv64Only_next.1 h
    obtain rfl := Host.Outcome.next.inj h
    exact ⟨_, becomes_retireX _ _ _, allows_x rfl rfl rfl fun _ => rfl⟩
  | lb rd rs1 imm =>
    obtain ⟨-, rfl⟩ := load_next.1 h
    exact ⟨_, becomes_retireX _ _ _, allows_x rfl rfl rfl fun _ => rfl⟩
  | lh rd rs1 imm =>
    obtain ⟨-, rfl⟩ := load_next.1 h
    exact ⟨_, becomes_retireX _ _ _, allows_x rfl rfl rfl fun _ => rfl⟩
  | lw rd rs1 imm =>
    obtain ⟨-, rfl⟩ := load_next.1 h
    exact ⟨_, becomes_retireX _ _ _, allows_x rfl rfl rfl fun _ => rfl⟩
  | ld rd rs1 imm =>
    obtain ⟨-, h⟩ := State.rv64Only_next.1 h
    obtain ⟨-, rfl⟩ := load_next.1 h
    exact ⟨_, becomes_retireX _ _ _, allows_x rfl rfl rfl fun _ => rfl⟩
  | lbu rd rs1 imm =>
    obtain ⟨-, rfl⟩ := load_next.1 h
    exact ⟨_, becomes_retireX _ _ _, allows_x rfl rfl rfl fun _ => rfl⟩
  | lhu rd rs1 imm =>
    obtain ⟨-, rfl⟩ := load_next.1 h
    exact ⟨_, becomes_retireX _ _ _, allows_x rfl rfl rfl fun _ => rfl⟩
  | lwu rd rs1 imm =>
    obtain ⟨-, h⟩ := State.rv64Only_next.1 h
    obtain ⟨-, rfl⟩ := load_next.1 h
    exact ⟨_, becomes_retireX _ _ _, allows_x rfl rfl rfl fun _ => rfl⟩
  | sb rs1 rs2 imm =>
    obtain ⟨-, rfl⟩ := store_next.1 h
    exact ⟨_, becomes_store _ _ _ (by decide), allows_store rfl rfl rfl⟩
  | sh rs1 rs2 imm =>
    obtain ⟨-, rfl⟩ := store_next.1 h
    exact ⟨_, becomes_store _ _ _ (by decide), allows_store rfl rfl rfl⟩
  | sw rs1 rs2 imm =>
    obtain ⟨-, rfl⟩ := store_next.1 h
    exact ⟨_, becomes_store _ _ _ (by decide), allows_store rfl rfl rfl⟩
  | sd rs1 rs2 imm =>
    obtain ⟨-, h⟩ := State.rv64Only_next.1 h
    obtain ⟨-, rfl⟩ := store_next.1 h
    exact ⟨_, becomes_store _ _ _ (by decide), allows_store rfl rfl rfl⟩
  | mul rd rs1 rs2 =>
    obtain rfl := Host.Outcome.next.inj h
    exact ⟨_, becomes_retireX _ _ _, allows_x rfl rfl rfl fun _ => rfl⟩
  | mulh rd rs1 rs2 =>
    obtain rfl := Host.Outcome.next.inj h
    exact ⟨_, becomes_retireX _ _ _, allows_x rfl rfl rfl fun _ => rfl⟩
  | mulhsu rd rs1 rs2 =>
    obtain rfl := Host.Outcome.next.inj h
    exact ⟨_, becomes_retireX _ _ _, allows_x rfl rfl rfl fun _ => rfl⟩
  | mulhu rd rs1 rs2 =>
    obtain rfl := Host.Outcome.next.inj h
    exact ⟨_, becomes_retireX _ _ _, allows_x rfl rfl rfl fun _ => rfl⟩
  | mulw rd rs1 rs2 =>
    obtain ⟨-, h⟩ := State.rv64Only_next.1 h
    obtain rfl := Host.Outcome.next.inj h
    exact ⟨_, becomes_retireX _ _ _, allows_x rfl rfl rfl fun _ => rfl⟩
  | div rd rs1 rs2 =>
    obtain rfl := Host.Outcome.next.inj h
    exact ⟨_, becomes_retireX _ _ _, allows_x rfl rfl rfl fun _ => rfl⟩
  | divu rd rs1 rs2 =>
    obtain rfl := Host.Outcome.next.inj h
    exact ⟨_, becomes_retireX _ _ _, allows_x rfl rfl rfl fun _ => rfl⟩
  | rem rd rs1 rs2 =>
    obtain rfl := Host.Outcome.next.inj h
    exact ⟨_, becomes_retireX _ _ _, allows_x rfl rfl rfl fun _ => rfl⟩
  | remu rd rs1 rs2 =>
    obtain rfl := Host.Outcome.next.inj h
    exact ⟨_, becomes_retireX _ _ _, allows_x rfl rfl rfl fun _ => rfl⟩
  | divw rd rs1 rs2 =>
    obtain ⟨-, h⟩ := State.rv64Only_next.1 h
    obtain rfl := Host.Outcome.next.inj h
    exact ⟨_, becomes_retireX _ _ _, allows_x rfl rfl rfl fun _ => rfl⟩
  | divuw rd rs1 rs2 =>
    obtain ⟨-, h⟩ := State.rv64Only_next.1 h
    obtain rfl := Host.Outcome.next.inj h
    exact ⟨_, becomes_retireX _ _ _, allows_x rfl rfl rfl fun _ => rfl⟩
  | remw rd rs1 rs2 =>
    obtain ⟨-, h⟩ := State.rv64Only_next.1 h
    obtain rfl := Host.Outcome.next.inj h
    exact ⟨_, becomes_retireX _ _ _, allows_x rfl rfl rfl fun _ => rfl⟩
  | remuw rd rs1 rs2 =>
    obtain ⟨-, h⟩ := State.rv64Only_next.1 h
    obtain rfl := Host.Outcome.next.inj h
    exact ⟨_, becomes_retireX _ _ _, allows_x rfl rfl rfl fun _ => rfl⟩
  | amoswapW aq rl rd rs1 rs2 =>
    obtain ⟨-, rfl⟩ := amo_next.1 h
    exact ⟨_, becomes_amo _ _ _ _ _ (by decide), allows_amo rfl rfl rfl⟩
  | amoaddW aq rl rd rs1 rs2 =>
    obtain ⟨-, rfl⟩ := amo_next.1 h
    exact ⟨_, becomes_amo _ _ _ _ _ (by decide), allows_amo rfl rfl rfl⟩
  | amoxorW aq rl rd rs1 rs2 =>
    obtain ⟨-, rfl⟩ := amo_next.1 h
    exact ⟨_, becomes_amo _ _ _ _ _ (by decide), allows_amo rfl rfl rfl⟩
  | amoandW aq rl rd rs1 rs2 =>
    obtain ⟨-, rfl⟩ := amo_next.1 h
    exact ⟨_, becomes_amo _ _ _ _ _ (by decide), allows_amo rfl rfl rfl⟩
  | amoorW aq rl rd rs1 rs2 =>
    obtain ⟨-, rfl⟩ := amo_next.1 h
    exact ⟨_, becomes_amo _ _ _ _ _ (by decide), allows_amo rfl rfl rfl⟩
  | amominW aq rl rd rs1 rs2 =>
    obtain ⟨-, rfl⟩ := amo_next.1 h
    exact ⟨_, becomes_amo _ _ _ _ _ (by decide), allows_amo rfl rfl rfl⟩
  | amomaxW aq rl rd rs1 rs2 =>
    obtain ⟨-, rfl⟩ := amo_next.1 h
    exact ⟨_, becomes_amo _ _ _ _ _ (by decide), allows_amo rfl rfl rfl⟩
  | amominuW aq rl rd rs1 rs2 =>
    obtain ⟨-, rfl⟩ := amo_next.1 h
    exact ⟨_, becomes_amo _ _ _ _ _ (by decide), allows_amo rfl rfl rfl⟩
  | amomaxuW aq rl rd rs1 rs2 =>
    obtain ⟨-, rfl⟩ := amo_next.1 h
    exact ⟨_, becomes_amo _ _ _ _ _ (by decide), allows_amo rfl rfl rfl⟩
  | amoswapD aq rl rd rs1 rs2 =>
    obtain ⟨-, h⟩ := State.rv64Only_next.1 h
    obtain ⟨-, rfl⟩ := amo_next.1 h
    exact ⟨_, becomes_amo _ _ _ _ _ (by decide), allows_amo rfl rfl rfl⟩
  | amoaddD aq rl rd rs1 rs2 =>
    obtain ⟨-, h⟩ := State.rv64Only_next.1 h
    obtain ⟨-, rfl⟩ := amo_next.1 h
    exact ⟨_, becomes_amo _ _ _ _ _ (by decide), allows_amo rfl rfl rfl⟩
  | amoxorD aq rl rd rs1 rs2 =>
    obtain ⟨-, h⟩ := State.rv64Only_next.1 h
    obtain ⟨-, rfl⟩ := amo_next.1 h
    exact ⟨_, becomes_amo _ _ _ _ _ (by decide), allows_amo rfl rfl rfl⟩
  | amoandD aq rl rd rs1 rs2 =>
    obtain ⟨-, h⟩ := State.rv64Only_next.1 h
    obtain ⟨-, rfl⟩ := amo_next.1 h
    exact ⟨_, becomes_amo _ _ _ _ _ (by decide), allows_amo rfl rfl rfl⟩
  | amoorD aq rl rd rs1 rs2 =>
    obtain ⟨-, h⟩ := State.rv64Only_next.1 h
    obtain ⟨-, rfl⟩ := amo_next.1 h
    exact ⟨_, becomes_amo _ _ _ _ _ (by decide), allows_amo rfl rfl rfl⟩
  | amominD aq rl rd rs1 rs2 =>
    obtain ⟨-, h⟩ := State.rv64Only_next.1 h
    obtain ⟨-, rfl⟩ := amo_next.1 h
    exact ⟨_, becomes_amo _ _ _ _ _ (by decide), allows_amo rfl rfl rfl⟩
  | amomaxD aq rl rd rs1 rs2 =>
    obtain ⟨-, h⟩ := State.rv64Only_next.1 h
    obtain ⟨-, rfl⟩ := amo_next.1 h
    exact ⟨_, becomes_amo _ _ _ _ _ (by decide), allows_amo rfl rfl rfl⟩
  | amominuD aq rl rd rs1 rs2 =>
    obtain ⟨-, h⟩ := State.rv64Only_next.1 h
    obtain ⟨-, rfl⟩ := amo_next.1 h
    exact ⟨_, becomes_amo _ _ _ _ _ (by decide), allows_amo rfl rfl rfl⟩
  | amomaxuD aq rl rd rs1 rs2 =>
    obtain ⟨-, h⟩ := State.rv64Only_next.1 h
    obtain ⟨-, rfl⟩ := amo_next.1 h
    exact ⟨_, becomes_amo _ _ _ _ _ (by decide), allows_amo rfl rfl rfl⟩
  | lrW aq rl rd rs1 =>
    obtain ⟨-, rfl⟩ := loadReserved_next.1 h
    exact ⟨_, becomes_loadReserved _ _ _ _, allows_lr rfl rfl rfl (.inl ⟨aq, rl, rd, rs1, rfl⟩)⟩
  | lrD aq rl rd rs1 =>
    obtain ⟨-, h⟩ := State.rv64Only_next.1 h
    obtain ⟨-, rfl⟩ := loadReserved_next.1 h
    exact ⟨_, becomes_loadReserved _ _ _ _, allows_lr rfl rfl rfl (.inr (.inl ⟨aq, rl, rd, rs1, rfl⟩))⟩
  | scW aq rl rd rs1 rs2 =>
    exact sc_effect rfl rfl rfl (.inr (.inr (.inl ⟨aq, rl, rd, rs1, rs2, rfl⟩))) h
  | scD aq rl rd rs1 rs2 =>
    obtain ⟨-, h⟩ := State.rv64Only_next.1 h
    exact sc_effect rfl rfl rfl (.inr (.inr (.inr ⟨aq, rl, rd, rs1, rs2, rfl⟩))) h
  | faddS rd rs1 rs2 rm =>
    obtain ⟨m, -, rfl⟩ := fpBinary_next.1 h
    exact ⟨_, becomes_retireF _ _ _ _, allows_f rfl rfl rfl nofun⟩
  | fsubS rd rs1 rs2 rm =>
    obtain ⟨m, -, rfl⟩ := fpBinary_next.1 h
    exact ⟨_, becomes_retireF _ _ _ _, allows_f rfl rfl rfl nofun⟩
  | fmulS rd rs1 rs2 rm =>
    obtain ⟨m, -, rfl⟩ := fpBinary_next.1 h
    exact ⟨_, becomes_retireF _ _ _ _, allows_f rfl rfl rfl nofun⟩
  | fdivS rd rs1 rs2 rm =>
    obtain ⟨m, -, rfl⟩ := fpBinary_next.1 h
    exact ⟨_, becomes_retireF _ _ _ _, allows_f rfl rfl rfl nofun⟩
  | fsqrtS rd rs1 rm =>
    obtain ⟨m, -, rfl⟩ := fpUnary_next.1 h
    exact ⟨_, becomes_retireF _ _ _ _, allows_f rfl rfl rfl nofun⟩
  | fmaddS rd rs1 rs2 rs3 rm =>
    obtain ⟨m, -, rfl⟩ := fpFused_next.1 h
    exact ⟨_, becomes_retireF _ _ _ _, allows_f rfl rfl rfl nofun⟩
  | fmsubS rd rs1 rs2 rs3 rm =>
    obtain ⟨m, -, rfl⟩ := fpFused_next.1 h
    exact ⟨_, becomes_retireF _ _ _ _, allows_f rfl rfl rfl nofun⟩
  | fnmsubS rd rs1 rs2 rs3 rm =>
    obtain ⟨m, -, rfl⟩ := fpFused_next.1 h
    exact ⟨_, becomes_retireF _ _ _ _, allows_f rfl rfl rfl nofun⟩
  | fnmaddS rd rs1 rs2 rs3 rm =>
    obtain ⟨m, -, rfl⟩ := fpFused_next.1 h
    exact ⟨_, becomes_retireF _ _ _ _, allows_f rfl rfl rfl nofun⟩
  | fsgnjS rd rs1 rs2 =>
    obtain rfl := Host.Outcome.next.inj h
    exact ⟨_, becomes_writeFmt _ .s _ _, allows_f rfl rfl rfl fun _ => rfl⟩
  | fsgnjnS rd rs1 rs2 =>
    obtain rfl := Host.Outcome.next.inj h
    exact ⟨_, becomes_writeFmt _ .s _ _, allows_f rfl rfl rfl fun _ => rfl⟩
  | fsgnjxS rd rs1 rs2 =>
    obtain rfl := Host.Outcome.next.inj h
    exact ⟨_, becomes_writeFmt _ .s _ _, allows_f rfl rfl rfl fun _ => rfl⟩
  | fminS rd rs1 rs2 =>
    obtain rfl := Host.Outcome.next.inj h
    exact ⟨_, becomes_retireF _ _ _ _, allows_f rfl rfl rfl nofun⟩
  | fmaxS rd rs1 rs2 =>
    obtain rfl := Host.Outcome.next.inj h
    exact ⟨_, becomes_retireF _ _ _ _, allows_f rfl rfl rfl nofun⟩
  | faddD rd rs1 rs2 rm =>
    obtain ⟨m, -, rfl⟩ := fpBinary_next.1 h
    exact ⟨_, becomes_retireF _ _ _ _, allows_f rfl rfl rfl nofun⟩
  | fsubD rd rs1 rs2 rm =>
    obtain ⟨m, -, rfl⟩ := fpBinary_next.1 h
    exact ⟨_, becomes_retireF _ _ _ _, allows_f rfl rfl rfl nofun⟩
  | fmulD rd rs1 rs2 rm =>
    obtain ⟨m, -, rfl⟩ := fpBinary_next.1 h
    exact ⟨_, becomes_retireF _ _ _ _, allows_f rfl rfl rfl nofun⟩
  | fdivD rd rs1 rs2 rm =>
    obtain ⟨m, -, rfl⟩ := fpBinary_next.1 h
    exact ⟨_, becomes_retireF _ _ _ _, allows_f rfl rfl rfl nofun⟩
  | fsqrtD rd rs1 rm =>
    obtain ⟨m, -, rfl⟩ := fpUnary_next.1 h
    exact ⟨_, becomes_retireF _ _ _ _, allows_f rfl rfl rfl nofun⟩
  | fmaddD rd rs1 rs2 rs3 rm =>
    obtain ⟨m, -, rfl⟩ := fpFused_next.1 h
    exact ⟨_, becomes_retireF _ _ _ _, allows_f rfl rfl rfl nofun⟩
  | fmsubD rd rs1 rs2 rs3 rm =>
    obtain ⟨m, -, rfl⟩ := fpFused_next.1 h
    exact ⟨_, becomes_retireF _ _ _ _, allows_f rfl rfl rfl nofun⟩
  | fnmsubD rd rs1 rs2 rs3 rm =>
    obtain ⟨m, -, rfl⟩ := fpFused_next.1 h
    exact ⟨_, becomes_retireF _ _ _ _, allows_f rfl rfl rfl nofun⟩
  | fnmaddD rd rs1 rs2 rs3 rm =>
    obtain ⟨m, -, rfl⟩ := fpFused_next.1 h
    exact ⟨_, becomes_retireF _ _ _ _, allows_f rfl rfl rfl nofun⟩
  | fsgnjD rd rs1 rs2 =>
    obtain rfl := Host.Outcome.next.inj h
    exact ⟨_, becomes_writeFmt _ .d _ _, allows_f rfl rfl rfl fun _ => rfl⟩
  | fsgnjnD rd rs1 rs2 =>
    obtain rfl := Host.Outcome.next.inj h
    exact ⟨_, becomes_writeFmt _ .d _ _, allows_f rfl rfl rfl fun _ => rfl⟩
  | fsgnjxD rd rs1 rs2 =>
    obtain rfl := Host.Outcome.next.inj h
    exact ⟨_, becomes_writeFmt _ .d _ _, allows_f rfl rfl rfl fun _ => rfl⟩
  | fminD rd rs1 rs2 =>
    obtain rfl := Host.Outcome.next.inj h
    exact ⟨_, becomes_retireF _ _ _ _, allows_f rfl rfl rfl nofun⟩
  | fmaxD rd rs1 rs2 =>
    obtain rfl := Host.Outcome.next.inj h
    exact ⟨_, becomes_retireF _ _ _ _, allows_f rfl rfl rfl nofun⟩
  | fcvtWS rd rs1 rm =>
    obtain ⟨-, rfl⟩ := fpToX_next.1 h
    exact ⟨_, becomes_writeX_raise _ _ _ _, allows_x rfl rfl rfl nofun⟩
  | fcvtWuS rd rs1 rm =>
    obtain ⟨-, rfl⟩ := fpToX_next.1 h
    exact ⟨_, becomes_writeX_raise _ _ _ _, allows_x rfl rfl rfl nofun⟩
  | fcvtLS rd rs1 rm =>
    obtain ⟨-, h⟩ := State.rv64Only_next.1 h
    obtain ⟨-, rfl⟩ := fpToX_next.1 h
    exact ⟨_, becomes_writeX_raise _ _ _ _, allows_x rfl rfl rfl nofun⟩
  | fcvtLuS rd rs1 rm =>
    obtain ⟨-, h⟩ := State.rv64Only_next.1 h
    obtain ⟨-, rfl⟩ := fpToX_next.1 h
    exact ⟨_, becomes_writeX_raise _ _ _ _, allows_x rfl rfl rfl nofun⟩
  | fcvtSW rd rs1 rm =>
    obtain ⟨m, -, rfl⟩ := xToFp_next.1 h
    exact ⟨_, becomes_retireF _ _ _ _, allows_f rfl rfl rfl nofun⟩
  | fcvtSWu rd rs1 rm =>
    obtain ⟨m, -, rfl⟩ := xToFp_next.1 h
    exact ⟨_, becomes_retireF _ _ _ _, allows_f rfl rfl rfl nofun⟩
  | fcvtSL rd rs1 rm =>
    obtain ⟨-, h⟩ := State.rv64Only_next.1 h
    obtain ⟨m, -, rfl⟩ := xToFp_next.1 h
    exact ⟨_, becomes_retireF _ _ _ _, allows_f rfl rfl rfl nofun⟩
  | fcvtSLu rd rs1 rm =>
    obtain ⟨-, h⟩ := State.rv64Only_next.1 h
    obtain ⟨m, -, rfl⟩ := xToFp_next.1 h
    exact ⟨_, becomes_retireF _ _ _ _, allows_f rfl rfl rfl nofun⟩
  | feqS rd rs1 rs2 =>
    obtain rfl := Host.Outcome.next.inj h
    exact ⟨_, becomes_writeX_raise _ _ _ _, allows_x rfl rfl rfl nofun⟩
  | fltS rd rs1 rs2 =>
    obtain rfl := Host.Outcome.next.inj h
    exact ⟨_, becomes_writeX_raise _ _ _ _, allows_x rfl rfl rfl nofun⟩
  | fleS rd rs1 rs2 =>
    obtain rfl := Host.Outcome.next.inj h
    exact ⟨_, becomes_writeX_raise _ _ _ _, allows_x rfl rfl rfl nofun⟩
  | fclassS rd rs1 =>
    obtain rfl := Host.Outcome.next.inj h
    exact ⟨_, becomes_retireX _ _ _, allows_x rfl rfl rfl fun _ => rfl⟩
  | fcvtWD rd rs1 rm =>
    obtain ⟨-, rfl⟩ := fpToX_next.1 h
    exact ⟨_, becomes_writeX_raise _ _ _ _, allows_x rfl rfl rfl nofun⟩
  | fcvtWuD rd rs1 rm =>
    obtain ⟨-, rfl⟩ := fpToX_next.1 h
    exact ⟨_, becomes_writeX_raise _ _ _ _, allows_x rfl rfl rfl nofun⟩
  | fcvtLD rd rs1 rm =>
    obtain ⟨-, h⟩ := State.rv64Only_next.1 h
    obtain ⟨-, rfl⟩ := fpToX_next.1 h
    exact ⟨_, becomes_writeX_raise _ _ _ _, allows_x rfl rfl rfl nofun⟩
  | fcvtLuD rd rs1 rm =>
    obtain ⟨-, h⟩ := State.rv64Only_next.1 h
    obtain ⟨-, rfl⟩ := fpToX_next.1 h
    exact ⟨_, becomes_writeX_raise _ _ _ _, allows_x rfl rfl rfl nofun⟩
  | fcvtDW rd rs1 rm =>
    obtain ⟨m, -, rfl⟩ := xToFp_next.1 h
    exact ⟨_, becomes_retireF _ _ _ _, allows_f rfl rfl rfl nofun⟩
  | fcvtDWu rd rs1 rm =>
    obtain ⟨m, -, rfl⟩ := xToFp_next.1 h
    exact ⟨_, becomes_retireF _ _ _ _, allows_f rfl rfl rfl nofun⟩
  | fcvtDL rd rs1 rm =>
    obtain ⟨-, h⟩ := State.rv64Only_next.1 h
    obtain ⟨m, -, rfl⟩ := xToFp_next.1 h
    exact ⟨_, becomes_retireF _ _ _ _, allows_f rfl rfl rfl nofun⟩
  | fcvtDLu rd rs1 rm =>
    obtain ⟨-, h⟩ := State.rv64Only_next.1 h
    obtain ⟨m, -, rfl⟩ := xToFp_next.1 h
    exact ⟨_, becomes_retireF _ _ _ _, allows_f rfl rfl rfl nofun⟩
  | feqD rd rs1 rs2 =>
    obtain rfl := Host.Outcome.next.inj h
    exact ⟨_, becomes_writeX_raise _ _ _ _, allows_x rfl rfl rfl nofun⟩
  | fltD rd rs1 rs2 =>
    obtain rfl := Host.Outcome.next.inj h
    exact ⟨_, becomes_writeX_raise _ _ _ _, allows_x rfl rfl rfl nofun⟩
  | fleD rd rs1 rs2 =>
    obtain rfl := Host.Outcome.next.inj h
    exact ⟨_, becomes_writeX_raise _ _ _ _, allows_x rfl rfl rfl nofun⟩
  | fclassD rd rs1 =>
    obtain rfl := Host.Outcome.next.inj h
    exact ⟨_, becomes_retireX _ _ _, allows_x rfl rfl rfl fun _ => rfl⟩
  | fmvXW rd rs1 =>
    obtain rfl := Host.Outcome.next.inj h
    exact ⟨_, becomes_retireX _ _ _, allows_x rfl rfl rfl fun _ => rfl⟩
  | fmvWX rd rs1 =>
    obtain rfl := Host.Outcome.next.inj h
    exact ⟨_, becomes_writeFmt _ .s _ _, allows_f rfl rfl rfl fun _ => rfl⟩
  | fmvXD rd rs1 =>
    obtain ⟨-, h⟩ := State.rv64Only_next.1 h
    obtain rfl := Host.Outcome.next.inj h
    exact ⟨_, becomes_retireX _ _ _, allows_x rfl rfl rfl fun _ => rfl⟩
  | fmvDX rd rs1 =>
    obtain ⟨-, h⟩ := State.rv64Only_next.1 h
    obtain rfl := Host.Outcome.next.inj h
    exact ⟨_, becomes_writeFmt _ .d _ _, allows_f rfl rfl rfl fun _ => rfl⟩
  | fcvtSD rd rs1 rm =>
    obtain ⟨m, -, rfl⟩ := fpToFpInstr_next.1 h
    exact ⟨_, becomes_retireF _ _ _ _, allows_f rfl rfl rfl nofun⟩
  | fcvtDS rd rs1 rm =>
    obtain ⟨m, -, rfl⟩ := fpToFpInstr_next.1 h
    exact ⟨_, becomes_retireF _ _ _ _, allows_f rfl rfl rfl nofun⟩
  | frcsr rd =>
    obtain rfl := Host.Outcome.next.inj h
    exact ⟨_, becomes_retireX _ _ _, allows_x rfl rfl rfl fun _ => rfl⟩
  | frrm rd =>
    obtain rfl := Host.Outcome.next.inj h
    exact ⟨_, becomes_retireX _ _ _, allows_x rfl rfl rfl fun _ => rfl⟩
  | frflags rd =>
    obtain rfl := Host.Outcome.next.inj h
    exact ⟨_, becomes_retireX _ _ _, allows_x rfl rfl rfl fun _ => rfl⟩
  | fsflags rd rs1 =>
    obtain rfl := Host.Outcome.next.inj h
    refine ⟨{ x := some (rd, s.env.xlen.canon (s.fflags.setWidth 64)), fflags := some ((s.readX rs1).setWidth 5) }, ?_, rfl, rfl, rfl, fun _ => rfl, fun _ => .inl ⟨rd, rs1, rfl⟩, nofun, nofun, nofun⟩
    constructor <;> intros <;> simp
  | fsrm rd rs1 =>
    obtain rfl := Host.Outcome.next.inj h
    refine ⟨{ x := some (rd, s.env.xlen.canon (s.frm.setWidth 64)), frm := some (frmLegalize s.env ((s.readX rs1).setWidth 3)) }, ?_, rfl, rfl, rfl, fun _ => rfl, nofun, fun _ => .inl ⟨rd, rs1, rfl⟩, nofun, nofun⟩
    constructor <;> intros <;> simp
  | fscsr rd rs1 =>
    obtain rfl := Host.Outcome.next.inj h
    refine ⟨{ x := some (rd, s.env.xlen.canon (s.fcsr)), fflags := some ((s.readX rs1).setWidth 5), frm := some (frmLegalize s.env ((s.readX rs1 >>> 5).setWidth 3)) }, ?_, rfl, rfl, rfl, fun _ => rfl, fun _ => .inr ⟨rd, rs1, rfl⟩, fun _ => .inr ⟨rd, rs1, rfl⟩, nofun, nofun⟩
    constructor <;> intros <;> simp

/-! ## Where the values live -/

/-- The stored registers and the stored memory change only by `writeX` and `storeBytes`. -/
structure Kept (s t : State) : Prop where
  x : t.x = s.x ∨ ∃ rd v, t.x = (s.writeX rd v).x
  mem : t.mem = s.mem ∨ ∃ a v n, t.mem = (s.storeBytes a v n).mem

theorem kept_retireX (s : State) (rd : XReg) (v : Word) : Kept s (s.retireX rd v) :=
  ⟨.inr ⟨rd, v, rfl⟩, .inl (by simp)⟩

theorem kept_retireF (s : State) (fmt : Fmt) (rd : FReg) (r : BitVec fmt.width × Flags) :
    Kept s (s.retireF fmt rd r) := ⟨.inl (by simp), .inl (by simp)⟩

theorem kept_writeFmt (s : State) (fmt : Fmt) (rd : FReg) (v : BitVec fmt.width) :
    Kept s (s.writeFmt fmt rd v).advance := ⟨.inl (by simp), .inl (by simp)⟩

theorem kept_writeX_raise (s : State) (rd : XReg) (v : Word) (m : Flags) :
    Kept s ((s.writeX rd v).raiseFlags m).advance := ⟨.inr ⟨rd, v, rfl⟩, .inl (by simp)⟩

theorem kept_store (s : State) (a v : Word) (n : Nat) : Kept s (s.storeBytes a v n).advance :=
  ⟨.inl (by simp), .inr ⟨a, v, n, rfl⟩⟩

/-- A write of x[rd] sees the old registers and parameters, whatever was stored in memory before it. -/
theorem State.writeX_x_congr {s u : State} (hx : u.x = s.x) (he : u.env = s.env) (rd : XReg) (v : Word) :
    (u.writeX rd v).x = (s.writeX rd v).x := by
  unfold State.writeX
  split
  · exact hx
  · simp only [hx, he]

theorem kept_amo (s : State) (a v w : Word) (rd : XReg) (n : Nat) : Kept s ((s.storeBytes a v n).retireX rd w) :=
  ⟨.inr ⟨rd, w, State.writeX_x_congr (by simp) (by simp) rd w⟩, .inr ⟨a, v, n, by simp⟩⟩

theorem kept_loadReserved (s : State) (r : Option Reservation) (rd : XReg) (v : Word) :
    Kept s ((s.setReservation r).retireX rd v) :=
  ⟨.inr ⟨rd, v, State.writeX_x_congr (s := s) (u := s.setReservation r) rfl rfl rd v⟩, .inl (by simp)⟩

theorem kept_sc {n : AtomSize} {rd rs1 rs2 : XReg} (h : storeConditional n rd rs1 rs2 s = .next t) : Kept s t := by
  obtain ⟨-, ⟨-, rfl⟩ | ⟨-, -, rfl⟩ | ⟨-, -, rfl⟩⟩ := storeConditional_next.1 h
  · exact kept_loadReserved s none rd 1
  · exact ⟨.inr ⟨rd, 1, State.writeX_x_congr (s := s) (u := s.takeDraw.setReservation none) rfl rfl rd 1⟩, .inl (by simp)⟩
  · refine ⟨.inr ⟨rd, 0, State.writeX_x_congr (by simp) (by simp) rd 0⟩,
      .inr ⟨s.atomAddr rs1, s.readX rs2, n.bytes, ?_⟩⟩
    have e : ∀ k, (s.takeDraw.storeBytes (s.atomAddr rs1) (s.readX rs2) k).mem =
        (s.storeBytes (s.atomAddr rs1) (s.readX rs2) k).mem := by
      intro k
      induction k with
      | zero => rfl
      | succ k ih =>
        simp only [State.storeBytes, State.writeByte, ih]
        rfl
    simp [State.scStore, e]

/-- Every instruction that gives a next state changes registers and memory through the two writing operations. -/
theorem exec_kept (h : exec i s = .next t) : Kept s t := by
  cases i with
  | add rd rs1 rs2 =>
    obtain rfl := Host.Outcome.next.inj h
    exact kept_retireX _ _ _
  | sub rd rs1 rs2 =>
    obtain rfl := Host.Outcome.next.inj h
    exact kept_retireX _ _ _
  | sll rd rs1 rs2 =>
    obtain rfl := Host.Outcome.next.inj h
    exact kept_retireX _ _ _
  | slt rd rs1 rs2 =>
    obtain rfl := Host.Outcome.next.inj h
    exact kept_retireX _ _ _
  | sltu rd rs1 rs2 =>
    obtain rfl := Host.Outcome.next.inj h
    exact kept_retireX _ _ _
  | xor rd rs1 rs2 =>
    obtain rfl := Host.Outcome.next.inj h
    exact kept_retireX _ _ _
  | srl rd rs1 rs2 =>
    obtain rfl := Host.Outcome.next.inj h
    exact kept_retireX _ _ _
  | sra rd rs1 rs2 =>
    obtain rfl := Host.Outcome.next.inj h
    exact kept_retireX _ _ _
  | or rd rs1 rs2 =>
    obtain rfl := Host.Outcome.next.inj h
    exact kept_retireX _ _ _
  | and rd rs1 rs2 =>
    obtain rfl := Host.Outcome.next.inj h
    exact kept_retireX _ _ _
  | addi rd rs1 imm =>
    obtain rfl := Host.Outcome.next.inj h
    exact kept_retireX _ _ _
  | slti rd rs1 imm =>
    obtain rfl := Host.Outcome.next.inj h
    exact kept_retireX _ _ _
  | sltiu rd rs1 imm =>
    obtain rfl := Host.Outcome.next.inj h
    exact kept_retireX _ _ _
  | xori rd rs1 imm =>
    obtain rfl := Host.Outcome.next.inj h
    exact kept_retireX _ _ _
  | ori rd rs1 imm =>
    obtain rfl := Host.Outcome.next.inj h
    exact kept_retireX _ _ _
  | andi rd rs1 imm =>
    obtain rfl := Host.Outcome.next.inj h
    exact kept_retireX _ _ _
  | slli rd rs1 shamt =>
    obtain rfl := Host.Outcome.next.inj h
    exact kept_retireX _ _ _
  | srli rd rs1 shamt =>
    obtain rfl := Host.Outcome.next.inj h
    exact kept_retireX _ _ _
  | srai rd rs1 shamt =>
    obtain rfl := Host.Outcome.next.inj h
    exact kept_retireX _ _ _
  | addw rd rs1 rs2 =>
    obtain ⟨-, h⟩ := State.rv64Only_next.1 h
    obtain rfl := Host.Outcome.next.inj h
    exact kept_retireX _ _ _
  | subw rd rs1 rs2 =>
    obtain ⟨-, h⟩ := State.rv64Only_next.1 h
    obtain rfl := Host.Outcome.next.inj h
    exact kept_retireX _ _ _
  | sllw rd rs1 rs2 =>
    obtain ⟨-, h⟩ := State.rv64Only_next.1 h
    obtain rfl := Host.Outcome.next.inj h
    exact kept_retireX _ _ _
  | srlw rd rs1 rs2 =>
    obtain ⟨-, h⟩ := State.rv64Only_next.1 h
    obtain rfl := Host.Outcome.next.inj h
    exact kept_retireX _ _ _
  | sraw rd rs1 rs2 =>
    obtain ⟨-, h⟩ := State.rv64Only_next.1 h
    obtain rfl := Host.Outcome.next.inj h
    exact kept_retireX _ _ _
  | addiw rd rs1 imm =>
    obtain ⟨-, h⟩ := State.rv64Only_next.1 h
    obtain rfl := Host.Outcome.next.inj h
    exact kept_retireX _ _ _
  | slliw rd rs1 shamt =>
    obtain ⟨-, h⟩ := State.rv64Only_next.1 h
    obtain rfl := Host.Outcome.next.inj h
    exact kept_retireX _ _ _
  | srliw rd rs1 shamt =>
    obtain ⟨-, h⟩ := State.rv64Only_next.1 h
    obtain rfl := Host.Outcome.next.inj h
    exact kept_retireX _ _ _
  | sraiw rd rs1 shamt =>
    obtain ⟨-, h⟩ := State.rv64Only_next.1 h
    obtain rfl := Host.Outcome.next.inj h
    exact kept_retireX _ _ _
  | lb rd rs1 imm =>
    obtain ⟨-, rfl⟩ := load_next.1 h
    exact kept_retireX _ _ _
  | lh rd rs1 imm =>
    obtain ⟨-, rfl⟩ := load_next.1 h
    exact kept_retireX _ _ _
  | lw rd rs1 imm =>
    obtain ⟨-, rfl⟩ := load_next.1 h
    exact kept_retireX _ _ _
  | ld rd rs1 imm =>
    obtain ⟨-, h⟩ := State.rv64Only_next.1 h
    obtain ⟨-, rfl⟩ := load_next.1 h
    exact kept_retireX _ _ _
  | lbu rd rs1 imm =>
    obtain ⟨-, rfl⟩ := load_next.1 h
    exact kept_retireX _ _ _
  | lhu rd rs1 imm =>
    obtain ⟨-, rfl⟩ := load_next.1 h
    exact kept_retireX _ _ _
  | lwu rd rs1 imm =>
    obtain ⟨-, h⟩ := State.rv64Only_next.1 h
    obtain ⟨-, rfl⟩ := load_next.1 h
    exact kept_retireX _ _ _
  | sb rs1 rs2 imm =>
    obtain ⟨-, rfl⟩ := store_next.1 h
    exact kept_store _ _ _ _
  | sh rs1 rs2 imm =>
    obtain ⟨-, rfl⟩ := store_next.1 h
    exact kept_store _ _ _ _
  | sw rs1 rs2 imm =>
    obtain ⟨-, rfl⟩ := store_next.1 h
    exact kept_store _ _ _ _
  | sd rs1 rs2 imm =>
    obtain ⟨-, h⟩ := State.rv64Only_next.1 h
    obtain ⟨-, rfl⟩ := store_next.1 h
    exact kept_store _ _ _ _
  | mul rd rs1 rs2 =>
    obtain rfl := Host.Outcome.next.inj h
    exact kept_retireX _ _ _
  | mulh rd rs1 rs2 =>
    obtain rfl := Host.Outcome.next.inj h
    exact kept_retireX _ _ _
  | mulhsu rd rs1 rs2 =>
    obtain rfl := Host.Outcome.next.inj h
    exact kept_retireX _ _ _
  | mulhu rd rs1 rs2 =>
    obtain rfl := Host.Outcome.next.inj h
    exact kept_retireX _ _ _
  | mulw rd rs1 rs2 =>
    obtain ⟨-, h⟩ := State.rv64Only_next.1 h
    obtain rfl := Host.Outcome.next.inj h
    exact kept_retireX _ _ _
  | div rd rs1 rs2 =>
    obtain rfl := Host.Outcome.next.inj h
    exact kept_retireX _ _ _
  | divu rd rs1 rs2 =>
    obtain rfl := Host.Outcome.next.inj h
    exact kept_retireX _ _ _
  | rem rd rs1 rs2 =>
    obtain rfl := Host.Outcome.next.inj h
    exact kept_retireX _ _ _
  | remu rd rs1 rs2 =>
    obtain rfl := Host.Outcome.next.inj h
    exact kept_retireX _ _ _
  | divw rd rs1 rs2 =>
    obtain ⟨-, h⟩ := State.rv64Only_next.1 h
    obtain rfl := Host.Outcome.next.inj h
    exact kept_retireX _ _ _
  | divuw rd rs1 rs2 =>
    obtain ⟨-, h⟩ := State.rv64Only_next.1 h
    obtain rfl := Host.Outcome.next.inj h
    exact kept_retireX _ _ _
  | remw rd rs1 rs2 =>
    obtain ⟨-, h⟩ := State.rv64Only_next.1 h
    obtain rfl := Host.Outcome.next.inj h
    exact kept_retireX _ _ _
  | remuw rd rs1 rs2 =>
    obtain ⟨-, h⟩ := State.rv64Only_next.1 h
    obtain rfl := Host.Outcome.next.inj h
    exact kept_retireX _ _ _
  | amoswapW aq rl rd rs1 rs2 =>
    obtain ⟨-, rfl⟩ := amo_next.1 h
    exact kept_amo _ _ _ _ _ _
  | amoaddW aq rl rd rs1 rs2 =>
    obtain ⟨-, rfl⟩ := amo_next.1 h
    exact kept_amo _ _ _ _ _ _
  | amoxorW aq rl rd rs1 rs2 =>
    obtain ⟨-, rfl⟩ := amo_next.1 h
    exact kept_amo _ _ _ _ _ _
  | amoandW aq rl rd rs1 rs2 =>
    obtain ⟨-, rfl⟩ := amo_next.1 h
    exact kept_amo _ _ _ _ _ _
  | amoorW aq rl rd rs1 rs2 =>
    obtain ⟨-, rfl⟩ := amo_next.1 h
    exact kept_amo _ _ _ _ _ _
  | amominW aq rl rd rs1 rs2 =>
    obtain ⟨-, rfl⟩ := amo_next.1 h
    exact kept_amo _ _ _ _ _ _
  | amomaxW aq rl rd rs1 rs2 =>
    obtain ⟨-, rfl⟩ := amo_next.1 h
    exact kept_amo _ _ _ _ _ _
  | amominuW aq rl rd rs1 rs2 =>
    obtain ⟨-, rfl⟩ := amo_next.1 h
    exact kept_amo _ _ _ _ _ _
  | amomaxuW aq rl rd rs1 rs2 =>
    obtain ⟨-, rfl⟩ := amo_next.1 h
    exact kept_amo _ _ _ _ _ _
  | amoswapD aq rl rd rs1 rs2 =>
    obtain ⟨-, h⟩ := State.rv64Only_next.1 h
    obtain ⟨-, rfl⟩ := amo_next.1 h
    exact kept_amo _ _ _ _ _ _
  | amoaddD aq rl rd rs1 rs2 =>
    obtain ⟨-, h⟩ := State.rv64Only_next.1 h
    obtain ⟨-, rfl⟩ := amo_next.1 h
    exact kept_amo _ _ _ _ _ _
  | amoxorD aq rl rd rs1 rs2 =>
    obtain ⟨-, h⟩ := State.rv64Only_next.1 h
    obtain ⟨-, rfl⟩ := amo_next.1 h
    exact kept_amo _ _ _ _ _ _
  | amoandD aq rl rd rs1 rs2 =>
    obtain ⟨-, h⟩ := State.rv64Only_next.1 h
    obtain ⟨-, rfl⟩ := amo_next.1 h
    exact kept_amo _ _ _ _ _ _
  | amoorD aq rl rd rs1 rs2 =>
    obtain ⟨-, h⟩ := State.rv64Only_next.1 h
    obtain ⟨-, rfl⟩ := amo_next.1 h
    exact kept_amo _ _ _ _ _ _
  | amominD aq rl rd rs1 rs2 =>
    obtain ⟨-, h⟩ := State.rv64Only_next.1 h
    obtain ⟨-, rfl⟩ := amo_next.1 h
    exact kept_amo _ _ _ _ _ _
  | amomaxD aq rl rd rs1 rs2 =>
    obtain ⟨-, h⟩ := State.rv64Only_next.1 h
    obtain ⟨-, rfl⟩ := amo_next.1 h
    exact kept_amo _ _ _ _ _ _
  | amominuD aq rl rd rs1 rs2 =>
    obtain ⟨-, h⟩ := State.rv64Only_next.1 h
    obtain ⟨-, rfl⟩ := amo_next.1 h
    exact kept_amo _ _ _ _ _ _
  | amomaxuD aq rl rd rs1 rs2 =>
    obtain ⟨-, h⟩ := State.rv64Only_next.1 h
    obtain ⟨-, rfl⟩ := amo_next.1 h
    exact kept_amo _ _ _ _ _ _
  | lrW aq rl rd rs1 =>
    obtain ⟨-, rfl⟩ := loadReserved_next.1 h
    exact kept_loadReserved _ _ _ _
  | lrD aq rl rd rs1 =>
    obtain ⟨-, h⟩ := State.rv64Only_next.1 h
    obtain ⟨-, rfl⟩ := loadReserved_next.1 h
    exact kept_loadReserved _ _ _ _
  | scW aq rl rd rs1 rs2 =>
    exact kept_sc h
  | scD aq rl rd rs1 rs2 =>
    obtain ⟨-, h⟩ := State.rv64Only_next.1 h
    exact kept_sc h
  | faddS rd rs1 rs2 rm =>
    obtain ⟨m, -, rfl⟩ := fpBinary_next.1 h
    exact kept_retireF _ _ _ _
  | fsubS rd rs1 rs2 rm =>
    obtain ⟨m, -, rfl⟩ := fpBinary_next.1 h
    exact kept_retireF _ _ _ _
  | fmulS rd rs1 rs2 rm =>
    obtain ⟨m, -, rfl⟩ := fpBinary_next.1 h
    exact kept_retireF _ _ _ _
  | fdivS rd rs1 rs2 rm =>
    obtain ⟨m, -, rfl⟩ := fpBinary_next.1 h
    exact kept_retireF _ _ _ _
  | fsqrtS rd rs1 rm =>
    obtain ⟨m, -, rfl⟩ := fpUnary_next.1 h
    exact kept_retireF _ _ _ _
  | fmaddS rd rs1 rs2 rs3 rm =>
    obtain ⟨m, -, rfl⟩ := fpFused_next.1 h
    exact kept_retireF _ _ _ _
  | fmsubS rd rs1 rs2 rs3 rm =>
    obtain ⟨m, -, rfl⟩ := fpFused_next.1 h
    exact kept_retireF _ _ _ _
  | fnmsubS rd rs1 rs2 rs3 rm =>
    obtain ⟨m, -, rfl⟩ := fpFused_next.1 h
    exact kept_retireF _ _ _ _
  | fnmaddS rd rs1 rs2 rs3 rm =>
    obtain ⟨m, -, rfl⟩ := fpFused_next.1 h
    exact kept_retireF _ _ _ _
  | fsgnjS rd rs1 rs2 =>
    obtain rfl := Host.Outcome.next.inj h
    exact kept_writeFmt _ .s _ _
  | fsgnjnS rd rs1 rs2 =>
    obtain rfl := Host.Outcome.next.inj h
    exact kept_writeFmt _ .s _ _
  | fsgnjxS rd rs1 rs2 =>
    obtain rfl := Host.Outcome.next.inj h
    exact kept_writeFmt _ .s _ _
  | fminS rd rs1 rs2 =>
    obtain rfl := Host.Outcome.next.inj h
    exact kept_retireF _ _ _ _
  | fmaxS rd rs1 rs2 =>
    obtain rfl := Host.Outcome.next.inj h
    exact kept_retireF _ _ _ _
  | faddD rd rs1 rs2 rm =>
    obtain ⟨m, -, rfl⟩ := fpBinary_next.1 h
    exact kept_retireF _ _ _ _
  | fsubD rd rs1 rs2 rm =>
    obtain ⟨m, -, rfl⟩ := fpBinary_next.1 h
    exact kept_retireF _ _ _ _
  | fmulD rd rs1 rs2 rm =>
    obtain ⟨m, -, rfl⟩ := fpBinary_next.1 h
    exact kept_retireF _ _ _ _
  | fdivD rd rs1 rs2 rm =>
    obtain ⟨m, -, rfl⟩ := fpBinary_next.1 h
    exact kept_retireF _ _ _ _
  | fsqrtD rd rs1 rm =>
    obtain ⟨m, -, rfl⟩ := fpUnary_next.1 h
    exact kept_retireF _ _ _ _
  | fmaddD rd rs1 rs2 rs3 rm =>
    obtain ⟨m, -, rfl⟩ := fpFused_next.1 h
    exact kept_retireF _ _ _ _
  | fmsubD rd rs1 rs2 rs3 rm =>
    obtain ⟨m, -, rfl⟩ := fpFused_next.1 h
    exact kept_retireF _ _ _ _
  | fnmsubD rd rs1 rs2 rs3 rm =>
    obtain ⟨m, -, rfl⟩ := fpFused_next.1 h
    exact kept_retireF _ _ _ _
  | fnmaddD rd rs1 rs2 rs3 rm =>
    obtain ⟨m, -, rfl⟩ := fpFused_next.1 h
    exact kept_retireF _ _ _ _
  | fsgnjD rd rs1 rs2 =>
    obtain rfl := Host.Outcome.next.inj h
    exact kept_writeFmt _ .d _ _
  | fsgnjnD rd rs1 rs2 =>
    obtain rfl := Host.Outcome.next.inj h
    exact kept_writeFmt _ .d _ _
  | fsgnjxD rd rs1 rs2 =>
    obtain rfl := Host.Outcome.next.inj h
    exact kept_writeFmt _ .d _ _
  | fminD rd rs1 rs2 =>
    obtain rfl := Host.Outcome.next.inj h
    exact kept_retireF _ _ _ _
  | fmaxD rd rs1 rs2 =>
    obtain rfl := Host.Outcome.next.inj h
    exact kept_retireF _ _ _ _
  | fcvtWS rd rs1 rm =>
    obtain ⟨-, rfl⟩ := fpToX_next.1 h
    exact kept_writeX_raise _ _ _ _
  | fcvtWuS rd rs1 rm =>
    obtain ⟨-, rfl⟩ := fpToX_next.1 h
    exact kept_writeX_raise _ _ _ _
  | fcvtLS rd rs1 rm =>
    obtain ⟨-, h⟩ := State.rv64Only_next.1 h
    obtain ⟨-, rfl⟩ := fpToX_next.1 h
    exact kept_writeX_raise _ _ _ _
  | fcvtLuS rd rs1 rm =>
    obtain ⟨-, h⟩ := State.rv64Only_next.1 h
    obtain ⟨-, rfl⟩ := fpToX_next.1 h
    exact kept_writeX_raise _ _ _ _
  | fcvtSW rd rs1 rm =>
    obtain ⟨m, -, rfl⟩ := xToFp_next.1 h
    exact kept_retireF _ _ _ _
  | fcvtSWu rd rs1 rm =>
    obtain ⟨m, -, rfl⟩ := xToFp_next.1 h
    exact kept_retireF _ _ _ _
  | fcvtSL rd rs1 rm =>
    obtain ⟨-, h⟩ := State.rv64Only_next.1 h
    obtain ⟨m, -, rfl⟩ := xToFp_next.1 h
    exact kept_retireF _ _ _ _
  | fcvtSLu rd rs1 rm =>
    obtain ⟨-, h⟩ := State.rv64Only_next.1 h
    obtain ⟨m, -, rfl⟩ := xToFp_next.1 h
    exact kept_retireF _ _ _ _
  | feqS rd rs1 rs2 =>
    obtain rfl := Host.Outcome.next.inj h
    exact kept_writeX_raise _ _ _ _
  | fltS rd rs1 rs2 =>
    obtain rfl := Host.Outcome.next.inj h
    exact kept_writeX_raise _ _ _ _
  | fleS rd rs1 rs2 =>
    obtain rfl := Host.Outcome.next.inj h
    exact kept_writeX_raise _ _ _ _
  | fclassS rd rs1 =>
    obtain rfl := Host.Outcome.next.inj h
    exact kept_retireX _ _ _
  | fcvtWD rd rs1 rm =>
    obtain ⟨-, rfl⟩ := fpToX_next.1 h
    exact kept_writeX_raise _ _ _ _
  | fcvtWuD rd rs1 rm =>
    obtain ⟨-, rfl⟩ := fpToX_next.1 h
    exact kept_writeX_raise _ _ _ _
  | fcvtLD rd rs1 rm =>
    obtain ⟨-, h⟩ := State.rv64Only_next.1 h
    obtain ⟨-, rfl⟩ := fpToX_next.1 h
    exact kept_writeX_raise _ _ _ _
  | fcvtLuD rd rs1 rm =>
    obtain ⟨-, h⟩ := State.rv64Only_next.1 h
    obtain ⟨-, rfl⟩ := fpToX_next.1 h
    exact kept_writeX_raise _ _ _ _
  | fcvtDW rd rs1 rm =>
    obtain ⟨m, -, rfl⟩ := xToFp_next.1 h
    exact kept_retireF _ _ _ _
  | fcvtDWu rd rs1 rm =>
    obtain ⟨m, -, rfl⟩ := xToFp_next.1 h
    exact kept_retireF _ _ _ _
  | fcvtDL rd rs1 rm =>
    obtain ⟨-, h⟩ := State.rv64Only_next.1 h
    obtain ⟨m, -, rfl⟩ := xToFp_next.1 h
    exact kept_retireF _ _ _ _
  | fcvtDLu rd rs1 rm =>
    obtain ⟨-, h⟩ := State.rv64Only_next.1 h
    obtain ⟨m, -, rfl⟩ := xToFp_next.1 h
    exact kept_retireF _ _ _ _
  | feqD rd rs1 rs2 =>
    obtain rfl := Host.Outcome.next.inj h
    exact kept_writeX_raise _ _ _ _
  | fltD rd rs1 rs2 =>
    obtain rfl := Host.Outcome.next.inj h
    exact kept_writeX_raise _ _ _ _
  | fleD rd rs1 rs2 =>
    obtain rfl := Host.Outcome.next.inj h
    exact kept_writeX_raise _ _ _ _
  | fclassD rd rs1 =>
    obtain rfl := Host.Outcome.next.inj h
    exact kept_retireX _ _ _
  | fmvXW rd rs1 =>
    obtain rfl := Host.Outcome.next.inj h
    exact kept_retireX _ _ _
  | fmvWX rd rs1 =>
    obtain rfl := Host.Outcome.next.inj h
    exact kept_writeFmt _ .s _ _
  | fmvXD rd rs1 =>
    obtain ⟨-, h⟩ := State.rv64Only_next.1 h
    obtain rfl := Host.Outcome.next.inj h
    exact kept_retireX _ _ _
  | fmvDX rd rs1 =>
    obtain ⟨-, h⟩ := State.rv64Only_next.1 h
    obtain rfl := Host.Outcome.next.inj h
    exact kept_writeFmt _ .d _ _
  | fcvtSD rd rs1 rm =>
    obtain ⟨m, -, rfl⟩ := fpToFpInstr_next.1 h
    exact kept_retireF _ _ _ _
  | fcvtDS rd rs1 rm =>
    obtain ⟨m, -, rfl⟩ := fpToFpInstr_next.1 h
    exact kept_retireF _ _ _ _
  | frcsr rd =>
    obtain rfl := Host.Outcome.next.inj h
    exact kept_retireX _ _ _
  | frrm rd =>
    obtain rfl := Host.Outcome.next.inj h
    exact kept_retireX _ _ _
  | frflags rd =>
    obtain rfl := Host.Outcome.next.inj h
    exact kept_retireX _ _ _
  | fsflags rd rs1 =>
    obtain rfl := Host.Outcome.next.inj h
    exact ⟨.inr ⟨rd, _, State.writeX_x_congr (s := s) (u := s.setFflags (s.readX rs1)) rfl rfl rd _⟩, .inl (by simp)⟩
  | fsrm rd rs1 =>
    obtain rfl := Host.Outcome.next.inj h
    exact ⟨.inr ⟨rd, _, State.writeX_x_congr (s := s) (u := s.setFrm (s.readX rs1)) rfl rfl rd _⟩, .inl (by simp)⟩
  | fscsr rd rs1 =>
    obtain rfl := Host.Outcome.next.inj h
    exact ⟨.inr ⟨rd, _, State.writeX_x_congr (s := s) (u := s.setFcsr (s.readX rs1)) rfl rfl rd _⟩, .inl (by simp)⟩

end Sys2Proof.Machine
end

