-- ==== Sys2Proof/Laws/Float.lean ====
section
/-! SUPPORT. Floating-point patterns as numbers (spec/44_fp_arith.md R260 to R266): powers of two, the fields of a
pattern, the finite values as multiples of a power of two, and the pattern that `packMag` builds. -/

namespace Sys2Proof.Machine

/-! ## Powers of two -/

theorem pow2_eq (e : Int) : pow2 e = (2 : Rat) ^ e := by
  cases e with
  | ofNat n => simp [pow2]
  | negSucc n => 
    rw [pow2, zpow_negSucc, Rat.mkRat_eq_div]
    push_cast
    simp

/-- floorLog2 m is the exponent e with 2^e <= m < 2^(e+1) (R266). -/
theorem floorLog2_spec {m : Rat} (hm : 0 < m) :
    (2 : Rat) ^ floorLog2 m ≤ m ∧ m < (2 : Rat) ^ (floorLog2 m + 1) := by
  have hn : 0 < m.num := Rat.num_pos.2 hm
  have hn' : m.num.natAbs ≠ 0 := by omega
  have hd : m.den ≠ 0 := m.den_nz
  have e1 : (m.num.natAbs : Rat) = (m.num : Rat) := by
    rw [← Int.cast_natCast, Int.natAbs_of_nonneg hn.le]
  have hmq : m = (m.num.natAbs : Rat) / (m.den : Rat) := by rw [e1]; exact (Rat.num_div_den m).symm
  set n := m.num.natAbs with hndef
  set d := m.den with hddef
  have a1 : 2 ^ n.log2 ≤ n := Nat.log2_self_le hn'
  have a2 : n < 2 ^ (n.log2 + 1) := Nat.lt_log2_self
  have b1 : 2 ^ d.log2 ≤ d := Nat.log2_self_le hd
  have b2 : d < 2 ^ (d.log2 + 1) := Nat.lt_log2_self
  have a1' : (2 : Rat) ^ (n.log2 : Int) ≤ n := by exact_mod_cast a1
  have a2' : (n : Rat) < (2 : Rat) ^ ((n.log2 : Int) + 1) := by exact_mod_cast a2
  have b1' : (2 : Rat) ^ (d.log2 : Int) ≤ d := by exact_mod_cast b1
  have b2' : (d : Rat) < (2 : Rat) ^ ((d.log2 : Int) + 1) := by exact_mod_cast b2
  have hdp : (0 : Rat) < d := by positivity
  have up : m < (2 : Rat) ^ ((n.log2 : Int) - d.log2 + 1) := by
    rw [hmq, div_lt_iff₀ hdp]
    calc (n : Rat) < (2 : Rat) ^ ((n.log2 : Int) + 1) := a2'
      _ = (2 : Rat) ^ ((n.log2 : Int) - d.log2 + 1) * (2 : Rat) ^ (d.log2 : Int) := by
          rw [← zpow_add₀ (by norm_num)]; congr 1; ring
      _ ≤ _ := by gcongr
  have lo : (2 : Rat) ^ ((n.log2 : Int) - d.log2 - 1) ≤ m := by
    rw [hmq, le_div_iff₀ hdp]
    calc (2 : Rat) ^ ((n.log2 : Int) - d.log2 - 1) * d ≤ (2 : Rat) ^ ((n.log2 : Int) - d.log2 - 1) * (2 : Rat) ^
            ((d.log2 : Int) + 1) := by gcongr
      _ = (2 : Rat) ^ (n.log2 : Int) := by rw [← zpow_add₀ (by norm_num)]; congr 1; ring
      _ ≤ _ := a1'
  unfold floorLog2
  simp only [pow2_eq, ← hndef, ← hddef]
  split
  · rename_i h; exact ⟨h, up⟩
  · rename_i h
    refine ⟨lo, ?_⟩
    rw [sub_add_cancel]
    exact not_le.1 h

theorem floorLog2_unique {m : Rat} {e : Int} (h1 : (2 : Rat) ^ e ≤ m) (h2 : m < (2 : Rat) ^ (e + 1)) : floorLog2 m =
    e := by
  have hm : 0 < m := lt_of_lt_of_le (by positivity) h1
  obtain ⟨a, b⟩ := floorLog2_spec hm
  have c1 := (zpow_lt_zpow_iff_right₀ (by norm_num : (1:Rat) < 2)).1 (lt_of_le_of_lt h1 b)
  have c2 := (zpow_lt_zpow_iff_right₀ (by norm_num : (1:Rat) < 2)).1 (lt_of_le_of_lt a h2)
  omega

theorem floor_eq (r : Rat) : r.floor = ⌊r⌋ := rfl

theorem floor_natCast (k : Nat) : (k : Rat).floor.toNat = k := by rw [floor_eq]; simp

/-! ## The fields of a pattern -/

/-- A pattern is made of its fields. -/
theorem Fmt.toNat_fields (fmt : Fmt) (v : BitVec fmt.width) :
    v.toNat = (fmt.sign v).toNat * 2 ^ (fmt.width - 1) + fmt.exp v * 2 ^ fmt.fracBits + fmt.frac v := by
  have h := v.isLt
  have bit (p : Prop) [Decidable p] : (decide p).toNat = if p then 1 else 0 := by split <;> simp [*]
  cases fmt <;> simp only [Fmt.sign, Fmt.exp, Fmt.frac, Fmt.fracBits, Fmt.expBits, BitVec.msb_eq_decide, Fmt.width,
    bit] at * <;> split <;> omega

theorem Fmt.frac_lt (fmt : Fmt) (v : BitVec fmt.width) : fmt.frac v < 2 ^ fmt.fracBits := Nat.mod_lt _ (by positivity)
theorem Fmt.exp_lt (fmt : Fmt) (v : BitVec fmt.width) : fmt.exp v < 2 ^ fmt.expBits := Nat.mod_lt _ (by positivity)

theorem Fmt.pack_toNat (fmt : Fmt) (s : Bool) {e f : Nat} (he : e < 2 ^ fmt.expBits) (hf : f < 2 ^ fmt.fracBits) :
    (fmt.pack s e f).toNat = s.toNat * 2 ^ (fmt.width - 1) + e * 2 ^ fmt.fracBits + f := by
  rw [Fmt.pack, BitVec.toNat_ofNat, Nat.mod_eq_of_lt]
  · cases s <;> simp
  · cases fmt <;> simp only [Fmt.fracBits, Fmt.expBits, Fmt.width] at * <;> cases s <;> simp <;> omega

theorem Fmt.pack_exp (fmt : Fmt) (s : Bool) {e f : Nat} (he : e < 2 ^ fmt.expBits) (hf : f < 2 ^ fmt.fracBits) :
    fmt.exp (fmt.pack s e f) = e := by
  rw [Fmt.exp, fmt.pack_toNat s he hf]
  cases fmt <;> simp only [Fmt.fracBits, Fmt.expBits, Fmt.width] at * <;> cases s <;> simp <;> omega

theorem Fmt.pack_frac (fmt : Fmt) (s : Bool) {e f : Nat} (he : e < 2 ^ fmt.expBits) (hf : f < 2 ^ fmt.fracBits) :
    fmt.frac (fmt.pack s e f) = f := by
  rw [Fmt.frac, fmt.pack_toNat s he hf]
  cases fmt <;> simp only [Fmt.fracBits, Fmt.expBits, Fmt.width] at * <;> cases s <;> simp <;> omega

theorem Fmt.pack_sign (fmt : Fmt) (s : Bool) {e f : Nat} (he : e < 2 ^ fmt.expBits) (hf : f < 2 ^ fmt.fracBits) :
    fmt.sign (fmt.pack s e f) = s := by
  rw [Fmt.sign, BitVec.msb_eq_decide, fmt.pack_toNat s he hf]
  cases fmt <;> simp only [Fmt.fracBits, Fmt.expBits, Fmt.width] at * <;> cases s <;> simp <;> omega

/-! ## Finite values -/

theorem Fmt.emin_le_emax (fmt : Fmt) : fmt.emin ≤ fmt.emax := by cases fmt <;> decide

/-- A finite magnitude is j quanta at an exponent x of the format, j with F + 1 bits, the top one set above emin. -/
theorem Fmt.mag_form (fmt : Fmt) (v : BitVec fmt.width) (hv : fmt.isFinite v = true) :
    ∃ (j : Nat) (x : Int), fmt.mag v = (j : Rat) * (2 : Rat) ^ (x - fmt.fracBits) ∧ j < 2 ^ (fmt.fracBits + 1) ∧
      fmt.emin ≤ x ∧ x ≤ fmt.emax ∧ (fmt.emin < x → 2 ^ fmt.fracBits ≤ j) := by
  have hf := fmt.frac_lt v
  have he := fmt.exp_lt v
  have hne : fmt.exp v ≠ fmt.expMax := by simpa [Fmt.isFinite] using hv
  unfold Fmt.mag
  split
  · refine ⟨fmt.frac v, fmt.emin, by rw [pow2_eq], by rw [pow_succ]; omega, le_refl _, fmt.emin_le_emax,
      fun h => absurd h (lt_irrefl _)⟩
  · rename_i h0
    refine ⟨2 ^ fmt.fracBits + fmt.frac v, (fmt.exp v : Int) - fmt.bias, by rw [pow2_eq], by rw [pow_succ]; omega, ?_,
        ?_, fun _ => by omega⟩
    · unfold Fmt.emin; omega
    · unfold Fmt.emax Fmt.expMax at *; 
      have : 2 ^ fmt.expBits = 2 * fmt.bias + 2 := by cases fmt <;> decide
      omega

theorem Fmt.mag_nonneg (fmt : Fmt) (v : BitVec fmt.width) : 0 ≤ fmt.mag v := by
  unfold Fmt.mag
  split <;> rw [pow2_eq] <;> positivity

theorem Fmt.abs_val (fmt : Fmt) (v : BitVec fmt.width) : |fmt.val v| = fmt.mag v := by
  unfold Fmt.val
  split
  · rw [abs_neg, abs_of_nonneg (fmt.mag_nonneg v)]
  · rw [abs_of_nonneg (fmt.mag_nonneg v)]

/-- The finite values at the scale of an exponent E: multiples of the quantum there, or below 2^E. -/
theorem Fmt.mag_grid (fmt : Fmt) (v : BitVec fmt.width) (hv : fmt.isFinite v = true) {E : Int} (hE : fmt.emin ≤ E) :
    (∃ j : Nat, fmt.mag v = (j : Rat) * (2 : Rat) ^ (E - fmt.fracBits)) ∨ (fmt.emin < E ∧
        fmt.mag v < (2 : Rat) ^ E) := by
  obtain ⟨j, x, h, hj, hx, -, -⟩ := fmt.mag_form v hv
  rcases lt_or_ge x E with hlt | hge
  · right
    refine ⟨by omega, ?_⟩
    rw [h]
    calc (j : Rat) * (2 : Rat) ^ (x - fmt.fracBits) < (2 : Rat) ^ ((fmt.fracBits : Int) + 1) * (2 : Rat) ^
            (x - fmt.fracBits) := by
          gcongr; exact_mod_cast hj
      _ = (2 : Rat) ^ (x + 1) := by rw [← zpow_add₀ (by norm_num)]; congr 1; ring
      _ ≤ (2 : Rat) ^ E := zpow_le_zpow_right₀ (by norm_num) (by omega)
  · left
    refine ⟨j * 2 ^ (x - E).toNat, ?_⟩
    rw [h]
    push_cast
    rw [mul_assoc, ← zpow_natCast, ← zpow_add₀ (by norm_num)]
    congr 2
    omega

theorem Fmt.mag_lt_top (fmt : Fmt) (v : BitVec fmt.width) (hv : fmt.isFinite v =
    true) : fmt.mag v < (2 : Rat) ^ (fmt.emax + 1) := by
  obtain ⟨j, x, h, hj, -, hx, -⟩ := fmt.mag_form v hv
  rw [h]
  calc (j : Rat) * (2 : Rat) ^ (x - fmt.fracBits) < (2 : Rat) ^ ((fmt.fracBits : Int) + 1) * (2 : Rat) ^
          (x - fmt.fracBits) := by
          gcongr; exact_mod_cast hj
    _ = (2 : Rat) ^ (x + 1) := by rw [← zpow_add₀ (by norm_num)]; congr 1; ring
    _ ≤ (2 : Rat) ^ (fmt.emax + 1) := zpow_le_zpow_right₀ (by norm_num) (by omega)

/-- The pattern `packMag` builds for k quanta at exponent E spells exactly that number, with its sign; its fraction
field is even exactly when k is. -/
theorem packMag_spec (fmt : Fmt) (s : Bool) {k : Nat} {E : Int} (hE : fmt.emin ≤ E)
    (hk : k ≤ 2 ^ (fmt.fracBits + 1)) (hn : fmt.emin < E → 2 ^ fmt.fracBits ≤ k)
    (ho : (k : Rat) * (2 : Rat) ^ (E - fmt.fracBits) < (2 : Rat) ^ (fmt.emax + 1)) :
    fmt.isFinite (packMag fmt s ((k : Rat) * (2 : Rat) ^ (E - fmt.fracBits))) = true ∧
    fmt.sign (packMag fmt s ((k : Rat) * (2 : Rat) ^ (E - fmt.fracBits))) = s ∧
    fmt.mag (packMag fmt s ((k : Rat) * (2 : Rat) ^ (E - fmt.fracBits))) = (k : Rat) * (2 : Rat) ^ (E - fmt.fracBits) ∧
    fmt.frac (packMag fmt s ((k : Rat) * (2 : Rat) ^ (E - fmt.fracBits))) % 2 = k % 2 := by
  have hF : 0 < fmt.fracBits := by cases fmt <;> decide
  have hbias : 2 ^ fmt.expBits = 2 * fmt.bias + 2 := by cases fmt <;> decide
  have hbpos : 0 < fmt.bias := by cases fmt <;> decide
  have eminb : fmt.emin = 1 - (fmt.bias : Int) := rfl
  have emaxb : fmt.emax = (fmt.bias : Int) := rfl
  have core : ∀ {e f : Nat}, e < 2 ^ fmt.expBits - 1 → f < 2 ^ fmt.fracBits → f % 2 = k % 2 →
      (if e = 0 then (f : Rat) * (2 : Rat) ^ (fmt.emin - fmt.fracBits) else ((2 ^ fmt.fracBits + f : Nat) : Rat) *
          (2 : Rat) ^ ((e : Int) - fmt.bias - fmt.fracBits)) = (k : Rat) * (2 : Rat) ^ (E - fmt.fracBits) →
      fmt.isFinite (fmt.pack s e f) = true ∧ fmt.sign (fmt.pack s e f) = s ∧
          fmt.mag (fmt.pack s e f) = (k : Rat) * (2 : Rat) ^ (E - fmt.fracBits) ∧
              fmt.frac (fmt.pack s e f) % 2 = k % 2 := by
    intro e f he hf hp hm
    have he' : e < 2 ^ fmt.expBits := by omega
    refine ⟨?_, fmt.pack_sign s he' hf, ?_, by rw [fmt.pack_frac s he' hf, hp]⟩
    · simp only [Fmt.isFinite, fmt.pack_exp s he' hf, Fmt.expMax, bne_iff_ne]; omega
    · rw [Fmt.mag, fmt.pack_exp s he' hf, fmt.pack_frac s he' hf, pow2_eq, pow2_eq]; exact hm
  have qpos : (0 : Rat) < (2 : Rat) ^ (E - fmt.fracBits) := by positivity
  unfold packMag
  split
  · rename_i h0
    have k0 : k = 0 := by
      rcases mul_eq_zero.1 h0 with h | h
      · exact_mod_cast h
      · exact absurd h qpos.ne'
    subst k0
    exact core (by omega) (by positivity) rfl (by simp)
  · rename_i h0
    rw [pow2_eq, pow2_eq]
    have scale : ∀ {G : Int}, (k : Rat) * (2 : Rat) ^ (E - fmt.fracBits) / (2 : Rat) ^ (G - fmt.fracBits) =
        (k : Rat) * (2 : Rat) ^ (E - G) := by
      intro G
      rw [mul_div_assoc, ← zpow_sub₀ (by norm_num)]; congr 2; ring
    split
    · rename_i hlt
      have hEe : E = fmt.emin := by
        by_contra hne
        have h2 := hn (by omega)
        have : (2 : Rat) ^ E ≤ (k : Rat) * (2 : Rat) ^ (E - fmt.fracBits) := by
          calc (2 : Rat) ^ E = (2 : Rat) ^ (fmt.fracBits : Int) * (2 : Rat) ^ (E - fmt.fracBits) :=
                  by rw [← zpow_add₀ (by norm_num)]; congr 1; ring
            _ ≤ _ := by gcongr; exact_mod_cast h2
        have := lt_of_le_of_lt this hlt
        have := (zpow_lt_zpow_iff_right₀ (by norm_num : (1 : Rat) < 2)).1 this
        omega
      subst hEe
      have hk' : k < 2 ^ fmt.fracBits := by
        have : (k : Rat) * (2 : Rat) ^ (fmt.emin - fmt.fracBits) <
            (2 : Rat) ^ (fmt.fracBits : Int) * (2 : Rat) ^ (fmt.emin - fmt.fracBits) := by
          rw [← zpow_add₀ (by norm_num)]; convert hlt using 2; ring
        have := lt_of_mul_lt_mul_right this qpos.le
        exact_mod_cast this
      have fl : ((k : Rat) * (2 : Rat) ^ (fmt.emin - fmt.fracBits) / (2 : Rat) ^
          (fmt.emin - fmt.fracBits)).floor.toNat = k := by
        rw [scale, sub_self, zpow_zero, mul_one, floor_natCast]
      rw [fl]
      exact core (by omega) hk' rfl (by simp)
    · rename_i hge
      have kE : 2 ^ fmt.fracBits ≤ k := by
        rcases lt_or_eq_of_le hE with h | h
        · exact hn h
        · have : (2 : Rat) ^ (fmt.fracBits : Int) * (2 : Rat) ^ (E - fmt.fracBits) ≤
            (k : Rat) * (2 : Rat) ^ (E - fmt.fracBits) := by
            rw [← zpow_add₀ (by norm_num)]; refine le_trans (le_of_eq ?_) (not_lt.1 hge); congr 1; rw [h]; ring
          have := le_of_mul_le_mul_right this qpos
          exact_mod_cast this
      rcases Nat.lt_or_ge k (2 ^ (fmt.fracBits + 1)) with hk1 | hk1
      · have fl2 : floorLog2 ((k : Rat) * (2 : Rat) ^ (E - fmt.fracBits)) = E := by
          apply floorLog2_unique
          · calc (2 : Rat) ^ E = (2 : Rat) ^ (fmt.fracBits : Int) * (2 : Rat) ^ (E - fmt.fracBits) :=
                  by rw [← zpow_add₀ (by norm_num)]; congr 1; ring
              _ ≤ _ := by gcongr; exact_mod_cast kE
          · calc (k : Rat) * (2 : Rat) ^ (E - fmt.fracBits) <
                  (2 : Rat) ^ ((fmt.fracBits : Int) + 1) * (2 : Rat) ^ (E - fmt.fracBits) :=
                      by gcongr; exact_mod_cast hk1
              _ = _ := by rw [← zpow_add₀ (by norm_num)]; congr 1; ring
        have hEm : E ≤ fmt.emax := by
          have : (2 : Rat) ^ E < (2 : Rat) ^ (fmt.emax + 1) := by
            refine lt_of_le_of_lt ?_ ho
            calc (2 : Rat) ^ E = (2 : Rat) ^ (fmt.fracBits : Int) * (2 : Rat) ^ (E - fmt.fracBits) :=
                    by rw [← zpow_add₀ (by norm_num)]; congr 1; ring
              _ ≤ _ := by gcongr; exact_mod_cast kE
          have := (zpow_lt_zpow_iff_right₀ (by norm_num : (1 : Rat) < 2)).1 this
          omega
        simp only [fl2, pow2_eq, scale, sub_self, zpow_zero, mul_one]
        rw [floor_natCast]
        have hpar : (k - 2 ^ fmt.fracBits) % 2 = k % 2 := by
          have : 2 ∣ 2 ^ fmt.fracBits := dvd_pow_self 2 hF.ne'
          omega
        rw [pow_succ] at hk1
        refine core (by omega) (by omega) hpar ?_
        rw [if_neg (by omega), Nat.add_sub_cancel' kE]
        congr 2
        omega
      · have hkk : k = 2 ^ (fmt.fracBits + 1) := le_antisymm hk hk1
        have kq : (k : Rat) * (2 : Rat) ^ (E - fmt.fracBits) = (2 : Rat) ^ (E + 1) := by
          rw [hkk]; push_cast; rw [← zpow_natCast, ← zpow_add₀ (by norm_num)]; congr 1; push_cast; ring
        have fl2 : floorLog2 ((k : Rat) * (2 : Rat) ^ (E - fmt.fracBits)) = E + 1 := by
          rw [kq]
          exact floorLog2_unique le_rfl (zpow_lt_zpow_right₀ (by norm_num) (by omega))
        have hEm : E + 1 ≤ fmt.emax := by
          rw [kq] at ho
          have := (zpow_lt_zpow_iff_right₀ (by norm_num : (1 : Rat) < 2)).1 ho
          omega
        simp only [fl2, pow2_eq, scale]
        have fl : ((k : Rat) * (2 : Rat) ^ (E - (E + 1))).floor.toNat = 2 ^ fmt.fracBits := by
          have : (k : Rat) * (2 : Rat) ^ (E - (E + 1)) = ((2 ^ fmt.fracBits : Nat) : Rat) := by
            rw [hkk, pow_succ, show E - (E + 1) = -1 by ring]; push_cast
            rw [zpow_neg_one, mul_assoc, mul_inv_cancel₀ (by norm_num), mul_one]
          rw [this, floor_natCast]
        rw [fl, Nat.sub_self]
        have hpar : 0 % 2 = k % 2 := by rw [hkk, pow_succ]; omega
        refine core (by omega) (by positivity) hpar ?_
        rw [if_neg (by omega), kq]
        push_cast
        rw [add_zero, ← zpow_natCast, ← zpow_add₀ (by norm_num)]
        congr 1
        omega

end Sys2Proof.Machine
end

