-- ==== Sys2Proof/Laws/Rounding.lean ====
section
/-! SUPPORT. Rounding is right (spec/44_fp_arith.md R266 to R268, R273): a finite answer of `roundFmt` or of the square
root is the finite value the mode names, its flags say whether it is exact, and a value of the format is kept. -/

namespace Sys2Proof.Machine

/-! ## Neighbours -/

variable {fmt : Fmt} {rm : RoundingMode} {u v : BitVec fmt.width} {r : ℝ}

theorem Fmt.abs_real (fmt : Fmt) (v : BitVec fmt.width) : |fmt.real v| = ((fmt.mag v : Rat) : ℝ) := by
  rw [Fmt.real, ← Rat.cast_abs, fmt.abs_val]

theorem Fmt.real_eq (fmt : Fmt) (v : BitVec fmt.width) :
    fmt.real v = if fmt.sign v then -((fmt.mag v : Rat) : ℝ) else ((fmt.mag v : Rat) : ℝ) := by
  unfold Fmt.real Fmt.val
  split <;> push_cast <;> rfl

/-- An exact value is rounded to itself. -/
theorem rounded_exact (h : fmt.real v = r) : Rounded fmt rm r v := by
  subst h
  cases rm <;> simp only [Rounded, sub_self, abs_zero]
  · exact fun u _ => ⟨abs_nonneg _, fun hne he => absurd (sub_eq_zero.1 (abs_eq_zero.1 he)) hne⟩
  · exact ⟨le_refl _, mul_self_nonneg _, fun u _ h => h⟩
  · exact ⟨le_refl _, fun u _ h => h⟩
  · exact ⟨le_refl _, fun u _ h => h⟩
  · refine fun u _ => ⟨abs_nonneg _, fun he => ?_⟩
    rw [sub_eq_zero.1 (abs_eq_zero.1 he)]

/-- Between the two multiples of the quantum next to m there is no finite value. -/
structure Gap (fmt : Fmt) (m lo hi : ℝ) : Prop where
  lo_nonneg : 0 ≤ lo
  lo_lt : lo < m
  lt_hi : m < hi
  below : ∀ u, fmt.isFinite u = true → ((fmt.mag u : Rat) : ℝ) ≤ m → ((fmt.mag u : Rat) : ℝ) ≤ lo
  above : ∀ u, fmt.isFinite u = true → m ≤ ((fmt.mag u : Rat) : ℝ) → hi ≤ ((fmt.mag u : Rat) : ℝ)

theorem gap_of_grid {E : Int} {k : Nat} {m : ℝ} (hE : fmt.emin ≤ E) (hn : fmt.emin < E → 2 ^ fmt.fracBits ≤ k)
    (hlo : (k : ℝ) * (2 : ℝ) ^ (E - fmt.fracBits) < m) (hhi : m < ((k : ℝ) + 1) * (2 : ℝ) ^ (E - fmt.fracBits)) :
    Gap fmt m ((k : ℝ) * (2 : ℝ) ^ (E - fmt.fracBits)) (((k : ℝ) + 1) * (2 : ℝ) ^ (E - fmt.fracBits)) := by
  have qpos : (0 : ℝ) < (2 : ℝ) ^ (E - fmt.fracBits) := by positivity
  have small : fmt.emin < E → (2 : ℝ) ^ E ≤ (k : ℝ) * (2 : ℝ) ^ (E - fmt.fracBits) := fun h => by
    calc (2 : ℝ) ^ E = (2 : ℝ) ^ (fmt.fracBits : Int) * (2 : ℝ) ^ (E - fmt.fracBits) := by
          rw [← zpow_add₀ (by norm_num)]; congr 1; ring
      _ ≤ _ := by gcongr; exact_mod_cast hn h
  have grid : ∀ u, fmt.isFinite u = true → (∃ j : Nat, ((fmt.mag u : Rat) : ℝ) =
      (j : ℝ) * (2 : ℝ) ^ (E - fmt.fracBits)) ∨
      ((fmt.mag u : Rat) : ℝ) < (k : ℝ) * (2 : ℝ) ^ (E - fmt.fracBits) := by
    intro u hu
    rcases fmt.mag_grid u hu hE with ⟨j, hj⟩ | ⟨h, hlt⟩
    · exact .inl ⟨j, by rw [hj]; push_cast; rfl⟩
    · refine .inr (lt_of_lt_of_le ?_ (small h))
      have : ((fmt.mag u : Rat) : ℝ) < (((2 : Rat) ^ E : Rat) : ℝ) := by exact_mod_cast hlt
      simpa using this
  refine ⟨by positivity, hlo, hhi, fun u hu h => ?_, fun u hu h => ?_⟩
  · rcases grid u hu with ⟨j, hj⟩ | hlt
    · rw [hj] at h ⊢
      have : (j : ℝ) < (k : ℝ) + 1 := lt_of_mul_lt_mul_right (lt_of_le_of_lt h hhi) qpos.le
      have : j ≤ k := by
        have : j < k + 1 := by exact_mod_cast this
        omega
      gcongr
    · exact hlt.le
  · rcases grid u hu with ⟨j, hj⟩ | hlt
    · rw [hj] at h ⊢
      have : (k : ℝ) < j := lt_of_mul_lt_mul_right (lt_of_lt_of_le hlo h) qpos.le
      have : k + 1 ≤ j := by
        have : k < j := by exact_mod_cast this
        omega
      gcongr
      exact_mod_cast this
    · exact absurd (lt_of_lt_of_le hlo h) (not_lt.2 hlt.le)

variable {m lo hi : ℝ} {neg : Bool}

/-- The number of a sign and a magnitude. -/
abbrev signed (neg : Bool) (m : ℝ) : ℝ := if neg then -m else m

/-- The neighbour nearer zero is right for the modes that go toward zero on this side. -/
theorem Gap.down (g : Gap fmt m lo hi) (hs : fmt.sign v = neg) (hv : ((fmt.mag v : Rat) : ℝ) = lo)
    (hm : rm = .rtz ∨ (rm = .rdn ∧ neg = false) ∨ (rm = .rup ∧ neg = true)) : Rounded fmt rm (signed neg m) v := by
  have hr := fmt.real_eq v
  rw [hs, hv] at hr
  have h0 := g.lo_nonneg
  have h1 := g.lo_lt
  rcases hm with rfl | ⟨rfl, rfl⟩ | ⟨rfl, rfl⟩
  · refine ⟨?_, ?_, fun u hu h => ?_⟩
    · rw [fmt.abs_real, hv, show |signed neg m| = m by cases neg <;> simp [signed, abs_of_pos (lt_of_le_of_lt h0 h1)]]
      exact h1.le
    · rw [hr]; cases neg <;> simp [signed] <;> nlinarith
    · rw [fmt.abs_real, show |signed neg m| = m by cases neg <;> simp [signed, abs_of_pos (lt_of_le_of_lt h0 h1)]] at h
      rw [fmt.abs_real, fmt.abs_real, hv]
      exact g.below u hu h
  · simp only [Bool.false_eq_true, if_false] at hr
    refine ⟨by rw [hr]; simpa [signed] using h1.le, fun u hu h => ?_⟩
    rw [hr]
    simp only [signed, Bool.false_eq_true, if_false] at h
    by_cases hp : fmt.real u ≤ 0
    · exact hp.trans h0
    · have : ((fmt.mag u : Rat) : ℝ) = fmt.real u := by rw [← fmt.abs_real, abs_of_pos (not_le.1 hp)]
      rw [← this]
      exact g.below u hu (by rw [this]; exact h)
  · simp only [if_true] at hr
    refine ⟨by rw [hr]; simpa [signed] using h1.le, fun u hu h => ?_⟩
    rw [hr]
    simp only [signed, if_true] at h
    by_cases hp : 0 ≤ fmt.real u
    · linarith
    · have : ((fmt.mag u : Rat) : ℝ) = -fmt.real u := by rw [← fmt.abs_real, abs_of_neg (not_le.1 hp)]
      have := g.below u hu (by rw [this]; linarith)
      linarith

/-- The neighbour farther from zero is right for the modes that go away from zero on this side. -/
theorem Gap.up (g : Gap fmt m lo hi) (hs : fmt.sign v = neg) (hv : ((fmt.mag v : Rat) : ℝ) = hi)
    (hm : (rm = .rdn ∧ neg = true) ∨ (rm = .rup ∧ neg = false)) : Rounded fmt rm (signed neg m) v := by
  have hr := fmt.real_eq v
  rw [hs, hv] at hr
  have h0 := g.lo_nonneg
  have h1 := g.lo_lt
  have h2 := g.lt_hi
  rcases hm with ⟨rfl, rfl⟩ | ⟨rfl, rfl⟩
  · simp only [if_true] at hr
    refine ⟨by rw [hr]; simpa [signed] using h2.le, fun u hu h => ?_⟩
    rw [hr]
    simp only [signed, if_true] at h
    have : ((fmt.mag u : Rat) : ℝ) = -fmt.real u := by rw [← fmt.abs_real, abs_of_neg (by linarith)]
    have := g.above u hu (by rw [this]; linarith)
    linarith
  · simp only [Bool.false_eq_true, if_false] at hr
    refine ⟨by rw [hr]; simpa [signed] using h2.le, fun u hu h => ?_⟩
    rw [hr]
    simp only [signed, Bool.false_eq_true, if_false] at h
    have : ((fmt.mag u : Rat) : ℝ) = fmt.real u := by rw [← fmt.abs_real, abs_of_pos (by linarith)]
    have := g.above u hu (by rw [this]; linarith)
    linarith

/-- How far any finite value is from the number: at least as far as the neighbour on its side. -/
theorem Gap.dist (g : Gap fmt m lo hi) (hu : fmt.isFinite u = true) :
    (|fmt.real u| ≤ lo ∧ m - |fmt.real u| ≤ |fmt.real u - signed neg m| ∧
        (|fmt.real u - signed neg m| = m - |fmt.real u| → fmt.real u = signed neg |fmt.real u|)) ∨
    (hi ≤ |fmt.real u| ∧ |fmt.real u| - m ≤ |fmt.real u - signed neg m| ∧
        (|fmt.real u - signed neg m| = |fmt.real u| - m → fmt.real u = signed neg |fmt.real u|)) := by
  have hm : 0 < m := lt_of_le_of_lt g.lo_nonneg g.lo_lt
  have ha := abs_nonneg (fmt.real u)
  have key : ∀ b : ℝ, (|fmt.real u| ≤ m → m - |fmt.real u| ≤ |fmt.real u - signed neg m| ∧
      (|fmt.real u - signed neg m| = m - |fmt.real u| → fmt.real u = signed neg |fmt.real u|)) ∧
     (m < |fmt.real u| → |fmt.real u| - m ≤ |fmt.real u - signed neg m| ∧
         (|fmt.real u - signed neg m| = |fmt.real u| - m → fmt.real u = signed neg |fmt.real u|)) := by
    intro _
    generalize fmt.real u = x at *
    cases neg <;> simp only [signed, Bool.false_eq_true, if_false, if_true, sub_neg_eq_add] <;>
      rcases abs_cases x with ⟨e, hx⟩ | ⟨e, hx⟩ <;> rw [e] <;> constructor <;> intro h <;>
      (constructor
       · first
           | (rcases abs_cases (x - m) with ⟨e', h'⟩ | ⟨e', h'⟩ <;> rw [e'] <;> linarith)
           | (rcases abs_cases (x + m) with ⟨e', h'⟩ | ⟨e', h'⟩ <;> rw [e'] <;> linarith)
       · intro h2
         first
           | linarith
           | (rcases abs_cases (x - m) with ⟨e', h'⟩ | ⟨e', h'⟩ <;> rw [e'] at h2 <;> linarith)
           | (rcases abs_cases (x + m) with ⟨e', h'⟩ | ⟨e', h'⟩ <;> rw [e'] at h2 <;> linarith))
  rcases le_or_gt |fmt.real u| m with h | h
  · exact .inl ⟨by rw [fmt.abs_real] at h ⊢; exact g.below u hu h, (key 0).1 h⟩
  · exact .inr ⟨by rw [fmt.abs_real] at h ⊢; exact g.above u hu h.le, (key 0).2 h⟩

theorem dist_signed (neg : Bool) (a b : ℝ) : |signed neg a - signed neg b| = |a - b| := by
  cases neg
  · simp [signed]
  · simp only [signed, if_true]
    rw [show -a - -b = -(a - b) by ring, abs_neg]

/-- The nearer neighbour is right for the two nearest modes, a tie broken as each mode breaks it. -/
theorem Gap.near (g : Gap fmt m lo hi) (hs : fmt.sign v = neg) {w : ℝ} (hv : ((fmt.mag v : Rat) : ℝ) = w)
    (hw : (w = lo ∧ m - lo ≤ hi - m) ∨ (w = hi ∧ hi - m ≤ m - lo))
    (hm : (rm = .rne ∧ (m - lo = hi - m → fmt.frac v % 2 = 0)) ∨ (rm = .rmm ∧ (m - lo = hi - m → w = hi))) :
    Rounded fmt rm (signed neg m) v := by
  have hr : fmt.real v = signed neg w := by rw [fmt.real_eq, hs, hv]
  have h0 := g.lo_nonneg
  have h1 := g.lo_lt
  have h2 := g.lt_hi
  have hd : |fmt.real v - signed neg m| = |w - m| := by rw [hr, dist_signed]
  have hav : |fmt.real v| = w := by rw [fmt.abs_real, hv]
  have hlo : w = lo → |w - m| = m - lo := by rintro rfl; rw [abs_of_neg (by linarith)]; ring
  have hhi : w = hi → |w - m| = hi - m := by rintro rfl; exact abs_of_pos (by linarith)
  have best : ∀ u, fmt.isFinite u = true → |fmt.real v - signed neg m| ≤ |fmt.real u - signed neg m| := by
    intro u hu
    rw [hd]
    rcases hw with ⟨e, hle⟩ | ⟨e, hle⟩
    · rw [hlo e]
      rcases g.dist (neg := neg) hu with ⟨a, b, -⟩ | ⟨a, b, -⟩ <;> linarith
    · rw [hhi e]
      rcases g.dist (neg := neg) hu with ⟨a, b, -⟩ | ⟨a, b, -⟩ <;> linarith
  rcases hm with ⟨rfl, he⟩ | ⟨rfl, he⟩
  · refine fun u hu => ⟨best u hu, fun hne heq => he ?_⟩
    rw [hd] at heq
    rcases hw with ⟨e, hle⟩ | ⟨e, hle⟩
    · rw [hlo e] at heq
      rcases g.dist (neg := neg) hu with ⟨a, b, c⟩ | ⟨a, b, -⟩
      · have e' : |fmt.real u| = lo := by linarith
        exact absurd ((c (by rw [heq, e'])).trans (by rw [e', hr, e])) hne
      · linarith
    · rw [hhi e] at heq
      rcases g.dist (neg := neg) hu with ⟨a, b, -⟩ | ⟨a, b, c⟩
      · linarith
      · have e' : |fmt.real u| = hi := by linarith
        exact absurd ((c (by rw [heq, e'])).trans (by rw [e', hr, e])) hne
  · refine fun u hu => ⟨best u hu, fun heq => ?_⟩
    rw [hd] at heq
    rw [hav]
    rcases hw with ⟨e, hle⟩ | ⟨e, hle⟩
    · rw [hlo e] at heq
      rcases g.dist (neg := neg) hu with ⟨a, b, -⟩ | ⟨a, b, -⟩
      · rw [e]; exact a
      · have := he (by linarith)
        linarith
    · rw [hhi e] at heq
      rcases g.dist (neg := neg) hu with ⟨a, b, -⟩ | ⟨a, b, -⟩ <;> linarith

/-- Where m lies between k and k + 1 quanta. -/
def Tail.describes (t : Tail) (k : Nat) (q m : ℝ) : Prop :=
  match t with
  | .exact => m = k * q
  | .below => k * q < m ∧ m < (k + 1 / 2) * q
  | .half => m = (k + 1 / 2) * q
  | .above => (k + 1 / 2) * q < m ∧ m < (k + 1) * q

theorem roundTail_or (rm : RoundingMode) (neg : Bool) (k : Nat) (t : Tail) :
    roundTail rm neg k t = k ∨ roundTail rm neg k t = k + 1 := by
  cases t <;> cases rm <;> cases neg <;> simp [roundTail] <;> omega

/-- Choosing between the two neighbours by `roundTail` and packing gives the correctly rounded value. -/
theorem rounded_of_tail {E : Int} {k : Nat} {t : Tail} (hE : fmt.emin ≤ E)
    (hn : fmt.emin < E → 2 ^ fmt.fracBits ≤ k) (hk : k < 2 ^ (fmt.fracBits + 1))
    (ht : t.describes k ((2 : ℝ) ^ (E - fmt.fracBits)) m)
    (ho : (roundTail rm neg k t : Rat) * (2 : Rat) ^ (E - fmt.fracBits) < (2 : Rat) ^ (fmt.emax + 1)) :
    Rounded fmt rm (signed neg m)
        (packMag fmt neg ((roundTail rm neg k t : Rat) * (2 : Rat) ^ (E - fmt.fracBits))) ∧
      fmt.isFinite (packMag fmt neg ((roundTail rm neg k t : Rat) * (2 : Rat) ^ (E - fmt.fracBits))) = true := by
  obtain ⟨hfin, hsign, hmag, hfrac⟩ := packMag_spec fmt neg hE
    (show roundTail rm neg k t ≤ 2 ^ (fmt.fracBits + 1) by rcases roundTail_or rm neg k t with h | h <;> omega)
    (fun h => by have := hn h; rcases roundTail_or rm neg k t with h | h <;> omega) ho
  refine ⟨?_, hfin⟩
  generalize hv : packMag fmt neg ((roundTail rm neg k t : Rat) * (2 : Rat) ^ (E - fmt.fracBits)) = v at *
  have hmag' : ((fmt.mag v : Rat) : ℝ) = (roundTail rm neg k t : ℝ) * (2 : ℝ) ^ (E - fmt.fracBits) := by
    rw [hmag]; push_cast; rfl
  have qpos : (0 : ℝ) < (2 : ℝ) ^ (E - fmt.fracBits) := by positivity
  generalize hq : (2 : ℝ) ^ (E - fmt.fracBits) = q at *
  have gap : (k : ℝ) * q < m → m < ((k : ℝ) + 1) * q → Gap fmt m (k * q) ((k + 1) * q) := by
    intro h1 h2
    rw [← hq] at h1 h2 ⊢
    exact gap_of_grid hE hn h1 h2
  have down (g : Gap fmt m (k * q) ((k + 1) * q)) (hr : roundTail rm neg k t = k)
      (h : rm = .rtz ∨ (rm = .rdn ∧ neg = false) ∨ (rm = .rup ∧ neg = true)) : Rounded fmt rm (signed neg m) v :=
    g.down hsign (by rw [hmag', hr]) h
  have up (g : Gap fmt m (k * q) ((k + 1) * q)) (hr : roundTail rm neg k t = k + 1)
      (h : (rm = .rdn ∧ neg = true) ∨ (rm = .rup ∧ neg = false)) : Rounded fmt rm (signed neg m) v :=
    g.up hsign (by rw [hmag', hr]; push_cast; rfl) h
  have nearDown (g : Gap fmt m (k * q) ((k + 1) * q)) (hr : roundTail rm neg k t = k)
      (hle : m - k * q ≤ (k + 1) * q - m)
      (h : (rm = .rne ∧ (m - k * q = (k + 1) * q - m → fmt.frac v % 2 = 0)) ∨
        (rm = .rmm ∧ m - k * q ≠ (k + 1) * q - m)) : Rounded fmt rm (signed neg m) v :=
    g.near hsign (w := k * q) (by rw [hmag', hr]) (.inl ⟨rfl, hle⟩)
      (h.imp id (fun h => ⟨h.1, fun e => absurd e h.2⟩))
  have nearUp (g : Gap fmt m (k * q) ((k + 1) * q)) (hr : roundTail rm neg k t = k + 1)
      (hle : (k + 1) * q - m ≤ m - k * q)
      (h : (rm = .rne ∧ (m - k * q = (k + 1) * q - m → fmt.frac v % 2 = 0)) ∨ rm = .rmm) :
      Rounded fmt rm (signed neg m) v :=
    g.near hsign (w := (k + 1) * q) (by rw [hmag', hr]; push_cast; rfl) (.inr ⟨rfl, hle⟩)
      (h.imp id (fun h => ⟨h, fun _ => rfl⟩))
  cases t with
  | exact =>
    have : roundTail rm neg k .exact = k := rfl
    apply rounded_exact
    rw [fmt.real_eq, hsign, hmag', this, ht]
  | below =>
    obtain ⟨h1, h2⟩ := ht
    have g := gap h1 (by linarith)
    cases rm with
    | rtz => exact down g rfl (.inl rfl)
    | rdn =>
      cases neg
      · exact down g rfl (.inr (.inl ⟨rfl, rfl⟩))
      · exact up g rfl (.inl ⟨rfl, rfl⟩)
    | rup =>
      cases neg
      · exact up g rfl (.inr ⟨rfl, rfl⟩)
      · exact down g rfl (.inr (.inr ⟨rfl, rfl⟩))
    | rne => exact nearDown g rfl (by linarith) (.inl ⟨rfl, fun e => by linarith⟩)
    | rmm => exact nearDown g rfl (by linarith) (.inr ⟨rfl, fun e => by linarith⟩)
  | above =>
    obtain ⟨h1, h2⟩ := ht
    have g := gap (by linarith) h2
    cases rm with
    | rtz => exact down g rfl (.inl rfl)
    | rdn =>
      cases neg
      · exact down g rfl (.inr (.inl ⟨rfl, rfl⟩))
      · exact up g rfl (.inl ⟨rfl, rfl⟩)
    | rup =>
      cases neg
      · exact up g rfl (.inr ⟨rfl, rfl⟩)
      · exact down g rfl (.inr (.inr ⟨rfl, rfl⟩))
    | rne => exact nearUp g rfl (by linarith) (.inl ⟨rfl, fun e => by linarith⟩)
    | rmm => exact nearUp g rfl (by linarith) (.inr rfl)
  | half =>
    have hh : m = ((k : ℝ) + 1 / 2) * q := ht
    have g := gap (by linarith) (by linarith)
    cases rm with
    | rtz => exact down g rfl (.inl rfl)
    | rdn =>
      cases neg
      · exact down g rfl (.inr (.inl ⟨rfl, rfl⟩))
      · exact up g rfl (.inl ⟨rfl, rfl⟩)
    | rup =>
      cases neg
      · exact up g rfl (.inr ⟨rfl, rfl⟩)
      · exact down g rfl (.inr (.inr ⟨rfl, rfl⟩))
    | rne =>
      by_cases hp : k % 2 = 0
      · have hr : roundTail .rne neg k .half = k := by simp [roundTail, hp]
        exact nearDown g hr (by linarith) (.inl ⟨rfl, fun _ => by rw [hfrac, hr, hp]⟩)
      · have hr : roundTail .rne neg k .half = k + 1 := by simp [roundTail, hp]
        exact nearUp g hr (by linarith) (.inl ⟨rfl, fun _ => by rw [hfrac, hr]; omega⟩)
    | rmm => exact nearUp g rfl (by linarith) (.inr rfl)

/-! ## Rationals -/

theorem tailOf_describes {x : Rat} (hx : 0 ≤ x) {q : Rat} (hq : 0 < q) :
    (tailOf (x - (x.floor : Rat))).describes x.floor.toNat (q : ℝ) ((x * q : Rat) : ℝ) := by
  have hf : (0 : Int) ≤ ⌊x⌋ := Int.floor_nonneg.2 hx
  have e : ((⌊x⌋.toNat : Nat) : Rat) = (⌊x⌋ : Rat) := by
    rw [← Int.cast_natCast, Int.toNat_of_nonneg hf]
  have h1 := Int.floor_le x
  have h2 := Int.lt_floor_add_one x
  rw [floor_eq]
  unfold tailOf
  have cast : ∀ {a b : Rat}, a < b → (a : ℝ) < (b : ℝ) := fun h => by exact_mod_cast h
  split
  · rename_i h
    show ((x * q : Rat) : ℝ) = ((⌊x⌋.toNat : Nat) : ℝ) * (q : ℝ)
    have : x * q = ((⌊x⌋.toNat : Nat) : Rat) * q := by rw [e, sub_eq_zero.1 h, Int.floor_intCast]
    rw [this]; push_cast; rfl
  · rename_i hne
    have hpos : (⌊x⌋ : Rat) < x := lt_of_le_of_ne h1 fun h => hne (sub_eq_zero.2 h.symm)
    split
    · rename_i h
      refine ⟨?_, ?_⟩
      · have : ((⌊x⌋.toNat : Nat) : Rat) * q < x * q := by rw [e]; gcongr
        have := cast this; push_cast at this ⊢; exact this
      · have : x * q < (((⌊x⌋.toNat : Nat) : Rat) + 1 / 2) * q := by rw [e]; gcongr; linarith
        have := cast this; push_cast at this ⊢; exact this
    · split
      · rename_i h
        show ((x * q : Rat) : ℝ) = (((⌊x⌋.toNat : Nat) : ℝ) + 1 / 2) * (q : ℝ)
        have : x * q = (((⌊x⌋.toNat : Nat) : Rat) + 1 / 2) * q := by rw [e, ← h]; ring
        rw [this]; push_cast; rfl
      · rename_i h3 h4
        refine ⟨?_, ?_⟩
        · have : (((⌊x⌋.toNat : Nat) : Rat) + 1 / 2) * q < x * q := by
            rw [e]; gcongr
            have : (1 / 2 : Rat) < x - ⌊x⌋ := lt_of_le_of_ne (not_lt.1 h3) (Ne.symm h4)
            linarith
          have := cast this; push_cast at this ⊢; exact this
        · have : x * q < (((⌊x⌋.toNat : Nat) : Rat) + 1) * q := by rw [e]; gcongr
          have := cast this; push_cast at this ⊢; exact this

/-- The scale `roundFmt` rounds at, and what it keeps. -/
theorem scale_spec (fmt : Fmt) {m : Rat} (hm : 0 < m) :
    (fmt.emin < max (floorLog2 m) fmt.emin → 2 ^ fmt.fracBits ≤
        (m / (2 : Rat) ^ (max (floorLog2 m) fmt.emin - fmt.fracBits)).floor.toNat) ∧
    (m / (2 : Rat) ^ (max (floorLog2 m) fmt.emin - fmt.fracBits)).floor.toNat < 2 ^ (fmt.fracBits + 1) := by
  obtain ⟨h1, h2⟩ := floorLog2_spec hm
  set E := max (floorLog2 m) fmt.emin with hEdef
  have qpos : (0 : Rat) < (2 : Rat) ^ (E - fmt.fracBits) := by positivity
  have hx : 0 ≤ m / (2 : Rat) ^ (E - fmt.fracBits) := by positivity
  rw [floor_eq]
  constructor
  · intro h
    have hE : E = floorLog2 m := by omega
    have : ((2 ^ fmt.fracBits : Nat) : Rat) ≤ m / (2 : Rat) ^ (E - fmt.fracBits) := by
      rw [le_div_iff₀ qpos]
      push_cast
      rw [← zpow_natCast, ← zpow_add₀ (by norm_num)]
      refine le_trans (le_of_eq ?_) h1
      congr 1; rw [hE]; ring
    have := Int.le_floor.2 (show (((2 ^ fmt.fracBits : Nat) : Int) : Rat) ≤ _ by exact_mod_cast this)
    omega
  · have : m / (2 : Rat) ^ (E - fmt.fracBits) < ((2 ^ (fmt.fracBits + 1) : Nat) : Rat) := by
      rw [div_lt_iff₀ qpos]
      push_cast
      rw [← zpow_natCast, ← zpow_add₀ (by norm_num)]
      refine lt_of_lt_of_le h2 (zpow_le_zpow_right₀ (by norm_num) ?_)
      push_cast
      omega
    have hp : 0 < 2 ^ fmt.fracBits := by positivity
    have := Int.floor_lt.2 (show _ < (((2 ^ (fmt.fracBits + 1) : Nat) : Int) : Rat) by exact_mod_cast this)
    omega

theorem maxFin_spec (fmt : Fmt) (s : Bool) : fmt.isFinite (fmt.maxFin s) = true ∧ fmt.sign (fmt.maxFin s) = s ∧
    ∀ u, fmt.isFinite u = true → fmt.mag u ≤ fmt.mag (fmt.maxFin s) := by
  have he : fmt.expMax - 1 < 2 ^ fmt.expBits := by cases fmt <;> decide
  have hf : 2 ^ fmt.fracBits - 1 < 2 ^ fmt.fracBits := by cases fmt <;> decide
  have hb : ((fmt.expMax - 1 : Nat) : Int) - fmt.bias = fmt.emax := by cases fmt <;> decide
  have h0 : fmt.expMax - 1 ≠ 0 := by cases fmt <;> decide
  have hF : 2 ^ fmt.fracBits + (2 ^ fmt.fracBits - 1) + 1 = 2 ^ (fmt.fracBits + 1) := by cases fmt <;> decide
  refine ⟨?_, fmt.pack_sign s he hf, fun u hu => ?_⟩
  · simp only [Fmt.isFinite, Fmt.maxFin, fmt.pack_exp s he hf, bne_iff_ne]
    cases fmt <;> decide
  · obtain ⟨j, x, h, hj, -, hx, -⟩ := fmt.mag_form u hu
    have hmax : fmt.mag (fmt.maxFin s) = ((2 ^ fmt.fracBits + (2 ^ fmt.fracBits - 1) : Nat) : Rat) * (2 : Rat) ^
        (fmt.emax - fmt.fracBits) := by
      rw [Fmt.mag, Fmt.maxFin, fmt.pack_exp s he hf, fmt.pack_frac s he hf, if_neg h0, pow2_eq, hb]
    rw [h, hmax]
    calc (j : Rat) * (2 : Rat) ^ (x - fmt.fracBits) ≤ ((2 ^ fmt.fracBits + (2 ^ fmt.fracBits - 1) : Nat) : Rat) *
            (2 : Rat) ^ (x - fmt.fracBits) := by
          gcongr; omega
      _ ≤ _ := by gcongr; norm_num

theorem infFmt_not_finite (fmt : Fmt) (s : Bool) : fmt.isFinite (fmt.inf s) = false := by
  cases fmt <;> cases s <;> decide

/-- Any finite answer of `roundFmt` is the correctly rounded value. -/
theorem roundFmt_rounded (fmt : Fmt) (rm : RoundingMode) {r : Rat} (hr : r ≠ 0) (zs : Bool)
    (hfin : fmt.isFinite (roundFmt fmt rm r zs).1 = true) : Rounded fmt rm (r : ℝ) (roundFmt fmt rm r zs).1 := by
  unfold roundFmt at hfin ⊢
  simp only [hr, if_false, pow2_eq] at hfin ⊢
  set neg := decide (r < 0) with hneg
  set m := if neg = true then -r else r with hmdef
  have hm : 0 < m := by
    rcases lt_or_gt_of_ne hr with h | h
    · simp [hmdef, hneg, h]
    · simp [hmdef, hneg, not_lt.2 h.le, h]
  have hrm : (r : ℝ) = signed neg (m : ℝ) := by
    rcases lt_or_gt_of_ne hr with h | h
    · simp [hmdef, hneg, h, signed]
    · simp [hmdef, hneg, not_lt.2 h.le, signed]
  set E := max (floorLog2 m) fmt.emin with hEdef
  have qpos : (0 : Rat) < (2 : Rat) ^ (E - fmt.fracBits) := by positivity
  have ht := tailOf_describes (x := m / (2 : Rat) ^ (E - fmt.fracBits)) (by positivity) qpos
  rw [div_mul_cancel₀ _ qpos.ne'] at ht
  push_cast at ht
  obtain ⟨hn, hk⟩ := scale_spec fmt hm
  rw [← hEdef] at hn hk
  split at hfin
  · rename_i hov
    rw [if_pos hov] 
    have hbig : (2 : Rat) ^ (fmt.emax + 1) ≤ m ∨ ((rm = .rne ∨ rm = .rmm) ∨ (rm = .rdn ∧ neg = true) ∨ (rm = .rup ∧
        neg = false)) := by
      by_contra hcon
      push Not at hcon
      obtain ⟨hlt, ⟨h1, h2⟩, h3, h4⟩ := hcon
      refine absurd hov (not_le.2 (lt_of_le_of_lt ?_ hlt))
      have hfl : rint rm neg (m / (2 : Rat) ^ (E - fmt.fracBits)) =
          (m / (2 : Rat) ^ (E - fmt.fracBits)).floor.toNat := by
        unfold rint
        generalize tailOf _ = t
        cases rm with
        | rne => exact absurd rfl h1
        | rmm => exact absurd rfl h2
        | rtz => cases t <;> rfl
        | rdn =>
          rw [show neg = false by simpa using h3 rfl]
          cases t <;> rfl
        | rup =>
          rw [show neg = true by simpa using h4 rfl]
          cases t <;> rfl
      rw [hfl, floor_eq]
      have hfn : (0 : Int) ≤ ⌊m / (2 : Rat) ^ (E - fmt.fracBits)⌋ := Int.floor_nonneg.2 (by positivity)
      have e : ((⌊m / (2 : Rat) ^ (E - fmt.fracBits)⌋.toNat : Nat) : Rat) =
          (⌊m / (2 : Rat) ^ (E - fmt.fracBits)⌋ : Rat) := by
        rw [← Int.cast_natCast, Int.toNat_of_nonneg hfn]
      rw [e]
      calc _ ≤ m / (2 : Rat) ^ (E - fmt.fracBits) * (2 : Rat) ^ (E - fmt.fracBits) := by gcongr; exact Int.floor_le _
        _ = m := div_mul_cancel₀ _ qpos.ne'
    rw [hrm]
    have hni := infFmt_not_finite fmt
    obtain ⟨mf, ms, mm⟩ := maxFin_spec fmt neg
    have big : (2 : Rat) ^ (fmt.emax + 1) ≤ m → (rm = .rtz ∨ (rm = .rdn ∧ neg = false) ∨ (rm = .rup ∧
        neg = true)) → Rounded fmt rm (signed neg (m : ℝ)) (fmt.maxFin neg) := by
      intro hb hmode
      have mmR : ∀ u, fmt.isFinite u = true → ((fmt.mag u : Rat) : ℝ) ≤
          ((fmt.mag (fmt.maxFin neg) : Rat) : ℝ) := fun u hu => by exact_mod_cast mm u hu
      have g : Gap fmt (m : ℝ) ((fmt.mag (fmt.maxFin neg) : Rat) : ℝ) ((m : ℝ) + 1) := by
        have lt : fmt.mag (fmt.maxFin neg) < m := lt_of_lt_of_le (fmt.mag_lt_top _ mf) hb
        have ltR : ((fmt.mag (fmt.maxFin neg) : Rat) : ℝ) < (m : ℝ) := by exact_mod_cast lt
        refine ⟨by exact_mod_cast fmt.mag_nonneg _, ltR, by linarith, fun u hu _ => mmR u hu, fun u hu h => ?_⟩
        have := mmR u hu
        linarith
      exact g.down ms rfl hmode
    unfold overflowResult at hfin ⊢
    cases rm with
    | rne => simp [hni] at hfin
    | rmm => simp [hni] at hfin
    | rtz => exact big (by rcases hbig with h | (h | h) | h | h <;> first | exact h | simp at h) (.inl rfl)
    | rdn =>
      rcases hnn : neg with _ | _
      · rw [hnn] at big hbig
        exact big (by rcases hbig with h | (h | h) | h | h <;> first | exact h | simp at h) (.inr (.inl ⟨rfl, rfl⟩))
      · rw [hnn] at hfin; simp [hni] at hfin
    | rup =>
      rcases hnn : neg with _ | _
      · rw [hnn] at hfin; simp [hni] at hfin
      · rw [hnn] at big hbig
        exact big (by rcases hbig with h | (h | h) | h | h <;> first | exact h | simp at h) (.inr (.inr ⟨rfl, rfl⟩))
  · rename_i hov
    rw [if_neg hov, hrm]
    exact (rounded_of_tail (le_max_right _ _) hn hk ht (not_le.1 hov)).1

/-! ## Square root -/

theorem isqrtBits_spec (n : Nat) : ∀ (i r : Nat), r * r ≤ n → n < (r + 2 ^ i) * (r + 2 ^ i) →
    isqrtBits n i r * isqrtBits n i r ≤ n ∧ n < (isqrtBits n i r + 1) * (isqrtBits n i r + 1)
  | 0, _, h1, h2 => ⟨h1, h2⟩
  | i + 1, r, h1, h2 => by
    unfold isqrtBits
    split
    · rename_i h
      exact isqrtBits_spec n i _ h (by rw [Nat.add_assoc, ← Nat.two_mul, ← Nat.pow_succ']; exact h2)
    · rename_i h
      exact isqrtBits_spec n i r h1 (by omega)

theorem isqrt_spec (n : Nat) : isqrt n * isqrt n ≤ n ∧ n < (isqrt n + 1) * (isqrt n + 1) := by
  apply isqrtBits_spec n _ 0 (Nat.zero_le _)
  rw [Nat.zero_add, ← Nat.pow_add]
  have h : n < 2 ^ (n.log2 + 1) := Nat.lt_log2_self
  exact lt_of_lt_of_le h (Nat.pow_le_pow_right (by norm_num) (by omega))

theorem finite_pos_range (fmt : Fmt) {a : BitVec fmt.width} (ha : fmt.isFinite a = true) (hpos : 0 < fmt.val a) :
    (2 : Rat) ^ (fmt.emin - fmt.fracBits) ≤ fmt.val a ∧ fmt.val a < (2 : Rat) ^ (fmt.emax + 1) := by
  have hv : fmt.val a = fmt.mag a := by rw [← fmt.abs_val, abs_of_pos hpos]
  refine ⟨?_, by rw [hv]; exact fmt.mag_lt_top a ha⟩
  rw [hv] at hpos ⊢
  obtain ⟨j, x, h, -, hx, -, -⟩ := fmt.mag_form a ha
  rw [h] at hpos ⊢
  have hj : 1 ≤ j := by
    rcases Nat.eq_zero_or_pos j with h0 | h0
    · rw [h0] at hpos; simp at hpos
    · exact h0
  calc (2 : Rat) ^ (fmt.emin - fmt.fracBits) ≤ (2 : Rat) ^ (x - fmt.fracBits) :=
          zpow_le_zpow_right₀ (by norm_num) (by omega)
    _ = 1 * (2 : Rat) ^ (x - fmt.fracBits) := (one_mul _).symm
    _ ≤ _ := by gcongr; exact_mod_cast hj

/-- The square root of a positive finite value is correctly rounded. -/
theorem roundSqrt_rounded (fmt : Fmt) (rm : RoundingMode) {a : BitVec fmt.width} (ha : fmt.isFinite a = true)
    (hpos : 0 < fmt.val a) :
    Rounded fmt rm (Real.sqrt (fmt.real a)) (roundSqrt fmt rm (fmt.val a)).1 ∧
      fmt.isFinite (roundSqrt fmt rm (fmt.val a)).1 = true := by
  obtain ⟨hlow, htop⟩ := finite_pos_range fmt ha hpos
  rw [Fmt.real]
  generalize fmt.val a = v at *
  obtain ⟨e1, e2⟩ := floorLog2_spec hpos
  unfold roundSqrt
  simp only [pow2_eq]
  set h := floorLog2 v / 2 with hh
  set q := (2 : Rat) ^ (h - fmt.fracBits) with hq
  have qpos : 0 < q := by positivity
  have q2pos : 0 < q * q := by positivity
  have qq : q * q = (2 : Rat) ^ (2 * h - 2 * fmt.fracBits) := by rw [hq, ← zpow_add₀ (by norm_num)]; congr 1; ring
  have hx : 0 ≤ v / (q * q) := by positivity
  set k := isqrt (v / (q * q)).floor.toNat with hk
  obtain ⟨k1, k2⟩ := isqrt_spec (v / (q * q)).floor.toNat
  rw [← hk] at k1 k2
  have hfn : (0 : Int) ≤ ⌊v / (q * q)⌋ := Int.floor_nonneg.2 hx
  have ef : (((v / (q * q)).floor.toNat : Nat) : Rat) = (⌊v / (q * q)⌋ : Rat) := by
    rw [floor_eq, ← Int.cast_natCast, Int.toNat_of_nonneg hfn]
  have lo : (k : Rat) * q * ((k : Rat) * q) ≤ v := by
    have : ((k * k : Nat) : Rat) ≤ v / (q * q) := by
      calc ((k * k : Nat) : Rat) ≤ (((v / (q * q)).floor.toNat : Nat) : Rat) := by exact_mod_cast k1
        _ = _ := ef
        _ ≤ _ := Int.floor_le _
    rw [le_div_iff₀ q2pos] at this
    push_cast at this
    nlinarith
  have hi : v < ((k : Rat) + 1) * q * (((k : Rat) + 1) * q) := by
    have : v / (q * q) < (((k + 1) * (k + 1) : Nat) : Rat) := by
      have h3 : (((v / (q * q)).floor.toNat + 1 : Nat) : Rat) ≤
          (((k + 1) * (k + 1) : Nat) : Rat) := by exact_mod_cast k2
      refine lt_of_lt_of_le (Int.lt_floor_add_one _) (le_trans (le_of_eq ?_) h3)
      push_cast
      rw [ef]
    rw [div_lt_iff₀ q2pos] at this
    push_cast at this
    nlinarith
  have hlo2 : (2 : Rat) ^ (2 * h) ≤ v := le_trans (zpow_le_zpow_right₀ (by norm_num) (by omega)) e1
  have hhi2 : v < (2 : Rat) ^ (2 * h + 2) := lt_of_lt_of_le e2 (zpow_le_zpow_right₀ (by norm_num) (by omega))
  have Fq : ∀ n : Int, (2 : Rat) ^ n * q * ((2 : Rat) ^ n * q) = (2 : Rat) ^ (2 * n + (2 * h - 2 * fmt.fracBits)) := by
    intro n
    rw [show (2 : Rat) ^ n * q * ((2 : Rat) ^ n * q) = (2 : Rat) ^ n * (2 : Rat) ^ n * (q * q) by ring, qq,
      ← zpow_add₀ (by norm_num), ← zpow_add₀ (by norm_num)]
    congr 1; ring
  have sq_lt : ∀ {a b : Rat}, 0 ≤ b → a * a < b * b → a < b := fun hb h => by nlinarith
  have kge : 2 ^ fmt.fracBits ≤ k := by
    have : (2 : Rat) ^ (fmt.fracBits : Int) * q < ((k : Rat) + 1) * q := by
      apply sq_lt (by positivity)
      rw [Fq]
      refine lt_of_le_of_lt ?_ hi
      refine le_trans (le_of_eq ?_) hlo2
      congr 1; ring
    have := lt_of_mul_lt_mul_right this qpos.le
    have : 2 ^ fmt.fracBits < k + 1 := by exact_mod_cast this
    omega
  have klt : k < 2 ^ (fmt.fracBits + 1) := by
    have : (k : Rat) * q < (2 : Rat) ^ ((fmt.fracBits + 1 : Nat) : Int) * q := by
      apply sq_lt (by positivity)
      rw [Fq]
      refine lt_of_le_of_lt lo (lt_of_lt_of_le hhi2 (le_of_eq ?_))
      congr 1; push_cast; ring
    have := lt_of_mul_lt_mul_right this qpos.le
    exact_mod_cast this
  have hE : fmt.emin ≤ h := by
    have := (zpow_lt_zpow_iff_right₀ (by norm_num : (1 : Rat) < 2)).1 (lt_of_le_of_lt hlow e2)
    have hb : 2 * fmt.emin ≤ fmt.emin - fmt.fracBits := by cases fmt <;> decide
    omega
  have hmax : h + 1 < fmt.emax + 1 := by
    have := (zpow_lt_zpow_iff_right₀ (by norm_num : (1 : Rat) < 2)).1 (lt_of_le_of_lt e1 htop)
    have hb : 0 < fmt.emax := by cases fmt <;> decide
    omega
  have ho : ∀ t, (roundTail rm false k t : Rat) * q < (2 : Rat) ^ (fmt.emax + 1) := by
    intro t
    have : roundTail rm false k t ≤ 2 ^ (fmt.fracBits + 1) := by rcases roundTail_or rm false k t with h | h <;> omega
    calc (roundTail rm false k t : Rat) * q ≤ (2 : Rat) ^ ((fmt.fracBits + 1 : Nat) : Int) * q := by
          gcongr; exact_mod_cast this
      _ = (2 : Rat) ^ (h + 1) := by rw [hq, ← zpow_add₀ (by norm_num)]; congr 1; push_cast; ring
      _ < _ := zpow_lt_zpow_right₀ (by norm_num) hmax
  have vpos : (0 : ℝ) < (v : ℝ) := by exact_mod_cast hpos
  have root : ∀ {b : Rat}, 0 ≤ b → (b * b = v → Real.sqrt (v : ℝ) = (b : ℝ)) ∧
      (b * b < v → (b : ℝ) < Real.sqrt (v : ℝ)) ∧
      (v < b * b → Real.sqrt (v : ℝ) < (b : ℝ)) := by
    intro b hb
    have hbR : (0 : ℝ) ≤ (b : ℝ) := by exact_mod_cast hb
    refine ⟨fun h => ?_, fun h => ?_, fun h => ?_⟩
    · rw [← h]; push_cast; exact Real.sqrt_mul_self hbR
    · apply Real.lt_sqrt_of_sq_lt
      rw [sq]
      exact_mod_cast h
    · rw [Real.sqrt_lt' (lt_of_le_of_ne hbR fun h0 => ?_), sq]
      · exact_mod_cast h
      · have : b = 0 := by exact_mod_cast h0.symm
        rw [this] at h
        nlinarith
  have hqR : ((2 : ℝ) ^ (h - fmt.fracBits)) = ((q : Rat) : ℝ) := by rw [hq]; push_cast; rfl
  have ht : (if (k : Rat) * q * ((k : Rat) * q) = v then Tail.exact
      else if v < ((k : Rat) + 1 / 2) * q * (((k : Rat) + 1 / 2) * q) then Tail.below
      else if v = ((k : Rat) + 1 / 2) * q * (((k : Rat) + 1 / 2) * q) then Tail.half
      else Tail.above).describes k ((2 : ℝ) ^ (h - fmt.fracBits)) (Real.sqrt (v : ℝ)) := by
    have r0 := root (b := (k : Rat) * q) (by positivity)
    have r1 := root (b := ((k : Rat) + 1 / 2) * q) (by positivity)
    have r2 := (root (b := ((k : Rat) + 1) * q) (by positivity)).2.2 hi
    push_cast at r0 r1 r2
    rw [hqR]
    split
    · rename_i h; exact r0.1 h
    · rename_i hne
      have l := r0.2.1 (lt_of_le_of_ne lo hne)
      split
      · rename_i h; exact ⟨l, r1.2.2 h⟩
      · rename_i h1
        split
        · rename_i h; exact r1.1 h.symm
        · rename_i h2; exact ⟨r1.2.1 (lt_of_le_of_ne (not_lt.1 h1) (Ne.symm h2)), r2⟩
  exact rounded_of_tail hE (fun _ => kge) klt ht (ho _)

/-! ## Flags and exactness -/

theorem rint_int {n : Nat} {x : Rat} (h : x = n) (rm : RoundingMode) (neg : Bool) : rint rm neg x = n := by
  subst h
  have : ((n : Rat).floor : Rat) = n := by rw [floor_eq]; simp
  rw [rint, floor_natCast, this, sub_self]
  rfl

/-- What `roundFmt` answers when the rounded magnitude does not reach 2^(emax+1): a finite pattern with the sign of r,
NX raised exactly when the value differs, UF only with NX, and no other flag. -/
theorem roundFmt_value (fmt : Fmt) (rm : RoundingMode) {r : Rat} (hr : r ≠ 0) (zs : Bool)
    (hno : (roundFmt fmt rm r zs).2 &&& flagOF = 0) :
    fmt.isFinite (roundFmt fmt rm r zs).1 = true ∧ fmt.sign (roundFmt fmt rm r zs).1 = decide (r < 0) ∧
    ((roundFmt fmt rm r zs).2 = 0 ∨ (roundFmt fmt rm r zs).2 = flagNX ∨ (roundFmt fmt rm r zs).2 = flagUF ||| flagNX) ∧
    ((roundFmt fmt rm r zs).2 = 0 ↔ fmt.val (roundFmt fmt rm r zs).1 = r) := by
  unfold roundFmt at hno ⊢
  simp only [hr, if_false, pow2_eq] at hno ⊢
  set neg := decide (r < 0) with hneg
  set m := if neg = true then -r else r with hmdef
  have hm : 0 < m := by
    rcases lt_or_gt_of_ne hr with h | h
    · simp [hmdef, hneg, h]
    · simp [hmdef, hneg, not_lt.2 h.le, h]
  set E := max (floorLog2 m) fmt.emin with hEdef
  split at hno
  · cases rm <;> simp [overflowResult, flagOF, flagNX] at hno
  · rename_i hov
    rw [if_neg hov]
    obtain ⟨hn, hk⟩ := scale_spec fmt hm
    rw [← hEdef] at hn hk
    have hor := roundTail_or rm neg (m / (2 : Rat) ^ (E - fmt.fracBits)).floor.toNat
      (tailOf (m / (2 : Rat) ^ (E - fmt.fracBits) - ((m / (2 : Rat) ^ (E - fmt.fracBits)).floor : Rat)))
    obtain ⟨hfin, hsign, hmag, -⟩ := packMag_spec fmt neg (k :=
        rint rm neg (m / (2 : Rat) ^ (E - fmt.fracBits))) (le_max_right _ _)
      (by unfold rint; rcases hor with h | h <;> omega)
      (fun h => by have := hn h; unfold rint; rcases hor with h | h <;> omega) (not_le.1 hov)
    set res := (rint rm neg (m / (2 : Rat) ^ (E - fmt.fracBits)) : Rat) * (2 : Rat) ^ (E - fmt.fracBits) with hres
    have hval : fmt.val (packMag fmt neg res) = r ↔ res = m := by
      have hv : fmt.val (packMag fmt neg res) = if neg = true then -res else res := by
        rw [Fmt.val, hsign, hmag]
      rw [hv]
      by_cases h : r < 0
      · simp only [hmdef, hneg, h, decide_true, if_true]; constructor <;> intro h' <;> linarith
      · simp [hmdef, hneg, h]
    refine ⟨hfin, hsign, ?_, ?_⟩
    · by_cases hi : res = m
      · left; simp [hi]
      · simp only [hi, ne_eq, not_false_eq_true, decide_true, if_true, Bool.and_true]
        split
        · right; right; rfl
        · right; left; rfl
    · rw [hval]
      by_cases hi : res = m
      · simp [hi]
      · simp only [hi, ne_eq, not_false_eq_true, decide_true, if_true, Bool.and_true, iff_false]
        split <;> decide

/-- A magnitude that is a whole number of quanta at its own scale is answered exactly, with no flag. -/
theorem roundFmt_exact (fmt : Fmt) (rm : RoundingMode) {r : Rat} (hr : r ≠ 0) (zs : Bool) {n : Nat}
    (hn : |r| = n * (2 : Rat) ^ (max (floorLog2 |r|) fmt.emin - fmt.fracBits)) (ht : |r| < (2 : Rat) ^ (fmt.emax + 1)) :
    fmt.isFinite (roundFmt fmt rm r zs).1 = true ∧ fmt.sign (roundFmt fmt rm r zs).1 = decide (r < 0) ∧
      fmt.val (roundFmt fmt rm r zs).1 = r ∧ (roundFmt fmt rm r zs).2 = 0 := by
  have hm : (if decide (r < 0) = true then -r else r) = |r| := by
    rcases lt_or_gt_of_ne hr with h | h
    · simp [h, abs_of_neg h]
    · simp [not_lt.2 h.le, abs_of_pos h]
  have hfl : (roundFmt fmt rm r zs).2 = 0 := by
    unfold roundFmt
    simp only [hr, if_false, pow2_eq, hm]
    have hri : rint rm (decide (r < 0)) (|r| / (2 : Rat) ^ (max (floorLog2 |r|) fmt.emin - fmt.fracBits)) = n :=
      rint_int (by rw [div_eq_iff (by positivity)]; exact hn) _ _
    rw [hri, ← hn, if_neg (not_le.2 ht)]
    simp
  obtain ⟨h1, h2, -, h4⟩ := roundFmt_value fmt rm hr zs (by rw [hfl]; decide)
  exact ⟨h1, h2, h4.1 hfl, hfl⟩

/-- A finite pattern is determined by its sign and its magnitude. -/
theorem Fmt.eq_of_mag (fmt : Fmt) {u v : BitVec fmt.width} (hs : fmt.sign u = fmt.sign v) (hm : fmt.mag u = fmt.mag v) :
    u = v := by
  have key : ∀ w : BitVec fmt.width, (fmt.exp w = 0 → fmt.mag w < (2 : Rat) ^ fmt.emin) ∧
      (fmt.exp w ≠ 0 → (2 : Rat) ^ ((fmt.exp w : Int) - fmt.bias) ≤ fmt.mag w ∧
        fmt.mag w < (2 : Rat) ^ ((fmt.exp w : Int) - fmt.bias + 1)) := by
    intro w
    have hf := fmt.frac_lt w
    unfold Fmt.mag
    simp only [pow2_eq]
    constructor
    · intro h
      rw [if_pos h]
      calc (fmt.frac w : Rat) * (2 : Rat) ^ (fmt.emin - fmt.fracBits) <
              (2 : Rat) ^ (fmt.fracBits : Int) * (2 : Rat) ^ (fmt.emin - fmt.fracBits) := by
            gcongr; exact_mod_cast hf
        _ = _ := by rw [← zpow_add₀ (by norm_num)]; congr 1; ring
    · intro h
      rw [if_neg h]
      constructor
      · calc (2 : Rat) ^ ((fmt.exp w : Int) - fmt.bias) = (2 : Rat) ^ (fmt.fracBits : Int) * (2 : Rat) ^
              ((fmt.exp w : Int) - fmt.bias - fmt.fracBits) := by
              rw [← zpow_add₀ (by norm_num)]; congr 1; ring
          _ ≤ _ := by gcongr; push_cast; rw [zpow_natCast]; linarith [Nat.cast_nonneg (α := Rat) (fmt.frac w)]
      · calc ((2 ^ fmt.fracBits + fmt.frac w : Nat) : Rat) * (2 : Rat) ^ ((fmt.exp w : Int) - fmt.bias - fmt.fracBits)
              < (2 : Rat) ^ ((fmt.fracBits + 1 : Nat) : Int) * (2 : Rat) ^
                  ((fmt.exp w : Int) - fmt.bias - fmt.fracBits) := by
              gcongr
              rw [zpow_natCast]
              exact_mod_cast (show 2 ^ fmt.fracBits + fmt.frac w < 2 ^ (fmt.fracBits + 1) by rw [pow_succ]; omega)
          _ = _ := by rw [← zpow_add₀ (by norm_num)]; congr 1; push_cast; ring
  have lt2 : (1 : Rat) < 2 := by norm_num
  have eminb : fmt.emin = 1 - (fmt.bias : Int) := rfl
  have he : fmt.exp u = fmt.exp v := by
    by_cases hu : fmt.exp u = 0 <;> by_cases hv : fmt.exp v = 0
    · rw [hu, hv]
    · have a := (key u).1 hu
      have b := ((key v).2 hv).1
      rw [hm] at a
      have := (zpow_lt_zpow_iff_right₀ lt2).1 (lt_of_le_of_lt b a)
      omega
    · have a := (key v).1 hv
      have b := ((key u).2 hu).1
      rw [← hm] at a
      have := (zpow_lt_zpow_iff_right₀ lt2).1 (lt_of_le_of_lt b a)
      omega
    · obtain ⟨a1, a2⟩ := (key u).2 hu
      obtain ⟨b1, b2⟩ := (key v).2 hv
      rw [hm] at a1 a2
      have := (zpow_lt_zpow_iff_right₀ lt2).1 (lt_of_le_of_lt a1 b2)
      have := (zpow_lt_zpow_iff_right₀ lt2).1 (lt_of_le_of_lt b1 a2)
      omega
  have hfr : fmt.frac u = fmt.frac v := by
    have ne : ∀ z : Int, (2 : Rat) ^ z ≠ 0 := fun z => by positivity
    unfold Fmt.mag at hm
    simp only [pow2_eq, he] at hm
    split at hm
    · exact_mod_cast mul_right_cancel₀ (ne _) hm
    · have := mul_right_cancel₀ (ne _) hm
      have : 2 ^ fmt.fracBits + fmt.frac u = 2 ^ fmt.fracBits + fmt.frac v := by exact_mod_cast this
      omega
  apply BitVec.eq_of_toNat_eq
  rw [fmt.toNat_fields u, fmt.toNat_fields v, hs, he, hfr]

/-- Rounding a value the format has gives that pattern back, with no flag. -/
theorem roundFmt_self (fmt : Fmt) (rm : RoundingMode) {u : BitVec fmt.width} (hu : fmt.isFinite u = true)
    (h0 : fmt.val u ≠ 0) (zs : Bool) : roundFmt fmt rm (fmt.val u) zs = (u, 0) := by
  have hpos : 0 < |fmt.val u| := abs_pos.2 h0
  have hmag := fmt.abs_val u
  obtain ⟨e1, -⟩ := floorLog2_spec hpos
  have hgrid : ∃ n : Nat, |fmt.val u| = n * (2 : Rat) ^ (max (floorLog2 |fmt.val u|) fmt.emin - fmt.fracBits) := by
    rcases fmt.mag_grid u hu (le_max_right (floorLog2 |fmt.val u|) fmt.emin) with ⟨j, hj⟩ | ⟨h, hlt⟩
    · exact ⟨j, by rw [hmag] at hj ⊢; exact hj⟩
    · rw [show max (floorLog2 |fmt.val u|) fmt.emin = floorLog2 |fmt.val u| by omega, ← hmag] at hlt
      exact absurd e1 (not_le.2 hlt)
  obtain ⟨n, hn⟩ := hgrid
  obtain ⟨a, b, c, d⟩ := roundFmt_exact fmt rm h0 zs hn (by rw [hmag]; exact fmt.mag_lt_top u hu)
  have hs : fmt.sign (roundFmt fmt rm (fmt.val u) zs).1 = fmt.sign u := by
    rw [b]
    have hnn := fmt.mag_nonneg u
    have hv : fmt.val u = if fmt.sign u then -fmt.mag u else fmt.mag u := rfl
    cases hsg : fmt.sign u
    · rw [hsg] at hv
      simp only [Bool.false_eq_true, if_false] at hv
      simpa [hv] using hnn
    · rw [hsg] at hv
      simp only [if_true] at hv
      have : fmt.mag u ≠ 0 := fun h => h0 (by rw [hv, h, neg_zero])
      simpa [hv] using lt_of_le_of_ne hnn this.symm
  refine Prod.ext (fmt.eq_of_mag hs ?_) d
  rw [← fmt.abs_val, ← fmt.abs_val, c]

/-- A result as large as 2^(emax+1) is the overflow result of the mode and sign (R267). -/
theorem roundFmt_overflow (fmt : Fmt) (rm : RoundingMode) {r : Rat} (h : (2 : Rat) ^ (fmt.emax + 1) ≤ |r|) (zs : Bool) :
    roundFmt fmt rm r zs = overflowResult fmt rm (decide (r < 0)) := by
  have hr : r ≠ 0 := by rintro rfl; rw [abs_zero] at h; exact absurd h (not_le.2 (by positivity))
  have hm : (if decide (r < 0) = true then -r else r) = |r| := by
    rcases lt_or_gt_of_ne hr with h | h
    · simp [h, abs_of_neg h]
    · simp [not_lt.2 h.le, abs_of_pos h]
  unfold roundFmt
  simp only [hr, if_false, pow2_eq, hm]
  rw [if_pos]
  obtain ⟨e1, e2⟩ := floorLog2_spec (abs_pos.2 hr)
  have hE : fmt.emax + 1 ≤ floorLog2 |r| := by
    have := (zpow_lt_zpow_iff_right₀ (by norm_num : (1 : Rat) < 2)).1 (lt_of_le_of_lt h e2)
    omega
  have hmx := fmt.emin_le_emax
  rw [show max (floorLog2 |r|) fmt.emin = floorLog2 |r| by omega]
  set q := (2 : Rat) ^ (floorLog2 |r| - fmt.fracBits)
  have hk : 2 ^ fmt.fracBits ≤ (|r| / q).floor.toNat := by
    have := (scale_spec fmt (abs_pos.2 hr)).1 (by omega)
    rwa [show max (floorLog2 |r|) fmt.emin = floorLog2 |r| by omega] at this
  have hr2 : 2 ^ fmt.fracBits ≤ rint rm (decide (r < 0)) (|r| / q) := by
    unfold rint
    rcases roundTail_or rm (decide (r < 0)) (|r| / q).floor.toNat (tailOf (|r| / q -
        ((|r| / q).floor : Rat))) with h | h <;> omega
  calc (2 : Rat) ^ (fmt.emax + 1) ≤ (2 : Rat) ^ floorLog2 |r| := zpow_le_zpow_right₀ (by norm_num) hE
    _ = (2 : Rat) ^ (fmt.fracBits : Int) * q := by rw [← zpow_add₀ (by norm_num)]; congr 1; ring
    _ ≤ _ := by gcongr; exact_mod_cast hr2

end Sys2Proof.Machine
end

