-- ==== Sys2Proof/Laws/FpCases.lean ====
section
/-! SUPPORT. The kinds of floating-point patterns and what follows from each (spec/44_fp_arith.md R260 to R263), the
sign change of a subtraction, and the minimum and maximum outside their special cases (R275). -/

namespace Sys2Proof.Machine

variable {fmt : Fmt} {a b : BitVec fmt.width}

/-! ## The sign bit inverted -/

theorem Fmt.negate_sign (b : BitVec fmt.width) : fmt.sign (fmt.negate b) = !fmt.sign b := by
  cases fmt <;> simp [Fmt.sign, Fmt.negate, Fmt.width, BitVec.msb_xor]
  all_goals (cases h : b.msb <;> rfl)

theorem Fmt.negate_low (b : BitVec fmt.width) :
    (fmt.negate b).toNat % 2 ^ (fmt.width - 1) = b.toNat % 2 ^ (fmt.width - 1) := by
  apply Nat.eq_of_testBit_eq
  intro i
  rw [Nat.testBit_mod_two_pow, Nat.testBit_mod_two_pow]
  by_cases hi : i < fmt.width - 1
  · have h : (2 ^ (fmt.width - 1)).testBit i = false := Nat.testBit_two_pow_of_ne (by omega)
    simp only [hi, decide_true, Bool.true_and, Fmt.negate, BitVec.toNat_xor, BitVec.toNat_ofNat, Nat.testBit_xor,
      Nat.testBit_mod_two_pow, h, Bool.and_false, Bool.xor_false]
  · simp [hi]

theorem Fmt.exp_of_low (v : BitVec fmt.width) :
    fmt.exp v = v.toNat % 2 ^ (fmt.width - 1) / 2 ^ fmt.fracBits := by
  cases fmt <;> simp only [Fmt.exp, Fmt.width, Fmt.fracBits, Fmt.expBits] <;> omega

theorem Fmt.frac_of_low (v : BitVec fmt.width) :
    fmt.frac v = v.toNat % 2 ^ (fmt.width - 1) % 2 ^ fmt.fracBits := by
  cases fmt <;> simp only [Fmt.frac, Fmt.width, Fmt.fracBits] <;> omega

@[simp] theorem Fmt.negate_exp (b : BitVec fmt.width) : fmt.exp (fmt.negate b) = fmt.exp b := by
  rw [Fmt.exp_of_low, Fmt.negate_low, ← Fmt.exp_of_low]

@[simp] theorem Fmt.negate_frac (b : BitVec fmt.width) : fmt.frac (fmt.negate b) = fmt.frac b := by
  rw [Fmt.frac_of_low, Fmt.negate_low, ← Fmt.frac_of_low]

theorem Fmt.quietBit_eq (b : BitVec fmt.width) : fmt.quietBit b = (fmt.frac b).testBit (fmt.fracBits - 1) := by
  unfold Fmt.quietBit Fmt.frac
  rw [BitVec.getLsbD, Nat.testBit_mod_two_pow]
  cases fmt <;> simp [Fmt.fracBits]

@[simp] theorem Fmt.negate_isInf (b : BitVec fmt.width) : fmt.isInf (fmt.negate b) = fmt.isInf b := by
  simp [Fmt.isInf]

@[simp] theorem Fmt.negate_isNaN (b : BitVec fmt.width) : fmt.isNaN (fmt.negate b) = fmt.isNaN b := by
  simp [Fmt.isNaN]

@[simp] theorem Fmt.negate_isFinite (b : BitVec fmt.width) : fmt.isFinite (fmt.negate b) = fmt.isFinite b := by
  simp [Fmt.isFinite]

@[simp] theorem Fmt.negate_isZero (b : BitVec fmt.width) : fmt.isZero (fmt.negate b) = fmt.isZero b := by
  simp [Fmt.isZero]

@[simp] theorem Fmt.negate_isSNaN (b : BitVec fmt.width) : fmt.isSNaN (fmt.negate b) = fmt.isSNaN b := by
  simp [Fmt.isSNaN, Fmt.quietBit_eq]

theorem Fmt.negate_val (b : BitVec fmt.width) : fmt.val (fmt.negate b) = -fmt.val b := by
  have : fmt.mag (fmt.negate b) = fmt.mag b := by simp [Fmt.mag]
  simp only [Fmt.val, Fmt.negate_sign, this]
  cases fmt.sign b <;> simp

/-! ## Kinds of patterns -/

theorem Fmt.isInf_kind (h : fmt.isInf a = true) :
    fmt.isNaN a = false ∧ fmt.isFinite a = false ∧ fmt.isZero a = false := by
  simp [Fmt.isInf] at h
  have : fmt.expMax ≠ 0 := by cases fmt <;> decide
  exact ⟨by simp [Fmt.isNaN, h.2], by simp [Fmt.isFinite, h.1], by simp [Fmt.isZero, h.1, this]⟩

theorem Fmt.isFinite_kind (h : fmt.isFinite a = true) : fmt.isNaN a = false ∧ fmt.isInf a = false := by
  simp [Fmt.isFinite] at h
  exact ⟨by simp [Fmt.isNaN, h], by simp [Fmt.isInf, h]⟩

theorem Fmt.isZero_kind (h : fmt.isZero a = true) :
    fmt.isNaN a = false ∧ fmt.isInf a = false ∧ fmt.isFinite a = true := by
  simp [Fmt.isZero] at h
  have : (0 : Nat) ≠ fmt.expMax := by cases fmt <;> decide
  exact ⟨by simp [Fmt.isNaN, h.2], by simp [Fmt.isInf, h.1, this], by simp [Fmt.isFinite, h.1, this]⟩

theorem Fmt.isSNaN_of_not_isNaN (h : fmt.isNaN a = false) : fmt.isSNaN a = false := by simp [Fmt.isSNaN, h]

/-- The one infinity of a sign. -/
theorem Fmt.isInf_eq (h : fmt.isInf a = true) : a = fmt.inf (fmt.sign a) := by
  simp [Fmt.isInf] at h
  apply BitVec.eq_of_toNat_eq
  rw [fmt.toNat_fields a, h.1, h.2, Fmt.inf, fmt.pack_toNat _ (by cases fmt <;> decide) (by positivity)]

/-- The one zero of a sign. -/
theorem Fmt.isZero_eq (h : fmt.isZero a = true) : a = fmt.zero (fmt.sign a) := by
  simp [Fmt.isZero] at h
  apply BitVec.eq_of_toNat_eq
  rw [fmt.toNat_fields a, h.1, h.2, Fmt.zero, fmt.pack_toNat _ (by positivity) (by positivity)]

theorem Fmt.zero_sign (s : Bool) : fmt.sign (fmt.zero s) = s := fmt.pack_sign s (by positivity) (by positivity)

theorem Fmt.val_eq_zero_iff (_h : fmt.isFinite a = true) : fmt.val a = 0 ↔ fmt.isZero a = true := by
  have hm : fmt.val a = 0 ↔ fmt.mag a = 0 := by rw [← fmt.abs_val, abs_eq_zero]
  rw [hm]
  unfold Fmt.mag Fmt.isZero
  have p : ∀ e, pow2 e ≠ 0 := fun e => by rw [pow2_eq]; positivity
  split
  · rename_i h0
    simp [h0, p]
  · rename_i h0
    simp [h0, p]
    have : (0 : ℚ) < 2 ^ fmt.fracBits := by positivity
    have h2 : (0 : ℚ) ≤ fmt.frac a := by positivity
    linarith

theorem Fmt.real_eq_zero_iff (h : fmt.isFinite a = true) : fmt.real a = 0 ↔ fmt.isZero a = true := by
  rw [← Fmt.val_eq_zero_iff h]
  simp [Fmt.real]

/-! ## The NaN rule (R263) -/

theorem nanRule_pair (h : fmt.isNaN a = true ∨ fmt.isNaN b = true) :
    nanRule fmt [a, b] = some (fmt.cNaN, if fmt.isSNaN a || fmt.isSNaN b then flagNV else 0) := by
  simp only [nanRule, List.any_cons, List.any_nil, Bool.or_false]
  by_cases hs : (fmt.isSNaN a || fmt.isSNaN b) = true
  · simp [hs]
  · have hq : (fmt.isQNaN a || fmt.isQNaN b) = true := by
      simp [Fmt.isSNaN, Fmt.isQNaN] at hs ⊢
      tauto
    simp [hs, hq]

theorem nanRule_pair_none (ha : fmt.isNaN a = false) (hb : fmt.isNaN b = false) : nanRule fmt [a, b] = none := by
  simp [nanRule, Fmt.isSNaN, Fmt.isQNaN, ha, hb]

theorem nanRule_one (h : fmt.isNaN a = true) :
    nanRule fmt [a] = some (fmt.cNaN, if fmt.isSNaN a then flagNV else 0) := by
  simp only [nanRule, List.any_cons, List.any_nil, Bool.or_false]
  by_cases hs : fmt.isSNaN a = true
  · simp [hs]
  · have hq : fmt.isQNaN a = true := by
      simp [Fmt.isSNaN, Fmt.isQNaN] at hs ⊢
      tauto
    simp [hs, hq]

theorem nanRule_one_none (ha : fmt.isNaN a = false) : nanRule fmt [a] = none := by
  simp [nanRule, Fmt.isSNaN, Fmt.isQNaN, ha]

/-! ## Minimum and maximum (R275) -/

theorem fpMinMax_of_numbers (ha : fmt.isNaN a = false) (hb : fmt.isNaN b = false) (z : Bool)
    (p : BitVec fmt.width) :
    fpMinMax fmt a b z p = (if fmt.isZero a && fmt.isZero b then fmt.zero z else p, 0) := by
  simp only [fpMinMax, ha, hb, Fmt.isSNaN_of_not_isNaN ha, Fmt.isSNaN_of_not_isNaN hb]
  cases fmt.isZero a && fmt.isZero b <;> rfl

/-! ## The integer part (R310) -/

theorem ratTrunc_spec (v : Rat) : |(ratTrunc v : Rat)| ≤ |v| ∧ |v| < |(ratTrunc v : Rat)| + 1 ∧
    0 ≤ (ratTrunc v : Rat) * v := by
  unfold ratTrunc
  split
  · rename_i h0
    rw [floor_eq]
    have f0 : (0 : ℚ) ≤ (⌊v⌋ : ℚ) := by exact_mod_cast Int.floor_nonneg.2 h0
    rw [abs_of_nonneg f0, abs_of_nonneg h0]
    exact ⟨Int.floor_le _, Int.lt_floor_add_one _, mul_nonneg f0 h0⟩
  · rename_i h0
    rw [floor_eq]
    have h1 : 0 ≤ -v := by linarith
    have f0 : (0 : ℚ) ≤ (⌊-v⌋ : ℚ) := by exact_mod_cast Int.floor_nonneg.2 h1
    push_cast
    rw [abs_neg, abs_of_nonneg f0, abs_of_nonpos (by linarith)]
    exact ⟨Int.floor_le _, Int.lt_floor_add_one _, by nlinarith⟩

end Sys2Proof.Machine
end

