-- ==== Sys2Proof/Laws/Step.lean ====
section
/-! SUPPORT. The step taken apart: what decoding and fetching can answer and when a step has a next state
(spec/30_encoding.md R93, R94; spec/70_reset_and_hazards.md R434). -/

namespace Sys2Proof

theorem decode_instr {xl : XLen} {w : InstrWord} {i : Instr} :
    decode xl w = .instr i ↔ decodeRow w = some i ∧ i.wellFormed xl = true := by
  unfold decode
  cases decodeRow w with
  | none => cases outsideCore w <;> simp
  | some j =>
    cases hj : j.wellFormed xl <;> simp [hj]
    · rintro rfl; exact hj
    · rintro rfl; exact hj

theorem decode_notInCore {xl : XLen} {w u : InstrWord} :
    decode xl w = .notInCore u ↔ decodeRow w = none ∧ outsideCore w = true ∧ u = w := by
  unfold decode
  cases decodeRow w with
  | none => cases outsideCore w <;> simp [eq_comm (a := u)]
  | some j => cases hj : j.wellFormed xl <;> simp [hj]

end Sys2Proof

namespace Sys2Proof.Machine

/-- A word that matches a row decodes to the row's instruction when that is well-formed, and is illegal otherwise. -/
theorem decode_row (k : Nat) {r : Row} (hk : rows[k]? = some r) (xl : XLen) {w : InstrWord}
    (hw : w &&& r.mask = r.pattern) :
    decode xl w = if (r.build w).wellFormed xl then .instr (r.build w) else .illegal := by
  simp only [decode, decodeRow_at k hk hw rfl]

/-- A row of the table whose instruction is well-formed at XLEN = 64 for every word spells it. -/
theorem spells_row (k : Nat) {r : Row} (hk : rows[k]? = some r) (hr : ∀ w, (r.build w).wellFormed .rv64 = true) :
    Spells r.mask r.pattern r.build :=
  fun w hw => by rw [decode_row k hk _ hw, if_pos (hr w)]

/-- A row whose instruction carries the word's rm field spells it unless the field is 5 or 6, and is then illegal. -/
theorem spellsRm_row (k : Nat) {r : Row} (hk : rows[k]? = some r) (hr : ∀ w, (r.build w).rmField = some (fRm w)) :
    SpellsRm r.mask r.pattern r.build := fun w hw => by
  constructor
  · intro h5 h6
    rw [decode_row k hk _ hw, if_pos]
    simpa [Instr.wellFormed, Instr.rmOk, Instr.existsAt, Instr.shamtOk, hr w] using ⟨h5, h6⟩
  · intro h xl
    rw [decode_row k hk _ hw, if_neg]
    rcases h with h | h <;> simp [Instr.wellFormed, Instr.rmOk, hr w, h]

variable {s t : State}

/-- A fetched instruction: the run is not at its end, the pc is a multiple of 4, and the word there decodes to it. -/
theorem State.fetch_instr {i : Instr} :
    s.fetch = .instr i ↔ endAddr s.env ≠ some s.pc ∧ s.pc.toNat % 4 = 0 ∧
      ∃ w, textAt s.env.text s.pc.toNat = some w ∧ decode s.env.xlen w = .instr i := by
  unfold State.fetch
  by_cases he : endAddr s.env = some s.pc
  · simp [he]
  · by_cases hp : s.pc.toNat % 4 = 0
    · simp only [he, hp, if_false, not_true, ne_eq]
      cases ht : textAt s.env.text s.pc.toNat with
      | none => simp
      | some w => cases hd : decode s.env.xlen w <;> simp [hd]
    · simp [he, hp]

/-- When a step has a next state: the hart runs, and it is at its end or completes the fetched instruction. -/
theorem step_next :
    step s = .next t ↔ s.status = .running ∧
      (s.fetch = .ended ∧ t = s.finish ∨ ∃ i, s.fetch = .instr i ∧ exec i s = .next t) := by
  unfold step
  cases s.status with
  | running =>
    cases s.fetch with
    | ended => simp [eq_comm (a := t)]
    | instr i => simp
    | stop w => simp [Stop.outcome_ne_next]
  | faulted f => simp [raise]
  | refused r => simp [refuse]
  | ended => simp [refuse]

/-- The step of a running hart at a fetched instruction is the instruction's. -/
theorem step_fetched {i : Instr} (hs : s.status = .running) (h : s.fetch = .instr i) : step s = exec i s := by
  simp [step, hs, h]

end Sys2Proof.Machine
end

