-- ==== Sys2Proof/Laws/Stops.lean ====
section
/-! SUPPORT. What each shared operation answers when it stops: the access checks of spec/20_memory.md R54 to R56, the
rounding mode of spec/44_fp_arith.md R265, and what the hart then holds (spec/60_exceptions.md R408). -/

namespace Sys2Proof.Machine

variable {s : State}

/-! ## Alignment and existence -/

theorem aligned_iff {a : Word} {n : Nat} : aligned a n = true ↔ a.toNat % n = 0 := by simp [aligned]

theorem State.allMapped_iff (s : State) (a : Word) (n : Nat) :
    s.allMapped a n = true ↔ ∀ j < n, s.mapped (s.byteAddr a j) = true := by
  induction n with
  | zero => simp [State.allMapped]
  | succ n ih =>
    simp only [State.allMapped, Bool.and_eq_true, ih]
    constructor
    · rintro ⟨h1, h2⟩ j hj
      rcases Nat.lt_succ_iff_lt_or_eq.1 hj with h | rfl
      · exact h1 j h
      · exact h2
    · exact fun h => ⟨fun j hj => h j (by omega), h n (by omega)⟩

theorem State.allMapped_env {s t : State} (h : t.env = s.env) (a : Word) (n : Nat) :
    t.allMapped a n = s.allMapped a n := by
  induction n with
  | zero => rfl
  | succ n ih =>
    simp only [State.allMapped, ih, State.byteAddr_env h]
    unfold State.mapped
    rw [h]

theorem State.memRead_misaligned {a : Word} {n : Nat} (hm : s.env.misaligned = .fault) (h : a.toNat % n ≠ 0) :
    s.memRead a n = .error (.fault (.loadAddressMisaligned a)) := by
  simp [State.memRead, aligned, h, hm]

theorem State.memWrite_misaligned {a v : Word} {n : Nat} (hm : s.env.misaligned = .fault) (h : a.toNat % n ≠ 0) :
    s.memWrite a n v = .error (.fault (.storeAddressMisaligned a)) := by
  simp [State.memWrite, aligned, h, hm]

theorem State.memRead_missing {a : Word} {n : Nat} (h : a.toNat % n = 0) (hp : s.allMapped a n = false) :
    s.memRead a n = .error (.fault (.accessFault a [])) := by
  simp [State.memRead, aligned, h, hp]

theorem State.memWrite_missing {a v : Word} {n : Nat} (h : a.toNat % n = 0) (hp : s.allMapped a n = false) :
    s.memWrite a n v = .error (.fault (.accessFault a [])) := by
  simp [State.memWrite, aligned, h, hp]

/-- Under `bytewise` a missing byte stops a load at any alignment (R54, R56). -/
theorem State.memRead_bytewise_missing {a : Word} {n : Nat} (hb : s.env.misaligned = .bytewise)
    (hp : s.allMapped a n = false) : s.memRead a n = .error (.fault (.accessFault a [])) := by
  simp [State.memRead, hb, hp]

/-- Under `bytewise` a missing byte stops a misaligned store, and the bytes before it have landed (R54). -/
theorem State.memWrite_bytewise_missing {a v : Word} {n : Nat} (hb : s.env.misaligned = .bytewise)
    (ha : aligned a n = false) (hp : s.allMapped a n = false) :
    s.memWrite a n v = .error (.fault (.accessFault a (s.landed a v n))) := by
  simp [State.memWrite, hb, ha, hp]

theorem State.atomCheck_misaligned {mis : Word → Fault} {a : Word} {n : AtomSize} (h : a.toNat % n.bytes ≠ 0) :
    s.atomCheck mis a n = .error (.fault (mis a)) := by
  simp [State.atomCheck, aligned, h]

theorem State.atomCheck_missing {mis : Word → Fault} {a : Word} {n : AtomSize} (h : a.toNat % n.bytes = 0)
    (hp : s.allMapped a n.bytes = false) : s.atomCheck mis a n = .error (.fault (.accessFault a [])) := by
  simp [State.atomCheck, aligned, h, hp]

theorem attempt_error {α : Type} {e : Except Stop α} {w : Stop} {k : α → Host.Outcome State Fault Refusal}
    (h : e = .error w) : attempt e k = w.outcome := by rw [h]; rfl

/-! ## The bytes a misaligned store leaves (R54) -/

theorem State.landed_all (s : State) (a v : Word) (n : Nat) (h : ∀ j < n, s.mapped (s.byteAddr a j) = true) :
    s.landed a v n = s.cells a n v.toNat := by
  induction n with
  | zero => rfl
  | succ n ih =>
    have : s.allMapped a (n + 1) = true := (s.allMapped_iff a (n + 1)).2 h
    simp only [State.landed, this, if_true, ih (fun j hj => h j (by omega)), State.cells, List.range_succ,
      List.map_append, byte_eq]
    rfl

/-- The first missing byte at offset m: the m bytes before it are left stored. -/
theorem State.landed_stop (s : State) (a v : Word) {m : Nat} (h : ∀ j < m, s.mapped (s.byteAddr a j) = true)
    (hm : s.mapped (s.byteAddr a m) = false) : ∀ n, m ≤ n → s.landed a v n = s.cells a m v.toNat := by
  intro n hn
  induction n with
  | zero => obtain rfl : m = 0 := by omega
            rfl
  | succ n ih =>
    rcases Nat.lt_or_ge m (n + 1) with h1 | h1
    · have : s.allMapped a (n + 1) = false := by
        cases hb : s.allMapped a (n + 1) with
        | false => rfl
        | true =>
          have := (s.allMapped_iff a (n + 1)).1 hb m h1
          simp [hm] at this
      simp only [State.landed, this]
      exact ih (by omega)
    · obtain rfl : m = n + 1 := by omega
      exact s.landed_all a v _ h

/-- Writing the cells of a value one by one. -/
theorem State.foldl_cells_read (s : State) (a : Word) (v : Nat) {n : Nat} (hn : n ≤ 8) (k : Nat) :
    Memory.read ((s.cells a n v).foldl (fun m c => Memory.write m c.1 c.2) s.mem) k =
      ((s.cells a n v).lookup k).getD (s.readByte k) := by
  induction n with
  | zero => rfl
  | succ n ih =>
    have e : s.cells a (n + 1) v = s.cells a n v ++ [(s.byteAddr a n, BitVec.ofNat 8 (v / 256 ^ n))] := by
      simp [State.cells, List.range_succ]
    rw [e, List.foldl_append]
    simp only [List.foldl_cons, List.foldl_nil, Memory.read_write, ih (by omega)]
    rw [List.lookup_append]
    rcases s.lookup_cells a v k (show n ≤ 8 by omega) with ⟨i, hi, e, h⟩ | ⟨hne, h⟩
    · rw [h]
      simp
      intro he
      rw [e] at he
      exact absurd (s.byteAddr_inj a (by omega) (by omega) he) (by omega)
    · rw [h]
      simp [List.lookup]
      by_cases he : k = s.byteAddr a n
      · simp [he]
      · simp [he, beq_false_of_ne he]

/-! ## What the hart holds (R408) -/

/-- Every fault but one that lists bytes left stored changes the status alone. -/
theorem State.settle_fault (s : State) {f : Fault} (h : ∀ a l, f = .accessFault a l → l = []) :
    s.settle (.fault f) = { s with status := .faulted f } := by
  cases f with
  | accessFault a l => obtain rfl := h a l rfl; rfl
  | _ => rfl

theorem State.settle_refused (s : State) (r : Refusal) : s.settle (.refused r) = { s with status := .refused r } := rfl

theorem State.settle_next (s t : State) : s.settle (.next t) = t := rfl

/-! ## The rounding mode (R265) -/

theorem State.effRm_static {rm : RmField} {m : RoundingMode} (h : modeOfBits rm = some m) : s.effRm rm = .ok m := by
  simp [State.effRm, h]

theorem State.effRm_reserved {rm : RmField} (h : rm = 5 ∨ rm = 6) :
    s.effRm rm = .error (.fault (.illegalInstruction s.pc)) := by
  rcases h with rfl | rfl <;> rfl

theorem State.effRm_dynamic {m : RoundingMode} (h : modeOfBits s.frm = some m) : s.effRm 7 = .ok m := by
  unfold State.effRm
  rw [h]
  rfl

theorem State.effRm_frm_reserved (h : s.frm = 5 ∨ s.frm = 6) : s.effRm 7 = .error (.refuse .reservedRoundingMode) := by
  unfold State.effRm
  rcases h with h | h <;> rw [h] <;> rfl

theorem State.effRm_external (h : s.frm = 7) : s.effRm 7 = .ok (Env.externalMode s.env) := by
  unfold State.effRm
  rw [h]
  rfl

end Sys2Proof.Machine
end

