-- ==== Sys2Proof/Laws/Harts.lean ====
section
/-! SUPPORT. Several harts: what a turn of a hart can be, and that the turns of a misaligned access done byte by byte,
with no other hart's turn between them, come to one whole step (spec/20_memory.md R54, R58). -/

namespace Sys2Proof.Machine

variable {s : State} {i : Instr} {a : Access}

/-! ## What a turn reads of the state -/

@[simp] theorem State.intAccess_mem (s : State) (m : Memory) (i : Instr) :
    ({ s with mem := m } : State).intAccess i = s.intAccess i := by
  cases i <;> rfl

@[simp] theorem State.splitAccess_mem (s : State) (m : Memory) :
    ({ s with mem := m } : State).splitAccess = s.splitAccess := by
  unfold State.splitAccess
  have : ({ s with mem := m } : State).fetch = s.fetch := rfl
  rw [this]
  cases s.fetch <;> simp

/-- A hart's next step is done byte by byte: its instruction is an integer load or store, misaligned under
`bytewise`. -/
theorem State.splitAccess_eq :
    s.splitAccess = some (i, a) ↔ s.fetch = .instr i ∧ s.intAccess i = some a ∧ aligned a.addr a.size = false ∧
      s.env.misaligned = .bytewise := by
  unfold State.splitAccess
  cases s.fetch with
  | ended => simp
  | stop w => simp
  | instr j =>
    cases hj : s.intAccess j with
    | none =>
      simp only [hj, reduceCtorEq, Fetched.instr.injEq, false_iff]
      rintro ⟨rfl, h, -⟩
      simp [hj] at h
    | some b =>
      simp only [hj, Fetched.instr.injEq, Option.ite_none_right_eq_some, Bool.and_eq_true, Bool.not_eq_true',
        beq_iff_eq, Option.some.injEq, Prod.mk.injEq]
      constructor
      · rintro ⟨⟨h1, h2⟩, rfl, rfl⟩; exact ⟨rfl, hj, h1, h2⟩
      · rintro ⟨rfl, h, h1, h2⟩
        rw [hj, Option.some.injEq] at h
        subst h
        exact ⟨⟨h1, h2⟩, rfl, rfl⟩

theorem Hart.step_whole {h : Hart} (hs : h.state.splitAccess = none) :
    h.step = ⟨h.state.settle (Sys2Proof.Machine.step h.state), []⟩ := by
  simp [Hart.step, hs]

theorem State.intAccess_size (h : s.intAccess i = some a) : a.size ≤ 8 := by
  cases i <;> simp only [State.intAccess, reduceCtorEq, Option.some.injEq] at h <;> subst h <;> simp

/-! ## The bytes of an access, one after another -/

/-- The state after the first `k` bytes of an access. -/
def State.afterBytes (s : State) (a : Access) (k : Nat) : State :=
  match a.stored with
  | none => s
  | some v => s.storeBytes a.addr v k

/-- Byte `k` of an access that nothing interrupts. -/
def State.passing (s : State) (a : Access) (k : Nat) : Byte :=
  match a.stored with
  | none => s.readByte (s.accessAddr a k)
  | some v => (v >>> (8 * k)).setWidth 8

theorem State.afterBytes_mem (s : State) (a : Access) (k : Nat) :
    s.afterBytes a k = { s with mem := (s.afterBytes a k).mem } := by
  unfold State.afterBytes
  cases a.stored with
  | none => rfl
  | some v =>
    induction k with
    | zero => rfl
    | succ k ih =>
      simp only [State.storeBytes, State.writeByte] at ih ⊢
      rw [ih]

theorem State.accessByte_after (s : State) (a : Access) (k : Nat) :
    (s.afterBytes a k).accessByte a k = (s.passing a k, (s.afterBytes a (k + 1)).mem) := by
  unfold State.accessByte State.afterBytes State.passing
  cases a.stored with
  | none => rfl
  | some v => simp [State.storeBytes, State.writeByte, State.accessAddr]

theorem State.mapped_after (s : State) (a : Access) (k j : Nat) :
    (s.afterBytes a k).mapped ((s.afterBytes a k).accessAddr a j) = s.mapped (s.accessAddr a j) := by
  rw [s.afterBytes_mem a k]
  rfl

/-- While bytes of the access are left, each turn passes one of them. -/
theorem Hart.turns_partial (hs : s.splitAccess = some (i, a)) : ∀ k < a.size,
    (∀ j < k, s.mapped (s.accessAddr a j) = true) →
    Hart.step^[k] ⟨s, []⟩ = ⟨s.afterBytes a k, (List.range k).map (s.passing a)⟩
  | 0, _, _ => by
    have : s.afterBytes a 0 = s := by unfold State.afterBytes; cases a.stored <;> rfl
    simp [this]
  | k + 1, hk, hm => by
    rw [Function.iterate_succ_apply', Hart.turns_partial hs k (by omega) (fun j hj => hm j (by omega))]
    have h1 : (s.afterBytes a k).splitAccess = some (i, a) := by rw [s.afterBytes_mem, State.splitAccess_mem, hs]
    simp only [Hart.step, h1, List.length_map, List.length_range, State.mapped_after, hm k (by omega), if_true,
      State.accessByte_after, List.length_append, List.length_singleton, hk, Hart.mk.injEq]
    constructor
    · rw [s.afterBytes_mem a k, s.afterBytes_mem a (k + 1)]
    · simp [List.range_succ]

/-! ## The last byte -/

theorem State.overlay_mem (a : Access) : ∀ (bs : List Byte) (k : Nat) (s : State),
    s.overlay a k bs = { s with mem := (s.overlay a k bs).mem }
  | [], _, _ => rfl
  | b :: bs, k, s => by
    rw [State.overlay, State.overlay_mem a bs (k + 1) _]
    rfl

/-- The bytes laid over memory are what is then read there. -/
theorem State.overlay_read (a : Access) : ∀ (bs : List Byte) (k : Nat) (s : State), k + bs.length ≤ 8 →
    (∀ j (hj : j < bs.length), (s.overlay a k bs).readByte (s.accessAddr a (k + j)) = bs[j]) ∧
    ∀ q, (∀ j < bs.length, q ≠ s.accessAddr a (k + j)) → (s.overlay a k bs).readByte q = s.readByte q
  | [], _, _, _ => ⟨fun j hj => absurd hj (by simp), fun _ _ => rfl⟩
  | b :: bs, k, s, h => by
    rw [List.length_cons] at h
    obtain ⟨ih1, ih2⟩ := State.overlay_read a bs (k + 1) (s.writeByte (s.accessAddr a k) b) (by omega)
    constructor
    · rintro (_ | j) hj
      · rw [State.overlay, ih2]
        · simp [State.writeByte, State.readByte]
        · intro j hj he
          exact absurd (s.byteAddr_inj a.addr (by omega) (by omega) he) (by omega)
      · have := ih1 j (by simpa using hj)
        rw [show k + 1 + j = k + (j + 1) by omega] at this
        exact this
    · intro q hq
      rw [State.overlay, ih2 q]
      · simp only [State.writeByte, State.readByte, Memory.read_write]
        exact if_neg (hq 0 (by simp))
      · intro j hj
        have := hq (j + 1) (by simpa using hj)
        rw [show k + (j + 1) = k + 1 + j by omega] at this
        exact this

theorem State.loadBytes_congr {s t : State} (he : t.env = s.env) (a : Word) (n : Nat)
    (h : ∀ j < n, t.readByte (s.byteAddr a j) = s.readByte (s.byteAddr a j)) : t.loadBytes a n = s.loadBytes a n := by
  induction n with
  | zero => rfl
  | succ n ih =>
    rw [State.loadBytes, State.loadBytes, ih (fun j hj => h j (by omega)), State.byteAddr_env he, h n (by omega)]

/-- An integer load or store whose access is done completes; memory is then what its bytes make of it, and a load needs
of memory only the bytes of its access. -/
theorem exec_access (hi : s.intAccess i = some a) (hx : i.rv64Only = true → s.env.xlen = .rv64)
    (hacc : s.accessible a.addr a.size) (m : Memory)
    (hm : a.stored = none → ∀ j < a.size, Memory.read m (s.accessAddr a j) = s.readByte (s.accessAddr a j)) :
    ∃ t u, exec i s = .next t ∧ exec i { s with mem := m } = .next u ∧
      t = { u with mem := (s.afterBytes a a.size).mem } := by
  have key : ∀ (n : Nat) (ext : Word → Word) (rd rs1 : XReg) (imm : BitVec 12),
      a = ⟨s.effAddr rs1 imm, n, none⟩ →
      ∃ t u, load n ext rd rs1 imm s = .next t ∧ load n ext rd rs1 imm { s with mem := m } = .next u ∧
        t = { u with mem := (s.afterBytes a a.size).mem } := by
    rintro n ext rd rs1 imm rfl
    refine ⟨_, _, load_next.2 ⟨hacc, rfl⟩, load_next.2 ⟨?_, rfl⟩, ?_⟩
    · have := (State.allMapped_env (s := s) (t := { s with mem := m }) rfl (s.effAddr rs1 imm) n).trans hacc.2
      exact ⟨hacc.1, this⟩
    · have e : ({ s with mem := m } : State).loadBytes (s.effAddr rs1 imm) n = s.loadBytes (s.effAddr rs1 imm) n :=
        State.loadBytes_congr (s := s) (t := { s with mem := m }) rfl _ _ (hm rfl)
      change s.retireX rd (ext (s.loadBytes (s.effAddr rs1 imm) n)) =
        { ({ s with mem := m } : State).retireX rd
            (ext (({ s with mem := m } : State).loadBytes (s.effAddr rs1 imm) n)) with mem := s.mem }
      rw [e]
      unfold State.retireX State.writeX State.advance
      split <;> rfl
  have keyS : ∀ (n : Nat) (rs1 rs2 : XReg) (imm : BitVec 12),
      a = ⟨s.effAddr rs1 imm, n, some (s.readX rs2)⟩ →
      ∃ t u, store n rs1 rs2 imm s = .next t ∧ store n rs1 rs2 imm { s with mem := m } = .next u ∧
        t = { u with mem := (s.afterBytes a a.size).mem } := by
    rintro n rs1 rs2 imm rfl
    refine ⟨_, _, store_next.2 ⟨hacc, rfl⟩, store_next.2 ⟨?_, rfl⟩, ?_⟩
    · have := (State.allMapped_env (s := s) (t := { s with mem := m }) rfl (s.effAddr rs1 imm) n).trans hacc.2
      exact ⟨hacc.1, this⟩
    · have e1 := s.afterBytes_mem ⟨s.effAddr rs1 imm, n, some (s.readX rs2)⟩ n
      have e2 := ({ s with mem := m } : State).afterBytes_mem ⟨s.effAddr rs1 imm, n, some (s.readX rs2)⟩ n
      simp only [State.afterBytes] at e1 e2 ⊢
      change (s.storeBytes (s.effAddr rs1 imm) (s.readX rs2) n).advance =
        { (({ s with mem := m } : State).storeBytes (s.effAddr rs1 imm) (s.readX rs2) n).advance with
          mem := (s.storeBytes (s.effAddr rs1 imm) (s.readX rs2) n).mem }
      rw [e1, e2]
      rfl
  have h64 : i.rv64Only = true → ∀ (o : State → Host.Outcome State Fault Refusal),
      s.rv64Only (o s) = o s ∧ ({ s with mem := m } : State).rv64Only (o { s with mem := m }) = o { s with mem := m } :=
    fun h o => ⟨State.rv64Only_of (hx h) _, State.rv64Only_of (s := { s with mem := m }) (hx h) _⟩
  cases i <;> simp only [State.intAccess, reduceCtorEq, Option.some.injEq] at hi
  all_goals first
    | exact key _ _ _ _ _ hi.symm
    | exact keyS _ _ _ _ hi.symm
    | skip
  case lwu rd rs1 imm =>
    obtain ⟨h1, h2⟩ := h64 rfl (load 4 (zextLow 32) rd rs1 imm)
    obtain ⟨t, u, e1, e2, e⟩ := key 4 (zextLow 32) rd rs1 imm hi.symm
    exact ⟨t, u, h1.trans e1, h2.trans e2, e⟩
  case ld rd rs1 imm =>
    obtain ⟨h1, h2⟩ := h64 rfl (load 8 id rd rs1 imm)
    obtain ⟨t, u, e1, e2, e⟩ := key 8 id rd rs1 imm hi.symm
    exact ⟨t, u, h1.trans e1, h2.trans e2, e⟩
  case sd rs1 rs2 imm =>
    obtain ⟨h1, h2⟩ := h64 rfl (store 8 rs1 rs2 imm)
    obtain ⟨t, u, e1, e2, e⟩ := keyS 8 rs1 rs2 imm hi.symm
    exact ⟨t, u, h1.trans e1, h2.trans e2, e⟩

/-- A decoded instruction exists at its XLEN. -/
theorem rv64Only_of_fetch (h : s.fetch = .instr i) : i.rv64Only = true → s.env.xlen = .rv64 := by
  obtain ⟨-, -, w, -, hw⟩ := State.fetch_instr.1 h
  have := (decode_instr.1 hw).2
  intro h6
  cases hx : s.env.xlen with
  | rv64 => rfl
  | rv32 => simp [hx, Instr.wellFormed, Instr.existsAt, h6] at this

/-- R58 allows other harts' turns between the bytes; with none, the turns of a misaligned access all of whose bytes
exist come to the whole step. -/
theorem Hart.turns_whole (hs : s.splitAccess = some (i, a)) (hr : s.status = .running) (h0 : 0 < a.size)
    (hm : ∀ j < a.size, s.mapped (s.accessAddr a j) = true) :
    Hart.step^[a.size] ⟨s, []⟩ = ⟨s.settle (Sys2Proof.Machine.step s), []⟩ := by
  obtain ⟨hf, hi, -, hb⟩ := State.splitAccess_eq.1 hs
  obtain ⟨k, hk⟩ : ∃ k, a.size = k + 1 := ⟨a.size - 1, by omega⟩
  have hacc : s.accessible a.addr a.size := ⟨.inr hb, (s.allMapped_iff _ _).2 hm⟩
  have h1 : (s.afterBytes a k).splitAccess = some (i, a) := by rw [s.afterBytes_mem, State.splitAccess_mem, hs]
  rw [hk, Function.iterate_succ_apply', Hart.turns_partial hs k (by omega) (fun j hj => hm j (by omega))]
  simp only [Hart.step, h1, List.length_map, List.length_range, State.mapped_after, hm k (by omega), if_true,
    State.accessByte_after, List.length_append, List.length_singleton, hk, lt_irrefl, if_false, Hart.mk.injEq,
    and_true]
  have hp : (List.range k).map (s.passing a) ++ [s.passing a k] = (List.range a.size).map (s.passing a) := by
    rw [hk, List.range_succ, List.map_append]; rfl
  rw [hp, State.overlay_mem]
  obtain ⟨t, u, e1, e2, e⟩ := exec_access hi (rv64Only_of_fetch hf) hacc
    ((s.afterBytes a k).overlay a 0 ((List.range a.size).map (s.passing a))).mem (by
      intro hn j hj
      have ha : s.afterBytes a k = s := by unfold State.afterBytes; rw [hn]
      have := (State.overlay_read a ((List.range a.size).map (s.passing a)) 0 s
        (by simpa using State.intAccess_size hi)).1 j (by simpa using hj)
      rw [ha]
      simpa [State.readByte, State.passing, hn] using this)
  rw [step_fetched hr hf, e1]
  have ha := s.afterBytes_mem a k
  rw [show ({ s.afterBytes a k with
        mem := ((s.afterBytes a k).overlay a 0 ((List.range a.size).map (s.passing a))).mem } : State) =
      { s with mem := ((s.afterBytes a k).overlay a 0 ((List.range a.size).map (s.passing a))).mem } by
    rw [ha], e2]
  simp only [State.settle_next]
  rw [e, hk]

/-! ## A byte that does not exist -/

theorem State.storeBytes_foldl (s : State) (a v : Word) (n : Nat) :
    (s.cells a n v.toNat).foldl (fun m c => Memory.write m c.1 c.2) s.mem = (s.storeBytes a v n).mem := by
  induction n with
  | zero => rfl
  | succ n ih =>
    have e : s.cells a (n + 1) v.toNat = s.cells a n v.toNat ++ [(s.byteAddr a n, (v >>> (8 * n)).setWidth 8)] := by
      simp [State.cells, List.range_succ, byte_eq]
    rw [e, List.foldl_append, ih]
    simp [State.storeBytes, State.writeByte]

theorem State.landed_env {s t : State} (h : t.env = s.env) (a v : Word) (n : Nat) :
    t.landed a v n = s.landed a v n := by
  induction n with
  | zero => rfl
  | succ n ih => rw [State.landed, State.landed, State.allMapped_env h, State.byteAddr_env h, ih]

/-- A misaligned access done byte by byte with a missing byte stops with the access's address and the bytes landed. -/
theorem exec_access_missing (hi : s.intAccess i = some a) (hx : i.rv64Only = true → s.env.xlen = .rv64)
    (hb : s.env.misaligned = .bytewise) (ha : aligned a.addr a.size = false) (hm : s.allMapped a.addr a.size = false) :
    exec i s = .fault (.accessFault a.addr (match a.stored with
      | none => []
      | some v => s.landed a.addr v a.size)) := by
  have hl : ∀ (n : Nat) (ext : Word → Word) (rd rs1 : XReg) (imm : BitVec 12), a = ⟨s.effAddr rs1 imm, n, none⟩ →
      load n ext rd rs1 imm s = .fault (.accessFault a.addr (match a.stored with
        | none => []
        | some v => s.landed a.addr v a.size)) := by
    rintro n ext rd rs1 imm rfl
    exact attempt_error (State.memRead_bytewise_missing hb hm)
  have hs : ∀ (n : Nat) (rs1 rs2 : XReg) (imm : BitVec 12), a = ⟨s.effAddr rs1 imm, n, some (s.readX rs2)⟩ →
      store n rs1 rs2 imm s = .fault (.accessFault a.addr (match a.stored with
        | none => []
        | some v => s.landed a.addr v a.size)) := by
    rintro n rs1 rs2 imm rfl
    exact attempt_error (State.memWrite_bytewise_missing hb ha hm)
  have h64 : i.rv64Only = true → ∀ o : Host.Outcome State Fault Refusal, s.rv64Only o = o :=
    fun h o => State.rv64Only_of (hx h) o
  cases i <;> simp only [State.intAccess, reduceCtorEq, Option.some.injEq] at hi
  all_goals first
    | exact hl _ _ _ _ _ hi.symm
    | exact hs _ _ _ _ hi.symm
    | exact (h64 rfl _).trans (hl _ _ _ _ _ hi.symm)
    | exact (h64 rfl _).trans (hs _ _ _ _ hi.symm)

/-- With no other hart's turn between, the turns of a misaligned access that meets its first missing byte at offset
`m` come to the whole step too: the hart is faulted and the earlier bytes of a store are stored (R54). -/
theorem Hart.turns_missing (hs : s.splitAccess = some (i, a)) (hr : s.status = .running) {m : Nat} (h0 : m < a.size)
    (hm : ∀ j < m, s.mapped (s.accessAddr a j) = true) (hmiss : s.mapped (s.accessAddr a m) = false) :
    Hart.step^[m + 1] ⟨s, []⟩ = ⟨s.settle (Sys2Proof.Machine.step s), []⟩ := by
  obtain ⟨hf, hi, ha, hb⟩ := State.splitAccess_eq.1 hs
  have h1 : (s.afterBytes a m).splitAccess = some (i, a) := by rw [s.afterBytes_mem, State.splitAccess_mem, hs]
  have hall : s.allMapped a.addr a.size = false := by
    cases h : s.allMapped a.addr a.size with
    | false => rfl
    | true =>
      have := (s.allMapped_iff _ _).1 h m h0
      rw [show s.mapped (s.byteAddr a.addr m) = false from hmiss] at this
      exact this.symm
  rw [Function.iterate_succ_apply', Hart.turns_partial hs m h0 hm, step_fetched hr hf,
    exec_access_missing hi (rv64Only_of_fetch hf) hb ha hall]
  simp only [Hart.step, h1, List.length_map, List.length_range, State.mapped_after, hmiss, Bool.false_eq_true,
    if_false, Hart.mk.injEq, and_true, State.settle]
  cases hst : a.stored with
  | none =>
    have : s.afterBytes a m = s := by unfold State.afterBytes; rw [hst]
    rw [this]
    rfl
  | some v =>
    have e : s.afterBytes a m = s.storeBytes a.addr v m := by unfold State.afterBytes; rw [hst]
    have he : (s.storeBytes a.addr v m).env = s.env := by simp
    have hl := s.landed_stop a.addr v hm hmiss a.size h0.le
    have hmem := s.afterBytes_mem a m
    simp only [e] at hmem ⊢
    rw [State.landed_env he, hl, State.storeBytes_foldl]
    rw [hmem]

end Sys2Proof.Machine
end

