-- ==== Sys2Proof/Laws/PerInstr.lean ====
section
/-! SUPPORT. Statements made for every instruction, one lemma for each constructor: the table reads back the word of an
instruction (spec/30_encoding.md R90, R92). -/

namespace Sys2Proof.Laws.DecodeEncode

/-- The table reads the instruction's word as the instruction. -/
def Statement (i : Instr) : Prop := decodeRow (encode i) = some i

theorem add (rd rs1 rs2 : XReg) : Statement (.add rd rs1 rs2) :=
  show decodeRow (rWord 0b0000000 rs2 rs1 0b000 rd 0b0110011) = some _ from
    decodeRow_at 0 rfl ((rWord_maskR _ _ _ _ _ _).trans rfl) (by simp)

theorem sub (rd rs1 rs2 : XReg) : Statement (.sub rd rs1 rs2) :=
  show decodeRow (rWord 0b0100000 rs2 rs1 0b000 rd 0b0110011) = some _ from
    decodeRow_at 1 rfl ((rWord_maskR _ _ _ _ _ _).trans rfl) (by simp)

theorem sll (rd rs1 rs2 : XReg) : Statement (.sll rd rs1 rs2) :=
  show decodeRow (rWord 0b0000000 rs2 rs1 0b001 rd 0b0110011) = some _ from
    decodeRow_at 2 rfl ((rWord_maskR _ _ _ _ _ _).trans rfl) (by simp)

theorem slt (rd rs1 rs2 : XReg) : Statement (.slt rd rs1 rs2) :=
  show decodeRow (rWord 0b0000000 rs2 rs1 0b010 rd 0b0110011) = some _ from
    decodeRow_at 3 rfl ((rWord_maskR _ _ _ _ _ _).trans rfl) (by simp)

theorem sltu (rd rs1 rs2 : XReg) : Statement (.sltu rd rs1 rs2) :=
  show decodeRow (rWord 0b0000000 rs2 rs1 0b011 rd 0b0110011) = some _ from
    decodeRow_at 4 rfl ((rWord_maskR _ _ _ _ _ _).trans rfl) (by simp)

theorem xor (rd rs1 rs2 : XReg) : Statement (.xor rd rs1 rs2) :=
  show decodeRow (rWord 0b0000000 rs2 rs1 0b100 rd 0b0110011) = some _ from
    decodeRow_at 5 rfl ((rWord_maskR _ _ _ _ _ _).trans rfl) (by simp)

theorem srl (rd rs1 rs2 : XReg) : Statement (.srl rd rs1 rs2) :=
  show decodeRow (rWord 0b0000000 rs2 rs1 0b101 rd 0b0110011) = some _ from
    decodeRow_at 6 rfl ((rWord_maskR _ _ _ _ _ _).trans rfl) (by simp)

theorem sra (rd rs1 rs2 : XReg) : Statement (.sra rd rs1 rs2) :=
  show decodeRow (rWord 0b0100000 rs2 rs1 0b101 rd 0b0110011) = some _ from
    decodeRow_at 7 rfl ((rWord_maskR _ _ _ _ _ _).trans rfl) (by simp)

theorem or (rd rs1 rs2 : XReg) : Statement (.or rd rs1 rs2) :=
  show decodeRow (rWord 0b0000000 rs2 rs1 0b110 rd 0b0110011) = some _ from
    decodeRow_at 8 rfl ((rWord_maskR _ _ _ _ _ _).trans rfl) (by simp)

theorem and (rd rs1 rs2 : XReg) : Statement (.and rd rs1 rs2) :=
  show decodeRow (rWord 0b0000000 rs2 rs1 0b111 rd 0b0110011) = some _ from
    decodeRow_at 9 rfl ((rWord_maskR _ _ _ _ _ _).trans rfl) (by simp)

theorem addi (rd rs1 : XReg) (imm : BitVec 12) : Statement (.addi rd rs1 imm) :=
  show decodeRow (iWord imm rs1 0b000 rd 0b0010011) = some _ from
    decodeRow_at 10 rfl ((iWord_maskI _ _ _ _ _).trans rfl) (by simp)

theorem slti (rd rs1 : XReg) (imm : BitVec 12) : Statement (.slti rd rs1 imm) :=
  show decodeRow (iWord imm rs1 0b010 rd 0b0010011) = some _ from
    decodeRow_at 11 rfl ((iWord_maskI _ _ _ _ _).trans rfl) (by simp)

theorem sltiu (rd rs1 : XReg) (imm : BitVec 12) : Statement (.sltiu rd rs1 imm) :=
  show decodeRow (iWord imm rs1 0b011 rd 0b0010011) = some _ from
    decodeRow_at 12 rfl ((iWord_maskI _ _ _ _ _).trans rfl) (by simp)

theorem xori (rd rs1 : XReg) (imm : BitVec 12) : Statement (.xori rd rs1 imm) :=
  show decodeRow (iWord imm rs1 0b100 rd 0b0010011) = some _ from
    decodeRow_at 13 rfl ((iWord_maskI _ _ _ _ _).trans rfl) (by simp)

theorem ori (rd rs1 : XReg) (imm : BitVec 12) : Statement (.ori rd rs1 imm) :=
  show decodeRow (iWord imm rs1 0b110 rd 0b0010011) = some _ from
    decodeRow_at 14 rfl ((iWord_maskI _ _ _ _ _).trans rfl) (by simp)

theorem andi (rd rs1 : XReg) (imm : BitVec 12) : Statement (.andi rd rs1 imm) :=
  show decodeRow (iWord imm rs1 0b111 rd 0b0010011) = some _ from
    decodeRow_at 15 rfl ((iWord_maskI _ _ _ _ _).trans rfl) (by simp)

theorem slli (rd rs1 : XReg) (shamt : BitVec 6) : Statement (.slli rd rs1 shamt) :=
  show decodeRow (shiftWord 0b000000 shamt rs1 0b001 rd 0b0010011) = some _ from
    decodeRow_at 16 rfl ((shiftWord_maskShift _ _ _ _ _ _).trans rfl) (by simp)

theorem srli (rd rs1 : XReg) (shamt : BitVec 6) : Statement (.srli rd rs1 shamt) :=
  show decodeRow (shiftWord 0b000000 shamt rs1 0b101 rd 0b0010011) = some _ from
    decodeRow_at 17 rfl ((shiftWord_maskShift _ _ _ _ _ _).trans rfl) (by simp)

theorem srai (rd rs1 : XReg) (shamt : BitVec 6) : Statement (.srai rd rs1 shamt) :=
  show decodeRow (shiftWord 0b010000 shamt rs1 0b101 rd 0b0010011) = some _ from
    decodeRow_at 18 rfl ((shiftWord_maskShift _ _ _ _ _ _).trans rfl) (by simp)

theorem addw (rd rs1 rs2 : XReg) : Statement (.addw rd rs1 rs2) :=
  show decodeRow (rWord 0b0000000 rs2 rs1 0b000 rd 0b0111011) = some _ from
    decodeRow_at 19 rfl ((rWord_maskR _ _ _ _ _ _).trans rfl) (by simp)

theorem subw (rd rs1 rs2 : XReg) : Statement (.subw rd rs1 rs2) :=
  show decodeRow (rWord 0b0100000 rs2 rs1 0b000 rd 0b0111011) = some _ from
    decodeRow_at 20 rfl ((rWord_maskR _ _ _ _ _ _).trans rfl) (by simp)

theorem sllw (rd rs1 rs2 : XReg) : Statement (.sllw rd rs1 rs2) :=
  show decodeRow (rWord 0b0000000 rs2 rs1 0b001 rd 0b0111011) = some _ from
    decodeRow_at 21 rfl ((rWord_maskR _ _ _ _ _ _).trans rfl) (by simp)

theorem srlw (rd rs1 rs2 : XReg) : Statement (.srlw rd rs1 rs2) :=
  show decodeRow (rWord 0b0000000 rs2 rs1 0b101 rd 0b0111011) = some _ from
    decodeRow_at 22 rfl ((rWord_maskR _ _ _ _ _ _).trans rfl) (by simp)

theorem sraw (rd rs1 rs2 : XReg) : Statement (.sraw rd rs1 rs2) :=
  show decodeRow (rWord 0b0100000 rs2 rs1 0b101 rd 0b0111011) = some _ from
    decodeRow_at 23 rfl ((rWord_maskR _ _ _ _ _ _).trans rfl) (by simp)

theorem addiw (rd rs1 : XReg) (imm : BitVec 12) : Statement (.addiw rd rs1 imm) :=
  show decodeRow (iWord imm rs1 0b000 rd 0b0011011) = some _ from
    decodeRow_at 24 rfl ((iWord_maskI _ _ _ _ _).trans rfl) (by simp)

theorem slliw (rd rs1 : XReg) (shamt : BitVec 5) : Statement (.slliw rd rs1 shamt) :=
  show decodeRow (rWord 0b0000000 shamt rs1 0b001 rd 0b0011011) = some _ from
    decodeRow_at 25 rfl ((rWord_maskR _ _ _ _ _ _).trans rfl) (by simp)

theorem srliw (rd rs1 : XReg) (shamt : BitVec 5) : Statement (.srliw rd rs1 shamt) :=
  show decodeRow (rWord 0b0000000 shamt rs1 0b101 rd 0b0011011) = some _ from
    decodeRow_at 26 rfl ((rWord_maskR _ _ _ _ _ _).trans rfl) (by simp)

theorem sraiw (rd rs1 : XReg) (shamt : BitVec 5) : Statement (.sraiw rd rs1 shamt) :=
  show decodeRow (rWord 0b0100000 shamt rs1 0b101 rd 0b0011011) = some _ from
    decodeRow_at 27 rfl ((rWord_maskR _ _ _ _ _ _).trans rfl) (by simp)

theorem lb (rd rs1 : XReg) (imm : BitVec 12) : Statement (.lb rd rs1 imm) :=
  show decodeRow (iWord imm rs1 0b000 rd 0b0000011) = some _ from
    decodeRow_at 28 rfl ((iWord_maskI _ _ _ _ _).trans rfl) (by simp)

theorem lh (rd rs1 : XReg) (imm : BitVec 12) : Statement (.lh rd rs1 imm) :=
  show decodeRow (iWord imm rs1 0b001 rd 0b0000011) = some _ from
    decodeRow_at 29 rfl ((iWord_maskI _ _ _ _ _).trans rfl) (by simp)

theorem lw (rd rs1 : XReg) (imm : BitVec 12) : Statement (.lw rd rs1 imm) :=
  show decodeRow (iWord imm rs1 0b010 rd 0b0000011) = some _ from
    decodeRow_at 30 rfl ((iWord_maskI _ _ _ _ _).trans rfl) (by simp)

theorem ld (rd rs1 : XReg) (imm : BitVec 12) : Statement (.ld rd rs1 imm) :=
  show decodeRow (iWord imm rs1 0b011 rd 0b0000011) = some _ from
    decodeRow_at 31 rfl ((iWord_maskI _ _ _ _ _).trans rfl) (by simp)

theorem lbu (rd rs1 : XReg) (imm : BitVec 12) : Statement (.lbu rd rs1 imm) :=
  show decodeRow (iWord imm rs1 0b100 rd 0b0000011) = some _ from
    decodeRow_at 32 rfl ((iWord_maskI _ _ _ _ _).trans rfl) (by simp)

theorem lhu (rd rs1 : XReg) (imm : BitVec 12) : Statement (.lhu rd rs1 imm) :=
  show decodeRow (iWord imm rs1 0b101 rd 0b0000011) = some _ from
    decodeRow_at 33 rfl ((iWord_maskI _ _ _ _ _).trans rfl) (by simp)

theorem lwu (rd rs1 : XReg) (imm : BitVec 12) : Statement (.lwu rd rs1 imm) :=
  show decodeRow (iWord imm rs1 0b110 rd 0b0000011) = some _ from
    decodeRow_at 34 rfl ((iWord_maskI _ _ _ _ _).trans rfl) (by simp)

theorem sb (rs1 rs2 : XReg) (imm : BitVec 12) : Statement (.sb rs1 rs2 imm) :=
  show decodeRow (sWord imm rs2 rs1 0b000 0b0100011) = some _ from
    decodeRow_at 35 rfl ((sWord_mask _ _ _ _ _).trans rfl) (by simp)

theorem sh (rs1 rs2 : XReg) (imm : BitVec 12) : Statement (.sh rs1 rs2 imm) :=
  show decodeRow (sWord imm rs2 rs1 0b001 0b0100011) = some _ from
    decodeRow_at 36 rfl ((sWord_mask _ _ _ _ _).trans rfl) (by simp)

theorem sw (rs1 rs2 : XReg) (imm : BitVec 12) : Statement (.sw rs1 rs2 imm) :=
  show decodeRow (sWord imm rs2 rs1 0b010 0b0100011) = some _ from
    decodeRow_at 37 rfl ((sWord_mask _ _ _ _ _).trans rfl) (by simp)

theorem sd (rs1 rs2 : XReg) (imm : BitVec 12) : Statement (.sd rs1 rs2 imm) :=
  show decodeRow (sWord imm rs2 rs1 0b011 0b0100011) = some _ from
    decodeRow_at 38 rfl ((sWord_mask _ _ _ _ _).trans rfl) (by simp)

theorem mul (rd rs1 rs2 : XReg) : Statement (.mul rd rs1 rs2) :=
  show decodeRow (rWord 0b0000001 rs2 rs1 0b000 rd 0b0110011) = some _ from
    decodeRow_at 39 rfl ((rWord_maskR _ _ _ _ _ _).trans rfl) (by simp)

theorem mulh (rd rs1 rs2 : XReg) : Statement (.mulh rd rs1 rs2) :=
  show decodeRow (rWord 0b0000001 rs2 rs1 0b001 rd 0b0110011) = some _ from
    decodeRow_at 40 rfl ((rWord_maskR _ _ _ _ _ _).trans rfl) (by simp)

theorem mulhsu (rd rs1 rs2 : XReg) : Statement (.mulhsu rd rs1 rs2) :=
  show decodeRow (rWord 0b0000001 rs2 rs1 0b010 rd 0b0110011) = some _ from
    decodeRow_at 41 rfl ((rWord_maskR _ _ _ _ _ _).trans rfl) (by simp)

theorem mulhu (rd rs1 rs2 : XReg) : Statement (.mulhu rd rs1 rs2) :=
  show decodeRow (rWord 0b0000001 rs2 rs1 0b011 rd 0b0110011) = some _ from
    decodeRow_at 42 rfl ((rWord_maskR _ _ _ _ _ _).trans rfl) (by simp)

theorem mulw (rd rs1 rs2 : XReg) : Statement (.mulw rd rs1 rs2) :=
  show decodeRow (rWord 0b0000001 rs2 rs1 0b000 rd 0b0111011) = some _ from
    decodeRow_at 43 rfl ((rWord_maskR _ _ _ _ _ _).trans rfl) (by simp)

theorem div (rd rs1 rs2 : XReg) : Statement (.div rd rs1 rs2) :=
  show decodeRow (rWord 0b0000001 rs2 rs1 0b100 rd 0b0110011) = some _ from
    decodeRow_at 44 rfl ((rWord_maskR _ _ _ _ _ _).trans rfl) (by simp)

theorem divu (rd rs1 rs2 : XReg) : Statement (.divu rd rs1 rs2) :=
  show decodeRow (rWord 0b0000001 rs2 rs1 0b101 rd 0b0110011) = some _ from
    decodeRow_at 45 rfl ((rWord_maskR _ _ _ _ _ _).trans rfl) (by simp)

theorem rem (rd rs1 rs2 : XReg) : Statement (.rem rd rs1 rs2) :=
  show decodeRow (rWord 0b0000001 rs2 rs1 0b110 rd 0b0110011) = some _ from
    decodeRow_at 46 rfl ((rWord_maskR _ _ _ _ _ _).trans rfl) (by simp)

theorem remu (rd rs1 rs2 : XReg) : Statement (.remu rd rs1 rs2) :=
  show decodeRow (rWord 0b0000001 rs2 rs1 0b111 rd 0b0110011) = some _ from
    decodeRow_at 47 rfl ((rWord_maskR _ _ _ _ _ _).trans rfl) (by simp)

theorem divw (rd rs1 rs2 : XReg) : Statement (.divw rd rs1 rs2) :=
  show decodeRow (rWord 0b0000001 rs2 rs1 0b100 rd 0b0111011) = some _ from
    decodeRow_at 48 rfl ((rWord_maskR _ _ _ _ _ _).trans rfl) (by simp)

theorem divuw (rd rs1 rs2 : XReg) : Statement (.divuw rd rs1 rs2) :=
  show decodeRow (rWord 0b0000001 rs2 rs1 0b101 rd 0b0111011) = some _ from
    decodeRow_at 49 rfl ((rWord_maskR _ _ _ _ _ _).trans rfl) (by simp)

theorem remw (rd rs1 rs2 : XReg) : Statement (.remw rd rs1 rs2) :=
  show decodeRow (rWord 0b0000001 rs2 rs1 0b110 rd 0b0111011) = some _ from
    decodeRow_at 50 rfl ((rWord_maskR _ _ _ _ _ _).trans rfl) (by simp)

theorem remuw (rd rs1 rs2 : XReg) : Statement (.remuw rd rs1 rs2) :=
  show decodeRow (rWord 0b0000001 rs2 rs1 0b111 rd 0b0111011) = some _ from
    decodeRow_at 51 rfl ((rWord_maskR _ _ _ _ _ _).trans rfl) (by simp)

theorem amoswapW (aq rl : Bool) (rd rs1 rs2 : XReg) : Statement (.amoswapW aq rl rd rs1 rs2) :=
  show decodeRow (amoWord 0b00001 aq rl rs2 rs1 0b010 rd) = some _ from
    decodeRow_at 52 rfl ((amoWord_mask _ _ _ _ _ _ _).trans rfl) (by simp)

theorem amoaddW (aq rl : Bool) (rd rs1 rs2 : XReg) : Statement (.amoaddW aq rl rd rs1 rs2) :=
  show decodeRow (amoWord 0b00000 aq rl rs2 rs1 0b010 rd) = some _ from
    decodeRow_at 53 rfl ((amoWord_mask _ _ _ _ _ _ _).trans rfl) (by simp)

theorem amoxorW (aq rl : Bool) (rd rs1 rs2 : XReg) : Statement (.amoxorW aq rl rd rs1 rs2) :=
  show decodeRow (amoWord 0b00100 aq rl rs2 rs1 0b010 rd) = some _ from
    decodeRow_at 54 rfl ((amoWord_mask _ _ _ _ _ _ _).trans rfl) (by simp)

theorem amoandW (aq rl : Bool) (rd rs1 rs2 : XReg) : Statement (.amoandW aq rl rd rs1 rs2) :=
  show decodeRow (amoWord 0b01100 aq rl rs2 rs1 0b010 rd) = some _ from
    decodeRow_at 55 rfl ((amoWord_mask _ _ _ _ _ _ _).trans rfl) (by simp)

theorem amoorW (aq rl : Bool) (rd rs1 rs2 : XReg) : Statement (.amoorW aq rl rd rs1 rs2) :=
  show decodeRow (amoWord 0b01000 aq rl rs2 rs1 0b010 rd) = some _ from
    decodeRow_at 56 rfl ((amoWord_mask _ _ _ _ _ _ _).trans rfl) (by simp)

theorem amominW (aq rl : Bool) (rd rs1 rs2 : XReg) : Statement (.amominW aq rl rd rs1 rs2) :=
  show decodeRow (amoWord 0b10000 aq rl rs2 rs1 0b010 rd) = some _ from
    decodeRow_at 57 rfl ((amoWord_mask _ _ _ _ _ _ _).trans rfl) (by simp)

theorem amomaxW (aq rl : Bool) (rd rs1 rs2 : XReg) : Statement (.amomaxW aq rl rd rs1 rs2) :=
  show decodeRow (amoWord 0b10100 aq rl rs2 rs1 0b010 rd) = some _ from
    decodeRow_at 58 rfl ((amoWord_mask _ _ _ _ _ _ _).trans rfl) (by simp)

theorem amominuW (aq rl : Bool) (rd rs1 rs2 : XReg) : Statement (.amominuW aq rl rd rs1 rs2) :=
  show decodeRow (amoWord 0b11000 aq rl rs2 rs1 0b010 rd) = some _ from
    decodeRow_at 59 rfl ((amoWord_mask _ _ _ _ _ _ _).trans rfl) (by simp)

theorem amomaxuW (aq rl : Bool) (rd rs1 rs2 : XReg) : Statement (.amomaxuW aq rl rd rs1 rs2) :=
  show decodeRow (amoWord 0b11100 aq rl rs2 rs1 0b010 rd) = some _ from
    decodeRow_at 60 rfl ((amoWord_mask _ _ _ _ _ _ _).trans rfl) (by simp)

theorem amoswapD (aq rl : Bool) (rd rs1 rs2 : XReg) : Statement (.amoswapD aq rl rd rs1 rs2) :=
  show decodeRow (amoWord 0b00001 aq rl rs2 rs1 0b011 rd) = some _ from
    decodeRow_at 61 rfl ((amoWord_mask _ _ _ _ _ _ _).trans rfl) (by simp)

theorem amoaddD (aq rl : Bool) (rd rs1 rs2 : XReg) : Statement (.amoaddD aq rl rd rs1 rs2) :=
  show decodeRow (amoWord 0b00000 aq rl rs2 rs1 0b011 rd) = some _ from
    decodeRow_at 62 rfl ((amoWord_mask _ _ _ _ _ _ _).trans rfl) (by simp)

theorem amoxorD (aq rl : Bool) (rd rs1 rs2 : XReg) : Statement (.amoxorD aq rl rd rs1 rs2) :=
  show decodeRow (amoWord 0b00100 aq rl rs2 rs1 0b011 rd) = some _ from
    decodeRow_at 63 rfl ((amoWord_mask _ _ _ _ _ _ _).trans rfl) (by simp)

theorem amoandD (aq rl : Bool) (rd rs1 rs2 : XReg) : Statement (.amoandD aq rl rd rs1 rs2) :=
  show decodeRow (amoWord 0b01100 aq rl rs2 rs1 0b011 rd) = some _ from
    decodeRow_at 64 rfl ((amoWord_mask _ _ _ _ _ _ _).trans rfl) (by simp)

theorem amoorD (aq rl : Bool) (rd rs1 rs2 : XReg) : Statement (.amoorD aq rl rd rs1 rs2) :=
  show decodeRow (amoWord 0b01000 aq rl rs2 rs1 0b011 rd) = some _ from
    decodeRow_at 65 rfl ((amoWord_mask _ _ _ _ _ _ _).trans rfl) (by simp)

theorem amominD (aq rl : Bool) (rd rs1 rs2 : XReg) : Statement (.amominD aq rl rd rs1 rs2) :=
  show decodeRow (amoWord 0b10000 aq rl rs2 rs1 0b011 rd) = some _ from
    decodeRow_at 66 rfl ((amoWord_mask _ _ _ _ _ _ _).trans rfl) (by simp)

theorem amomaxD (aq rl : Bool) (rd rs1 rs2 : XReg) : Statement (.amomaxD aq rl rd rs1 rs2) :=
  show decodeRow (amoWord 0b10100 aq rl rs2 rs1 0b011 rd) = some _ from
    decodeRow_at 67 rfl ((amoWord_mask _ _ _ _ _ _ _).trans rfl) (by simp)

theorem amominuD (aq rl : Bool) (rd rs1 rs2 : XReg) : Statement (.amominuD aq rl rd rs1 rs2) :=
  show decodeRow (amoWord 0b11000 aq rl rs2 rs1 0b011 rd) = some _ from
    decodeRow_at 68 rfl ((amoWord_mask _ _ _ _ _ _ _).trans rfl) (by simp)

theorem amomaxuD (aq rl : Bool) (rd rs1 rs2 : XReg) : Statement (.amomaxuD aq rl rd rs1 rs2) :=
  show decodeRow (amoWord 0b11100 aq rl rs2 rs1 0b011 rd) = some _ from
    decodeRow_at 69 rfl ((amoWord_mask _ _ _ _ _ _ _).trans rfl) (by simp)

theorem lrW (aq rl : Bool) (rd rs1 : XReg) : Statement (.lrW aq rl rd rs1) :=
  show decodeRow (amoWord 0b00010 aq rl 0 rs1 0b010 rd) = some _ from
    decodeRow_at 70 rfl ((amoWord_maskLr _ _ _ _ _ _ _).trans rfl) (by simp)

theorem lrD (aq rl : Bool) (rd rs1 : XReg) : Statement (.lrD aq rl rd rs1) :=
  show decodeRow (amoWord 0b00010 aq rl 0 rs1 0b011 rd) = some _ from
    decodeRow_at 71 rfl ((amoWord_maskLr _ _ _ _ _ _ _).trans rfl) (by simp)

theorem scW (aq rl : Bool) (rd rs1 rs2 : XReg) : Statement (.scW aq rl rd rs1 rs2) :=
  show decodeRow (amoWord 0b00011 aq rl rs2 rs1 0b010 rd) = some _ from
    decodeRow_at 72 rfl ((amoWord_mask _ _ _ _ _ _ _).trans rfl) (by simp)

theorem scD (aq rl : Bool) (rd rs1 rs2 : XReg) : Statement (.scD aq rl rd rs1 rs2) :=
  show decodeRow (amoWord 0b00011 aq rl rs2 rs1 0b011 rd) = some _ from
    decodeRow_at 73 rfl ((amoWord_mask _ _ _ _ _ _ _).trans rfl) (by simp)

theorem faddS (rd rs1 rs2 : FReg) (rm : RmField) : Statement (.faddS rd rs1 rs2 rm) :=
  show decodeRow (rWord 0b0000000 rs2 rs1 rm rd 0b1010011) = some _ from
    decodeRow_at 74 rfl ((rWord_maskRm _ _ _ _ _ _).trans rfl) (by simp)

theorem fsubS (rd rs1 rs2 : FReg) (rm : RmField) : Statement (.fsubS rd rs1 rs2 rm) :=
  show decodeRow (rWord 0b0000100 rs2 rs1 rm rd 0b1010011) = some _ from
    decodeRow_at 75 rfl ((rWord_maskRm _ _ _ _ _ _).trans rfl) (by simp)

theorem fmulS (rd rs1 rs2 : FReg) (rm : RmField) : Statement (.fmulS rd rs1 rs2 rm) :=
  show decodeRow (rWord 0b0001000 rs2 rs1 rm rd 0b1010011) = some _ from
    decodeRow_at 76 rfl ((rWord_maskRm _ _ _ _ _ _).trans rfl) (by simp)

theorem fdivS (rd rs1 rs2 : FReg) (rm : RmField) : Statement (.fdivS rd rs1 rs2 rm) :=
  show decodeRow (rWord 0b0001100 rs2 rs1 rm rd 0b1010011) = some _ from
    decodeRow_at 77 rfl ((rWord_maskRm _ _ _ _ _ _).trans rfl) (by simp)

theorem fsqrtS (rd rs1 : FReg) (rm : RmField) : Statement (.fsqrtS rd rs1 rm) :=
  show decodeRow (rWord 0b0101100 0b00000 rs1 rm rd 0b1010011) = some _ from
    decodeRow_at 78 rfl ((rWord_maskUnaryRm _ _ _ _ _ _).trans rfl) (by simp)

theorem fmaddS (rd rs1 rs2 rs3 : FReg) (rm : RmField) : Statement (.fmaddS rd rs1 rs2 rs3 rm) :=
  show decodeRow (r4Word rs3 0b00 rs2 rs1 rm rd 0b1000011) = some _ from
    decodeRow_at 79 rfl ((r4Word_maskR4 _ _ _ _ _ _ _).trans rfl) (by simp)

theorem fmsubS (rd rs1 rs2 rs3 : FReg) (rm : RmField) : Statement (.fmsubS rd rs1 rs2 rs3 rm) :=
  show decodeRow (r4Word rs3 0b00 rs2 rs1 rm rd 0b1000111) = some _ from
    decodeRow_at 80 rfl ((r4Word_maskR4 _ _ _ _ _ _ _).trans rfl) (by simp)

theorem fnmsubS (rd rs1 rs2 rs3 : FReg) (rm : RmField) : Statement (.fnmsubS rd rs1 rs2 rs3 rm) :=
  show decodeRow (r4Word rs3 0b00 rs2 rs1 rm rd 0b1001011) = some _ from
    decodeRow_at 81 rfl ((r4Word_maskR4 _ _ _ _ _ _ _).trans rfl) (by simp)

theorem fnmaddS (rd rs1 rs2 rs3 : FReg) (rm : RmField) : Statement (.fnmaddS rd rs1 rs2 rs3 rm) :=
  show decodeRow (r4Word rs3 0b00 rs2 rs1 rm rd 0b1001111) = some _ from
    decodeRow_at 82 rfl ((r4Word_maskR4 _ _ _ _ _ _ _).trans rfl) (by simp)

theorem fsgnjS (rd rs1 rs2 : FReg) : Statement (.fsgnjS rd rs1 rs2) :=
  show decodeRow (rWord 0b0010000 rs2 rs1 0b000 rd 0b1010011) = some _ from
    decodeRow_at 83 rfl ((rWord_maskR _ _ _ _ _ _).trans rfl) (by simp)

theorem fsgnjnS (rd rs1 rs2 : FReg) : Statement (.fsgnjnS rd rs1 rs2) :=
  show decodeRow (rWord 0b0010000 rs2 rs1 0b001 rd 0b1010011) = some _ from
    decodeRow_at 84 rfl ((rWord_maskR _ _ _ _ _ _).trans rfl) (by simp)

theorem fsgnjxS (rd rs1 rs2 : FReg) : Statement (.fsgnjxS rd rs1 rs2) :=
  show decodeRow (rWord 0b0010000 rs2 rs1 0b010 rd 0b1010011) = some _ from
    decodeRow_at 85 rfl ((rWord_maskR _ _ _ _ _ _).trans rfl) (by simp)

theorem fminS (rd rs1 rs2 : FReg) : Statement (.fminS rd rs1 rs2) :=
  show decodeRow (rWord 0b0010100 rs2 rs1 0b000 rd 0b1010011) = some _ from
    decodeRow_at 86 rfl ((rWord_maskR _ _ _ _ _ _).trans rfl) (by simp)

theorem fmaxS (rd rs1 rs2 : FReg) : Statement (.fmaxS rd rs1 rs2) :=
  show decodeRow (rWord 0b0010100 rs2 rs1 0b001 rd 0b1010011) = some _ from
    decodeRow_at 87 rfl ((rWord_maskR _ _ _ _ _ _).trans rfl) (by simp)

theorem faddD (rd rs1 rs2 : FReg) (rm : RmField) : Statement (.faddD rd rs1 rs2 rm) :=
  show decodeRow (rWord 0b0000001 rs2 rs1 rm rd 0b1010011) = some _ from
    decodeRow_at 88 rfl ((rWord_maskRm _ _ _ _ _ _).trans rfl) (by simp)

theorem fsubD (rd rs1 rs2 : FReg) (rm : RmField) : Statement (.fsubD rd rs1 rs2 rm) :=
  show decodeRow (rWord 0b0000101 rs2 rs1 rm rd 0b1010011) = some _ from
    decodeRow_at 89 rfl ((rWord_maskRm _ _ _ _ _ _).trans rfl) (by simp)

theorem fmulD (rd rs1 rs2 : FReg) (rm : RmField) : Statement (.fmulD rd rs1 rs2 rm) :=
  show decodeRow (rWord 0b0001001 rs2 rs1 rm rd 0b1010011) = some _ from
    decodeRow_at 90 rfl ((rWord_maskRm _ _ _ _ _ _).trans rfl) (by simp)

theorem fdivD (rd rs1 rs2 : FReg) (rm : RmField) : Statement (.fdivD rd rs1 rs2 rm) :=
  show decodeRow (rWord 0b0001101 rs2 rs1 rm rd 0b1010011) = some _ from
    decodeRow_at 91 rfl ((rWord_maskRm _ _ _ _ _ _).trans rfl) (by simp)

theorem fsqrtD (rd rs1 : FReg) (rm : RmField) : Statement (.fsqrtD rd rs1 rm) :=
  show decodeRow (rWord 0b0101101 0b00000 rs1 rm rd 0b1010011) = some _ from
    decodeRow_at 92 rfl ((rWord_maskUnaryRm _ _ _ _ _ _).trans rfl) (by simp)

theorem fmaddD (rd rs1 rs2 rs3 : FReg) (rm : RmField) : Statement (.fmaddD rd rs1 rs2 rs3 rm) :=
  show decodeRow (r4Word rs3 0b01 rs2 rs1 rm rd 0b1000011) = some _ from
    decodeRow_at 93 rfl ((r4Word_maskR4 _ _ _ _ _ _ _).trans rfl) (by simp)

theorem fmsubD (rd rs1 rs2 rs3 : FReg) (rm : RmField) : Statement (.fmsubD rd rs1 rs2 rs3 rm) :=
  show decodeRow (r4Word rs3 0b01 rs2 rs1 rm rd 0b1000111) = some _ from
    decodeRow_at 94 rfl ((r4Word_maskR4 _ _ _ _ _ _ _).trans rfl) (by simp)

theorem fnmsubD (rd rs1 rs2 rs3 : FReg) (rm : RmField) : Statement (.fnmsubD rd rs1 rs2 rs3 rm) :=
  show decodeRow (r4Word rs3 0b01 rs2 rs1 rm rd 0b1001011) = some _ from
    decodeRow_at 95 rfl ((r4Word_maskR4 _ _ _ _ _ _ _).trans rfl) (by simp)

theorem fnmaddD (rd rs1 rs2 rs3 : FReg) (rm : RmField) : Statement (.fnmaddD rd rs1 rs2 rs3 rm) :=
  show decodeRow (r4Word rs3 0b01 rs2 rs1 rm rd 0b1001111) = some _ from
    decodeRow_at 96 rfl ((r4Word_maskR4 _ _ _ _ _ _ _).trans rfl) (by simp)

theorem fsgnjD (rd rs1 rs2 : FReg) : Statement (.fsgnjD rd rs1 rs2) :=
  show decodeRow (rWord 0b0010001 rs2 rs1 0b000 rd 0b1010011) = some _ from
    decodeRow_at 97 rfl ((rWord_maskR _ _ _ _ _ _).trans rfl) (by simp)

theorem fsgnjnD (rd rs1 rs2 : FReg) : Statement (.fsgnjnD rd rs1 rs2) :=
  show decodeRow (rWord 0b0010001 rs2 rs1 0b001 rd 0b1010011) = some _ from
    decodeRow_at 98 rfl ((rWord_maskR _ _ _ _ _ _).trans rfl) (by simp)

theorem fsgnjxD (rd rs1 rs2 : FReg) : Statement (.fsgnjxD rd rs1 rs2) :=
  show decodeRow (rWord 0b0010001 rs2 rs1 0b010 rd 0b1010011) = some _ from
    decodeRow_at 99 rfl ((rWord_maskR _ _ _ _ _ _).trans rfl) (by simp)

theorem fminD (rd rs1 rs2 : FReg) : Statement (.fminD rd rs1 rs2) :=
  show decodeRow (rWord 0b0010101 rs2 rs1 0b000 rd 0b1010011) = some _ from
    decodeRow_at 100 rfl ((rWord_maskR _ _ _ _ _ _).trans rfl) (by simp)

theorem fmaxD (rd rs1 rs2 : FReg) : Statement (.fmaxD rd rs1 rs2) :=
  show decodeRow (rWord 0b0010101 rs2 rs1 0b001 rd 0b1010011) = some _ from
    decodeRow_at 101 rfl ((rWord_maskR _ _ _ _ _ _).trans rfl) (by simp)

theorem fcvtWS (rd : XReg) (rs1 : FReg) (rm : RmField) : Statement (.fcvtWS rd rs1 rm) :=
  show decodeRow (rWord 0b1100000 0b00000 rs1 rm rd 0b1010011) = some _ from
    decodeRow_at 102 rfl ((rWord_maskUnaryRm _ _ _ _ _ _).trans rfl) (by simp)

theorem fcvtWuS (rd : XReg) (rs1 : FReg) (rm : RmField) : Statement (.fcvtWuS rd rs1 rm) :=
  show decodeRow (rWord 0b1100000 0b00001 rs1 rm rd 0b1010011) = some _ from
    decodeRow_at 103 rfl ((rWord_maskUnaryRm _ _ _ _ _ _).trans rfl) (by simp)

theorem fcvtLS (rd : XReg) (rs1 : FReg) (rm : RmField) : Statement (.fcvtLS rd rs1 rm) :=
  show decodeRow (rWord 0b1100000 0b00010 rs1 rm rd 0b1010011) = some _ from
    decodeRow_at 104 rfl ((rWord_maskUnaryRm _ _ _ _ _ _).trans rfl) (by simp)

theorem fcvtLuS (rd : XReg) (rs1 : FReg) (rm : RmField) : Statement (.fcvtLuS rd rs1 rm) :=
  show decodeRow (rWord 0b1100000 0b00011 rs1 rm rd 0b1010011) = some _ from
    decodeRow_at 105 rfl ((rWord_maskUnaryRm _ _ _ _ _ _).trans rfl) (by simp)

theorem fcvtSW (rd : FReg) (rs1 : XReg) (rm : RmField) : Statement (.fcvtSW rd rs1 rm) :=
  show decodeRow (rWord 0b1101000 0b00000 rs1 rm rd 0b1010011) = some _ from
    decodeRow_at 106 rfl ((rWord_maskUnaryRm _ _ _ _ _ _).trans rfl) (by simp)

theorem fcvtSWu (rd : FReg) (rs1 : XReg) (rm : RmField) : Statement (.fcvtSWu rd rs1 rm) :=
  show decodeRow (rWord 0b1101000 0b00001 rs1 rm rd 0b1010011) = some _ from
    decodeRow_at 107 rfl ((rWord_maskUnaryRm _ _ _ _ _ _).trans rfl) (by simp)

theorem fcvtSL (rd : FReg) (rs1 : XReg) (rm : RmField) : Statement (.fcvtSL rd rs1 rm) :=
  show decodeRow (rWord 0b1101000 0b00010 rs1 rm rd 0b1010011) = some _ from
    decodeRow_at 108 rfl ((rWord_maskUnaryRm _ _ _ _ _ _).trans rfl) (by simp)

theorem fcvtSLu (rd : FReg) (rs1 : XReg) (rm : RmField) : Statement (.fcvtSLu rd rs1 rm) :=
  show decodeRow (rWord 0b1101000 0b00011 rs1 rm rd 0b1010011) = some _ from
    decodeRow_at 109 rfl ((rWord_maskUnaryRm _ _ _ _ _ _).trans rfl) (by simp)

theorem feqS (rd : XReg) (rs1 rs2 : FReg) : Statement (.feqS rd rs1 rs2) :=
  show decodeRow (rWord 0b1010000 rs2 rs1 0b010 rd 0b1010011) = some _ from
    decodeRow_at 110 rfl ((rWord_maskR _ _ _ _ _ _).trans rfl) (by simp)

theorem fltS (rd : XReg) (rs1 rs2 : FReg) : Statement (.fltS rd rs1 rs2) :=
  show decodeRow (rWord 0b1010000 rs2 rs1 0b001 rd 0b1010011) = some _ from
    decodeRow_at 111 rfl ((rWord_maskR _ _ _ _ _ _).trans rfl) (by simp)

theorem fleS (rd : XReg) (rs1 rs2 : FReg) : Statement (.fleS rd rs1 rs2) :=
  show decodeRow (rWord 0b1010000 rs2 rs1 0b000 rd 0b1010011) = some _ from
    decodeRow_at 112 rfl ((rWord_maskR _ _ _ _ _ _).trans rfl) (by simp)

theorem fclassS (rd : XReg) (rs1 : FReg) : Statement (.fclassS rd rs1) :=
  show decodeRow (rWord 0b1110000 0b00000 rs1 0b001 rd 0b1010011) = some _ from
    decodeRow_at 113 rfl ((rWord_maskUnary _ _ _ _ _ _).trans rfl) (by simp)

theorem fcvtWD (rd : XReg) (rs1 : FReg) (rm : RmField) : Statement (.fcvtWD rd rs1 rm) :=
  show decodeRow (rWord 0b1100001 0b00000 rs1 rm rd 0b1010011) = some _ from
    decodeRow_at 114 rfl ((rWord_maskUnaryRm _ _ _ _ _ _).trans rfl) (by simp)

theorem fcvtWuD (rd : XReg) (rs1 : FReg) (rm : RmField) : Statement (.fcvtWuD rd rs1 rm) :=
  show decodeRow (rWord 0b1100001 0b00001 rs1 rm rd 0b1010011) = some _ from
    decodeRow_at 115 rfl ((rWord_maskUnaryRm _ _ _ _ _ _).trans rfl) (by simp)

theorem fcvtLD (rd : XReg) (rs1 : FReg) (rm : RmField) : Statement (.fcvtLD rd rs1 rm) :=
  show decodeRow (rWord 0b1100001 0b00010 rs1 rm rd 0b1010011) = some _ from
    decodeRow_at 116 rfl ((rWord_maskUnaryRm _ _ _ _ _ _).trans rfl) (by simp)

theorem fcvtLuD (rd : XReg) (rs1 : FReg) (rm : RmField) : Statement (.fcvtLuD rd rs1 rm) :=
  show decodeRow (rWord 0b1100001 0b00011 rs1 rm rd 0b1010011) = some _ from
    decodeRow_at 117 rfl ((rWord_maskUnaryRm _ _ _ _ _ _).trans rfl) (by simp)

theorem fcvtDW (rd : FReg) (rs1 : XReg) (rm : RmField) : Statement (.fcvtDW rd rs1 rm) :=
  show decodeRow (rWord 0b1101001 0b00000 rs1 rm rd 0b1010011) = some _ from
    decodeRow_at 118 rfl ((rWord_maskUnaryRm _ _ _ _ _ _).trans rfl) (by simp)

theorem fcvtDWu (rd : FReg) (rs1 : XReg) (rm : RmField) : Statement (.fcvtDWu rd rs1 rm) :=
  show decodeRow (rWord 0b1101001 0b00001 rs1 rm rd 0b1010011) = some _ from
    decodeRow_at 119 rfl ((rWord_maskUnaryRm _ _ _ _ _ _).trans rfl) (by simp)

theorem fcvtDL (rd : FReg) (rs1 : XReg) (rm : RmField) : Statement (.fcvtDL rd rs1 rm) :=
  show decodeRow (rWord 0b1101001 0b00010 rs1 rm rd 0b1010011) = some _ from
    decodeRow_at 120 rfl ((rWord_maskUnaryRm _ _ _ _ _ _).trans rfl) (by simp)

theorem fcvtDLu (rd : FReg) (rs1 : XReg) (rm : RmField) : Statement (.fcvtDLu rd rs1 rm) :=
  show decodeRow (rWord 0b1101001 0b00011 rs1 rm rd 0b1010011) = some _ from
    decodeRow_at 121 rfl ((rWord_maskUnaryRm _ _ _ _ _ _).trans rfl) (by simp)

theorem feqD (rd : XReg) (rs1 rs2 : FReg) : Statement (.feqD rd rs1 rs2) :=
  show decodeRow (rWord 0b1010001 rs2 rs1 0b010 rd 0b1010011) = some _ from
    decodeRow_at 122 rfl ((rWord_maskR _ _ _ _ _ _).trans rfl) (by simp)

theorem fltD (rd : XReg) (rs1 rs2 : FReg) : Statement (.fltD rd rs1 rs2) :=
  show decodeRow (rWord 0b1010001 rs2 rs1 0b001 rd 0b1010011) = some _ from
    decodeRow_at 123 rfl ((rWord_maskR _ _ _ _ _ _).trans rfl) (by simp)

theorem fleD (rd : XReg) (rs1 rs2 : FReg) : Statement (.fleD rd rs1 rs2) :=
  show decodeRow (rWord 0b1010001 rs2 rs1 0b000 rd 0b1010011) = some _ from
    decodeRow_at 124 rfl ((rWord_maskR _ _ _ _ _ _).trans rfl) (by simp)

theorem fclassD (rd : XReg) (rs1 : FReg) : Statement (.fclassD rd rs1) :=
  show decodeRow (rWord 0b1110001 0b00000 rs1 0b001 rd 0b1010011) = some _ from
    decodeRow_at 125 rfl ((rWord_maskUnary _ _ _ _ _ _).trans rfl) (by simp)

theorem fmvXW (rd : XReg) (rs1 : FReg) : Statement (.fmvXW rd rs1) :=
  show decodeRow (rWord 0b1110000 0b00000 rs1 0b000 rd 0b1010011) = some _ from
    decodeRow_at 126 rfl ((rWord_maskUnary _ _ _ _ _ _).trans rfl) (by simp)

theorem fmvWX (rd : FReg) (rs1 : XReg) : Statement (.fmvWX rd rs1) :=
  show decodeRow (rWord 0b1111000 0b00000 rs1 0b000 rd 0b1010011) = some _ from
    decodeRow_at 127 rfl ((rWord_maskUnary _ _ _ _ _ _).trans rfl) (by simp)

theorem fmvXD (rd : XReg) (rs1 : FReg) : Statement (.fmvXD rd rs1) :=
  show decodeRow (rWord 0b1110001 0b00000 rs1 0b000 rd 0b1010011) = some _ from
    decodeRow_at 128 rfl ((rWord_maskUnary _ _ _ _ _ _).trans rfl) (by simp)

theorem fmvDX (rd : FReg) (rs1 : XReg) : Statement (.fmvDX rd rs1) :=
  show decodeRow (rWord 0b1111001 0b00000 rs1 0b000 rd 0b1010011) = some _ from
    decodeRow_at 129 rfl ((rWord_maskUnary _ _ _ _ _ _).trans rfl) (by simp)

theorem fcvtSD (rd rs1 : FReg) (rm : RmField) : Statement (.fcvtSD rd rs1 rm) :=
  show decodeRow (rWord 0b0100000 0b00001 rs1 rm rd 0b1010011) = some _ from
    decodeRow_at 130 rfl ((rWord_maskUnaryRm _ _ _ _ _ _).trans rfl) (by simp)

theorem fcvtDS (rd rs1 : FReg) (rm : RmField) : Statement (.fcvtDS rd rs1 rm) :=
  show decodeRow (rWord 0b0100001 0b00000 rs1 rm rd 0b1010011) = some _ from
    decodeRow_at 131 rfl ((rWord_maskUnaryRm _ _ _ _ _ _).trans rfl) (by simp)

theorem frcsr (rd : XReg) : Statement (.frcsr rd) :=
  show decodeRow (iWord 0x003 0 0b010 rd 0b1110011) = some _ from
    decodeRow_at 132 rfl ((iWord_maskCsr _ _ _ _ _).trans rfl) (by simp)

theorem frrm (rd : XReg) : Statement (.frrm rd) :=
  show decodeRow (iWord 0x002 0 0b010 rd 0b1110011) = some _ from
    decodeRow_at 133 rfl ((iWord_maskCsr _ _ _ _ _).trans rfl) (by simp)

theorem frflags (rd : XReg) : Statement (.frflags rd) :=
  show decodeRow (iWord 0x001 0 0b010 rd 0b1110011) = some _ from
    decodeRow_at 134 rfl ((iWord_maskCsr _ _ _ _ _).trans rfl) (by simp)

theorem fsflags (rd rs1 : XReg) : Statement (.fsflags rd rs1) :=
  show decodeRow (iWord 0x001 rs1 0b001 rd 0b1110011) = some _ from
    decodeRow_at 135 rfl ((iWord_maskCsrSet _ _ _ _ _).trans rfl) (by simp)

theorem fsrm (rd rs1 : XReg) : Statement (.fsrm rd rs1) :=
  show decodeRow (iWord 0x002 rs1 0b001 rd 0b1110011) = some _ from
    decodeRow_at 136 rfl ((iWord_maskCsrSet _ _ _ _ _).trans rfl) (by simp)

theorem fscsr (rd rs1 : XReg) : Statement (.fscsr rd rs1) :=
  show decodeRow (iWord 0x003 rs1 0b001 rd 0b1110011) = some _ from
    decodeRow_at 137 rfl ((iWord_maskCsrSet _ _ _ _ _).trans rfl) (by simp)

end Sys2Proof.Laws.DecodeEncode
end

