-- ==== Sys2Proof/Laws/Reaches.lean ====
section
/-! SUPPORT. When a rounded magnitude reaches a power of two (spec/44_fp_arith.md R266 to R268): what `rint` does just
below it is what `Fmt.reaches` says, at the bound of overflow and at the bound of tininess alike. -/

namespace Sys2Proof.Machine

/-- Rounding answers the floor or its successor. -/
theorem rint_or (rm : RoundingMode) (neg : Bool) (x : Rat) :
    rint rm neg x = x.floor.toNat ∨ rint rm neg x = x.floor.toNat + 1 :=
  roundTail_or ..

/-- A number below N rounds to N or more exactly in the last half, or the last unit, below N, as the mode has it. -/
theorem rint_top (rm : RoundingMode) (neg : Bool) {x : Rat} (hx : 0 ≤ x) {N : Nat} (hN : N % 2 = 0) (hxN : x < N) :
    N ≤ rint rm neg x ↔
      match rm with
      | .rne => (N : Rat) - 1 / 2 ≤ x
      | .rmm => (N : Rat) - 1 / 2 ≤ x
      | .rtz => False
      | .rdn => neg = true ∧ (N : Rat) - 1 < x
      | .rup => neg = false ∧ (N : Rat) - 1 < x := by
  have hf : (0 : Int) ≤ ⌊x⌋ := Int.floor_nonneg.2 hx
  obtain ⟨k, hk⟩ := Int.eq_ofNat_of_zero_le hf
  have e : (⌊x⌋ : Rat) = (k : Rat) := by rw [hk]; rfl
  have h1 : (k : Rat) ≤ x := e ▸ Int.floor_le x
  have h2 : x < k + 1 := e ▸ Int.lt_floor_add_one x
  have hkN : k < N := by exact_mod_cast lt_of_le_of_lt h1 hxN
  have near : k + 1 = N ∨ (k : Rat) + 2 ≤ N := by
    rcases Nat.lt_or_ge (k + 1) N with h | h
    · exact .inr (by exact_mod_cast h)
    · exact .inl (by omega)
  unfold rint
  rw [floor_eq, e, hk, Int.toNat_natCast]
  unfold tailOf
  rcases near with rfl | h
  · have odd : k % 2 ≠ 0 := by omega
    push_cast
    split
    · cases rm <;> simp [roundTail] <;> grind
    · split
      · cases rm <;> cases neg <;> simp [roundTail] <;> grind
      · split <;> cases rm <;> cases neg <;> simp [roundTail, odd] <;> grind
  · have : ¬ N ≤ roundTail rm neg k (tailOf (x - k)) := by
      have : k + 2 ≤ N := by exact_mod_cast h
      rcases roundTail_or rm neg k (tailOf (x - k)) with h | h <;> omega
    unfold tailOf at this
    simp only [this, false_iff]
    cases rm <;> grind

/-- The magnitude rounded with an unbounded exponent reaches 2^E exactly as `Fmt.reaches` says. -/
theorem rint_reaches (fmt : Fmt) (rm : RoundingMode) {r : Rat} (hr : r ≠ 0) (E : Int) :
    (2 : Rat) ^ E ≤ (rint rm (decide (r < 0)) (|r| / (2 : Rat) ^ (floorLog2 |r| - fmt.fracBits)) : Rat) *
        (2 : Rat) ^ (floorLog2 |r| - fmt.fracBits) ↔ fmt.reaches rm r E := by
  obtain ⟨e1, e2⟩ := floorLog2_spec (abs_pos.2 hr)
  generalize hm : |r| = m at *
  set e := floorLog2 m
  set u := (2 : Rat) ^ (e - fmt.fracBits) with hu
  have up : 0 < u := by positivity
  have hx : 0 ≤ m / u := by rw [← hm]; positivity
  have ue : (2 : Rat) ^ e = ((2 ^ fmt.fracBits : Nat) : Rat) * u := by
    rw [hu]; push_cast; rw [← zpow_natCast, ← zpow_add₀ (by norm_num)]; congr 1; ring
  have ue1 : (2 : Rat) ^ (e + 1) = ((2 ^ (fmt.fracBits + 1) : Nat) : Rat) * u := by
    rw [zpow_add_one₀ (by norm_num), ue]; push_cast; ring
  have lt : m / u < ((2 ^ (fmt.fracBits + 1) : Nat) : Rat) := by rw [div_lt_iff₀ up, ← ue1]; exact e2
  have ge : ((2 ^ fmt.fracBits : Nat) : Rat) ≤ m / u := by rw [le_div_iff₀ up, ← ue]; exact e1
  have two : ∀ n : Int, (0 : Rat) < (2 : Rat) ^ n := fun n => by positivity
  have half : (2 : Rat) ^ (E - 2 - fmt.fracBits) ≤ (2 : Rat) ^ (E - 2) :=
    zpow_le_zpow_right₀ (by norm_num) (by omega)
  have unit : (2 : Rat) ^ (E - 1 - fmt.fracBits) ≤ (2 : Rat) ^ (E - 1) :=
    zpow_le_zpow_right₀ (by norm_num) (by omega)
  have s1 : (2 : Rat) ^ E = 2 * (2 : Rat) ^ (E - 1) := by
    rw [← zpow_one_add₀ (by norm_num)]; congr 1; ring
  have s2 : (2 : Rat) ^ (E - 1) = 2 * (2 : Rat) ^ (E - 2) := by
    rw [← zpow_one_add₀ (by norm_num)]; congr 1; ring
  rcases lt_trichotomy E (e + 1) with hlt | rfl | hgt
  · have hE : (2 : Rat) ^ E ≤ (2 : Rat) ^ e := zpow_le_zpow_right₀ (by norm_num) (by omega)
    have kf : 2 ^ fmt.fracBits ≤ (m / u).floor.toNat := by
      rw [floor_eq]
      have := Int.le_floor.2 (show (((2 ^ fmt.fracBits : Nat) : Int) : Rat) ≤ m / u by exact_mod_cast ge)
      omega
    have hR : ((2 ^ fmt.fracBits : Nat) : Rat) ≤ (rint rm (decide (r < 0)) (m / u) : Rat) := by
      have := rint_or rm (decide (r < 0)) (m / u)
      exact_mod_cast (show 2 ^ fmt.fracBits ≤ rint rm (decide (r < 0)) (m / u) by omega)
    refine iff_of_true (hE.trans (ue ▸ by gcongr)) ?_
    have := two (E - 2 - fmt.fracBits)
    have := two (E - 1 - fmt.fracBits)
    unfold Fmt.reaches
    rw [hm]
    cases rm <;> simp only <;> (try split) <;> linarith
  · rw [ue1, mul_le_mul_iff_left₀ up, Nat.cast_le, rint_top rm _ hx (by rw [pow_succ]; omega) lt]
    have u1 : (2 : Rat) ^ (e + 1 - 1 - fmt.fracBits) = u := by rw [hu]; congr 1; ring
    have u2 : (2 : Rat) ^ (e + 1 - 2 - fmt.fracBits) = u / 2 := by
      rw [hu, eq_div_iff (by norm_num), ← zpow_add_one₀ (by norm_num)]; congr 1; ring
    unfold Fmt.reaches
    rw [hm, u1, u2, ue1]
    have no : ¬ ((2 ^ (fmt.fracBits + 1) : Nat) : Rat) * u ≤ m := by rw [← ue1]; exact not_le.2 e2
    have c1 : ((2 ^ (fmt.fracBits + 1) : Nat) : Rat) - 1 / 2 ≤ m / u ↔
        ((2 ^ (fmt.fracBits + 1) : Nat) : Rat) * u - u / 2 ≤ m := by rw [le_div_iff₀ up, sub_mul]; ring_nf
    have c2 : ((2 ^ (fmt.fracBits + 1) : Nat) : Rat) - 1 < m / u ↔
        ((2 ^ (fmt.fracBits + 1) : Nat) : Rat) * u - u < m := by rw [lt_div_iff₀ up, sub_mul, one_mul]
    cases rm <;> by_cases h : r < 0 <;>
      simp only [c1, c2, h, no, decide_true, decide_false, if_true, if_false, true_and, Bool.false_eq_true, false_and,
        reduceCtorEq]
  · have hE : (2 : Rat) ^ (e + 1) ≤ (2 : Rat) ^ (E - 1) := zpow_le_zpow_right₀ (by norm_num) (by omega)
    have hR : (rint rm (decide (r < 0)) (m / u) : Rat) ≤ ((2 ^ (fmt.fracBits + 1) : Nat) : Rat) := by
      have kf : (m / u).floor.toNat < 2 ^ (fmt.fracBits + 1) := by
        rw [floor_eq]
        have := Int.floor_lt.2 (show m / u < (((2 ^ (fmt.fracBits + 1) : Nat) : Int) : Rat) by exact_mod_cast lt)
        have : (0 : Int) ≤ ⌊m / u⌋ := Int.floor_nonneg.2 hx
        omega
      have := rint_or rm (decide (r < 0)) (m / u)
      exact_mod_cast (show rint rm (decide (r < 0)) (m / u) ≤ 2 ^ (fmt.fracBits + 1) by omega)
    have := two (E - 2)
    refine iff_of_false (not_le.2 (lt_of_le_of_lt (mul_le_mul_of_nonneg_right hR up.le) ?_)) ?_
    · rw [← ue1]; linarith
    · unfold Fmt.reaches
      rw [hm]
      cases rm <;> simp only <;> (try split) <;> simp only [not_le, not_lt] <;> linarith

end Sys2Proof.Machine
end

