-- ==== Sys2Proof/Laws/Values.lean ====
section
/-! SUPPORT. XLEN-bit values in their 64-bit homes (log entry 2): canonical values, addresses, immediates and shift
amounts as numbers, what an integer operation answers at each XLEN (spec/40_integer_alu.md R110 to R113), and the
operations of the other units as numbers. -/

namespace Sys2Proof.Machine

variable {s : State}

/-! ## Extension and truncation -/

theorem toInt_signExtend_of_le {n : Nat} (hn : n ≤ 64) (v : BitVec n) : (v.signExtend 64).toInt = v.toInt :=
  BitVec.toInt_signExtend_of_le hn

/-- The low word of a sign-extended word. -/
theorem low_signExtend (v : BitVec 32) : (v.signExtend 64).setWidth 32 = v := by
  ext k hk
  rw [BitVec.getElem_setWidth, BitVec.getLsbD_signExtend]
  simp [hk]
  omega

/-- A sign-extended value of at most 32 bits is canonical at both XLENs. -/
theorem canon_signExtend (xl : XLen) {n : Nat} (hn : n ≤ 32) (v : BitVec n) :
    xl.canon (v.signExtend 64) = v.signExtend 64 := by
  cases xl with
  | rv64 => rfl
  | rv32 =>
    have : v.signExtend 64 = (v.signExtend 32).signExtend 64 := by
      apply BitVec.eq_of_toInt_eq
      rw [BitVec.toInt_signExtend_of_le (by omega), BitVec.toInt_signExtend_of_le (by omega),
        BitVec.toInt_signExtend_of_le (by omega)]
    rw [this]
    simp only [XLen.canon, low_signExtend]

/-- A small non-negative value is canonical at both XLENs. -/
theorem canon_small (xl : XLen) {v : Word} (h : v.toNat < 2 ^ 31) : xl.canon v = v := by
  cases xl with
  | rv64 => rfl
  | rv32 =>
    apply BitVec.eq_of_toInt_eq
    simp only [XLen.canon]
    rw [BitVec.toInt_signExtend_of_le (by decide), BitVec.toInt_eq_toNat_of_lt, BitVec.toInt_eq_toNat_of_lt] <;>
      simp <;> omega

theorem low_ofInt (z : Int) : (BitVec.ofInt 64 z).setWidth 32 = BitVec.ofInt 32 z := by
  apply BitVec.eq_of_toNat_eq
  simp [BitVec.toNat_setWidth, BitVec.toNat_ofInt]
  omega

/-- The unsigned reading is the signed one modulo 2^w. -/
theorem toNat_eq_emod {w : Nat} (b : BitVec w) : (b.toNat : Int) = b.toInt % 2 ^ w := by
  have h := @Int.bmod_emod (b.toNat : Int) (2 ^ w)
  push_cast at h
  rw [BitVec.toInt_eq_toNat_bmod, h, Int.emod_eq_of_lt (by omega) (by have := b.isLt; exact_mod_cast this)]

theorem XLen.addr_toNat (xl : XLen) (v : Word) : (xl.addr v).toNat = v.toNat % 2 ^ xl.bits := by
  cases xl <;> simp [XLen.addr, XLen.bits] <;> omega

/-! ## Register values -/

/-- At XLEN = 32 a register reads as a sign-extended word. -/
theorem State.readX_rv32 (h : s.env.xlen = .rv32) (i : XReg) : s.readX i = (s.lowX i).signExtend 64 := by
  have : ∃ v : BitVec 32, s.readX i = v.signExtend 64 := by
    unfold State.readX
    split
    · exact ⟨0, rfl⟩
    · rw [h]; exact ⟨_, rfl⟩
  obtain ⟨v, hv⟩ := this
  rw [State.lowX, hv, low_signExtend]

/-- A register value is canonical. -/
theorem State.canon_readX (s : State) (i : XReg) : s.env.xlen.canon (s.readX i) = s.readX i := by
  cases h : s.env.xlen with
  | rv64 => rfl
  | rv32 => rw [State.readX_rv32 h, canon_signExtend _ (by decide)]

theorem State.unsignedX_rv64 (h : s.env.xlen = .rv64) (i : XReg) : s.unsignedX i = (s.readX i).toNat := by
  simp [State.unsignedX, h, XLen.addr]

theorem State.unsignedX_rv32 (h : s.env.xlen = .rv32) (i : XReg) : s.unsignedX i = (s.lowX i).toNat := by
  simp [State.unsignedX, State.lowX, h, XLen.addr]
  omega

theorem State.signedX_rv32 (h : s.env.xlen = .rv32) (i : XReg) : s.signedX i = (s.lowX i).toInt := by
  rw [State.signedX, State.readX_rv32 h, toInt_signExtend_of_le (by decide)]

theorem State.trunc_rv64 (h : s.env.xlen = .rv64) (z : Int) : s.trunc z = BitVec.ofInt 64 z := by
  simp [State.trunc, h, XLen.canon]

theorem State.trunc_rv32 (h : s.env.xlen = .rv32) (z : Int) : s.trunc z = (BitVec.ofInt 32 z).signExtend 64 := by
  simp only [State.trunc, h, XLen.canon, low_ofInt]

/-- What an operation on two registers writes, at each XLEN (R110). -/
theorem State.canon_atXLen (s : State) (f : IntOp) (a b : Word) :
    s.env.xlen.canon (f.atXLen s.env.xlen a b) =
      match s.env.xlen with
      | .rv64 => f 64 a b
      | .rv32 => (f 32 (a.setWidth 32) (b.setWidth 32)).signExtend 64 := by
  cases s.env.xlen with
  | rv64 => rfl
  | rv32 => exact canon_signExtend .rv32 (by decide) _

/-! ## Immediates and shift amounts (R89) -/

theorem immOperand_toInt (imm : BitVec 12) : (immOperand imm).toInt = imm.toInt :=
  BitVec.toInt_signExtend_of_le (by decide)

theorem immOperand_low (imm : BitVec 12) : (immOperand imm).setWidth 32 = imm.signExtend 32 := by
  have h : immOperand imm = (imm.signExtend 32).signExtend 64 := by
    apply BitVec.eq_of_toInt_eq
    rw [immOperand_toInt, BitVec.toInt_signExtend_of_le (by decide), BitVec.toInt_signExtend_of_le (by decide)]
  rw [h, low_signExtend]

theorem shamtOperand_toNat {n : Nat} (hn : n ≤ 64) (shamt : BitVec n) : (shamtOperand shamt).toNat = shamt.toNat := by
  have := shamt.isLt
  have : 2 ^ n ≤ 2 ^ 64 := Nat.pow_le_pow_right (by decide) hn
  rw [shamtOperand, BitVec.toNat_setWidth, Nat.mod_eq_of_lt (by omega)]

/-! ## Loaded values (R51, R171) -/

theorem State.leNat_lt (s : State) (a : Word) {n : Nat} (hn : n ≤ 8) : s.leNat a n < 2 ^ (8 * n) := by
  have := (s.loadBytes_toNat a hn).2
  rwa [show 256 ^ n = 2 ^ (8 * n) by rw [Nat.pow_mul]] at this

theorem State.sextLow_loadBytes (s : State) (a : Word) {n : Nat} (w : Nat) (hn : n ≤ 8) :
    sextLow w (s.loadBytes a n) = (BitVec.ofNat w (s.leNat a n)).signExtend 64 := by
  unfold sextLow
  congr 1
  rw [← (s.loadBytes_toNat a hn).1]
  simp

theorem State.zextLow_loadBytes (s : State) (a : Word) {n : Nat} (hn : n ≤ 8) :
    zextLow (8 * n) (s.loadBytes a n) = BitVec.ofNat 64 (s.leNat a n) := by
  apply BitVec.eq_of_toNat_eq
  rw [zextLow, BitVec.toNat_setWidth, BitVec.toNat_setWidth, (s.loadBytes_toNat a hn).1,
    Nat.mod_eq_of_lt (s.leNat_lt a hn), BitVec.toNat_ofNat]

theorem State.loadBytes_word (s : State) (rs1 : XReg) : (s.loadBytes (s.atomAddr rs1) 4).setWidth 32 = s.memWord rs1 := by
  unfold State.memWord
  rw [← (s.loadBytes_toNat _ (show 4 ≤ 8 by decide)).1]
  simp

theorem State.loadBytes_double (s : State) (rs1 : XReg) : s.loadBytes (s.atomAddr rs1) 8 = s.memDouble rs1 := by
  unfold State.memDouble
  rw [← (s.loadBytes_toNat _ (show 8 ≤ 8 by decide)).1]
  simp

/-- A word stored from a sign-extended value is the word. -/
theorem State.cells_signExtend (s : State) (a : Word) (r : BitVec 32) :
    s.cells a 4 (r.signExtend 64).toNat = s.cells a 4 r.toNat := by
  unfold State.cells
  apply List.map_congr_left
  intro i hi
  have hi : i < 4 := by simpa using hi
  have h : (r.signExtend 64).toNat % 2 ^ 32 = r.toNat := by
    have := congrArg BitVec.toNat (low_signExtend r)
    rwa [BitVec.toNat_setWidth] at this
  congr 1
  apply BitVec.eq_of_toNat_eq
  have : i = 0 ∨ i = 1 ∨ i = 2 ∨ i = 3 := by omega
  rcases this with rfl | rfl | rfl | rfl <;> simp <;> omega

/-! ## Operations as numbers -/

theorem toInt_eq_zero_iff {w : Nat} (b : BitVec w) : b.toInt = 0 ↔ b = 0#w := by
  rw [← BitVec.toInt_zero (w := w)]
  exact ⟨BitVec.eq_of_toInt_eq, fun h => by rw [h]⟩

theorem toInt_eq_min_iff {w : Nat} (hw : 1 < w) (b : BitVec w) : b.toInt = -2 ^ (w - 1) ↔ b = BitVec.intMin w := by
  have : (BitVec.intMin w).toInt = -2 ^ (w - 1) := by rw [BitVec.toInt_intMin_of_pos (by omega)]
  rw [← this]
  exact ⟨BitVec.eq_of_toInt_eq, fun h => by rw [h]⟩

theorem toInt_eq_neg_one_iff {w : Nat} (hw : 1 < w) (b : BitVec w) : b.toInt = -1 ↔ b = BitVec.allOnes w := by
  have : (BitVec.allOnes w).toInt = -1 := by rw [BitVec.toInt_allOnes]; simp; omega
  rw [← this]
  exact ⟨BitVec.eq_of_toInt_eq, fun h => by rw [h]⟩

theorem ofInt_neg_one (w : Nat) : BitVec.ofInt w (-1) = BitVec.allOnes w := by
  rw [BitVec.ofInt_neg]
  simp [BitVec.neg_one_eq_allOnes]

theorem opMin_eq {w : Nat} (a b : BitVec w) : opMin w a b = BitVec.ofInt w (min a.toInt b.toInt) := by
  simp only [opMin, BitVec.sle_iff_toInt_le, min_def]
  split <;> simp_all

theorem opMax_eq {w : Nat} (a b : BitVec w) : opMax w a b = BitVec.ofInt w (max a.toInt b.toInt) := by
  simp only [opMax, BitVec.sle_iff_toInt_le, max_def]
  rcases lt_trichotomy a.toInt b.toInt with h | h | h
  · rw [if_neg (by omega), if_pos (by omega)]; simp
  · rw [if_pos (by omega), if_pos (by omega), ← h]; simp
  · rw [if_pos (by omega), if_neg (by omega)]; simp

theorem opMinu_eq {w : Nat} (a b : BitVec w) : opMinu w a b = BitVec.ofNat w (min a.toNat b.toNat) := by
  simp only [opMinu, BitVec.ule_iff_toNat_le, min_def]
  split <;> simp_all

theorem opMaxu_eq {w : Nat} (a b : BitVec w) : opMaxu w a b = BitVec.ofNat w (max a.toNat b.toNat) := by
  simp only [opMaxu, BitVec.ule_iff_toNat_le, max_def]
  rcases lt_trichotomy a.toNat b.toNat with h | h | h
  · rw [if_neg (by omega), if_pos (by omega)]; simp
  · rw [if_pos (by omega), if_pos (by omega), ← h]; simp
  · rw [if_pos (by omega), if_neg (by omega)]; simp

end Sys2Proof.Machine
end

