-- ==== Sys2Proof/Tests/Slice0.lean ====
section
/-! SUPPORT. Tests: ill-formed terms, a written word for every instruction, one-step vectors taken from
spec/95_test_vectors.md (two for an instruction), and a witness for the hypotheses of every statement. -/

namespace Sys2Proof.Tests

set_option Elab.async false

open Sys2Proof Sys2Proof.Machine

/-! ## Small states -/

/-- A state after reset with the given integer and floating-point registers, the doubleword `m` at 0x2000, `frm` and
`fflags`; the bytes 0x2000 to 0x200F exist and no store-conditional draw fails. -/
def start (x : List (XReg × Word) := []) (f : List (FReg × Word) := []) (m : Nat := 0) (frm : RmField := 0)
    (fflags : Flags := 0) : State :=
  let e := { Env.default with memMap := [⟨0x2000, 16⟩], scMayFail := false }
  let s := State.launch e (Vector.replicate 32 0) (Vector.replicate 32 0) []
  let s := x.foldl (fun s c => s.writeX c.1 c.2) s
  let s := f.foldl (fun s c => s.writeF c.1 c.2) s
  let s := (List.range 8).foldl (fun s i => s.writeByte (0x2000 + i) (BitVec.ofNat 8 (m / 256 ^ i))) s
  { s with frm := frm, fflags := fflags }

/-- The same state at XLEN = 32. -/
def at32 (s : State) : State := { s with env := { s.env with xlen := .rv32 } }

/-- The same state with misaligned accesses done byte by byte. -/
def bytewise (s : State) : State := { s with env := { s.env with misaligned := .bytewise } }

/-- One step that runs the word. -/
def run (s : State) (w : Nat) : Host.Outcome State Fault Refusal := step (s.withFetchWord 32 w)

/-- What holds of the next state, if there is one. -/
def after (o : Host.Outcome State Fault Refusal) (p : State → Bool) : Bool :=
  match o with
  | .next t => p t
  | .fault _ => false
  | .refused _ => false

/-- The outcome is this fault. -/
def faults (o : Host.Outcome State Fault Refusal) (f : Fault) : Bool :=
  match o with
  | .next _ => false
  | .fault g => g == f
  | .refused _ => false

/-- The outcome is this refusal. -/
def refuses (o : Host.Outcome State Fault Refusal) (r : Refusal) : Bool :=
  match o with
  | .next _ => false
  | .fault _ => false
  | .refused q => q == r

/-- The step leaves `v` in `x[r]` and goes to the next instruction. -/
def givesX (s : State) (w : Nat) (r : XReg) (v : Word) : Bool :=
  after (run s w) (fun t => t.readX r == v && t.pc == 0x1004)

/-- The step leaves `v` in `x[r]` and these flags. -/
def givesXFlags (s : State) (w : Nat) (r : XReg) (v : Word) (flags : Flags) : Bool :=
  after (run s w) (fun t => t.readX r == v && t.fflags == flags)

/-- The step leaves `v` in `f[r]` and these flags. -/
def givesF (s : State) (w : Nat) (r : FReg) (v : Word) (flags : Flags) : Bool :=
  after (run s w) (fun t => t.readF r == v && t.fflags == flags)

/-- The step leaves `v` in x12, and these frm and flags. -/
def givesCsr (s : State) (w : Nat) (v : Word) (frm : RmField) (flags : Flags) : Bool :=
  after (run s w) (fun t => t.readX 12 == v && t.frm == frm && t.fflags == flags)

/-- The step leaves the doubleword `v` at `a`. -/
def leaves (s : State) (w : Nat) (a : Word) (v : Nat) : Bool := after (run s w) (fun t => t.leNat a 8 == v)

theorem next_of_completes {o : Host.Outcome State Fault Refusal} (h : after o (fun _ => true) = true) :
    ∃ t, o = .next t := by
  cases o <;> simp_all [after]

theorem eq_of_faults {o : Host.Outcome State Fault Refusal} {f : Fault} (h : faults o f = true) : o = .fault f := by
  cases o <;> simp_all [faults]

theorem eq_of_refuses {o : Host.Outcome State Fault Refusal} {r : Refusal} (h : refuses o r = true) :
    o = .refused r := by
  cases o <;> simp_all [refuses]

/-! ## Ill-formed terms, and words decoding refuses -/

theorem test_wellFormed_rmOk :
    (Instr.faddS 3 1 2 5).wellFormed .rv64 = false ∧ (Instr.fcvtWD 3 1 6).wellFormed .rv64 = false ∧
    decode .rv64 (encode (.faddS 3 1 2 5)) = .illegal ∧ decode .rv64 (encode (.fcvtWD 3 1 6)) = .illegal := by
  decide

theorem test_wellFormed_existsAt :
    (Instr.addw 5 6 7).wellFormed .rv32 = false ∧ (Instr.addw 5 6 7).wellFormed .rv64 = true ∧
    decode .rv32 (encode (.addw 5 6 7)) = .illegal := by
  decide

theorem test_wellFormed_shamtOk :
    (Instr.slli 5 6 32).wellFormed .rv32 = false ∧ (Instr.slli 5 6 31).wellFormed .rv32 = true ∧
    (Instr.slli 5 6 32).wellFormed .rv64 = true ∧ decode .rv32 (encode (.slli 5 6 32)) = .illegal := by
  decide

/-- spec/95_test_vectors.md section 2.8. -/
theorem test_decode_outside :
    refuses (run start 0x00000000) (.notInCore 0x00000000) ∧ refuses (run start 0x00000001) (.notInCore 0x00000001) ∧
    refuses (run start 0x00000063) (.notInCore 0x00000063) ∧ refuses (run start 0x0000006F) (.notInCore 0x0000006F) ∧
    refuses (run start 0x00000067) (.notInCore 0x00000067) ∧ refuses (run start 0x00000037) (.notInCore 0x00000037) ∧
    refuses (run start 0x00000017) (.notInCore 0x00000017) ∧ refuses (run start 0x0FF0000F) (.notInCore 0x0FF0000F) ∧
    refuses (run start 0x00000073) (.notInCore 0x00000073) ∧ refuses (run start 0x00002007) (.notInCore 0x00002007) ∧
    refuses (run start 0x00003027) (.notInCore 0x00003027) ∧ refuses (run start 0x00305073) (.notInCore 0x00305073) ∧
    refuses (run start 0x0010A073) (.notInCore 0x0010A073) := by
  decide +kernel

/-- spec/95_test_vectors.md section 2.8. -/
theorem test_decode_illegal :
    faults (run start 0x0000000B) (.illegalInstruction 0x1000) ∧
    faults (run start 0xFFFFFFFF) (.illegalInstruction 0x1000) ∧
    faults (run start 0x04051613) (.illegalInstruction 0x1000) ∧
    faults (run start 0x40051613) (.illegalInstruction 0x1000) ∧
    faults (run start 0x0205161B) (.illegalInstruction 0x1000) ∧
    faults (run start 0x10B5262F) (.illegalInstruction 0x1000) ∧
    faults (run start 0x00B5162F) (.illegalInstruction 0x1000) ∧
    faults (run start 0x0020D1D3) (.illegalInstruction 0x1000) ∧
    faults (run start 0x042081D3) (.illegalInstruction 0x1000) := by
  decide +kernel

/-! ## A word for every instruction

The words are the `encoding` strings of spec/opcode_table.json with rd = 5 (00101), rs1 = 18 (10010), rs2 = 11 (01011),
rs3 = 28 (11100), rm = 3 (011), a 12-bit immediate 0xA5C (101001011100), a shift amount 45 (101101) or 22 (10110),
aq = 1 and rl = 0 in their places. -/

theorem test_decode_alu_register :
    decode .rv64 0b00000000101110010000001010110011 = .instr (.add 5 18 11) ∧
    decode .rv64 0b01000000101110010000001010110011 = .instr (.sub 5 18 11) ∧
    decode .rv64 0b00000000101110010001001010110011 = .instr (.sll 5 18 11) ∧
    decode .rv64 0b00000000101110010010001010110011 = .instr (.slt 5 18 11) ∧
    decode .rv64 0b00000000101110010011001010110011 = .instr (.sltu 5 18 11) ∧
    decode .rv64 0b00000000101110010100001010110011 = .instr (.xor 5 18 11) ∧
    decode .rv64 0b00000000101110010101001010110011 = .instr (.srl 5 18 11) ∧
    decode .rv64 0b01000000101110010101001010110011 = .instr (.sra 5 18 11) ∧
    decode .rv64 0b00000000101110010110001010110011 = .instr (.or 5 18 11) ∧
    decode .rv64 0b00000000101110010111001010110011 = .instr (.and 5 18 11) := by
  decide

theorem test_decode_alu_immediate :
    decode .rv64 0b10100101110010010000001010010011 = .instr (.addi 5 18 0xA5C) ∧
    decode .rv64 0b10100101110010010010001010010011 = .instr (.slti 5 18 0xA5C) ∧
    decode .rv64 0b10100101110010010011001010010011 = .instr (.sltiu 5 18 0xA5C) ∧
    decode .rv64 0b10100101110010010100001010010011 = .instr (.xori 5 18 0xA5C) ∧
    decode .rv64 0b10100101110010010110001010010011 = .instr (.ori 5 18 0xA5C) ∧
    decode .rv64 0b10100101110010010111001010010011 = .instr (.andi 5 18 0xA5C) ∧
    decode .rv64 0b00000010110110010001001010010011 = .instr (.slli 5 18 45) ∧
    decode .rv64 0b00000010110110010101001010010011 = .instr (.srli 5 18 45) ∧
    decode .rv64 0b01000010110110010101001010010011 = .instr (.srai 5 18 45) := by
  decide

theorem test_decode_alu_word :
    decode .rv64 0b00000000101110010000001010111011 = .instr (.addw 5 18 11) ∧
    decode .rv64 0b01000000101110010000001010111011 = .instr (.subw 5 18 11) ∧
    decode .rv64 0b00000000101110010001001010111011 = .instr (.sllw 5 18 11) ∧
    decode .rv64 0b00000000101110010101001010111011 = .instr (.srlw 5 18 11) ∧
    decode .rv64 0b01000000101110010101001010111011 = .instr (.sraw 5 18 11) ∧
    decode .rv64 0b10100101110010010000001010011011 = .instr (.addiw 5 18 0xA5C) ∧
    decode .rv64 0b00000001011010010001001010011011 = .instr (.slliw 5 18 22) ∧
    decode .rv64 0b00000001011010010101001010011011 = .instr (.srliw 5 18 22) ∧
    decode .rv64 0b01000001011010010101001010011011 = .instr (.sraiw 5 18 22) := by
  decide

theorem test_decode_load_store :
    decode .rv64 0b10100101110010010000001010000011 = .instr (.lb 5 18 0xA5C) ∧
    decode .rv64 0b10100101110010010001001010000011 = .instr (.lh 5 18 0xA5C) ∧
    decode .rv64 0b10100101110010010010001010000011 = .instr (.lw 5 18 0xA5C) ∧
    decode .rv64 0b10100101110010010011001010000011 = .instr (.ld 5 18 0xA5C) ∧
    decode .rv64 0b10100101110010010100001010000011 = .instr (.lbu 5 18 0xA5C) ∧
    decode .rv64 0b10100101110010010101001010000011 = .instr (.lhu 5 18 0xA5C) ∧
    decode .rv64 0b10100101110010010110001010000011 = .instr (.lwu 5 18 0xA5C) ∧
    decode .rv64 0b10100100101110010000111000100011 = .instr (.sb 18 11 0xA5C) ∧
    decode .rv64 0b10100100101110010001111000100011 = .instr (.sh 18 11 0xA5C) ∧
    decode .rv64 0b10100100101110010010111000100011 = .instr (.sw 18 11 0xA5C) ∧
    decode .rv64 0b10100100101110010011111000100011 = .instr (.sd 18 11 0xA5C) := by
  decide

theorem test_decode_multiply_divide :
    decode .rv64 0b00000010101110010000001010110011 = .instr (.mul 5 18 11) ∧
    decode .rv64 0b00000010101110010001001010110011 = .instr (.mulh 5 18 11) ∧
    decode .rv64 0b00000010101110010010001010110011 = .instr (.mulhsu 5 18 11) ∧
    decode .rv64 0b00000010101110010011001010110011 = .instr (.mulhu 5 18 11) ∧
    decode .rv64 0b00000010101110010000001010111011 = .instr (.mulw 5 18 11) ∧
    decode .rv64 0b00000010101110010100001010110011 = .instr (.div 5 18 11) ∧
    decode .rv64 0b00000010101110010101001010110011 = .instr (.divu 5 18 11) ∧
    decode .rv64 0b00000010101110010110001010110011 = .instr (.rem 5 18 11) ∧
    decode .rv64 0b00000010101110010111001010110011 = .instr (.remu 5 18 11) ∧
    decode .rv64 0b00000010101110010100001010111011 = .instr (.divw 5 18 11) ∧
    decode .rv64 0b00000010101110010101001010111011 = .instr (.divuw 5 18 11) ∧
    decode .rv64 0b00000010101110010110001010111011 = .instr (.remw 5 18 11) ∧
    decode .rv64 0b00000010101110010111001010111011 = .instr (.remuw 5 18 11) := by
  decide

theorem test_decode_atomic_word :
    decode .rv64 0b00001100101110010010001010101111 = .instr (.amoswapW true false 5 18 11) ∧
    decode .rv64 0b00000100101110010010001010101111 = .instr (.amoaddW true false 5 18 11) ∧
    decode .rv64 0b00100100101110010010001010101111 = .instr (.amoxorW true false 5 18 11) ∧
    decode .rv64 0b01100100101110010010001010101111 = .instr (.amoandW true false 5 18 11) ∧
    decode .rv64 0b01000100101110010010001010101111 = .instr (.amoorW true false 5 18 11) ∧
    decode .rv64 0b10000100101110010010001010101111 = .instr (.amominW true false 5 18 11) ∧
    decode .rv64 0b10100100101110010010001010101111 = .instr (.amomaxW true false 5 18 11) ∧
    decode .rv64 0b11000100101110010010001010101111 = .instr (.amominuW true false 5 18 11) ∧
    decode .rv64 0b11100100101110010010001010101111 = .instr (.amomaxuW true false 5 18 11) := by
  decide

theorem test_decode_atomic_double :
    decode .rv64 0b00001100101110010011001010101111 = .instr (.amoswapD true false 5 18 11) ∧
    decode .rv64 0b00000100101110010011001010101111 = .instr (.amoaddD true false 5 18 11) ∧
    decode .rv64 0b00100100101110010011001010101111 = .instr (.amoxorD true false 5 18 11) ∧
    decode .rv64 0b01100100101110010011001010101111 = .instr (.amoandD true false 5 18 11) ∧
    decode .rv64 0b01000100101110010011001010101111 = .instr (.amoorD true false 5 18 11) ∧
    decode .rv64 0b10000100101110010011001010101111 = .instr (.amominD true false 5 18 11) ∧
    decode .rv64 0b10100100101110010011001010101111 = .instr (.amomaxD true false 5 18 11) ∧
    decode .rv64 0b11000100101110010011001010101111 = .instr (.amominuD true false 5 18 11) ∧
    decode .rv64 0b11100100101110010011001010101111 = .instr (.amomaxuD true false 5 18 11) := by
  decide

theorem test_decode_reserved_conditional :
    decode .rv64 0b00010100000010010010001010101111 = .instr (.lrW true false 5 18) ∧
    decode .rv64 0b00010100000010010011001010101111 = .instr (.lrD true false 5 18) ∧
    decode .rv64 0b00011100101110010010001010101111 = .instr (.scW true false 5 18 11) ∧
    decode .rv64 0b00011100101110010011001010101111 = .instr (.scD true false 5 18 11) := by
  decide

theorem test_decode_fp_arith_single :
    decode .rv64 0b00000000101110010011001011010011 = .instr (.faddS 5 18 11 3) ∧
    decode .rv64 0b00001000101110010011001011010011 = .instr (.fsubS 5 18 11 3) ∧
    decode .rv64 0b00010000101110010011001011010011 = .instr (.fmulS 5 18 11 3) ∧
    decode .rv64 0b00011000101110010011001011010011 = .instr (.fdivS 5 18 11 3) ∧
    decode .rv64 0b01011000000010010011001011010011 = .instr (.fsqrtS 5 18 3) ∧
    decode .rv64 0b11100000101110010011001011000011 = .instr (.fmaddS 5 18 11 28 3) ∧
    decode .rv64 0b11100000101110010011001011000111 = .instr (.fmsubS 5 18 11 28 3) ∧
    decode .rv64 0b11100000101110010011001011001011 = .instr (.fnmsubS 5 18 11 28 3) ∧
    decode .rv64 0b11100000101110010011001011001111 = .instr (.fnmaddS 5 18 11 28 3) ∧
    decode .rv64 0b00100000101110010000001011010011 = .instr (.fsgnjS 5 18 11) ∧
    decode .rv64 0b00100000101110010001001011010011 = .instr (.fsgnjnS 5 18 11) ∧
    decode .rv64 0b00100000101110010010001011010011 = .instr (.fsgnjxS 5 18 11) ∧
    decode .rv64 0b00101000101110010000001011010011 = .instr (.fminS 5 18 11) ∧
    decode .rv64 0b00101000101110010001001011010011 = .instr (.fmaxS 5 18 11) := by
  decide

theorem test_decode_fp_arith_double :
    decode .rv64 0b00000010101110010011001011010011 = .instr (.faddD 5 18 11 3) ∧
    decode .rv64 0b00001010101110010011001011010011 = .instr (.fsubD 5 18 11 3) ∧
    decode .rv64 0b00010010101110010011001011010011 = .instr (.fmulD 5 18 11 3) ∧
    decode .rv64 0b00011010101110010011001011010011 = .instr (.fdivD 5 18 11 3) ∧
    decode .rv64 0b01011010000010010011001011010011 = .instr (.fsqrtD 5 18 3) ∧
    decode .rv64 0b11100010101110010011001011000011 = .instr (.fmaddD 5 18 11 28 3) ∧
    decode .rv64 0b11100010101110010011001011000111 = .instr (.fmsubD 5 18 11 28 3) ∧
    decode .rv64 0b11100010101110010011001011001011 = .instr (.fnmsubD 5 18 11 28 3) ∧
    decode .rv64 0b11100010101110010011001011001111 = .instr (.fnmaddD 5 18 11 28 3) ∧
    decode .rv64 0b00100010101110010000001011010011 = .instr (.fsgnjD 5 18 11) ∧
    decode .rv64 0b00100010101110010001001011010011 = .instr (.fsgnjnD 5 18 11) ∧
    decode .rv64 0b00100010101110010010001011010011 = .instr (.fsgnjxD 5 18 11) ∧
    decode .rv64 0b00101010101110010000001011010011 = .instr (.fminD 5 18 11) ∧
    decode .rv64 0b00101010101110010001001011010011 = .instr (.fmaxD 5 18 11) := by
  decide

theorem test_decode_fp_convert_single :
    decode .rv64 0b11000000000010010011001011010011 = .instr (.fcvtWS 5 18 3) ∧
    decode .rv64 0b11000000000110010011001011010011 = .instr (.fcvtWuS 5 18 3) ∧
    decode .rv64 0b11000000001010010011001011010011 = .instr (.fcvtLS 5 18 3) ∧
    decode .rv64 0b11000000001110010011001011010011 = .instr (.fcvtLuS 5 18 3) ∧
    decode .rv64 0b11010000000010010011001011010011 = .instr (.fcvtSW 5 18 3) ∧
    decode .rv64 0b11010000000110010011001011010011 = .instr (.fcvtSWu 5 18 3) ∧
    decode .rv64 0b11010000001010010011001011010011 = .instr (.fcvtSL 5 18 3) ∧
    decode .rv64 0b11010000001110010011001011010011 = .instr (.fcvtSLu 5 18 3) ∧
    decode .rv64 0b10100000101110010010001011010011 = .instr (.feqS 5 18 11) ∧
    decode .rv64 0b10100000101110010001001011010011 = .instr (.fltS 5 18 11) ∧
    decode .rv64 0b10100000101110010000001011010011 = .instr (.fleS 5 18 11) ∧
    decode .rv64 0b11100000000010010001001011010011 = .instr (.fclassS 5 18) := by
  decide

theorem test_decode_fp_convert_double :
    decode .rv64 0b11000010000010010011001011010011 = .instr (.fcvtWD 5 18 3) ∧
    decode .rv64 0b11000010000110010011001011010011 = .instr (.fcvtWuD 5 18 3) ∧
    decode .rv64 0b11000010001010010011001011010011 = .instr (.fcvtLD 5 18 3) ∧
    decode .rv64 0b11000010001110010011001011010011 = .instr (.fcvtLuD 5 18 3) ∧
    decode .rv64 0b11010010000010010011001011010011 = .instr (.fcvtDW 5 18 3) ∧
    decode .rv64 0b11010010000110010011001011010011 = .instr (.fcvtDWu 5 18 3) ∧
    decode .rv64 0b11010010001010010011001011010011 = .instr (.fcvtDL 5 18 3) ∧
    decode .rv64 0b11010010001110010011001011010011 = .instr (.fcvtDLu 5 18 3) ∧
    decode .rv64 0b10100010101110010010001011010011 = .instr (.feqD 5 18 11) ∧
    decode .rv64 0b10100010101110010001001011010011 = .instr (.fltD 5 18 11) ∧
    decode .rv64 0b10100010101110010000001011010011 = .instr (.fleD 5 18 11) ∧
    decode .rv64 0b11100010000010010001001011010011 = .instr (.fclassD 5 18) := by
  decide

theorem test_decode_fp_move :
    decode .rv64 0b11100000000010010000001011010011 = .instr (.fmvXW 5 18) ∧
    decode .rv64 0b11110000000010010000001011010011 = .instr (.fmvWX 5 18) ∧
    decode .rv64 0b11100010000010010000001011010011 = .instr (.fmvXD 5 18) ∧
    decode .rv64 0b11110010000010010000001011010011 = .instr (.fmvDX 5 18) ∧
    decode .rv64 0b01000000000110010011001011010011 = .instr (.fcvtSD 5 18 3) ∧
    decode .rv64 0b01000010000010010011001011010011 = .instr (.fcvtDS 5 18 3) := by
  decide

theorem test_decode_fcsr_access :
    decode .rv64 0b00000000001100000010001011110011 = .instr (.frcsr 5) ∧
    decode .rv64 0b00000000001000000010001011110011 = .instr (.frrm 5) ∧
    decode .rv64 0b00000000000100000010001011110011 = .instr (.frflags 5) ∧
    decode .rv64 0b00000000000110010001001011110011 = .instr (.fsflags 5 18) ∧
    decode .rv64 0b00000000001010010001001011110011 = .instr (.fsrm 5 18) ∧
    decode .rv64 0b00000000001110010001001011110011 = .instr (.fscsr 5 18) := by
  decide

/-! ## One step, by family (spec/95_test_vectors.md sections 2.1 to 2.7) -/

theorem test_alu_register :
    givesX (start [(10, 0x7FFFFFFFFFFFFFFF), (11, 0x1)]) 0x00B50633 12 0x8000000000000000 ∧
    givesX (start [(10, 0xFFFFFFFFFFFFFFFF), (11, 0x1)]) 0x00B50633 12 0 ∧
    givesX (start [(10, 0x0), (11, 0x1)]) 0x40B50633 12 0xFFFFFFFFFFFFFFFF ∧
    givesX (start [(10, 0x8000000000000000), (11, 0x1)]) 0x40B50633 12 0x7FFFFFFFFFFFFFFF ∧
    givesX (start [(10, 0x1), (11, 0xFFFFFFFFFFFFFFC1)]) 0x00B51633 12 2 ∧
    givesX (start [(10, 0x8000000000000001), (11, 0x3F)]) 0x00B51633 12 0x8000000000000000 ∧
    givesX (start [(10, 0xFFFFFFFFFFFFFFFF), (11, 0x0)]) 0x00B52633 12 1 ∧
    givesX (start [(10, 0x5), (11, 0x5)]) 0x00B52633 12 0 ∧
    givesX (start [(10, 0xFFFFFFFFFFFFFFFF), (11, 0x0)]) 0x00B53633 12 0 ∧
    givesX (start [(10, 0x0), (11, 0xFFFFFFFFFFFFFFFF)]) 0x00B53633 12 1 ∧
    givesX (start [(10, 0xFF00FF00FF00FF00), (11, 0xFF00FF00FF00FF0)]) 0x00B54633 12 0xF0F0F0F0F0F0F0F0 ∧
    givesX (start [(10, 0x8000000000000000), (11, 0x3F)]) 0x00B55633 12 1 ∧
    givesX (start [(10, 0xFFFFFFFFFFFFFFFF), (11, 0x40)]) 0x00B55633 12 0xFFFFFFFFFFFFFFFF ∧
    givesX (start [(10, 0x8000000000000000), (11, 0x3F)]) 0x40B55633 12 0xFFFFFFFFFFFFFFFF ∧
    givesX (start [(10, 0x4000000000000000), (11, 0x3E)]) 0x40B55633 12 1 ∧
    givesX (start [(10, 0xFF00FF00FF00FF00), (11, 0xFF00FF00FF00FF0)]) 0x00B56633 12 0xFFF0FFF0FFF0FFF0 ∧
    givesX (start [(10, 0xFF00FF00FF00FF00), (11, 0xFF00FF00FF00FF0)]) 0x00B57633 12 0xF000F000F000F00 := by
  decide +kernel

theorem test_alu_immediate :
    givesX (start [(10, 0x0)]) 0xFFF50613 12 0xFFFFFFFFFFFFFFFF ∧
    givesX (start [(10, 0x5)]) 0x7FF50613 12 0x804 ∧
    givesX (start [(10, 0xFFFFFFFFFFFFFFFF)]) 0x00052613 12 1 ∧
    givesX (start [(10, 0xFFFFFFFFFFFFF800)]) 0x80052613 12 0 ∧
    givesX (start [(10, 0x5)]) 0xFFF53613 12 1 ∧
    givesX (start [(10, 0xFFFFFFFFFFFFFFFF)]) 0xFFF53613 12 0 ∧
    givesX (start [(10, 0xFFFFFFFF)]) 0xFFF54613 12 0xFFFFFFFF00000000 ∧
    givesX (start [(10, 0x0)]) 0x80056613 12 0xFFFFFFFFFFFFF800 ∧
    givesX (start [(10, 0xFFFFFFFFFFFFFFFF)]) 0xFF057613 12 0xFFFFFFFFFFFFFFF0 ∧
    givesX (start [(10, 0xFFFFFFFFFFFFFFFF)]) 0x0FF57613 12 0xFF ∧
    givesX (start [(10, 0x1)]) 0x03F51613 12 0x8000000000000000 ∧
    givesX (start [(10, 0x123456789ABCDEF0)]) 0x00051613 12 0x123456789ABCDEF0 ∧
    givesX (start [(10, 0xFFFFFFFFFFFFFFFF)]) 0x03F55613 12 1 ∧
    givesX (start [(10, 0x8000000000000000)]) 0x00155613 12 0x4000000000000000 ∧
    givesX (start [(10, 0x8000000000000000)]) 0x40155613 12 0xC000000000000000 ∧
    givesX (start [(10, 0x8000000000000000)]) 0x43F55613 12 0xFFFFFFFFFFFFFFFF := by
  decide +kernel

theorem test_alu_word :
    givesX (start [(10, 0x7FFFFFFF), (11, 0x1)]) 0x00B5063B 12 0xFFFFFFFF80000000 ∧
    givesX (start [(10, 0xDEADBEEFFFFFFFFF), (11, 0x1)]) 0x00B5063B 12 0 ∧
    givesX (start [(10, 0x80000000), (11, 0x1)]) 0x40B5063B 12 0x7FFFFFFF ∧
    givesX (start [(10, 0x0), (11, 0x1)]) 0x40B5063B 12 0xFFFFFFFFFFFFFFFF ∧
    givesX (start [(10, 0x1), (11, 0x1F)]) 0x00B5163B 12 0xFFFFFFFF80000000 ∧
    givesX (start [(10, 0x1), (11, 0x20)]) 0x00B5163B 12 1 ∧
    givesX (start [(10, 0xFFFFFFFF80000000), (11, 0x1F)]) 0x00B5563B 12 1 ∧
    givesX (start [(10, 0xFFFFFFFF80000000), (11, 0x0)]) 0x00B5563B 12 0xFFFFFFFF80000000 ∧
    givesX (start [(10, 0x80000000), (11, 0x4)]) 0x40B5563B 12 0xFFFFFFFFF8000000 ∧
    givesX (start [(10, 0xFFFFFFFF7FFFFFFF), (11, 0x4)]) 0x40B5563B 12 0x7FFFFFF ∧
    givesX (start [(10, 0x7FFFFFFF)]) 0x0015061B 12 0xFFFFFFFF80000000 ∧
    givesX (start [(10, 0x12345678FFFFFFFF)]) 0x0005061B 12 0xFFFFFFFFFFFFFFFF ∧
    givesX (start [(10, 0xFFFFFFFF)]) 0x0045161B 12 0xFFFFFFFFFFFFFFF0 ∧
    givesX (start [(10, 0x1)]) 0x01F5161B 12 0xFFFFFFFF80000000 ∧
    givesX (start [(10, 0xFFFFFFFFFFFFFFFF)]) 0x01C5561B 12 0xF ∧
    givesX (start [(10, 0x80000000)]) 0x0005561B 12 0xFFFFFFFF80000000 ∧
    givesX (start [(10, 0x80000000)]) 0x41F5561B 12 0xFFFFFFFFFFFFFFFF ∧
    givesX (start [(10, 0x7FFFFFFF)]) 0x41F5561B 12 0 := by
  decide +kernel

theorem test_load_store :
    givesX (start [(10, 0x2004)] (m := 0x923456789ABCDEF0)) 0xFFC50603 12 0xFFFFFFFFFFFFFFF0 ∧
    givesX (start [(10, 0x2004)] (m := 0x923456789ABCDEF0)) 0x00050603 12 0x78 ∧
    givesX (start [(10, 0x2004)] (m := 0x923456789ABCDEF0)) 0xFFC51603 12 0xFFFFFFFFFFFFDEF0 ∧
    givesX (start [(10, 0x2004)] (m := 0x923456789ABCDEF0)) 0x00251603 12 0xFFFFFFFFFFFF9234 ∧
    givesX (start [(10, 0x2004)] (m := 0x923456789ABCDEF0)) 0xFFC52603 12 0xFFFFFFFF9ABCDEF0 ∧
    givesX (start [(10, 0x2004)] (m := 0x923456789ABCDEF0)) 0x00052603 12 0xFFFFFFFF92345678 ∧
    givesX (start [(10, 0x2004)] (m := 0x923456789ABCDEF0)) 0xFFC53603 12 0x923456789ABCDEF0 ∧
    givesX (start [(10, 0x2004)] (m := 0x923456789ABCDEF0)) 0xFFC54603 12 0xF0 ∧
    givesX (start [(10, 0x2004)] (m := 0x923456789ABCDEF0)) 0xFFC55603 12 0xDEF0 ∧
    givesX (start [(10, 0x2004)] (m := 0x923456789ABCDEF0)) 0xFFC56603 12 0x9ABCDEF0 ∧
    leaves (start [(10, 0x2008), (11, 0x1122334455667788)] (m := 0x923456789ABCDEF0)) 0x00B50023 0x2008 0x88 ∧
    leaves (start [(10, 0x2008), (11, 0x1122334455667788)] (m := 0x923456789ABCDEF0))
      0x00B503A3 0x2008 0x8800000000000000 ∧
    leaves (start [(10, 0x2008), (11, 0x1122334455667788)] (m := 0x923456789ABCDEF0)) 0x00B51123 0x2008 0x77880000 ∧
    leaves (start [(10, 0x2008), (11, 0x1122334455667788)] (m := 0x923456789ABCDEF0))
      0x00B52223 0x2008 0x5566778800000000 ∧
    leaves (start [(10, 0x2008), (11, 0x1122334455667788)] (m := 0x923456789ABCDEF0))
      0x00B53023 0x2008 0x1122334455667788 := by
  decide +kernel

theorem test_multiply_divide_1 :
    givesX (start [(10, 0xFFFFFFFFFFFFFFFF), (11, 0xFFFFFFFFFFFFFFFF)]) 0x02B50633 12 1 ∧
    givesX (start [(10, 0x100000000), (11, 0x100000000)]) 0x02B50633 12 0 ∧
    givesX (start [(10, 0xFFFFFFFFFFFFFFFF), (11, 0xFFFFFFFFFFFFFFFF)]) 0x02B51633 12 0 ∧
    givesX (start [(10, 0x8000000000000000), (11, 0x7FFFFFFFFFFFFFFF)]) 0x02B51633 12 0xC000000000000000 ∧
    givesX (start [(10, 0xFFFFFFFFFFFFFFFF), (11, 0xFFFFFFFFFFFFFFFF)]) 0x02B52633 12 0xFFFFFFFFFFFFFFFF ∧
    givesX (start [(10, 0x8000000000000000), (11, 0xFFFFFFFFFFFFFFFF)]) 0x02B52633 12 0x8000000000000000 ∧
    givesX (start [(10, 0xFFFFFFFFFFFFFFFF), (11, 0xFFFFFFFFFFFFFFFF)]) 0x02B53633 12 0xFFFFFFFFFFFFFFFE ∧
    givesX (start [(10, 0xFFFFFFFF), (11, 0xFFFFFFFF)]) 0x02B5063B 12 1 ∧
    givesX (start [(10, 0xAAAAAAAA00000003), (11, 0xBBBBBBBB00000005)]) 0x02B5063B 12 0xF ∧
    givesX (start [(10, 0xFFFFFFFFFFFFFFF9), (11, 0x2)]) 0x02B54633 12 0xFFFFFFFFFFFFFFFD ∧
    givesX (start [(10, 0x0), (11, 0x0)]) 0x02B54633 12 0xFFFFFFFFFFFFFFFF ∧
    givesX (start [(10, 0xFFFFFFFFFFFFFFF9), (11, 0x2)]) 0x02B55633 12 0x7FFFFFFFFFFFFFFC ∧
    givesX (start [(10, 0x8000000000000000), (11, 0xFFFFFFFFFFFFFFFF)]) 0x02B55633 12 0 ∧
    givesX (start [(10, 0xFFFFFFFFFFFFFFF9), (11, 0x2)]) 0x02B56633 12 0xFFFFFFFFFFFFFFFF ∧
    givesX (start [(10, 0x8000000000000000), (11, 0xFFFFFFFFFFFFFFFF)]) 0x02B56633 12 0 ∧
    givesX (start [(10, 0xFFFFFFFFFFFFFFF9), (11, 0x2)]) 0x02B57633 12 1 ∧
    givesX (start [(10, 0x8000000000000000), (11, 0xFFFFFFFFFFFFFFFF)]) 0x02B57633 12 0x8000000000000000 ∧
    givesX (start [(10, 0xFFFFFFFFFFFFFFF9), (11, 0x2)]) 0x02B5463B 12 0xFFFFFFFFFFFFFFFD ∧
    givesX (start [(10, 0x80000000), (11, 0xFFFFFFFF)]) 0x02B5463B 12 0xFFFFFFFF80000000 ∧
    givesX (start [(10, 0xFFFFFFF9), (11, 0x2)]) 0x02B5563B 12 0x7FFFFFFC := by
  decide +kernel

theorem test_multiply_divide_2 :
    givesX (start [(10, 0x7), (11, 0x0)]) 0x02B5563B 12 0xFFFFFFFFFFFFFFFF ∧
    givesX (start [(10, 0x80000000), (11, 0xFFFFFFFF)]) 0x02B5663B 12 0 ∧
    givesX (start [(10, 0xFFFFFFFFFFFFFFF9), (11, 0x2)]) 0x02B5663B 12 0xFFFFFFFFFFFFFFFF ∧
    givesX (start [(10, 0xFFFFFFF9), (11, 0x2)]) 0x02B5763B 12 1 ∧
    givesX (start [(10, 0xFFFFFFFF), (11, 0x80000000)]) 0x02B5763B 12 0x7FFFFFFF := by
  decide +kernel

theorem test_atomic_word :
    givesX (start [(10, 0x2000), (11, 0x1111111122222222)] (m := 0xEEEEEEEE80000000))
      0x08B5262F 12 0xFFFFFFFF80000000 ∧
    leaves (start [(10, 0x2000), (11, 0x1111111122222222)] (m := 0xEEEEEEEE80000000))
      0x08B5262F 0x2000 0xEEEEEEEE22222222 ∧
    givesX (start [(10, 0x2000), (11, 0x1)] (m := 0xEEEEEEEE7FFFFFFF)) 0x00B5262F 12 0x7FFFFFFF ∧
    leaves (start [(10, 0x2000), (11, 0x1)] (m := 0xEEEEEEEE7FFFFFFF)) 0x00B5262F 0x2000 0xEEEEEEEE80000000 ∧
    givesX (start [(10, 0x2000), (11, 0xFFFFFFFFFFFFFFFF)] (m := 0xEEEEEEEEF0F0F0F0))
      0x20B5262F 12 0xFFFFFFFFF0F0F0F0 ∧
    leaves (start [(10, 0x2000), (11, 0xFFFFFFFFFFFFFFFF)] (m := 0xEEEEEEEEF0F0F0F0))
      0x20B5262F 0x2000 0xEEEEEEEE0F0F0F0F ∧
    givesX (start [(10, 0x2000), (11, 0xFF00FF00)] (m := 0xEEEEEEEEF0F0F0F0)) 0x60B5262F 12 0xFFFFFFFFF0F0F0F0 ∧
    leaves (start [(10, 0x2000), (11, 0xFF00FF00)] (m := 0xEEEEEEEEF0F0F0F0)) 0x60B5262F 0x2000 0xEEEEEEEEF000F000 ∧
    givesX (start [(10, 0x2000), (11, 0xF0F0F0F)] (m := 0xEEEEEEEEF0F0F0F0)) 0x40B5262F 12 0xFFFFFFFFF0F0F0F0 ∧
    leaves (start [(10, 0x2000), (11, 0xF0F0F0F)] (m := 0xEEEEEEEEF0F0F0F0)) 0x40B5262F 0x2000 0xEEEEEEEEFFFFFFFF ∧
    givesX (start [(10, 0x2000), (11, 0x1)] (m := 0xEEEEEEEEFFFFFFFF)) 0x80B5262F 12 0xFFFFFFFFFFFFFFFF ∧
    leaves (start [(10, 0x2000), (11, 0x1)] (m := 0xEEEEEEEEFFFFFFFF)) 0x80B5262F 0x2000 0xEEEEEEEEFFFFFFFF ∧
    givesX (start [(10, 0x2000), (11, 0x1)] (m := 0xEEEEEEEEFFFFFFFF)) 0xA0B5262F 12 0xFFFFFFFFFFFFFFFF ∧
    leaves (start [(10, 0x2000), (11, 0x1)] (m := 0xEEEEEEEEFFFFFFFF)) 0xA0B5262F 0x2000 0xEEEEEEEE00000001 ∧
    givesX (start [(10, 0x2000), (11, 0x1)] (m := 0xEEEEEEEEFFFFFFFF)) 0xC0B5262F 12 0xFFFFFFFFFFFFFFFF ∧
    leaves (start [(10, 0x2000), (11, 0x1)] (m := 0xEEEEEEEEFFFFFFFF)) 0xC0B5262F 0x2000 0xEEEEEEEE00000001 ∧
    givesX (start [(10, 0x2000), (11, 0x1)] (m := 0xEEEEEEEEFFFFFFFF)) 0xE0B5262F 12 0xFFFFFFFFFFFFFFFF ∧
    leaves (start [(10, 0x2000), (11, 0x1)] (m := 0xEEEEEEEEFFFFFFFF)) 0xE0B5262F 0x2000 0xEEEEEEEEFFFFFFFF := by
  decide +kernel

theorem test_atomic_double :
    givesX (start [(10, 0x2000), (11, 0xFEDCBA9876543210)] (m := 0x123456789ABCDEF)) 0x08B5362F 12 0x123456789ABCDEF ∧
    leaves (start [(10, 0x2000), (11, 0xFEDCBA9876543210)] (m := 0x123456789ABCDEF))
      0x08B5362F 0x2000 0xFEDCBA9876543210 ∧
    givesX (start [(10, 0x2000), (11, 0x1)] (m := 0xFFFFFFFFFFFFFFFF)) 0x00B5362F 12 0xFFFFFFFFFFFFFFFF ∧
    leaves (start [(10, 0x2000), (11, 0x1)] (m := 0xFFFFFFFFFFFFFFFF)) 0x00B5362F 0x2000 0x0 ∧
    givesX (start [(10, 0x2000), (11, 0xFFFFFFFFFFFFFFFF)] (m := 0xAAAAAAAAAAAAAAAA))
      0x20B5362F 12 0xAAAAAAAAAAAAAAAA ∧
    leaves (start [(10, 0x2000), (11, 0xFFFFFFFFFFFFFFFF)] (m := 0xAAAAAAAAAAAAAAAA))
      0x20B5362F 0x2000 0x5555555555555555 ∧
    givesX (start [(10, 0x2000), (11, 0xFF00FF00FF00FF)] (m := 0xAAAAAAAAAAAAAAAA)) 0x60B5362F 12 0xAAAAAAAAAAAAAAAA ∧
    leaves (start [(10, 0x2000), (11, 0xFF00FF00FF00FF)] (m := 0xAAAAAAAAAAAAAAAA))
      0x60B5362F 0x2000 0xAA00AA00AA00AA ∧
    givesX (start [(10, 0x2000), (11, 0x5555555555555555)] (m := 0xAAAAAAAAAAAAAAAA))
      0x40B5362F 12 0xAAAAAAAAAAAAAAAA ∧
    leaves (start [(10, 0x2000), (11, 0x5555555555555555)] (m := 0xAAAAAAAAAAAAAAAA))
      0x40B5362F 0x2000 0xFFFFFFFFFFFFFFFF ∧
    givesX (start [(10, 0x2000), (11, 0x7FFFFFFFFFFFFFFF)] (m := 0x8000000000000000))
      0x80B5362F 12 0x8000000000000000 ∧
    leaves (start [(10, 0x2000), (11, 0x7FFFFFFFFFFFFFFF)] (m := 0x8000000000000000))
      0x80B5362F 0x2000 0x8000000000000000 ∧
    givesX (start [(10, 0x2000), (11, 0x7FFFFFFFFFFFFFFF)] (m := 0x8000000000000000))
      0xA0B5362F 12 0x8000000000000000 ∧
    leaves (start [(10, 0x2000), (11, 0x7FFFFFFFFFFFFFFF)] (m := 0x8000000000000000))
      0xA0B5362F 0x2000 0x7FFFFFFFFFFFFFFF ∧
    givesX (start [(10, 0x2000), (11, 0x7FFFFFFFFFFFFFFF)] (m := 0x8000000000000000))
      0xC0B5362F 12 0x8000000000000000 ∧
    leaves (start [(10, 0x2000), (11, 0x7FFFFFFFFFFFFFFF)] (m := 0x8000000000000000))
      0xC0B5362F 0x2000 0x7FFFFFFFFFFFFFFF ∧
    givesX (start [(10, 0x2000), (11, 0x7FFFFFFFFFFFFFFF)] (m := 0x8000000000000000))
      0xE0B5362F 12 0x8000000000000000 ∧
    leaves (start [(10, 0x2000), (11, 0x7FFFFFFFFFFFFFFF)] (m := 0x8000000000000000))
      0xE0B5362F 0x2000 0x8000000000000000 := by
  decide +kernel

theorem test_fp_arith_single_1 :
    givesF (start (f := [(1, 0xFFFFFFFF3F800000), (2, 0xFFFFFFFF33800000)])) 0x0020B1D3 3 0xFFFFFFFF3F800001 1 ∧
    givesF (start (f := [(1, 0xFFFFFFFF7FC00000), (2, 0xFFFFFFFF7FA00000)])) 0x002081D3 3 0xFFFFFFFF7FC00000 0x10 ∧
    givesF (start (f := [(1, 0xFFFFFFFF3F800000), (2, 0xFFFFFFFF3F800000)])) 0x0820B1D3 3 0xFFFFFFFF00000000 0 ∧
    givesF (start (f := [(1, 0xFFFFFFFF7F800000), (2, 0xFFFFFFFF7F800000)])) 0x082081D3 3 0xFFFFFFFF7FC00000 0x10 ∧
    givesF (start (f := [(1, 0xFFFFFFFF3DCCCCCD), (2, 0xFFFFFFFF41200000)])) 0x1020B1D3 3 0xFFFFFFFF3F800001 1 ∧
    givesF (start (f := [(1, 0xFFFFFFFF7FA00000), (2, 0xFFFFFFFF00000000)])) 0x102081D3 3 0xFFFFFFFF7FC00000 0x10 ∧
    givesF (start (f := [(1, 0xFFFFFFFF3F800000), (2, 0xFFFFFFFF40400000)])) 0x1820B1D3 3 0xFFFFFFFF3EAAAAAB 1 ∧
    givesF (start (f := [(1, 0xFFFFFFFF7FC00000), (2, 0xFFFFFFFF00000000)])) 0x182081D3 3 0xFFFFFFFF7FC00000 0 ∧
    givesF (start (f := [(1, 0xFFFFFFFF40000000)])) 0x5800B1D3 3 0xFFFFFFFF3FB504F4 1 ∧
    givesF (start (f := [(1, 0xFFFFFFFF7FC00000)])) 0x580081D3 3 0xFFFFFFFF7FC00000 0 ∧
    givesF (start (f := [(1, 0xFFFFFFFF3F800001), (2, 0xFFFFFFFF3F800001), (4, 0xFFFFFFFFBF800002)]))
      0x2020B1C3 3 0xFFFFFFFF28800000 0 ∧
    givesF (start (f := [(1, 0xFFFFFFFF00000000), (2, 0xFFFFFFFF3F800000), (4, 0xFFFFFFFF80000000)]))
      0x202081C3 3 0xFFFFFFFF00000000 0 ∧
    givesF (start (f := [(1, 0xFFFFFFFF7F800000), (2, 0xFFFFFFFF3F800000), (4, 0xFFFFFFFF7F800000)]))
      0x202081C7 3 0xFFFFFFFF7FC00000 0x10 ∧
    givesF (start (f := [(1, 0xFFFFFFFF40000000), (2, 0xFFFFFFFF40400000), (4, 0xFFFFFFFF40800000)]))
      0x202081C7 3 0xFFFFFFFF40000000 0 ∧
    givesF (start (f := [(1, 0xFFFFFFFF40000000), (2, 0xFFFFFFFF40400000), (4, 0xFFFFFFFF40800000)]))
      0x202081CB 3 0xFFFFFFFFC0000000 0 ∧
    givesF (start (f := [(1, 0xFFFFFFFF3F800000), (2, 0xFFFFFFFF3F800000), (4, 0xFFFFFFFF3F800000)]))
      0x202081CB 3 0xFFFFFFFF00000000 0 ∧
    givesF (start (f := [(1, 0xFFFFFFFF40000000), (2, 0xFFFFFFFF40400000), (4, 0xFFFFFFFF40800000)]))
      0x202081CF 3 0xFFFFFFFFC1200000 0 ∧
    givesF (start (f := [(1, 0xFFFFFFFF00000000), (2, 0xFFFFFFFF3F800000), (4, 0xFFFFFFFF00000000)]))
      0x202081CF 3 0xFFFFFFFF80000000 0 ∧
    givesF (start (f := [(1, 0xFFFFFFFF3FB4FDF4), (2, 0xFFFFFFFF80000000)])) 0x202081D3 3 0xFFFFFFFFBFB4FDF4 0 ∧
    givesF (start (f := [(1, 0xFFFFFFFF3FB4FDF4), (2, 0xFFFFFFFF3FB4FDF4)])) 0x202081D3 3 0xFFFFFFFF3FB4FDF4 0 := by
  decide +kernel

theorem test_fp_arith_single_2 :
    givesF (start (f := [(1, 0xFFFFFFFF3FB4FDF4), (2, 0xFFFFFFFF80000000)])) 0x202091D3 3 0xFFFFFFFF3FB4FDF4 0 ∧
    givesF (start (f := [(1, 0xFFFFFFFF7FA12345), (2, 0xFFFFFFFF7FA12345)])) 0x202091D3 3 0xFFFFFFFFFFA12345 0 ∧
    givesF (start (f := [(1, 0xFFFFFFFFBFB4FDF4), (2, 0xFFFFFFFF80000000)])) 0x2020A1D3 3 0xFFFFFFFF3FB4FDF4 0 ∧
    givesF (start (f := [(1, 0xFFFFFFFFFFA12345), (2, 0xFFFFFFFFFFA12345)])) 0x2020A1D3 3 0xFFFFFFFF7FA12345 0 ∧
    givesF (start (f := [(1, 0xFFFFFFFF7FA00000), (2, 0xFFFFFFFF4048F5C3)])) 0x282081D3 3 0xFFFFFFFF4048F5C3 0x10 ∧
    givesF (start (f := [(1, 0xFFFFFFFF00000001), (2, 0xFFFFFFFF80000001)])) 0x282081D3 3 0xFFFFFFFF80000001 0 ∧
    givesF (start (f := [(1, 0xFFFFFFFF00000000), (2, 0xFFFFFFFF80000000)])) 0x282091D3 3 0xFFFFFFFF00000000 0 ∧
    givesF (start (f := [(1, 0xFFFFFFFF3F800000), (2, 0xFFFFFFFF3F800000)])) 0x282091D3 3 0xFFFFFFFF3F800000 0 := by
  decide +kernel

theorem test_fp_arith_double_1 :
    givesF (start (f := [(1, 0x3FB999999999999A), (2, 0x3FC999999999999A)])) 0x0220B1D3 3 0x3FD3333333333334 1 ∧
    givesF (start (f := [(1, 0x3FF0000000000000), (2, 0x3CA0000000000000)])) 0x0220C1D3 3 0x3FF0000000000001 1 ∧
    givesF (start (f := [(1, 0x3FF0000000000000), (2, 0x3FF0000000000000)])) 0x0A2081D3 3 0 0 ∧
    givesF (start (f := [(1, 0x7FEFFFFFFFFFFFFF), (2, 0x4000000000000000)])) 0x1220B1D3 3 0x7FF0000000000000 5 ∧
    givesF (start (f := [(1, 0x0), (2, 0x7FF0000000000000)])) 0x122081D3 3 0x7FF8000000000000 0x10 ∧
    givesF (start (f := [(1, 0x3FF0000000000000), (2, 0x4008000000000000)])) 0x1A20B1D3 3 0x3FD5555555555556 1 ∧
    givesF (start (f := [(1, 0x4024000000000000), (2, 0x0)])) 0x1A2081D3 3 0x7FF0000000000000 8 ∧
    givesF (start (f := [(1, 0x4000000000000000)])) 0x5A00B1D3 3 0x3FF6A09E667F3BCD 1 ∧
    givesF (start (f := [(1, 0x8000000000000000)])) 0x5A0081D3 3 0x8000000000000000 0 ∧
    givesF (start (f := [(1, 0x3FF0000000000001), (2, 0x3FF0000000000001), (4, 0xBFF0000000000002)]))
      0x2220B1C3 3 0x3970000000000000 0 ∧
    givesF (start (f := [(1, 0x4000000000000000), (2, 0x4008000000000000), (4, 0x4010000000000000)]))
      0x222081C3 3 0x4024000000000000 0 ∧
    givesF (start (f := [(1, 0x4000000000000000), (2, 0x4008000000000000), (4, 0x4010000000000000)]))
      0x222081C7 3 0x4000000000000000 0 ∧
    givesF (start (f := [(1, 0x4000000000000000), (2, 0x4008000000000000), (4, 0x4010000000000000)]))
      0x222081CB 3 0xC000000000000000 0 ∧
    givesF (start (f := [(1, 0x4000000000000000), (2, 0x4008000000000000), (4, 0x4010000000000000)]))
      0x222081CF 3 0xC024000000000000 0 ∧
    givesF (start (f := [(1, 0x3FF69FBE76C8B439), (2, 0x8000000000000000)])) 0x222081D3 3 0xBFF69FBE76C8B439 0 ∧
    givesF (start (f := [(1, 0x7FF4000000000001), (2, 0x7FF4000000000001)])) 0x222091D3 3 0xFFF4000000000001 0 ∧
    givesF (start (f := [(1, 0xBFF69FBE76C8B439), (2, 0x8000000000000000)])) 0x2220A1D3 3 0x3FF69FBE76C8B439 0 ∧
    givesF (start (f := [(1, 0x0), (2, 0x8000000000000000)])) 0x2A2081D3 3 0x8000000000000000 0 ∧
    givesF (start (f := [(1, 0x7FF4000000000000), (2, 0x40091EB851EB851F)])) 0x2A2081D3 3 0x40091EB851EB851F 0x10 ∧
    givesF (start (f := [(1, 0x0), (2, 0x8000000000000000)])) 0x2A2091D3 3 0 0 := by
  decide +kernel

theorem test_fp_arith_double_2 :
    givesF (start (f := [(1, 0x7FF8000000000000), (2, 0x7FF8000000000001)])) 0x2A2091D3 3 0x7FF8000000000000 0 := by
  decide +kernel

theorem test_fp_convert_single_1 :
    givesXFlags (start (f := [(1, 0xFFFFFFFF3FC00000)])) 0xC000B653 12 1 1 ∧
    givesXFlags (start (f := [(1, 0xFFFFFFFF00000001)])) 0xC0009653 12 0 1 ∧
    givesXFlags (start (f := [(1, 0xFFFFFFFF4F000000)])) 0xC0109653 12 0xFFFFFFFF80000000 0 ∧
    givesXFlags (start (f := [(1, 0xFFFFFFFFFF800000)])) 0xC0109653 12 0 0x10 ∧
    givesXFlags (start (f := [(1, 0xFFFFFFFF5F000000)])) 0xC0209653 12 0x7FFFFFFFFFFFFFFF 0x10 ∧
    givesXFlags (start (f := [(1, 0xFFFFFFFF7FC00000)])) 0xC0209653 12 0x7FFFFFFFFFFFFFFF 0x10 ∧
    givesXFlags (start (f := [(1, 0xFFFFFFFF5F800000)])) 0xC0309653 12 0xFFFFFFFFFFFFFFFF 0x10 ∧
    givesXFlags (start (f := [(1, 0xFFFFFFFFBF7FFFFF)])) 0xC0309653 12 0 1 ∧
    givesF (start [(10, 0x0)]) 0xD00531D3 3 0xFFFFFFFF00000000 0 ∧
    givesF (start [(10, 0x7FFFFFFF)]) 0xD00541D3 3 0xFFFFFFFF4F000000 1 ∧
    givesF (start [(10, 0x80000000)]) 0xD01531D3 3 0xFFFFFFFF4F000000 0 ∧
    givesF (start [(10, 0xFFFFFFFFFFFFFFFF)]) 0xD01541D3 3 0xFFFFFFFF4F800000 1 ∧
    givesF (start [(10, 0x7FFFFFFFFFFFFFFF)]) 0xD02531D3 3 0xFFFFFFFF5F000000 1 ∧
    givesF (start [(10, 0xFFFFFFFFFEFFFFFF)]) 0xD02541D3 3 0xFFFFFFFFCB800001 1 ∧
    givesF (start [(10, 0xFFFFFFFFFFFFFFFF)]) 0xD03531D3 3 0xFFFFFFFF5F800000 1 ∧
    givesF (start [(10, 0x8000008000000000)]) 0xD03541D3 3 0xFFFFFFFF5F000001 1 ∧
    givesXFlags (start (f := [(1, 0xFFFFFFFF3F800000), (2, 0xFFFFFFFF40000000)])) 0xA020A653 12 0 0 ∧
    givesXFlags (start (f := [(1, 0xFFFFFFFF7FA00000), (2, 0xFFFFFFFF7FA00000)])) 0xA020A653 12 0 0x10 ∧
    givesXFlags (start (f := [(1, 0xFFFFFFFF3F800000), (2, 0xFFFFFFFF40000000)])) 0xA0209653 12 1 0 ∧
    givesXFlags (start (f := [(1, 0xFFFFFFFF7FA00000), (2, 0xFFFFFFFF7FA00000)])) 0xA0209653 12 0 0x10 := by
  decide +kernel

theorem test_fp_convert_single_2 :
    givesXFlags (start (f := [(1, 0xFFFFFFFF3F800000), (2, 0xFFFFFFFF40000000)])) 0xA0208653 12 1 0 ∧
    givesXFlags (start (f := [(1, 0xFFFFFFFF7FA00000), (2, 0xFFFFFFFF7FA00000)])) 0xA0208653 12 0 0x10 ∧
    givesXFlags (start (f := [(1, 0xFFFFFFFFFF800000)])) 0xE0009653 12 1 0 ∧
    givesXFlags (start (f := [(1, 0xFFFFFFFF7FC00000)])) 0xE0009653 12 0x200 0 := by
  decide +kernel

theorem test_fp_convert_double_1 :
    givesXFlags (start (f := [(1, 0x41DFFFFFFFC00000)])) 0xC2009653 12 0x7FFFFFFF 0 ∧
    givesXFlags (start (f := [(1, 0xC1E0000000200000)])) 0xC2009653 12 0xFFFFFFFF80000000 0x10 ∧
    givesXFlags (start (f := [(1, 0x41EFFFFFFFE00000)])) 0xC2109653 12 0xFFFFFFFFFFFFFFFF 0 ∧
    givesXFlags (start (f := [(1, 0xBFEFFFFFFFFFFFFF)])) 0xC2109653 12 0 1 ∧
    givesXFlags (start (f := [(1, 0x43E0000000000000)])) 0xC2209653 12 0x7FFFFFFFFFFFFFFF 0x10 ∧
    givesXFlags (start (f := [(1, 0x7FF8000000000000)])) 0xC2209653 12 0x7FFFFFFFFFFFFFFF 0x10 ∧
    givesXFlags (start (f := [(1, 0x43F0000000000000)])) 0xC2309653 12 0xFFFFFFFFFFFFFFFF 0x10 ∧
    givesXFlags (start (f := [(1, 0x400921FB54442D18)])) 0xC2309653 12 3 1 ∧
    givesF (start [(10, 0xFFFFFFFF80000000)]) 0xD20531D3 3 0xC1E0000000000000 0 ∧
    givesF (start [(10, 0xFFFFFFFF80000000)]) 0xD20541D3 3 0xC1E0000000000000 0 ∧
    givesF (start [(10, 0xFFFFFFFF80000000)]) 0xD21531D3 3 0x41E0000000000000 0 ∧
    givesF (start [(10, 0xFFFFFFFF80000000)]) 0xD21541D3 3 0x41E0000000000000 0 ∧
    givesF (start [(10, 0x20000000000001)]) 0xD22531D3 3 0x4340000000000001 1 ∧
    givesF (start [(10, 0x8000000000000000)]) 0xD22541D3 3 0xC3E0000000000000 0 ∧
    givesF (start [(10, 0xFFFFFFFFFFFFFFFF)]) 0xD23531D3 3 0x43F0000000000000 1 ∧
    givesF (start [(10, 0x8000000000000400)]) 0xD23541D3 3 0x43E0000000000001 1 ∧
    givesXFlags (start (f := [(1, 0x3FF0000000000000), (2, 0x3FF0000000000001)])) 0xA220A653 12 0 0 ∧
    givesXFlags (start (f := [(1, 0xFFF0000000000000), (2, 0xFFEFFFFFFFFFFFFF)])) 0xA220A653 12 0 0 ∧
    givesXFlags (start (f := [(1, 0x3FF0000000000000), (2, 0x3FF0000000000001)])) 0xA2209653 12 1 0 ∧
    givesXFlags (start (f := [(1, 0xFFF0000000000000), (2, 0xFFEFFFFFFFFFFFFF)])) 0xA2209653 12 1 0 := by
  decide +kernel

theorem test_fp_convert_double_2 :
    givesXFlags (start (f := [(1, 0x3FF0000000000000), (2, 0x3FF0000000000001)])) 0xA2208653 12 1 0 ∧
    givesXFlags (start (f := [(1, 0xFFF0000000000000), (2, 0xFFEFFFFFFFFFFFFF)])) 0xA2208653 12 1 0 ∧
    givesXFlags (start (f := [(1, 0xFFF0000000000000)])) 0xE2009653 12 1 0 ∧
    givesXFlags (start (f := [(1, 0xFFF8000000000000)])) 0xE2009653 12 0x200 0 := by
  decide +kernel

theorem test_fp_move :
    givesXFlags (start (f := [(1, 0xFFFFFFFFFFA12345)])) 0xE0008653 12 0xFFFFFFFFFFA12345 0 ∧
    givesXFlags (start (f := [(1, 0x123456783F800000)])) 0xE0008653 12 0x3F800000 0 ∧
    givesF (start [(10, 0x123456787FA00001)]) 0xF00501D3 3 0xFFFFFFFF7FA00001 0 ∧
    givesF (start [(10, 0x80000000)]) 0xF00501D3 3 0xFFFFFFFF80000000 0 ∧
    givesXFlags (start (f := [(1, 0x7FF4000000000001)])) 0xE2008653 12 0x7FF4000000000001 0 ∧
    givesF (start [(10, 0xFFF4000000000001)]) 0xF20501D3 3 0xFFF4000000000001 0 ∧
    givesF (start (f := [(1, 0x3FB999999999999A)])) 0x401081D3 3 0xFFFFFFFF3DCCCCCD 1 ∧
    givesF (start (f := [(1, 0x8000000000000000)])) 0x4010C1D3 3 0xFFFFFFFF80000000 0 ∧
    givesF (start (f := [(1, 0xFFFFFFFF3DCCCCCD)])) 0x420081D3 3 0x3FB99999A0000000 0 ∧
    givesF (start (f := [(1, 0xFFFFFFFFFFC00001)])) 0x4200C1D3 3 0x7FF8000000000000 0 := by
  decide +kernel

theorem test_fcsr_access :
    givesCsr (start (frm := 3) (fflags := 0x15)) 0x00302673 0x75 3 0x15 ∧
    givesCsr (start (frm := 3) (fflags := 0x15)) 0x00202673 0x3 3 0x15 ∧
    givesCsr (start (frm := 3) (fflags := 0x15)) 0x00102673 0x15 3 0x15 ∧
    givesCsr (start [(10, 0xFFFFFFFFFFFFFFE0)] (frm := 3) (fflags := 0x15)) 0x00151673 0x15 3 0 ∧
    givesCsr (start [(10, 0x3F)] (frm := 3) (fflags := 0x15)) 0x00151673 0x15 3 0x1F ∧
    givesCsr (start [(10, 0xFFFFFFFFFFFFFFF9)] (frm := 3) (fflags := 0x15)) 0x00251673 0x3 1 0x15 ∧
    givesCsr (start [(10, 0x5)] (frm := 3) (fflags := 0x15)) 0x00251673 0x3 5 0x15 ∧
    givesCsr (start [(10, 0xFFFFFFFFFFFFFF2A)] (frm := 3) (fflags := 0x15)) 0x00351673 0x75 1 0xA ∧
    givesCsr (start [(10, 0x0)] (frm := 3) (fflags := 0x15)) 0x00351673 0x75 0 0 := by
  decide +kernel

/-! ## LR and SC, and the faults of memory (spec/95_test_vectors.md sections 2.2 and 2.4) -/

theorem test_reserved :
    givesX (start [(10, 0x2000)] (m := 0x9234567880000001)) 0x1005262F 12 0xFFFFFFFF80000001 ∧
    after (run (start [(10, 0x2000)] (m := 0x9234567880000001)) 0x1005262F)
      (fun t => t.reservation == some ⟨0x2000, .word⟩) ∧
    givesX (start [(10, 0x2000)] (m := 0x9234567880000001)) 0x1005362F 12 0x9234567880000001 ∧
    after (run (start [(10, 0x2000)] (m := 0x9234567880000001)) 0x1005362F)
      (fun t => t.reservation == some ⟨0x2000, .double⟩) := by
  decide +kernel

/-- A hart that holds a reservation of a word or a doubleword at 0x2000. -/
def reserved (n : AtomSize) : State :=
  { start [(10, 0x2000), (11, 0xFFFFFFFF00000005), (13, 0x2008)] (m := 0x9234567880000001) with
    reservation := some ⟨0x2000, n⟩ }

theorem test_conditional :
    givesX (reserved .word) 0x18B5272F 14 0 ∧ leaves (reserved .word) 0x18B5272F 0x2000 0x9234567800000005 ∧
    after (run (reserved .word) 0x18B5272F) (fun t => t.reservation == none) ∧
    givesX (reserved .double) 0x18B5372F 14 0 ∧ leaves (reserved .double) 0x18B5372F 0x2000 0xFFFFFFFF00000005 ∧
    givesX ((reserved .word).setReservation none) 0x18B5272F 14 1 ∧
    leaves ((reserved .word).setReservation none) 0x18B5272F 0x2000 0x9234567880000001 ∧
    refuses (run (reserved .word) 0x18B6A72F) .scAddressMismatch ∧
    refuses (run (reserved .word) 0x18B5372F) .scAddressMismatch := by
  decide +kernel

theorem test_access_faults :
    faults (run (start [(10, 0x2000)]) 0x00152603) (.loadAddressMisaligned 0x2001) ∧
    faults (run (start [(10, 0x2000)]) 0x00453603) (.loadAddressMisaligned 0x2004) ∧
    faults (run (start [(10, 0x2000)]) 0x00B510A3) (.storeAddressMisaligned 0x2001) ∧
    faults (run (start [(10, 0x2010)]) 0x00052603) (.accessFault 0x2010 []) ∧
    faults (run (start [(10, 0x2000)]) 0xFF853603) (.accessFault 0x1FF8 []) ∧
    faults (run (start [(10, 0x2000)]) 0xFEB50FA3) (.accessFault 0x1FFF []) ∧
    faults (run (start [(10, 0x3000)]) 0x00152603) (.loadAddressMisaligned 0x3001) ∧
    faults (run (start [(10, 0xFFFFFFFFFFFFFFFF)]) 0x00150603) (.accessFault 0 []) := by
  decide +kernel

theorem test_atomic_faults :
    faults (run (start [(10, 0x2002)]) 0x00B5262F) (.storeAddressMisaligned 0x2002) ∧
    faults (run (start [(10, 0x2004)]) 0x00B5362F) (.storeAddressMisaligned 0x2004) ∧
    faults (run (start [(10, 0x3000)]) 0x00B5262F) (.accessFault 0x3000 []) ∧
    faults (run (start [(10, 0x2001)]) 0x1005262F) (.loadAddressMisaligned 0x2001) ∧
    faults (run (start [(10, 0x2004)]) 0x18B5362F) (.storeAddressMisaligned 0x2004) := by
  decide +kernel

/-- R54: the sw x11, 6(x13) at 0x200E meets the first missing byte at offset 2. -/
theorem test_bytewise_store :
    faults (run (bytewise (reserved .word)) 0x00B6A323)
      (.accessFault 0x200E [(0x200E, 0x05), (0x200F, 0x00)]) ∧
    (let s := (bytewise (reserved .word)).withFetchWord 32 0x00B6A323
     (s.settle (step s)).readByte 0x200E = 0x05 ∧ (s.settle (step s)).pc = 0x1000) := by
  decide +kernel

/-- spec/95_test_vectors.md section 2.5, rounding-mode selection on 1 + 2^-24. -/
theorem test_rounding_mode :
    givesF (start (f := [(1, 0xFFFFFFFF3F800000), (2, 0xFFFFFFFF33800000)]) (frm := 3)) 0x002081D3 3
      0xFFFFFFFF3F800000 1 ∧
    givesF (start (f := [(1, 0xFFFFFFFF3F800000), (2, 0xFFFFFFFF33800000)])) 0x0020B1D3 3 0xFFFFFFFF3F800001 1 ∧
    givesF (start (f := [(1, 0xFFFFFFFF3F800000), (2, 0xFFFFFFFF33800000)]) (frm := 3)) 0x0020F1D3 3
      0xFFFFFFFF3F800001 1 ∧
    refuses (run (start (frm := 5)) 0x0020F1D3) .reservedRoundingMode ∧
    refuses (run (start (frm := 6)) 0x0020F1D3) .reservedRoundingMode := by
  decide +kernel

/-- spec/95_test_vectors.md section 2.5, NaN boxing: an unboxed operand is read as the canonical NaN. -/
theorem test_nan_boxing :
    givesF (start (f := [(1, 0x000000003F800000), (2, 0xFFFFFFFF3F800000)])) 0x0020F1D3 3 0xFFFFFFFF7FC00000 0 ∧
    givesF (start (f := [(1, 0xFFFFFFFF3F800000), (2, 0xFFFFFFFF3F800000)])) 0x0020F1D3 3 0xFFFFFFFF40000000 0 := by
  decide +kernel

/-- R21 and R412: x0 stays 0; the run ends at the address after the last word of `text`. -/
theorem test_x0_and_end :
    givesX (start [(10, 1)]) 0x00550013 0 0 ∧
    after (run { start with pc := 0x1004, env := { start.env with text := [(0x1000, 0x00550013)] } } 0x00550013)
      (fun t => t.pc == 0x1008) ∧
    after (step { start with pc := 0x1004, env := { start.env with text := [(0x1000, 0x00550013)] } })
      (fun t => t.status == .ended && t.pc == 0x1004) := by
  decide +kernel


/-- The examples of R304 and R290 with two different numbers or infinities. -/
theorem test_max_larger :
    fpMax .d 0x3FF0000000000000 0x4000000000000000 = (0x4000000000000000, 0) ∧
    fpMax .d 0xBFF0000000000000 0xC000000000000000 = (0xBFF0000000000000, 0) ∧
    fpMax .d 0x7FF0000000000000 0x3FF0000000000000 = (0x7FF0000000000000, 0) ∧
    fpMax .d 0xFFF0000000000000 0x3FF0000000000000 = (0x3FF0000000000000, 0) ∧
    fpMax .s 0x3F800000 0x40000000 = (0x40000000, 0) ∧ fpMax .s 0xBF800000 0xC0000000 = (0xBF800000, 0) ∧
    fpMax .s 0xFF800000 0x3F800000 = (0x3F800000, 0) ∧ fpMax .s 0x7F800000 0x3F800000 = (0x7F800000, 0) ∧
    givesF (start (f := [(1, 0x3FF0000000000000), (2, 0x4000000000000000)])) 0x2A2091D3 3 0x4000000000000000 0 ∧
    givesF (start (f := [(1, 0x7FF0000000000000), (2, 0x3FF0000000000000)])) 0x2A2091D3 3 0x7FF0000000000000 0 := by
  decide +kernel

/-! ## The hypotheses of the statements are met

Each theorem names the statement it is about: a concrete state and operands that meet the hypotheses of every one of
its clauses together, at a boundary of their range where they have one. -/

/-- x10 = 0x2008, so that an access of 8 bytes at offset 0 ends where `MemMap` ends. -/
def edge : State := start [(10, 0x2008), (11, 0x1122334455667788)]

/-- For the statements at XLEN = 64: AluRegisterResults, AluImmediateResults, AluWordResults, MultiplyDivide64,
AccessorResults and BitMoveResults. -/
theorem witness_rv64 : start.env.xlen = .rv64 := by decide

/-- Words with the fixed bits of a `Spells` clause: three of AluDerivedResults, one of MultiplyDivideResults, one of
AccessorResults, one of BitMoveResults, then of AluDerivedResults, LoadResults, StoreResults, MultiplyDivideResults,
DivideWordResults, the atomics, SignInjectionResults, MinMaxResults, CompareResults and ClassResults. -/
theorem witness_Spells :
    0x00B50633#32 &&& 0xFE00707F = 0x00000033 ∧ 0x43F55613#32 &&& 0xFC00707F = 0x40005013 ∧
    0x41F5561B#32 &&& 0xFE00707F = 0x4000501B ∧ 0x02B53633#32 &&& 0xFE00707F = 0x02003033 ∧
    0x00151673#32 &&& 0xFFF0707F = 0x00101073 ∧ 0xE0008653#32 &&& 0xFFF0707F = 0xE0000053 ∧
    0xFFF53613#32 &&& 0x0000707F = 0x00003013 ∧ 0xFFC54603#32 &&& 0x0000707F = 0x00004003 ∧
    0x00B53023#32 &&& 0x0000707F = 0x00003023 ∧ 0x02B54633#32 &&& 0xFE00707F = 0x02004033 ∧
    0x02B5463B#32 &&& 0xFE00707F = 0x0200403B ∧ 0x86B5262F#32 &&& 0xF800707F = 0x8000202F ∧
    0xE6B5362F#32 &&& 0xF800707F = 0xE000302F ∧ 0x1605262F#32 &&& 0xF9F0707F = 0x1000202F ∧
    0x1EB5372F#32 &&& 0xF800707F = 0x1800302F ∧ 0x222081D3#32 &&& 0xFE00707F = 0x22000053 ∧
    0x2A2091D3#32 &&& 0xFE00707F = 0x2A001053 ∧ 0xA220A653#32 &&& 0xFE00707F = 0xA2002053 ∧
    0xE0009653#32 &&& 0xFFF0707F = 0xE0001053 := by
  decide

/-- Words with the fixed bits of a `SpellsRm` clause of FpArithmeticResults, FpFusedResults, FpToIntegerResults,
IntegerToFpResults and FpToFpResults, their rm field neither 5 nor 6, and two with the field 5 and 6. -/
theorem witness_SpellsRm :
    (0x0820F1D3#32 &&& 0xFE00007F = 0x08000053 ∧ fRm 0x0820F1D3#32 = 7) ∧
    (0x202081CB#32 &&& 0x0600007F = 0x0000004B ∧ fRm 0x202081CB#32 = 0) ∧
    (0xC2309653#32 &&& 0xFFF0007F = 0xC2300053 ∧ fRm 0xC2309653#32 = 1) ∧
    (0xD02541D3#32 &&& 0xFFF0007F = 0xD0200053 ∧ fRm 0xD02541D3#32 = 4) ∧
    (0x4010F1D3#32 &&& 0xFFF0007F = 0x40100053 ∧ fRm 0x4010F1D3#32 = 7) ∧
    (0x0820D1D3#32 &&& 0xFE00007F = 0x08000053 ∧ fRm 0x0820D1D3#32 = 5) ∧
    (0x4010E1D3#32 &&& 0xFFF0007F = 0x40100053 ∧ fRm 0x4010E1D3#32 = 6) := by
  decide

theorem witness_AluDerivedResults :
    start.env.xlen = .rv64 ∧ (at32 start).env.xlen = .rv32 ∧ (31#6).toNat < (at32 start).env.xlen.bits := by
  decide

theorem witness_WFormInvariant :
    let s := start [(10, 0x12345678FFFFFFFF), (11, 1)]
    let s' := start [(10, 0x87654321FFFFFFFF), (11, 0xFF00000000000001)]
    Instr.addw 12 10 11 ∈ [.addw 12 10 11, .subw 12 10 11, .sllw 12 10 11, .srlw 12 10 11, .sraw 12 10 11,
      .addiw 12 10 0, .slliw 12 10 0, .srliw 12 10 0, .sraiw 12 10 0, .mulw 12 10 11, .divw 12 10 11,
      .divuw 12 10 11, .remw 12 10 11, .remuw 12 10 11] ∧
    s.lowX 10 = s'.lowX 10 ∧ s.lowX 11 = s'.lowX 11 ∧ (∃ t, exec (.addw 12 10 11) s = .next t) ∧
    ∃ t', exec (.addw 12 10 11) s' = .next t' :=
  ⟨by decide, by decide +kernel, by decide +kernel, next_of_completes (by decide +kernel),
    next_of_completes (by decide +kernel)⟩

theorem witness_Rv64OnlyAtXlen32 :
    (Instr.addw 12 10 11).rv64Only = true ∧ (at32 start).env.xlen = .rv32 ∧
    decode .rv32 0x00B50633 = .instr (.add 12 10 11) ∧ (at32 start).status = .running ∧
    ∃ r ∈ rows, r.hits 0x00B5063B = true ∧ (r.build 0x00B5063B).rv64Only = true := by
  decide +kernel

theorem witness_LoadResults :
    edge.allMapped (edge.effAddr 10 7) 1 = true ∧ edge.accessible (edge.effAddr 10 6) 2 ∧
    edge.accessible (edge.effAddr 10 4) 4 ∧ edge.accessible (edge.effAddr 10 0) 8 ∧ edge.env.xlen = .rv64 ∧
    (bytewise edge).accessible ((bytewise edge).effAddr 10 5) 2 ∧
    (bytewise edge).accessible ((bytewise edge).effAddr 10 3) 4 ∧
    (bytewise edge).accessible ((bytewise edge).effAddr 10 0xFFF) 8 := by
  unfold State.accessible; decide +kernel

theorem witness_StoreResults :
    edge.allMapped (edge.effAddr 10 7) 1 = true ∧ edge.accessible (edge.effAddr 10 6) 2 ∧
    edge.accessible (edge.effAddr 10 4) 4 ∧ edge.accessible (edge.effAddr 10 0) 8 ∧ edge.env.xlen = .rv64 := by
  unfold State.accessible; decide +kernel

theorem witness_LoadStoreFaults_misaligned :
    edge.env.misaligned = .fault ∧ edge.env.xlen = .rv64 ∧ (edge.effAddr 10 1).toNat % 2 ≠ 0 ∧
    (edge.effAddr 10 2).toNat % 4 ≠ 0 ∧ (edge.effAddr 10 4).toNat % 8 ≠ 0 := by
  decide +kernel

theorem witness_LoadStoreFaults_access :
    edge.env.xlen = .rv64 ∧ edge.allMapped (edge.effAddr 10 8) 1 = false ∧
    ((edge.effAddr 10 8).toNat % 2 = 0 ∧ edge.allMapped (edge.effAddr 10 8) 2 = false) ∧
    ((edge.effAddr 10 8).toNat % 4 = 0 ∧ edge.allMapped (edge.effAddr 10 8) 4 = false) ∧
    ((edge.effAddr 10 0xFF0).toNat % 8 = 0 ∧ edge.allMapped (edge.effAddr 10 0xFF0) 8 = false) := by
  decide +kernel

theorem witness_LoadStoreFaults_bytewise :
    let s := bytewise edge
    s.env.misaligned = .bytewise ∧ s.env.xlen = .rv64 ∧
    (¬ aligned (s.effAddr 10 7) 2 ∧ s.allMapped (s.effAddr 10 7) 2 = false) ∧
    (¬ aligned (s.effAddr 10 5) 4 ∧ s.allMapped (s.effAddr 10 5) 4 = false) ∧
    (¬ aligned (s.effAddr 10 1) 8 ∧ s.allMapped (s.effAddr 10 1) 8 = false) := by
  decide +kernel

/-- The sw x11, 6(x10) at 0x200E meets its first missing byte at offset 2; the sh and the sd at offsets 1 and 7. -/
theorem witness_BytewiseStoreFault :
    let s := bytewise edge
    s.env.misaligned = .bytewise ∧ s.env.xlen = .rv64 ∧
    ((s.effAddr 10 7).toNat % 2 ≠ 0 ∧ (∀ j < 1, s.mapped (s.byteAddr (s.effAddr 10 7) j) = true) ∧
      s.mapped (s.byteAddr (s.effAddr 10 7) 1) = false) ∧
    ((s.effAddr 10 6).toNat % 4 ≠ 0 ∧ (∀ j < 2, s.mapped (s.byteAddr (s.effAddr 10 6) j) = true) ∧
      s.mapped (s.byteAddr (s.effAddr 10 6) 2) = false) ∧
    ((s.effAddr 10 1).toNat % 8 ≠ 0 ∧ (∀ j < 7, s.mapped (s.byteAddr (s.effAddr 10 1) j) = true) ∧
      s.mapped (s.byteAddr (s.effAddr 10 1) 7) = false) := by
  decide +kernel

theorem witness_StopsKeepState :
    exec (.lw 12 10 1) edge = .fault (.loadAddressMisaligned 0x2009) ∧
    exec (.sw 10 11 6) (bytewise edge) = .fault (.accessFault 0x200E [(0x200E, 0x88), (0x200F, 0x77)]) ∧
    exec (.scW false false 14 10 11) { edge with reservation := some ⟨0x2000, .word⟩ } =
      .refused .scAddressMismatch :=
  ⟨eq_of_faults (by decide +kernel), eq_of_faults (by decide +kernel), eq_of_refuses (by decide +kernel)⟩

theorem witness_DivideWordResults : start.env.xlen = .rv64 := by decide

/-- The signed overflow, one of the corners of the identity. -/
theorem witness_DivisionIdentity :
    let s := start [(10, 0x8000000000000000), (11, 0xFFFFFFFFFFFFFFFF)]
    (12 : XReg) ≠ 0#5 ∧ (∃ t, exec (.div 12 10 11) s = .next t) ∧ (∃ t, exec (.rem 12 10 11) s = .next t) ∧
    (∃ t, exec (.divu 12 10 11) s = .next t) ∧ ∃ t, exec (.remu 12 10 11) s = .next t :=
  ⟨by decide, next_of_completes (by decide +kernel), next_of_completes (by decide +kernel),
    next_of_completes (by decide +kernel), next_of_completes (by decide +kernel)⟩

theorem witness_AmoWordResults : (start [(10, 0x200C)]).atomOk 10 .word := by unfold State.atomOk; decide +kernel

theorem witness_AmoDoubleResults : edge.env.xlen = .rv64 ∧ edge.atomOk 10 .double := by
  unfold State.atomOk; decide +kernel

theorem witness_AtomicFaults :
    let s := start [(10, 0x2002), (11, 0x2010), (12, 0x2004)]
    atomForm (.amoaddW false false 14 10 13) = some (10, .word) ∧ (s.atomAddr 10).toNat % 4 ≠ 0 ∧
    atomForm (.scD false false 14 12 13) = some (12, .double) ∧ s.env.xlen = .rv64 ∧ (s.atomAddr 12).toNat % 8 ≠ 0 ∧
    ((s.atomAddr 11).toNat % 4 = 0 ∧ s.allMapped (s.atomAddr 11) 4 = false) ∧
    ((s.atomAddr 11).toNat % 8 = 0 ∧ s.allMapped (s.atomAddr 11) 8 = false) := by
  decide +kernel

theorem witness_LoadReservedResults :
    edge.env.xlen = .rv64 ∧ edge.atomOk 10 .word ∧ edge.atomOk 10 .double := by
  unfold State.atomOk; decide +kernel

theorem witness_StoreConditionalResults :
    (edge.atomOk 10 .word ∧ edge.atomOk 10 .double ∧ edge.reservation = none ∧ edge.env.xlen = .rv64 ∧
      edge.env.scMayFail = false) ∧
    ((reserved .word).atomOk 10 .word ∧ (reserved .word).reservation = some ⟨(reserved .word).atomAddr 10, .word⟩) ∧
    ((reserved .double).atomOk 10 .double ∧
      (reserved .double).reservation = some ⟨(reserved .double).atomAddr 10, .double⟩) ∧
    ((reserved .word).atomOk 13 .word ∧ (0x2000 : Word) ≠ (reserved .word).atomAddr 13) ∧
    ((reserved .word).atomOk 10 .double ∧ (reserved .word).env.xlen = .rv64) := by
  unfold State.atomOk; decide +kernel

theorem witness_ReservedThenConditional :
    edge.env.scMayFail = false ∧ edge.env.xlen = .rv64 ∧ edge.atomOk 10 .word ∧ edge.atomOk 10 .double ∧
    (12 : XReg) ≠ 10 ∧ (12 : XReg) ≠ 11 ∧ (14 : XReg) ≠ 10 ∧ (14 : XReg) ≠ 0#5 := by
  unfold State.atomOk; decide +kernel

theorem witness_RoundingModeResolution :
    (start (frm := 0)).frm = 0 ∧ (start (frm := 4)).frm = 4 ∧ (start (frm := 5)).frm = 5 ∧
    ({ start (frm := 7) with env := { Env.default with extRm := some .rup } }).frm = 7 ∧
    ({ start (frm := 7) with env := { Env.default with extRm := some .rup } }).env.extRm = some .rup ∧
    ((start (frm := 7)).frm = 7 ∧ (start (frm := 7)).env.extRm = none) ∧
    (Instr.faddS 3 1 2 5).rmField = some 5 ∧ (Instr.fcvtLD 3 1 7).rmField = some 7 ∧ start.env.xlen = .rv64 ∧
    decode .rv64 0x0020F1D3 = .instr (.faddS 3 1 2 7) ∧ (Instr.faddS 3 1 2 7).rmField = some 7 ∧
    ∃ r ∈ rows, r.hits 0x0020D1D3 = true ∧ (r.build 0x0020D1D3).rmField = some 5 := by
  decide +kernel

theorem witness_AccessorResults :
    (4 : RmField) ≠ 5 ∧ (4 : RmField) ≠ 6 ∧ (7 : RmField) ≠ 5 ∧ (7 : RmField) ≠ 6 := by
  decide

theorem witness_NanBoxing :
    ((start (f := [(1, 0xFFFFFFFF3F800000)])).readF 1).toNat / 2 ^ 32 = 0xFFFFFFFF ∧
    ((start (f := [(1, 0xFFFFFFFE3F800000)])).readF 1).toNat / 2 ^ 32 ≠ 0xFFFFFFFF := by
  decide +kernel

/-- For the five statements whose hypothesis is that the rounding mode resolves: FpArithmeticResults, FpFusedResults,
FpToIntegerResults, IntegerToFpResults and FpToFpResults. -/
theorem witness_effRm :
    (start (frm := 4)).effRm 7 = .ok .rmm ∧ start.effRm 1 = .ok .rtz ∧ start.env.xlen = .rv64 := by
  decide +kernel

/-- A signaling and a quiet NaN, an infinity, a zero, the smallest positive number, and a double between two singles. -/
theorem witness_FpToFpResults :
    Fmt.d.isSNaN 0x7FF0000000000001#64 = true ∧ Fmt.s.isSNaN 0xFF800001#32 = true ∧
    Fmt.d.isQNaN 0xFFF8000000000000#64 = true ∧ Fmt.d.isInf 0xFFF0000000000000#64 = true ∧
    Fmt.s.isZero 0x80000000#32 = true ∧ (Fmt.d.isFinite 1#64 = true ∧ Fmt.d.isZero 1#64 = false) ∧
    (Fmt.d.isFinite 0x3FF0000010000000#64 = true ∧ Fmt.d.isZero 0x3FF0000010000000#64 = false) := by
  decide +kernel

theorem witness_SignInjectionPatterns :
    Instr.fsgnjxD 3 1 2 ∈ [.fsgnjS 3 1 2, .fsgnjnS 3 1 2, .fsgnjxS 3 1 2, .fsgnjD 3 1 2, .fsgnjnD 3 1 2,
      .fsgnjxD 3 1 2] ∧ 62 < Fmt.d.width - 1 ∧ 30 < Fmt.s.width - 1 := by
  decide

theorem witness_AccessorsAndMovesAtXlen32 : (at32 start).env.xlen = .rv32 := by decide

theorem witness_NanPropagation :
    Fmt.s.isFinite 0x7F7FFFFF#32 = true ∧ Fmt.d.isFinite 0x0000000000000001#64 = true ∧
    Fmt.s.isNaN 0x7F800001#32 = true ∧ Fmt.d.isNaN 0xFFF8000000000000#64 = true ∧
    Fmt.s.isNaN 0x3F800000#32 = false ∧ Fmt.d.isNaN 0x7FF0000000000000#64 = false := by
  decide +kernel

/-- Infinities, zeros, a number and a negative subnormal. -/
theorem witness_SpecialOperands :
    (Fmt.s.isNaN 0x7F800000#32 = false ∧ Fmt.s.isInf 0x7F800000#32 = true ∧ Fmt.s.sign 0x7F800000#32 = false) ∧
    (Fmt.s.isNaN 0xFF800000#32 = false ∧ Fmt.s.isInf 0xFF800000#32 = true ∧ Fmt.s.isZero 0xFF800000#32 = false) ∧
    (Fmt.s.isNaN 0x7F7FFFFF#32 = false ∧ Fmt.s.isFinite 0x7F7FFFFF#32 = true ∧ Fmt.s.isZero 0x7F7FFFFF#32 = false) ∧
    (Fmt.s.isNaN 0x80000000#32 = false ∧ Fmt.s.isZero 0x80000000#32 = true ∧ Fmt.s.isFinite 0x80000000#32 = true) ∧
    (Fmt.s.isNaN 0x80000001#32 = false ∧ Fmt.s.isZero 0x80000001#32 = false ∧ Fmt.s.sign 0x80000001#32 = true) ∧
    ((Fmt.s.sign 0x7F800000#32 != Fmt.s.sign 0x3F800000#32) ≠ (Fmt.s.sign 0xFF800000#32 != false)) ∧
    ((Fmt.s.sign 0x7F800000#32 != Fmt.s.sign 0x3F800000#32) = (Fmt.s.sign 0xFF800000#32 != true)) := by
  decide +kernel

theorem val_one : Fmt.s.val 0x3F800000#32 = 1 := by decide +kernel

theorem val_minus_one : Fmt.s.val 0xBF800000#32 = -1 := by decide +kernel

theorem witness_ExactZeroSign :
    (Fmt.s.isFinite 0x3F800000#32 = true ∧ Fmt.s.isFinite 0xBF800000#32 = true ∧
      Fmt.s.real 0x3F800000#32 + Fmt.s.real 0xBF800000#32 = 0) ∧
    (Fmt.s.isZero 0x80000000#32 = true ∧ Fmt.s.isFinite 0x80000000#32 = true ∧ Fmt.s.isZero 0x00000001#32 = false ∧
      Fmt.s.isFinite 0x00000001#32 = true) ∧
    Fmt.s.real 0x3F800000#32 - Fmt.s.real 0x3F800000#32 = 0 ∧
    (Fmt.s.real 0x3F800000#32 * Fmt.s.real 0xBF800000#32) + Fmt.s.real 0x3F800000#32 = 0 ∧
    -(Fmt.s.real 0x3F800000#32 * Fmt.s.real 0xBF800000#32) + -Fmt.s.real 0x3F800000#32 = 0 :=
  ⟨⟨by decide +kernel, by decide +kernel, by simp [Fmt.real, val_one, val_minus_one]⟩, by decide +kernel,
    by simp [Fmt.real, val_one], by simp [Fmt.real, val_one, val_minus_one],
    by simp [Fmt.real, val_one, val_minus_one]⟩

/-- a = 1, b = -1 and c = 1: the sum b + a is exact zero, the others are not; the fused results are those of 1 · -1 - 1
and of -(1 · -1) + 1. -/
theorem witness_ArithmeticIsCorrectlyRounded :
    let a := 0x3F800000#32
    let b := 0xBF800000#32
    Fmt.s.isFinite a = true ∧ Fmt.s.isFinite b = true ∧
    (Fmt.s.real a + Fmt.s.real a ≠ 0 ∧ Fmt.s.isFinite (fpAdd .s .rne a a).1 = true) ∧
    (Fmt.s.real a - Fmt.s.real b ≠ 0 ∧ Fmt.s.isFinite (fpSub .s .rne a b).1 = true) ∧
    (Fmt.s.real a * Fmt.s.real b ≠ 0 ∧ Fmt.s.isFinite (fpMul .s .rne a b).1 = true) ∧
    (Fmt.s.real a ≠ 0 ∧ Fmt.s.real b ≠ 0 ∧ Fmt.s.isFinite (fpDiv .s .rne a b).1 = true) ∧ 0 < Fmt.s.real a ∧
    ((if false then -(Fmt.s.real a * Fmt.s.real b) else Fmt.s.real a * Fmt.s.real b) +
      (if true then -Fmt.s.real a else Fmt.s.real a) ≠ 0 ∧
      Fmt.s.isFinite (fpFma .s .rne a b a false true).1 = true) ∧
    ((if true then -(Fmt.s.real a * Fmt.s.real b) else Fmt.s.real a * Fmt.s.real b) +
      (if false then -Fmt.s.real a else Fmt.s.real a) ≠ 0 ∧
      Fmt.s.isFinite (fpFma .s .rne a b a true false).1 = true) := by
  refine ⟨by decide +kernel, by decide +kernel, ⟨?_, by decide +kernel⟩, ⟨?_, by decide +kernel⟩,
    ⟨?_, by decide +kernel⟩, ⟨?_, ?_, by decide +kernel⟩, ?_, ⟨?_, by decide +kernel⟩, ⟨?_, by decide +kernel⟩⟩ <;>
  simp [Fmt.real, val_one, val_minus_one]

/-- The same operands for the clauses on pattern and flags, which read the values as fractions. -/
theorem witness_ArithmeticIsCorrectlyRounded_flags :
    let a := 0x3F800000#32
    let b := 0xBF800000#32
    Fmt.s.val a + Fmt.s.val a ≠ 0 ∧ Fmt.s.val a - Fmt.s.val b ≠ 0 ∧ Fmt.s.val a * Fmt.s.val b ≠ 0 ∧
    (Fmt.s.val a ≠ 0 ∧ Fmt.s.val b ≠ 0) ∧
    (if false then -(Fmt.s.val a * Fmt.s.val b) else Fmt.s.val a * Fmt.s.val b) +
      (if true then -Fmt.s.val a else Fmt.s.val a) ≠ 0 := by
  decide +kernel

/-- 1, the value just below the overflow, and 2^-149 · 3/2. -/
theorem witness_RoundingFlags :
    (1 : Rat) ≠ 0 ∧ (roundFmt .s .rne 1 false).2 &&& flagOF = 0 ∧ Fmt.s.isFinite 0x3F800000#32 = true ∧
    Fmt.s.val 0x3F800000#32 = 1 ∧ (roundFmt .s .rtz (Fmt.s.val 0x7F7FFFFF#32 + 1) false).2 &&& flagOF = 0 ∧
    (roundFmt .s .rne (Fmt.s.val 0x00000001#32 * mkRat 3 2) false).2 &&& flagOF = 0 ∧
    Fmt.s.isFinite (roundFmt .s .rne (Fmt.s.val 0x00000001#32 * mkRat 3 2) false).1 = true := by
  decide +kernel

/-- 2^-149 · 3/2 is far below 2^emin and inexact; 2^-126 · (1 - 2^-25), the value of the separating example of R268, is
below 2^emin too, and reaches it when rounded to nearest, and not toward zero. -/
theorem witness_UnderflowFlag :
    let r := Fmt.s.val 0x00000001#32 * mkRat 3 2
    let q := mkRat (2 ^ 25 - 1) (2 ^ 151)
    r ≠ 0 ∧ q ≠ 0 ∧ (roundFmt .s .rne r false).2 &&& flagUF ≠ 0 ∧ (roundFmt .s .rne r false).2 ≠ 0 ∧
    |r| ≤ (2 : Rat) ^ Fmt.s.emin - (2 : Rat) ^ (Fmt.s.emin - 1 - Fmt.s.fracBits) ∧
    Fmt.s.reaches .rne q Fmt.s.emin ∧ ¬Fmt.s.reaches .rtz q Fmt.s.emin := by
  have h : Fmt.s.val 0x00000001#32 * mkRat 3 2 = 3 / 2 ^ 150 := by decide +kernel
  have hq : (mkRat (2 ^ 25 - 1) (2 ^ 151) : Rat) = (2 ^ 25 - 1) / 2 ^ 151 := by decide +kernel
  refine ⟨by decide +kernel, by decide +kernel, by decide +kernel, by decide +kernel, ?_, ?_, ?_⟩
  · rw [h, show Fmt.s.emin = -126 from rfl, show Fmt.s.fracBits = 23 from rfl]
    norm_num [abs_of_pos]
  · rw [hq, Fmt.reaches, show Fmt.s.emin = -126 from rfl, show Fmt.s.fracBits = 23 from rfl]
    norm_num [abs_of_pos]
  · rw [hq, Fmt.reaches, show Fmt.s.emin = -126 from rfl]
    norm_num [abs_of_pos]

/-- The separating example of R268 itself: in each mode that rounds it up to 2^emin it raises NX alone. -/
theorem test_fmulS_separating :
    fpMul .s .rne 0x21118E00#32 0x1EE12000#32 = (0x00800000#32, flagNX) ∧
    fpMul .s .rup 0x21118E00#32 0x1EE12000#32 = (0x00800000#32, flagNX) ∧
    fpMul .s .rmm 0x21118E00#32 0x1EE12000#32 = (0x00800000#32, flagNX) ∧
    (fpMul .s .rtz 0x21118E00#32 0x1EE12000#32).2 = flagUF ||| flagNX := by
  decide +kernel

/-- 2^128, where every mode reaches it; half a quantum below, where a tie does; and the largest finite value. -/
theorem witness_OverflowResults :
    (-2 ^ 128 : Rat) ≠ 0 ∧ (2 : Rat) ^ (Fmt.s.emax + 1) ≤ |(-2 ^ 128 : Rat)| ∧
    Fmt.s.reaches .rdn (-2 ^ 128) (Fmt.s.emax + 1) ∧ Fmt.s.reaches .rne (2 ^ 128 - 2 ^ 103) (Fmt.s.emax + 1) ∧
    ¬Fmt.s.reaches .rtz (2 ^ 128 - 2 ^ 103) (Fmt.s.emax + 1) ∧
    (Fmt.s.isFinite 0xFF7FFFFF#32 = true ∧ |Fmt.s.val 0x7F7FFFFF#32| ≤ |Fmt.s.val 0xFF7FFFFF#32|) := by
  have h : Fmt.s.val 0x7F7FFFFF#32 = 2 ^ 128 - 2 ^ 104 ∧ Fmt.s.val 0xFF7FFFFF#32 = -(2 ^ 128 - 2 ^ 104) := by
    decide +kernel
  refine ⟨by norm_num, ?_, ?_, ?_, ?_, by decide +kernel, ?_⟩
  · rw [show Fmt.s.emax + 1 = 128 from rfl]; norm_num [abs_of_neg]
  · rw [Fmt.reaches, show Fmt.s.emax + 1 = 128 from rfl, show Fmt.s.fracBits = 23 from rfl]; norm_num [abs_of_neg]
  · rw [Fmt.reaches, show Fmt.s.emax + 1 = 128 from rfl, show Fmt.s.fracBits = 23 from rfl]; norm_num [abs_of_pos]
  · rw [Fmt.reaches, show Fmt.s.emax + 1 = 128 from rfl]; norm_num [abs_of_pos]
  · rw [h.1, h.2, abs_neg]

theorem witness_FpToIntegerValues :
    Fmt.s.isNaN 0x7FA00000#32 = true ∧ Fmt.s.isInf 0xFF800000#32 = true ∧ Fmt.s.isFinite 0xBFC00000#32 = true ∧
    Fmt.d.isFinite 0x43E0000000000000#64 = true := by
  decide +kernel

theorem witness_WideningIsExact : Fmt.s.isFinite 0x00000001#32 = true ∧ Fmt.s.isFinite 0xFF7FFFFF#32 = true := by
  decide +kernel

theorem witness_CompareValues :
    (Fmt.s.isFinite 0x80000000#32 = true ∧ Fmt.s.isFinite 0x00000000#32 = true) ∧ Fmt.s.isInf 0xFF800000#32 = true ∧
    Fmt.s.isInf 0x7F800000#32 = true ∧ Fmt.s.isNaN 0x7FC00000#32 = true ∧ Fmt.s.isNaN 0x7FA00000#32 = true := by
  decide +kernel

/-- Two NaNs, a NaN and a number, -0 and +0, an infinity and a number. -/
theorem witness_MinMaxValues :
    (Fmt.s.isNaN 0x7FA00000#32 = true ∧ Fmt.s.isNaN 0x7FC00000#32 = true) ∧
    (Fmt.s.isNaN 0x7FC00000#32 = true ∧ Fmt.s.isNaN 0x4048F5C3#32 = false) ∧
    (Fmt.s.isFinite 0x80000000#32 = true ∧ Fmt.s.isFinite 0x00000000#32 = true ∧
      Fmt.s.real 0x80000000#32 ≤ Fmt.s.real 0x00000000#32 ∧ Fmt.s.sign 0x80000000#32 = true) ∧
    (Fmt.s.isInf 0xFF800000#32 = true ∧ Fmt.s.isNaN 0x7F7FFFFF#32 = false) := by
  have h : Fmt.s.val 0x80000000#32 = 0 ∧ Fmt.s.val 0x00000000#32 = 0 := by decide +kernel
  exact ⟨by decide +kernel, by decide +kernel,
    ⟨by decide +kernel, by decide +kernel, by simp [Fmt.real, h.1, h.2], by decide +kernel⟩, by decide +kernel⟩

/-- A one-instruction program at the pc: the hypotheses of StepRunsDecodedInstruction. -/
def oneWord (w : InstrWord) : State :=
  let s := start [(10, 0x2000), (11, 3)]
  { s with env := { s.env with text := [(0x1000, w), (0x1004, 0x00000013)] } }

theorem witness_StepRunsDecodedInstruction :
    let s := oneWord 0x00B50633
    s.status = .running ∧ endAddr s.env ≠ some s.pc ∧ s.pc.toNat % 4 = 0 ∧
    textAt s.env.text s.pc.toNat = some 0x00B50633 ∧ decode s.env.xlen 0x00B50633 = .instr (.add 12 10 11) := by
  decide +kernel

theorem witness_StepWithoutInstruction :
    let s := oneWord 0x0000000B
    ({ s with pc := 0x1008 }.status = .running ∧ endAddr s.env = some 0x1008) ∧
    (endAddr s.env ≠ some 0x1002 ∧ (0x1002 : Word).toNat % 4 ≠ 0) ∧
    (endAddr s.env ≠ some 0x100C ∧ textAt s.env.text 0x100C = none) ∧
    (s.status = .running ∧ endAddr s.env ≠ some s.pc ∧ s.pc.toNat % 4 = 0 ∧
      textAt s.env.text s.pc.toNat = some 0x0000000B ∧ decode s.env.xlen 0x0000000B = .illegal) ∧
    (textAt (oneWord 0x0000006F).env.text s.pc.toNat = some 0x0000006F ∧
      decode s.env.xlen 0x0000006F = .notInCore 0x0000006F) ∧
    ({ s with status := .ended }.status ≠ .running) ∧
    ({ s.env with endPc := .fixed 0x2000 }.endPc = .fixed 0x2000) ∧
    (s.env.endPc = .afterText ∧ s.env.text = [(0x1000, 0x0000000B)] ++ [(0x1004, 0x00000013)]) ∧
    (start.env.endPc = .afterText ∧ start.env.text = []) := by
  decide +kernel

theorem witness_DecodeOfEncode :
    (Instr.slli 31 31 31).wellFormed .rv32 = true ∧ (Instr.fmaddD 31 0 31 0 7).wellFormed .rv64 = true := by
  decide

theorem witness_EncodeOfDecode : decode .rv64 0xFFF50613 = .instr (.addi 12 10 0xFFF) := by decide

theorem witness_TableIsUnambiguous :
    (∃ r, rows[0]? = some r ∧ r.hits 0x00B50633 = true) ∧ (∀ r ∈ rows, r.hits 0x0000006F = false) ∧
    ∀ r ∈ rows, r.hits 0x0000000B = false :=
  ⟨⟨_, rfl, by decide⟩, by decide +kernel, by decide +kernel⟩

/-- Words that match a row: of a reserved rounding mode, of an RV64-only row, of a shift by 63, of an instruction. -/
theorem witness_TableIsUnambiguous_hits :
    (∃ r ∈ rows, r.hits 0x0020E1D3 = true ∧ (r.build 0x0020E1D3).rmField = some 6) ∧
    (∃ r ∈ rows, r.hits 0x00B5063B = true ∧ (r.build 0x00B5063B).rv64Only = true) ∧
    (∃ r ∈ rows, r.hits 0x03F51593 = true ∧ (r.build 0x03F51593).shamt6 = some 63) ∧
    ∃ r ∈ rows, r.hits 0x00B50633 = true := by
  decide +kernel

/-- A state that runs lr.w and holds a reservation. -/
def busy : State := { oneWord 0x1005262F with reservation := some ⟨0x2008, .double⟩ }

theorem inv_busy : Inv busy where
  mem := by decide +kernel
  x0 := by decide +kernel
  x := by unfold XLen.holds; decide +kernel
  pc := by decide +kernel
  pcAligned := by decide +kernel
  reservation := by
    intro r h
    simp only [busy, Option.some.injEq] at h
    subst h
    decide

theorem witness_StepKeepsInvariant : Inv busy ∧ ∃ t, step busy = .next t :=
  ⟨inv_busy, next_of_completes (by decide +kernel)⟩

theorem witness_EveryInstructionFrame :
    (∃ t, exec (.sd 10 11 0) edge = .next t) ∧ xDest (.sd 10 11 0) ≠ some 12 ∧ fDest (.sd 10 11 0) ≠ some 3 ∧
    0x2010 ∉ written (.sd 10 11 0) edge ∧ ¬writesReservation (.sd 10 11 0) :=
  ⟨next_of_completes (by decide +kernel), by decide, by decide,
    by decide +kernel, by simp [writesReservation]⟩

theorem witness_ControlStateFrame :
    (∃ t, exec (.add 12 10 11) edge = .next t) ∧ ¬replacesFlags (.add 12 10 11) ∧ mayRaise (.add 12 10 11) = false ∧
    ¬writesFrm (.add 12 10 11) :=
  ⟨next_of_completes (by decide +kernel), by simp [replacesFlags], by decide, by simp [writesFrm]⟩

/-- Three harts: the first stores a doubleword at 0x2000, the second holds a reservation there, the third at 0x2008. -/
def three : System where
  mem := (start (m := 0x1122334455667788)).mem
  draws := 0
  harts := [⟨oneWord 0x00B53023, []⟩, ⟨{ start with reservation := some ⟨0x2004, .word⟩ }, []⟩,
    ⟨{ start with reservation := some ⟨0x2008, .double⟩ }, []⟩]

theorem witness_OtherHartsFrame :
    ∃ z h g r, three.step 0 = some z ∧ three.hart 0 = some h ∧ h.state.splitAccess = none ∧
      three.harts[1]? = some g ∧ three.harts[2]? = some r ∧
      (g.state.reservation = some ⟨0x2004, .word⟩ ∧ 0x2004 ∈ h.written) ∧
      (r.state.reservation = some ⟨0x2008, .double⟩ ∧ ∀ a ∈ h.written, a < 0x2008 ∨ 0x2010 ≤ a) := by
  refine ⟨_, _, _, _, rfl, rfl, by decide +kernel, rfl, rfl, ⟨rfl, ?_⟩, rfl, ?_⟩ <;> decide +kernel

/-- One hart before `sh x11, off(x10)` (the word `w`), x10 = 0x2008, misaligned accesses done byte by byte. -/
def splitting (w : InstrWord) (seen : List Byte) : System where
  mem := edge.mem
  draws := 0
  harts := [⟨{ bytewise edge with env := { (bytewise edge).env with text := [(0x1000, w)] } }, seen⟩]

/-- `sh x11, 1(x10)` with a byte to come and at its last byte, `lh x12, 1(x10)`, and `sh x11, 7(x10)` whose second byte
does not exist. -/
theorem witness_OtherHartsFrame_bytes :
    (∃ z h, (splitting 0x00B510A3 []).step 0 = some z ∧ (splitting 0x00B510A3 []).hart 0 = some h ∧
      h.state.splitAccess = some (.sh 10 11 1, ⟨0x2009, 2, some 0x1122334455667788⟩) ∧
      h.state.mapped 0x2009 = true ∧ h.seen.length + 1 < 2) ∧
    (∃ z h, (splitting 0x00B510A3 [0x88]).step 0 = some z ∧ (splitting 0x00B510A3 [0x88]).hart 0 = some h ∧
      h.state.splitAccess = some (.sh 10 11 1, ⟨0x2009, 2, some 0x1122334455667788⟩) ∧
      h.state.allMapped 0x2009 2 = true ∧ h.seen.length + 1 = 2) ∧
    (∃ z h, (splitting 0x00151603 []).step 0 = some z ∧ (splitting 0x00151603 []).hart 0 = some h ∧
      h.state.splitAccess = some (.lh 12 10 1, ⟨0x2009, 2, none⟩) ∧ h.state.mapped 0x2009 = true ∧
      h.seen.length + 1 < 2) ∧
    (∃ z h, (splitting 0x00B513A3 [0x88]).step 0 = some z ∧ (splitting 0x00B513A3 [0x88]).hart 0 = some h ∧
      h.state.splitAccess = some (.sh 10 11 7, ⟨0x200F, 2, some 0x1122334455667788⟩) ∧
      h.state.mapped (h.state.accessAddr ⟨0x200F, 2, some 0x1122334455667788⟩ 1) = false) :=
  ⟨⟨_, _, rfl, rfl, by decide +kernel⟩, ⟨_, _, rfl, rfl, by decide +kernel⟩, ⟨_, _, rfl, rfl, by decide +kernel⟩,
    ⟨_, _, rfl, rfl, by decide +kernel⟩⟩

end Sys2Proof.Tests
end

section
/-! PROOFS. The integer ALU (spec/40_integer_alu.md R110 to R141): each operation as a number at every width, what an
instruction that writes one result does at XLEN = 64, and the W invariant. -/

namespace Sys2Proof.Machine

/-! ## The operations as numbers -/

section Operations

variable {w : Nat} (a b : BitVec w)

theorem opAdd_eq_ofNat : opAdd w a b = BitVec.ofNat w (a.toNat + b.toNat) := by
  simp [opAdd, BitVec.ofNat_add]

theorem opSub_eq_ofInt : opSub w a b = BitVec.ofInt w ((a.toNat : Int) - b.toNat) := by
  simp [opSub, Int.sub_eq_add_neg, BitVec.sub_eq_add_neg, BitVec.ofInt_add, BitVec.ofInt_neg]

theorem opSlt_eq_ite : opSlt w a b = if a.toInt < b.toInt then 1#w else 0#w := by
  simp only [opSlt, BitVec.slt_iff_toInt_lt]

theorem opSltu_eq_ite : opSltu w a b = if a.toNat < b.toNat then 1#w else 0#w := by
  simp only [opSltu, BitVec.ult_iff_toNat_lt]

variable {n : Nat} (h : b.toNat % w = n)
include h

/-- A shift left multiplies by a power of two, whatever operand gives the amount (R113, R116). -/
theorem opSll_eq_ofNat : opSll w a b = BitVec.ofNat w (a.toNat * 2 ^ n) := by
  apply BitVec.eq_of_toNat_eq
  rw [opSll, h, BitVec.toNat_shiftLeft, Nat.shiftLeft_eq, BitVec.toNat_ofNat]

/-- A logical shift right divides the unsigned operand (R113, R120). -/
theorem opSrl_eq_ofNat : opSrl w a b = BitVec.ofNat w (a.toNat / 2 ^ n) := by
  have hlt : a.toNat / 2 ^ n < 2 ^ w := (Nat.div_le_self _ _).trans_lt a.isLt
  apply BitVec.eq_of_toNat_eq
  rw [opSrl, h, BitVec.toNat_ushiftRight, Nat.shiftRight_eq_div_pow, BitVec.toNat_ofNat, Nat.mod_eq_of_lt hlt]

/-- An arithmetic shift right divides the signed operand, rounding down (R113, R121). -/
theorem opSra_eq_ofInt : opSra w a b = BitVec.ofInt w (a.toInt / 2 ^ n) := by
  rw [opSra, h, BitVec.sshiftRight, Int.shiftRight_eq_div_pow, Nat.cast_pow, Nat.cast_ofNat]

end Operations

/-! ## Immediate shift amounts stay below the width (R113) -/

theorem shamtOperand_mod_64 (shamt : BitVec 6) : (shamtOperand shamt).toNat % 64 = shamt.toNat := by
  rw [shamtOperand_toNat (by decide), Nat.mod_eq_of_lt shamt.isLt]

theorem shamtOperand_low_mod_32 (shamt : BitVec 5) :
    ((shamtOperand shamt).setWidth 32).toNat % 32 = shamt.toNat := by
  have := shamt.isLt
  rw [BitVec.toNat_setWidth, shamtOperand_toNat (by decide)]
  omega

/-! ## The shapes of the instructions at XLEN = 64 -/

section Shapes

variable {i : Instr} {s t s' t' : State} {f : IntOp} {rd rs1 rs2 : XReg} {b v : Word} {z : Int}

/-- An instruction that only retires a value does that at XLEN = 64, where every value is canonical. -/
theorem does_of_retireX (h : s.env.xlen = .rv64) (hi : exec i s = .next (s.retireX rd v)) :
    Does i s { x := some (rd, v) } := by
  have hb := becomes_retireX s rd v
  rw [h] at hb
  exact ⟨_, hi, hb⟩

theorem does_of_aluImm (h : s.env.xlen = .rv64) (hi : exec i s = aluImm f rd rs1 b s)
    (hv : f 64 (s.readX rs1) b = v) : Does i s { x := some (rd, v) } := by
  subst hv
  refine does_of_retireX h ?_
  rw [hi, aluImm, h, IntOp.atXLen]

theorem does_of_aluReg (h : s.env.xlen = .rv64) (hi : exec i s = aluReg f rd rs1 rs2 s)
    (hv : f 64 (s.readX rs1) (s.readX rs2) = v) : Does i s { x := some (rd, v) } :=
  does_of_aluImm h hi hv

/-- A W form writes the 32-bit result, sign-extended (R111). -/
theorem does_of_aluImmW (h : s.env.xlen = .rv64) (hi : exec i s = aluImmW f rd rs1 b s)
    (hv : f 32 (s.lowX rs1) (b.setWidth 32) = BitVec.ofInt 32 z) : Does i s { x := some (rd, sextW z) } := by
  refine does_of_retireX h ?_
  rw [hi, aluImmW, State.rv64Only_of h, sextW, ← hv]
  rfl

theorem does_of_aluRegW (h : s.env.xlen = .rv64) (hi : exec i s = aluRegW f rd rs1 rs2 s)
    (hv : f 32 (s.lowX rs1) (s.lowX rs2) = BitVec.ofInt 32 z) : Does i s { x := some (rd, sextW z) } :=
  does_of_aluImmW h hi hv

/-- What a W form leaves in x[rd] when it completes. -/
theorem readX_of_aluImmW (ht : aluImmW f rd rs1 b s = .next t) :
    t.readX rd = if rd = 0#5 then 0 else (f 32 (s.lowX rs1) (b.setWidth 32)).signExtend 64 := by
  obtain ⟨h64, ht⟩ := State.rv64Only_next.1 ht
  obtain rfl := Host.Outcome.next.inj ht
  rw [State.retireX_readX, if_pos rfl, h64]
  rfl

/-- A register that holds zero or a sign-extended word equals the sign-extension of its low word. -/
theorem readX_eq_signExtend_lowX {r : BitVec 32} (h : t.readX rd = if rd = 0#5 then 0 else r.signExtend 64) :
    t.readX rd = (t.lowX rd).signExtend 64 := by
  rw [State.lowX, h]
  split
  · rfl
  · rw [low_signExtend]

/-- R111 for every operation and every second operand: the result is the sign-extension of its low word, and operands
with equal low words give equal results. -/
theorem aluImmW_invariant (f : IntOp) {b' : Word} (h1 : s.lowX rs1 = s'.lowX rs1) (h2 : b.setWidth 32 = b'.setWidth 32)
    (ht : aluImmW f rd rs1 b s = .next t) (ht' : aluImmW f rd rs1 b' s' = .next t') :
    t.readX rd = (t.lowX rd).signExtend 64 ∧ t.readX rd = t'.readX rd := by
  have hr := readX_of_aluImmW ht
  have hr' := readX_of_aluImmW ht'
  exact ⟨readX_eq_signExtend_lowX hr, by rw [hr, hr', h1, h2]⟩

theorem aluRegW_invariant (f : IntOp) (h1 : s.lowX rs1 = s'.lowX rs1) (h2 : s.lowX rs2 = s'.lowX rs2)
    (ht : aluRegW f rd rs1 rs2 s = .next t) (ht' : aluRegW f rd rs1 rs2 s' = .next t') :
    t.readX rd = (t.lowX rd).signExtend 64 ∧ t.readX rd = t'.readX rd :=
  aluImmW_invariant f h1 h2 ht ht'

end Shapes

/-! ## The statements -/

/-- Settles O1: each instruction is `aluReg` of its operation, whose value at width 64 is the rule's. -/
theorem aluRegisterResults : Obligations.AluRegisterResults := by
  intro s rd rs1 rs2 h
  exact ⟨does_of_aluReg h rfl (opAdd_eq_ofNat _ _), does_of_aluReg h rfl (opSub_eq_ofInt _ _),
    does_of_aluReg h rfl (opSll_eq_ofNat _ _ rfl), does_of_aluReg h rfl (opSlt_eq_ite _ _),
    does_of_aluReg h rfl (opSltu_eq_ite _ _), does_of_aluReg (f := opXor) h rfl rfl,
    does_of_aluReg h rfl (opSrl_eq_ofNat _ _ rfl), does_of_aluReg h rfl (opSra_eq_ofInt _ _ rfl),
    does_of_aluReg (f := opOr) h rfl rfl, does_of_aluReg (f := opAnd) h rfl rfl⟩

/-- Settles O2: each instruction is `aluImm` of its operation on the extended immediate or shift amount. -/
theorem aluImmediateResults : Obligations.AluImmediateResults := by
  intro s rd rs1 imm shamt h
  have hn := shamtOperand_mod_64 shamt
  have hslt : opSlt 64 (s.readX rs1) (immOperand imm) = if (s.readX rs1).toInt < imm.toInt then 1 else 0 := by
    rw [opSlt_eq_ite, immOperand_toInt]
    rfl
  exact ⟨does_of_aluImm h rfl (opAdd_eq_ofNat _ _), does_of_aluImm h rfl hslt,
    does_of_aluImm (f := opXor) h rfl rfl, does_of_aluImm (f := opOr) h rfl rfl,
    does_of_aluImm (f := opAnd) h rfl rfl, does_of_aluImm h rfl (opSll_eq_ofNat _ _ hn),
    does_of_aluImm h rfl (opSrl_eq_ofNat _ _ hn), does_of_aluImm h rfl (opSra_eq_ofInt _ _ hn)⟩

/-- Settles O3: each W form is the operation at width 32, whose value there is the rule's. -/
theorem aluWordResults : Obligations.AluWordResults := by
  intro s rd rs1 rs2 shamt h
  have hn := shamtOperand_low_mod_32 shamt
  have hadd : opAdd 32 (s.lowX rs1) (s.lowX rs2) = BitVec.ofInt 32 ((s.lowX rs1).toNat + (s.lowX rs2).toNat) :=
    opAdd_eq_ofNat _ _
  exact ⟨does_of_aluRegW h rfl hadd, does_of_aluRegW h rfl (opSub_eq_ofInt _ _),
    does_of_aluRegW h rfl (opSll_eq_ofNat _ _ rfl), does_of_aluRegW h rfl (opSrl_eq_ofNat _ _ rfl),
    does_of_aluRegW h rfl (opSra_eq_ofInt _ _ rfl), does_of_aluImmW h rfl (opSll_eq_ofNat _ _ hn),
    does_of_aluImmW h rfl (opSrl_eq_ofNat _ _ hn), does_of_aluImmW h rfl (opSra_eq_ofInt _ _ hn)⟩

/-- Settles O5: each of the fourteen is `aluRegW` or `aluImmW` of some operation, and the invariant holds for any. -/
theorem wFormInvariant : Obligations.WFormInvariant := by
  rintro i rd rs1 rs2 s s' t t' ⟨imm, shamt, hi⟩ h1 h2 ht ht'
  simp only [List.mem_cons, List.not_mem_nil, or_false] at hi
  obtain rfl | rfl | rfl | rfl | rfl | rfl | rfl | rfl | rfl | rfl | rfl | rfl | rfl | rfl := hi
  · exact aluRegW_invariant opAdd h1 h2 ht ht'
  · exact aluRegW_invariant opSub h1 h2 ht ht'
  · exact aluRegW_invariant opSll h1 h2 ht ht'
  · exact aluRegW_invariant opSrl h1 h2 ht ht'
  · exact aluRegW_invariant opSra h1 h2 ht ht'
  · exact aluImmW_invariant opAdd h1 rfl ht ht'
  · exact aluImmW_invariant opSll h1 rfl ht ht'
  · exact aluImmW_invariant opSrl h1 rfl ht ht'
  · exact aluImmW_invariant opSra h1 rfl ht ht'
  · exact aluRegW_invariant opMul h1 h2 ht ht'
  · exact aluRegW_invariant opDiv h1 h2 ht ht'
  · exact aluRegW_invariant opDivu h1 h2 ht ht'
  · exact aluRegW_invariant opRem h1 h2 ht ht'
  · exact aluRegW_invariant opRemu h1 h2 ht ht'

end Sys2Proof.Machine
end

section
/-! PROOFS. Multiply and divide (spec/42_muldiv.md R190 to R209) at XLEN = 64. -/

namespace Sys2Proof.Machine

/-- The low half of a product is that of the signed product too (R193, R197). -/
theorem opMul_eq_ofInt {w : Nat} (a b : BitVec w) : opMul w a b = BitVec.ofInt w (a.toInt * b.toInt) := by
  rw [opMul, BitVec.ofInt_mul, BitVec.ofInt_toInt, BitVec.ofInt_toInt]

/-- Settles O15: each instruction is `aluReg` of its operation, and MULW is `aluRegW` of the product. At width 64 every
operation but the product is the rule's formula as it stands. -/
theorem multiplyDivide64 : Obligations.MultiplyDivide64 := by
  intro s rd rs1 rs2 h
  exact ⟨does_of_aluReg (f := opMulh) h rfl rfl, does_of_aluReg (f := opMulhsu) h rfl rfl,
    does_of_aluReg (f := opMulhu) h rfl rfl, does_of_aluRegW h rfl (opMul_eq_ofInt _ _),
    does_of_aluReg (f := opDivu) h rfl rfl, does_of_aluReg (f := opRemu) h rfl rfl⟩

end Sys2Proof.Machine
end

section
/-! PROOFS. Sign injection (spec/44_fp_arith.md R276): what the operation puts in each bit of the pattern, and what the
instructions leave of the control state. -/

namespace Sys2Proof.Machine

/-! ## The bits of the pattern -/

section Pattern

variable (fmt : Fmt) (sign : Bool) (a : BitVec fmt.width)

/-- The sum in `withSign` carries nothing into the top bit: the part kept of the operand is below its weight. -/
@[simp] theorem Fmt.sign_withSign : fmt.sign (fmt.withSign sign a) = sign := by
  have hpos : 0 < fmt.width := by cases fmt <;> decide
  rw [Fmt.sign, BitVec.msb_eq_getLsbD_last, Fmt.withSign, BitVec.getLsbD_ofNat]
  cases sign
  · simp
  · simpa [Nat.testBit_two_pow_add_eq] using hpos

/-- Below the top bit the sum has the bits of the operand. -/
theorem Fmt.getLsbD_withSign {k : Nat} (hk : k < fmt.width - 1) :
    (fmt.withSign sign a).getLsbD k = a.getLsbD k := by
  have hw : k < fmt.width := by omega
  have hsum : ((if sign then 2 ^ (fmt.width - 1) else 0) + a.toNat % 2 ^ (fmt.width - 1)).testBit k =
      (a.toNat % 2 ^ (fmt.width - 1)).testBit k := by
    cases sign
    · simp
    · exact Nat.testBit_two_pow_add_gt hk _
  rw [Fmt.withSign, BitVec.getLsbD_ofNat, hsum, Nat.testBit_mod_two_pow, BitVec.testBit_toNat]
  simp only [hk, hw, decide_true, Bool.true_and]

end Pattern

/-! ## The control state -/

section Control

variable (fmt : Fmt) (s : State) (m : RmField)

@[simp] theorem State.readFmt_withFrm (i : FReg) : { s with frm := m }.readFmt fmt i = s.readFmt fmt i := by
  cases fmt <;> rfl

@[simp] theorem State.writeFmt_withFrm (i : FReg) (v : BitVec fmt.width) :
    { s with frm := m }.writeFmt fmt i v = { s.writeFmt fmt i v with frm := m } := by
  cases fmt <;> rfl

/-- An instruction that injects a pattern completes, touches neither control field, and takes the frm it finds along
without reading it. -/
theorem fpInject_control (f : BitVec fmt.width → BitVec fmt.width → BitVec fmt.width) (rd rs1 rs2 : FReg) :
    ∃ t, fpInject fmt f rd rs1 rs2 s = .next t ∧ t.fflags = s.fflags ∧ t.frm = s.frm ∧
      fpInject fmt f rd rs1 rs2 { s with frm := m } = .next { t with frm := m } := by
  refine ⟨_, rfl, by simp, by simp, ?_⟩
  rw [fpInject, State.readFmt_withFrm, State.readFmt_withFrm, State.writeFmt_withFrm]
  rfl

end Control

/-! ## The statement -/

/-- Settles O29: each operation is `withSign` of its sign on operand 1, and each instruction is `fpInject` of its
operation. -/
theorem signInjectionPatterns : Obligations.SignInjectionPatterns := by
  constructor
  · intro fmt a b
    exact ⟨fmt.sign_withSign _ a, fmt.sign_withSign _ a, fmt.sign_withSign _ a, fun k hk =>
      ⟨fmt.getLsbD_withSign _ a hk, fmt.getLsbD_withSign _ a hk, fmt.getLsbD_withSign _ a hk⟩⟩
  · intro i rd rs1 rs2 s m hi
    simp only [List.mem_cons, List.not_mem_nil, or_false] at hi
    obtain rfl | rfl | rfl | rfl | rfl | rfl := hi
    · exact fpInject_control .s s m (fpSgnj .s) rd rs1 rs2
    · exact fpInject_control .s s m (fpSgnjn .s) rd rs1 rs2
    · exact fpInject_control .s s m (fpSgnjx .s) rd rs1 rs2
    · exact fpInject_control .d s m (fpSgnj .d) rd rs1 rs2
    · exact fpInject_control .d s m (fpSgnjn .d) rd rs1 rs2
    · exact fpInject_control .d s m (fpSgnjx .d) rd rs1 rs2

end Sys2Proof.Machine
end

section
/-! PROOFS. The encoding (spec/30_encoding.md R81 to R94): the encoder and the table undo each other, row by row, and
what the table says of every word. -/

namespace Sys2Proof.Machine

/-! ## Decoding an encoded instruction -/

/-- The table reads back the word of every instruction. -/
theorem decodeRow_encode (i : Instr) : decodeRow (encode i) = some i := by
  cases i with
  | add => exact Laws.DecodeEncode.add ..
  | sub => exact Laws.DecodeEncode.sub ..
  | sll => exact Laws.DecodeEncode.sll ..
  | slt => exact Laws.DecodeEncode.slt ..
  | sltu => exact Laws.DecodeEncode.sltu ..
  | xor => exact Laws.DecodeEncode.xor ..
  | srl => exact Laws.DecodeEncode.srl ..
  | sra => exact Laws.DecodeEncode.sra ..
  | or => exact Laws.DecodeEncode.or ..
  | and => exact Laws.DecodeEncode.and ..
  | addi => exact Laws.DecodeEncode.addi ..
  | slti => exact Laws.DecodeEncode.slti ..
  | sltiu => exact Laws.DecodeEncode.sltiu ..
  | xori => exact Laws.DecodeEncode.xori ..
  | ori => exact Laws.DecodeEncode.ori ..
  | andi => exact Laws.DecodeEncode.andi ..
  | slli => exact Laws.DecodeEncode.slli ..
  | srli => exact Laws.DecodeEncode.srli ..
  | srai => exact Laws.DecodeEncode.srai ..
  | addw => exact Laws.DecodeEncode.addw ..
  | subw => exact Laws.DecodeEncode.subw ..
  | sllw => exact Laws.DecodeEncode.sllw ..
  | srlw => exact Laws.DecodeEncode.srlw ..
  | sraw => exact Laws.DecodeEncode.sraw ..
  | addiw => exact Laws.DecodeEncode.addiw ..
  | slliw => exact Laws.DecodeEncode.slliw ..
  | srliw => exact Laws.DecodeEncode.srliw ..
  | sraiw => exact Laws.DecodeEncode.sraiw ..
  | lb => exact Laws.DecodeEncode.lb ..
  | lh => exact Laws.DecodeEncode.lh ..
  | lw => exact Laws.DecodeEncode.lw ..
  | ld => exact Laws.DecodeEncode.ld ..
  | lbu => exact Laws.DecodeEncode.lbu ..
  | lhu => exact Laws.DecodeEncode.lhu ..
  | lwu => exact Laws.DecodeEncode.lwu ..
  | sb => exact Laws.DecodeEncode.sb ..
  | sh => exact Laws.DecodeEncode.sh ..
  | sw => exact Laws.DecodeEncode.sw ..
  | sd => exact Laws.DecodeEncode.sd ..
  | mul => exact Laws.DecodeEncode.mul ..
  | mulh => exact Laws.DecodeEncode.mulh ..
  | mulhsu => exact Laws.DecodeEncode.mulhsu ..
  | mulhu => exact Laws.DecodeEncode.mulhu ..
  | mulw => exact Laws.DecodeEncode.mulw ..
  | div => exact Laws.DecodeEncode.div ..
  | divu => exact Laws.DecodeEncode.divu ..
  | rem => exact Laws.DecodeEncode.rem ..
  | remu => exact Laws.DecodeEncode.remu ..
  | divw => exact Laws.DecodeEncode.divw ..
  | divuw => exact Laws.DecodeEncode.divuw ..
  | remw => exact Laws.DecodeEncode.remw ..
  | remuw => exact Laws.DecodeEncode.remuw ..
  | amoswapW => exact Laws.DecodeEncode.amoswapW ..
  | amoaddW => exact Laws.DecodeEncode.amoaddW ..
  | amoxorW => exact Laws.DecodeEncode.amoxorW ..
  | amoandW => exact Laws.DecodeEncode.amoandW ..
  | amoorW => exact Laws.DecodeEncode.amoorW ..
  | amominW => exact Laws.DecodeEncode.amominW ..
  | amomaxW => exact Laws.DecodeEncode.amomaxW ..
  | amominuW => exact Laws.DecodeEncode.amominuW ..
  | amomaxuW => exact Laws.DecodeEncode.amomaxuW ..
  | amoswapD => exact Laws.DecodeEncode.amoswapD ..
  | amoaddD => exact Laws.DecodeEncode.amoaddD ..
  | amoxorD => exact Laws.DecodeEncode.amoxorD ..
  | amoandD => exact Laws.DecodeEncode.amoandD ..
  | amoorD => exact Laws.DecodeEncode.amoorD ..
  | amominD => exact Laws.DecodeEncode.amominD ..
  | amomaxD => exact Laws.DecodeEncode.amomaxD ..
  | amominuD => exact Laws.DecodeEncode.amominuD ..
  | amomaxuD => exact Laws.DecodeEncode.amomaxuD ..
  | lrW => exact Laws.DecodeEncode.lrW ..
  | lrD => exact Laws.DecodeEncode.lrD ..
  | scW => exact Laws.DecodeEncode.scW ..
  | scD => exact Laws.DecodeEncode.scD ..
  | faddS => exact Laws.DecodeEncode.faddS ..
  | fsubS => exact Laws.DecodeEncode.fsubS ..
  | fmulS => exact Laws.DecodeEncode.fmulS ..
  | fdivS => exact Laws.DecodeEncode.fdivS ..
  | fsqrtS => exact Laws.DecodeEncode.fsqrtS ..
  | fmaddS => exact Laws.DecodeEncode.fmaddS ..
  | fmsubS => exact Laws.DecodeEncode.fmsubS ..
  | fnmsubS => exact Laws.DecodeEncode.fnmsubS ..
  | fnmaddS => exact Laws.DecodeEncode.fnmaddS ..
  | fsgnjS => exact Laws.DecodeEncode.fsgnjS ..
  | fsgnjnS => exact Laws.DecodeEncode.fsgnjnS ..
  | fsgnjxS => exact Laws.DecodeEncode.fsgnjxS ..
  | fminS => exact Laws.DecodeEncode.fminS ..
  | fmaxS => exact Laws.DecodeEncode.fmaxS ..
  | faddD => exact Laws.DecodeEncode.faddD ..
  | fsubD => exact Laws.DecodeEncode.fsubD ..
  | fmulD => exact Laws.DecodeEncode.fmulD ..
  | fdivD => exact Laws.DecodeEncode.fdivD ..
  | fsqrtD => exact Laws.DecodeEncode.fsqrtD ..
  | fmaddD => exact Laws.DecodeEncode.fmaddD ..
  | fmsubD => exact Laws.DecodeEncode.fmsubD ..
  | fnmsubD => exact Laws.DecodeEncode.fnmsubD ..
  | fnmaddD => exact Laws.DecodeEncode.fnmaddD ..
  | fsgnjD => exact Laws.DecodeEncode.fsgnjD ..
  | fsgnjnD => exact Laws.DecodeEncode.fsgnjnD ..
  | fsgnjxD => exact Laws.DecodeEncode.fsgnjxD ..
  | fminD => exact Laws.DecodeEncode.fminD ..
  | fmaxD => exact Laws.DecodeEncode.fmaxD ..
  | fcvtWS => exact Laws.DecodeEncode.fcvtWS ..
  | fcvtWuS => exact Laws.DecodeEncode.fcvtWuS ..
  | fcvtLS => exact Laws.DecodeEncode.fcvtLS ..
  | fcvtLuS => exact Laws.DecodeEncode.fcvtLuS ..
  | fcvtSW => exact Laws.DecodeEncode.fcvtSW ..
  | fcvtSWu => exact Laws.DecodeEncode.fcvtSWu ..
  | fcvtSL => exact Laws.DecodeEncode.fcvtSL ..
  | fcvtSLu => exact Laws.DecodeEncode.fcvtSLu ..
  | feqS => exact Laws.DecodeEncode.feqS ..
  | fltS => exact Laws.DecodeEncode.fltS ..
  | fleS => exact Laws.DecodeEncode.fleS ..
  | fclassS => exact Laws.DecodeEncode.fclassS ..
  | fcvtWD => exact Laws.DecodeEncode.fcvtWD ..
  | fcvtWuD => exact Laws.DecodeEncode.fcvtWuD ..
  | fcvtLD => exact Laws.DecodeEncode.fcvtLD ..
  | fcvtLuD => exact Laws.DecodeEncode.fcvtLuD ..
  | fcvtDW => exact Laws.DecodeEncode.fcvtDW ..
  | fcvtDWu => exact Laws.DecodeEncode.fcvtDWu ..
  | fcvtDL => exact Laws.DecodeEncode.fcvtDL ..
  | fcvtDLu => exact Laws.DecodeEncode.fcvtDLu ..
  | feqD => exact Laws.DecodeEncode.feqD ..
  | fltD => exact Laws.DecodeEncode.fltD ..
  | fleD => exact Laws.DecodeEncode.fleD ..
  | fclassD => exact Laws.DecodeEncode.fclassD ..
  | fmvXW => exact Laws.DecodeEncode.fmvXW ..
  | fmvWX => exact Laws.DecodeEncode.fmvWX ..
  | fmvXD => exact Laws.DecodeEncode.fmvXD ..
  | fmvDX => exact Laws.DecodeEncode.fmvDX ..
  | fcvtSD => exact Laws.DecodeEncode.fcvtSD ..
  | fcvtDS => exact Laws.DecodeEncode.fcvtDS ..
  | frcsr => exact Laws.DecodeEncode.frcsr ..
  | frrm => exact Laws.DecodeEncode.frrm ..
  | frflags => exact Laws.DecodeEncode.frflags ..
  | fsflags => exact Laws.DecodeEncode.fsflags ..
  | fsrm => exact Laws.DecodeEncode.fsrm ..
  | fscsr => exact Laws.DecodeEncode.fscsr ..

/-- Settles O53: the table reads the word back as the instruction, and decoding answers it when it is well-formed. -/
theorem decodeOfEncode : Obligations.DecodeOfEncode :=
  fun _ i hwf => decode_instr.2 ⟨decodeRow_encode i, hwf⟩

end Sys2Proof.Machine
end

section
/-! PROOFS. What every instruction and every step keeps (spec/10_state.md R20 to R39): the invariant, and the frame of
an instruction read off its effect. -/

namespace Sys2Proof.Machine

variable {i : Instr} {s t : State}

/-! ## The invariant, field by field -/

theorem XLen.addr_addr (xl : XLen) (v : Word) : xl.addr (xl.addr v) = xl.addr v := by
  apply BitVec.eq_of_toNat_eq
  rw [XLen.addr_toNat, XLen.addr_toNat, Nat.mod_mod]

/-- 2^XLEN is a multiple of 4, so the next instruction stands at a multiple of 4 with this one. -/
theorem XLen.addr_add_four_mod (xl : XLen) {v : Word} (h : v.toNat % 4 = 0) : (xl.addr (v + 4)).toNat % 4 = 0 := by
  rw [XLen.addr_toNat, BitVec.toNat_add]
  cases xl <;> simp [XLen.bits] <;> omega

/-- A write of an integer register stores an XLEN-bit value. -/
theorem State.writeX_holds (hx : ∀ j : Fin 32, XLen.holds s.env.xlen s.x[j]) (rd : XReg) (v : Word) (j : Fin 32) :
    XLen.holds s.env.xlen (s.writeX rd v).x[j] := by
  by_cases hrd : rd = 0#5
  · simpa [State.writeX, hrd] using hx j
  · by_cases hj : rd.toFin = j
    · subst hj
      simp [State.writeX, hrd, XLen.holds, XLen.canon_canon]
    · have hne : (rd.toNat : Nat) ≠ j := fun h => hj (Fin.ext h)
      simpa [State.writeX, hrd, Vector.getElem_set_ne, hne] using hx j

/-- A write of an integer register never reaches entry 0. -/
theorem State.writeX_x0 (rd : XReg) (v : Word) : (s.writeX rd v).x[0] = s.x[0] := by
  by_cases hrd : rd = 0#5
  · simp [State.writeX, hrd]
  · have hne : rd.toNat ≠ 0 := fun h => hrd (BitVec.eq_of_toNat_eq h)
    simp [State.writeX, hrd, Vector.getElem_set_ne, hne]

/-- Every reservation an instruction leaves is the one before it, or one an LR has taken at an aligned address. -/
theorem exec_reservation_aligned (h : exec i s = .next t)
    (hs : ∀ r, s.reservation = some r → r.addr.toNat % r.size.bytes = 0) :
    ∀ r, t.reservation = some r → r.addr.toNat % r.size.bytes = 0 := by
  obtain ⟨e, hb, ha⟩ := exec_effect h
  have lr {n : AtomSize} {ext : Word → Word} {rd rs1 : XReg} (hl : loadReserved n ext rd rs1 s = .next t) :
      ∀ r, t.reservation = some r → r.addr.toNat % r.size.bytes = 0 := by
    obtain ⟨hok, rfl⟩ := loadReserved_next.1 hl
    intro r hr
    obtain rfl : _ = r := by simpa using hr
    exact aligned_iff.1 hok.1
  have sc {n : AtomSize} {rd rs1 rs2 : XReg} (hc : storeConditional n rd rs1 rs2 s = .next t) :
      t.reservation = none := by
    obtain ⟨-, ⟨-, rfl⟩ | ⟨-, -, rfl⟩ | ⟨-, -, rfl⟩⟩ := storeConditional_next.1 hc <;> simp
  cases he : e.reservation with
  | none => rwa [hb.reservation, he]
  | some _ =>
    obtain ⟨_, _, rd, rs1, rfl⟩ | ⟨_, _, rd, rs1, rfl⟩ | ⟨_, _, rd, rs1, rs2, rfl⟩ | ⟨_, _, rd, rs1, rs2, rfl⟩ :=
      ha.reservation (by simp [he])
    · exact lr h
    · exact lr (State.rv64Only_next.1 h).2
    · simp [sc h]
    · simp [sc (State.rv64Only_next.1 h).2]

/-- An instruction that completes keeps the invariant: registers and memory change only by the writing operations, the
pc by one instruction, and the reservation by LR and SC. -/
theorem exec_keeps_inv (hi : Inv s) (h : exec i s = .next t) : Inv t := by
  obtain ⟨e, hb, -⟩ := exec_effect h
  obtain ⟨hx, hm⟩ := exec_kept h
  refine ⟨?_, ?_, ?_, ?_, ?_, exec_reservation_aligned h hi.reservation⟩
  · obtain hm | ⟨a, v, n, hm⟩ := hm
    · rw [hm]; exact hi.mem
    · rw [hm]; exact s.storeBytes_wf a v n hi.mem
  · obtain hx | ⟨rd, v, hx⟩ := hx
    · rw [hx]; exact hi.x0
    · rw [hx, State.writeX_x0]; exact hi.x0
  · rw [hb.env]
    obtain hx | ⟨rd, v, hx⟩ := hx
    · rw [hx]; exact hi.x
    · rw [hx]; exact State.writeX_holds hi.x rd v
  · rw [hb.env, hb.pc, XLen.addr_addr]
  · rw [hb.pc]; exact XLen.addr_add_four_mod _ hi.pcAligned

/-- Settles O56: a step ends the run, which changes the status alone, or completes an instruction. -/
theorem stepKeepsInvariant : Obligations.StepKeepsInvariant := by
  intro s t hi h
  obtain ⟨-, ⟨-, rfl⟩ | ⟨i, -, h⟩⟩ := step_next.1 h
  · exact ⟨hi.mem, hi.x0, hi.x, hi.pc, hi.pcAligned, hi.reservation⟩
  · exact exec_keeps_inv hi h

/-- Settles O57: the registers of reset hold 0, which is canonical, and its memory is empty. -/
theorem resetInvariant : Obligations.ResetInvariant := by
  refine ⟨State.reset_mem_wf, rfl, fun j => ?_, rfl, rfl, nofun⟩
  simp [State.reset, State.launch, XLen.holds, XLen.canon_zero]

/-! ## The frame of an instruction -/

/-- Settles O58: what an effect does not name stays, and the instruction's effect names only what `Allows` lets it. -/
theorem everyInstructionFrame : Obligations.EveryInstructionFrame := by
  intro i s t h
  obtain ⟨e, hb, ha⟩ := exec_effect h
  refine ⟨hb.pc, hb.env, hb.status, fun r hr => ?_, by simp, fun r hr => ?_, fun k hk => ?_, fun hw => ⟨?_, ?_⟩⟩
  · rw [← ha.x] at hr
    rw [hb.x]
    split
    · next h0 => rw [h0, State.readX_zero]
    · cases he : e.x with
      | none => rfl
      | some c => exact if_neg fun h0 => hr (by rw [he, h0]; rfl)
  · rw [← ha.f] at hr
    rw [hb.f]
    cases he : e.f with
    | none => rfl
    | some c => exact if_neg fun h0 => hr (by rw [he, h0]; rfl)
  · rw [← ha.bytes] at hk
    have hl : e.bytes.lookup k = none := List.lookup_eq_none_iff.2 fun c hc => by
      simpa using fun h0 : k = c.1 => hk (h0 ▸ List.mem_map_of_mem hc)
    rw [hb.mem, hl]
    rfl
  · rw [hb.reservation, Option.not_isSome_iff_eq_none.1 (mt ha.reservation hw)]
    rfl
  · rw [hb.draws, not_not.1 (mt ha.draws hw), Nat.add_zero]

/-- Settles O59: flags are replaced by FSFLAGS and FSCSR alone and frm by FSRM and FSCSR alone; every other
instruction ORs flags into fflags, and none but a floating-point operation has any to OR. -/
theorem controlStateFrame : Obligations.ControlStateFrame := by
  intro i s t h
  obtain ⟨e, hb, ha⟩ := exec_effect h
  have hflags (hr : ¬ replacesFlags i) : t.fflags = s.fflags ||| e.raised := by
    rw [hb.fflags, Option.not_isSome_iff_eq_none.1 (mt ha.fflags hr)]
    rfl
  refine ⟨fun hr => ⟨e.raised, hflags hr⟩, fun hr hm => ?_, fun hw => ?_⟩
  · rw [hflags hr, ha.raised hm]
    exact BitVec.or_zero
  · rw [hb.frm, Option.not_isSome_iff_eq_none.1 (mt ha.frm hw)]
    rfl

end Sys2Proof.Machine
end

section
/-! PROOFS. The opcode table (spec/30_encoding.md R90 to R94, spec/60_exceptions.md R402): a word that matches a row is
the encoding of the row's instruction, and what decoding answers for every word. -/

namespace Sys2Proof.Machine

/-! ## A word that matches a row is its instruction's word

A word is the concatenation of its fields. The mask of a row keeps the fields the format fixes, so the match says that
those are the row's, and the others are the operands the row reads. One lemma for each mask. -/

section Masks

variable {w : InstrWord} {f7 : BitVec 7} {f6 : BitVec 6} {f5 rs2 : BitVec 5} {f3 : BitVec 3} {fmt : BitVec 2}
  {op : BitVec 7} {imm : BitVec 12}

theorem rWord_of_maskR (h : w &&& 0xFE00707F#32 = rWord f7 0#5 0#5 f3 0#5 op) :
    rWord f7 (fRs2 w) (fRs1 w) f3 (fRd w) op = w := by
  rw [← rWord_parts w, rWord_maskR] at h
  obtain ⟨rfl, -, -, rfl, -, rfl⟩ := rWord_inj h
  exact rWord_parts w

theorem rWord_of_maskRm (h : w &&& 0xFE00007F#32 = rWord f7 0#5 0#5 0#3 0#5 op) :
    rWord f7 (fRs2 w) (fRs1 w) (fRm w) (fRd w) op = w := by
  rw [← rWord_parts w, rWord_maskRm] at h
  obtain ⟨rfl, -, -, -, -, rfl⟩ := rWord_inj h
  exact rWord_parts w

theorem rWord_of_maskUnary (h : w &&& 0xFFF0707F#32 = rWord f7 rs2 0#5 f3 0#5 op) :
    rWord f7 rs2 (fRs1 w) f3 (fRd w) op = w := by
  rw [← rWord_parts w, rWord_maskUnary] at h
  obtain ⟨rfl, rfl, -, rfl, -, rfl⟩ := rWord_inj h
  exact rWord_parts w

theorem rWord_of_maskUnaryRm (h : w &&& 0xFFF0007F#32 = rWord f7 rs2 0#5 0#3 0#5 op) :
    rWord f7 rs2 (fRs1 w) (fRm w) (fRd w) op = w := by
  rw [← rWord_parts w, rWord_maskUnaryRm] at h
  obtain ⟨rfl, rfl, -, -, -, rfl⟩ := rWord_inj h
  exact rWord_parts w

theorem iWord_of_maskI (h : w &&& 0x0000707F#32 = iWord 0#12 0#5 f3 0#5 op) :
    iWord (fImmI w) (fRs1 w) f3 (fRd w) op = w := by
  rw [← iWord_parts w, iWord_maskI] at h
  obtain ⟨-, -, rfl, -, rfl⟩ := iWord_inj h
  exact iWord_parts w

theorem iWord_of_maskCsr (h : w &&& 0xFFFFF07F#32 = iWord imm rs2 f3 0#5 op) :
    iWord imm rs2 f3 (fRd w) op = w := by
  rw [← iWord_parts w, iWord_maskCsr] at h
  obtain ⟨rfl, rfl, rfl, -, rfl⟩ := iWord_inj h
  exact iWord_parts w

theorem iWord_of_maskCsrSet (h : w &&& 0xFFF0707F#32 = iWord imm 0#5 f3 0#5 op) :
    iWord imm (fRs1 w) f3 (fRd w) op = w := by
  rw [← iWord_parts w, iWord_maskCsrSet] at h
  obtain ⟨rfl, -, rfl, -, rfl⟩ := iWord_inj h
  exact iWord_parts w

theorem shiftWord_of_mask (h : w &&& 0xFC00707F#32 = shiftWord f6 0#6 0#5 f3 0#5 op) :
    shiftWord f6 (fShamt6 w) (fRs1 w) f3 (fRd w) op = w := by
  rw [← shiftWord_parts w, shiftWord_maskShift] at h
  obtain ⟨rfl, -, -, rfl, -, rfl⟩ := shiftWord_inj h
  exact shiftWord_parts w

theorem r4Word_of_mask (h : w &&& 0x0600007F#32 = r4Word 0#5 fmt 0#5 0#5 0#3 0#5 op) :
    r4Word (fRs3 w) fmt (fRs2 w) (fRs1 w) (fRm w) (fRd w) op = w := by
  rw [← r4Word_parts w, r4Word_maskR4] at h
  obtain ⟨-, rfl, -, -, -, -, rfl⟩ := r4Word_inj h
  exact r4Word_parts w

theorem sWord_of_mask (h : w &&& 0x0000707F#32 = rWord 0#7 0#5 0#5 f3 0#5 op) :
    sWord (fImmS w) (fRs2 w) (fRs1 w) f3 op = w := by
  rw [← sWord_parts w, sWord_mask] at h
  obtain ⟨-, -, -, rfl, -, rfl⟩ := rWord_inj h
  exact sWord_parts w

/-- A mask that keeps the major opcode fixes it. -/
theorem fOpcode_of_mask {m7 f7' : BitVec 7} {m2 m1 md rs2' rs1' rd' : BitVec 5} {m3 f3' : BitVec 3}
    (h : w &&& rWord m7 m2 m1 m3 md (.allOnes 7) = rWord f7' rs2' rs1' f3' rd' op) : fOpcode w = op := by
  rw [← rWord_parts w, rWord_and] at h
  obtain ⟨-, -, -, -, -, h⟩ := rWord_inj h
  rwa [BitVec.and_allOnes] at h

/-- The word of an atomic in its fields. -/
theorem amoWord_parts (h : fOpcode w = 0b0101111) :
    amoWord (w.extractLsb' 27 5) (fAq w) (fRl w) (fRs2 w) (fRs1 w) (fRm w) (fRd w) = w := by
  rw [amoWord_eq, amoTop_parts, ← h, rWord_parts]

theorem amoTop_inj {f5' : BitVec 5} (h : amoTop f5 false false = amoTop f5' false false) : f5 = f5' := by
  have := congrArg BitVec.toNat h
  rw [amoTop_toNat, amoTop_toNat] at this
  exact BitVec.eq_of_toNat_eq (by omega)

theorem amoWord_of_mask (h : w &&& 0xF800707F#32 = amoWord f5 false false 0#5 0#5 f3 0#5) :
    amoWord f5 (fAq w) (fRl w) (fRs2 w) (fRs1 w) f3 (fRd w) = w := by
  have hop : fOpcode w = 0b0101111 := fOpcode_of_mask (m7 := 0x7C) (m2 := 0) (m1 := 0) (m3 := 7) (md := 0) h
  rw [← amoWord_parts hop, amoWord_mask] at h
  obtain ⟨h5, -, -, rfl, -, -⟩ := rWord_inj h
  rw [← amoTop_inj h5]
  exact amoWord_parts hop

theorem amoWord_of_maskLr (h : w &&& 0xF9F0707F#32 = amoWord f5 false false rs2 0#5 f3 0#5) :
    amoWord f5 (fAq w) (fRl w) rs2 (fRs1 w) f3 (fRd w) = w := by
  have hop : fOpcode w = 0b0101111 := fOpcode_of_mask (m7 := 0x7C) (m2 := 31) (m1 := 0) (m3 := 7) (md := 0) h
  rw [← amoWord_parts hop, amoWord_maskLr] at h
  obtain ⟨h5, rfl, -, rfl, -, -⟩ := rWord_inj h
  rw [← amoTop_inj h5]
  exact amoWord_parts hop

end Masks

/-! ## The table, group by group -/

/-- Every word of the row is the encoding of the instruction the row builds of it. -/
def RowSound (r : Row) : Prop := ∀ w : InstrWord, w &&& r.mask = r.pattern → encode (r.build w) = w

theorem rowsAlu_sound : ∀ r ∈ rowsAlu, RowSound r := by
  simp only [rowsAlu, List.forall_mem_cons, List.not_mem_nil, false_imp_iff, implies_true, and_true]
  and_intros <;> exact fun _ h => rWord_of_maskR h

theorem rowsAluImm_sound : ∀ r ∈ rowsAluImm, RowSound r := by
  simp only [rowsAluImm, List.forall_mem_cons, List.not_mem_nil, false_imp_iff, implies_true, and_true]
  and_intros
  iterate 6 · exact fun _ h => iWord_of_maskI h
  all_goals exact fun _ h => shiftWord_of_mask h

theorem rowsAluW_sound : ∀ r ∈ rowsAluW, RowSound r := by
  simp only [rowsAluW, List.forall_mem_cons, List.not_mem_nil, false_imp_iff, implies_true, and_true]
  and_intros
  iterate 5 · exact fun _ h => rWord_of_maskR h
  · exact fun _ h => iWord_of_maskI h
  all_goals exact fun _ h => rWord_of_maskR h

theorem rowsMem_sound : ∀ r ∈ rowsMem, RowSound r := by
  simp only [rowsMem, List.forall_mem_cons, List.not_mem_nil, false_imp_iff, implies_true, and_true]
  and_intros
  iterate 7 · exact fun _ h => iWord_of_maskI h
  all_goals exact fun _ h => sWord_of_mask h

theorem rowsMulDiv_sound : ∀ r ∈ rowsMulDiv, RowSound r := by
  simp only [rowsMulDiv, List.forall_mem_cons, List.not_mem_nil, false_imp_iff, implies_true, and_true]
  and_intros <;> exact fun _ h => rWord_of_maskR h

theorem rowsAmoW_sound : ∀ r ∈ rowsAmoW, RowSound r := by
  simp only [rowsAmoW, List.forall_mem_cons, List.not_mem_nil, false_imp_iff, implies_true, and_true]
  and_intros <;> exact fun _ h => amoWord_of_mask h

theorem rowsAmoD_sound : ∀ r ∈ rowsAmoD, RowSound r := by
  simp only [rowsAmoD, List.forall_mem_cons, List.not_mem_nil, false_imp_iff, implies_true, and_true]
  and_intros <;> exact fun _ h => amoWord_of_mask h

theorem rowsLrSc_sound : ∀ r ∈ rowsLrSc, RowSound r := by
  simp only [rowsLrSc, List.forall_mem_cons, List.not_mem_nil, false_imp_iff, implies_true, and_true]
  and_intros
  iterate 2 · exact fun _ h => amoWord_of_maskLr h
  all_goals exact fun _ h => amoWord_of_mask h

theorem rowsFpS_sound : ∀ r ∈ rowsFpS, RowSound r := by
  simp only [rowsFpS, List.forall_mem_cons, List.not_mem_nil, false_imp_iff, implies_true, and_true]
  and_intros
  iterate 4 · exact fun _ h => rWord_of_maskRm h
  · exact fun _ h => rWord_of_maskUnaryRm h
  iterate 4 · exact fun _ h => r4Word_of_mask h
  all_goals exact fun _ h => rWord_of_maskR h

theorem rowsFpD_sound : ∀ r ∈ rowsFpD, RowSound r := by
  simp only [rowsFpD, List.forall_mem_cons, List.not_mem_nil, false_imp_iff, implies_true, and_true]
  and_intros
  iterate 4 · exact fun _ h => rWord_of_maskRm h
  · exact fun _ h => rWord_of_maskUnaryRm h
  iterate 4 · exact fun _ h => r4Word_of_mask h
  all_goals exact fun _ h => rWord_of_maskR h

theorem rowsFpConv_sound : ∀ r ∈ rowsFpConv, RowSound r := by
  simp only [rowsFpConv, List.forall_mem_cons, List.not_mem_nil, false_imp_iff, implies_true, and_true]
  and_intros
  iterate 8 · exact fun _ h => rWord_of_maskUnaryRm h
  iterate 3 · exact fun _ h => rWord_of_maskR h
  · exact fun _ h => rWord_of_maskUnary h
  iterate 8 · exact fun _ h => rWord_of_maskUnaryRm h
  iterate 3 · exact fun _ h => rWord_of_maskR h
  iterate 5 · exact fun _ h => rWord_of_maskUnary h
  all_goals exact fun _ h => rWord_of_maskUnaryRm h

theorem rowsFcsr_sound : ∀ r ∈ rowsFcsr, RowSound r := by
  simp only [rowsFcsr, List.forall_mem_cons, List.not_mem_nil, false_imp_iff, implies_true, and_true]
  and_intros
  iterate 3 · exact fun _ h => iWord_of_maskCsr h
  all_goals exact fun _ h => iWord_of_maskCsrSet h

/-- Every row of the table is sound. -/
theorem rows_sound : ∀ r ∈ rows, RowSound r := by
  simp only [rows, List.forall_mem_append]
  exact ⟨⟨⟨⟨⟨⟨⟨⟨⟨⟨⟨rowsAlu_sound, rowsAluImm_sound⟩, rowsAluW_sound⟩, rowsMem_sound⟩, rowsMulDiv_sound⟩,
    rowsAmoW_sound⟩, rowsAmoD_sound⟩, rowsLrSc_sound⟩, rowsFpS_sound⟩, rowsFpD_sound⟩, rowsFpConv_sound⟩, rowsFcsr_sound⟩

/-- Settles O54: what decoding reads is the build of a sound row that the word matches. -/
theorem encodeOfDecode : Obligations.EncodeOfDecode := by
  intro xl w i h
  obtain ⟨hrow, hwf⟩ := decode_instr.1 h
  obtain ⟨r, hr, hw, rfl⟩ := decodeRow_some hrow
  exact ⟨rows_sound r hr w (beq_iff_eq.1 hw), hwf⟩

/-! ## What decoding answers for every word (R94, R402) -/

/-- The checks after a row has matched fail on a reserved rm field, and at XLEN = 32 on an RV64-only row and on a shift
amount of 32 or more. -/
theorem Instr.wellFormed_eq_false_iff {xl : XLen} {i : Instr} :
    i.wellFormed xl = false ↔ i.rmField = some 5 ∨ i.rmField = some 6 ∨
      xl = .rv32 ∧ (i.rv64Only = true ∨ ∃ n, i.shamt6 = some n ∧ n.getLsbD 5 = true) := by
  have hrm : i.rmOk = false ↔ i.rmField = some 5 ∨ i.rmField = some 6 := by
    unfold Instr.rmOk
    cases i.rmField with
    | none => simp
    | some rm => simp [or_iff_not_imp_left]
  have hsh : i.shamtOk xl = false ↔ xl = .rv32 ∧ ∃ n, i.shamt6 = some n ∧ n.getLsbD 5 = true := by
    unfold Instr.shamtOk
    cases xl <;> cases i.shamt6 <;> simp
  have hex : i.existsAt xl = false ↔ xl = .rv32 ∧ i.rv64Only = true := by
    unfold Instr.existsAt
    cases xl <;> simp
  rw [Instr.wellFormed, Bool.and_eq_false_iff, Bool.and_eq_false_iff, hrm, hex, hsh, and_or_left, or_assoc,
    or_assoc]

theorem decode_eq_ite_of_hits {r : Row} (hr : r ∈ rows) (xl : XLen) {w : InstrWord} (hw : r.hits w = true) :
    decode xl w = if (r.build w).wellFormed xl then .instr (r.build w) else .illegal := by
  rw [decode, decodeRow_of_mem hr hw]

theorem decode_eq_illegal_iff {r : Row} (hr : r ∈ rows) {xl : XLen} {w : InstrWord} (hw : r.hits w = true) :
    decode xl w = .illegal ↔ (r.build w).wellFormed xl = false := by
  rw [decode_eq_ite_of_hits hr xl hw]
  cases (r.build w).wellFormed xl <;> simp

theorem decode_of_no_row {xl : XLen} {w : InstrWord} (h : ∀ r ∈ rows, r.hits w = false) :
    decode xl w = if outsideCore w then .notInCore w else .illegal := by
  have hnone : rows.find? (fun r => r.hits w) = none := List.find?_eq_none.2 fun r hr => by simp [h r hr]
  rw [decode, decodeRow, hnone]
  rfl

/-- The words outside CORE, by their low bits as numbers (R94). -/
theorem outsideCore_iff {w : InstrWord} : outsideCore w = true ↔
    w.toNat % 4 ≠ 3 ∨ w.toNat % 128 ∈ [0x37, 0x17, 0x6F, 0x67, 0x63, 0x0F, 0x07, 0x27, 0x73] := by
  have hlow : w.extractLsb' 0 2 = 3 ↔ w.toNat % 4 = 3 := by
    rw [← BitVec.toNat_inj, toNat_field, pow_zero, Nat.div_one]
    rfl
  have hop : (fOpcode w).toNat = w.toNat % 128 := by
    rw [fOpcode, toNat_field, pow_zero, Nat.div_one]
    rfl
  have hmem : fOpcode w ∈ outsideOpcodes ↔ (fOpcode w).toNat ∈ outsideOpcodes.map BitVec.toNat :=
    (List.mem_map_of_injective BitVec.toNat_injective).symm
  rw [outsideCore, Bool.or_eq_true, bne_iff_ne, List.contains_iff_mem, hmem, hop, ne_eq, hlow]
  rfl

/-- No word matches two rows, since any two fix some bit differently. -/
theorem rows_hits_unique {j k : Nat} {r q : Row} {w : InstrWord} (hj : rows[j]? = some r) (hk : rows[k]? = some q)
    (hr : r.hits w = true) (hq : q.hits w = true) : j = k := by
  obtain ⟨hj', rfl⟩ := List.getElem?_eq_some_iff.1 hj
  obtain ⟨hk', rfl⟩ := List.getElem?_eq_some_iff.1 hk
  have hdis := List.pairwise_iff_getElem.1 rows_disjoint
  rcases lt_trichotomy j k with h | h | h
  · exact (Row.disjoint_hits (hdis j k hj' hk' h) w ⟨hr, hq⟩).elim
  · exact h
  · exact (Row.disjoint_hits (hdis k j hk' hj' h) w ⟨hq, hr⟩).elim

/-- Settles O55: any two rows are disjoint; a word without a row is sorted by `outsideCore`, and a word with one by the
checks of `wellFormed`. -/
theorem tableIsUnambiguous : Obligations.TableIsUnambiguous := by
  refine ⟨rfl, fun j k r q w => rows_hits_unique, fun xl w h => ?_, fun r hr xl w hw => ⟨?_, ?_⟩⟩
  · rw [decode_of_no_row h]
    exact if_congr outsideCore_iff rfl rfl
  · rw [decode_eq_ite_of_hits hr xl hw]
    exact ite_eq_or_eq ..
  · rw [decode_eq_illegal_iff hr hw, Instr.wellFormed_eq_false_iff]

/-- Settles O52: the seventeen words, evaluated. -/
theorem writtenWordsDecode : Obligations.WrittenWordsDecode := by
  unfold Obligations.WrittenWordsDecode
  decide +kernel

end Sys2Proof.Machine
end

section
/-! PROOFS. How an instruction and a step stop (spec/60_exceptions.md R400 to R408, spec/44_fp_arith.md R265): the
faults each shape of instruction can raise, RV64-only tags at XLEN = 32, reserved rounding modes, and the step of a hart
that fetches no instruction. -/

namespace Sys2Proof.Machine

variable {i : Instr} {s t : State} {f : Fault}

/-! ## The faults of each shape -/

/-- The fault is no contract violation and lists no byte left stored. -/
def Fault.LeavesNothing (f : Fault) : Prop := f ≠ .contractViolation ∧ ∀ a l, f = .accessFault a l → l = []

theorem attempt_fault {α : Type} {e : Except Stop α} {k : α → Host.Outcome State Fault Refusal}
    (h : attempt e k = .fault f) : e = .error (.fault f) ∨ ∃ a, e = .ok a ∧ k a = .fault f := by
  match e with
  | .ok a => exact .inr ⟨a, rfl, h⟩
  | .error (.fault g) => exact .inl (congrArg (Except.error ∘ Stop.fault) (Host.Outcome.fault.inj h))
  | .error (.refuse r) => exact nomatch h

theorem State.rv64Only_rv32 (h : s.env.xlen = .rv32) (o : Host.Outcome State Fault Refusal) :
    s.rv64Only o = .fault .contractViolation := by
  rw [State.rv64Only, h]
  rfl

theorem memRead_fault {a : Word} {n : Nat} (h : s.memRead a n = .error (.fault f)) : f.LeavesNothing := by
  unfold State.memRead at h
  split at h
  · cases h; exact ⟨nofun, nofun⟩
  · split at h
    · exact nomatch h
    · cases h; exact ⟨nofun, fun _ _ h => by cases h; rfl⟩

theorem load_fault {n : Nat} {ext : Word → Word} {rd rs1 : XReg} {imm : BitVec 12}
    (h : load n ext rd rs1 imm s = .fault f) : f.LeavesNothing := by
  obtain h | ⟨_, -, h⟩ := attempt_fault h
  · exact memRead_fault h
  · exact nomatch h

/-- A store that faults leaves bytes stored only where it is misaligned and done byte by byte (R54). -/
theorem store_fault {n : Nat} {rs1 rs2 : XReg} {imm : BitVec 12} (h : store n rs1 rs2 imm s = .fault f) :
    f.LeavesNothing ∨
      f ≠ .contractViolation ∧ s.env.misaligned = .bytewise ∧ (s.effAddr rs1 imm).toNat % n ≠ 0 := by
  obtain h | ⟨_, -, h⟩ := attempt_fault h
  · unfold State.memWrite at h
    split at h
    · cases h; exact .inl ⟨nofun, nofun⟩
    · next hmis =>
      split at h
      · exact nomatch h
      · cases h
        cases ha : aligned (s.effAddr rs1 imm) n with
        | true => exact .inl ⟨nofun, fun _ _ h => by cases h; rfl⟩
        | false =>
          have hb : s.env.misaligned = .bytewise := by
            cases hm : s.env.misaligned with
            | bytewise => rfl
            | fault => simp [ha, hm] at hmis
          exact .inr ⟨nofun, hb, by simpa [aligned] using ha⟩
  · exact nomatch h

theorem atomCheck_fault {mis : Word → Fault} {a : Word} {n : AtomSize} (hmis : (mis a).LeavesNothing)
    (h : s.atomCheck mis a n = .error (.fault f)) : f.LeavesNothing := by
  unfold State.atomCheck at h
  split at h
  · cases h; exact hmis
  · split at h
    · exact nomatch h
    · cases h; exact ⟨nofun, fun _ _ h => by cases h; rfl⟩

theorem amo_fault {n : AtomSize} {unit : Word → Word → Word × Word} {rd rs1 rs2 : XReg}
    (h : amo n unit rd rs1 rs2 s = .fault f) : f.LeavesNothing := by
  obtain h | ⟨_, -, h⟩ := attempt_fault h
  · exact atomCheck_fault (mis := .storeAddressMisaligned) ⟨nofun, nofun⟩ h
  · exact nomatch h

theorem loadReserved_fault {n : AtomSize} {ext : Word → Word} {rd rs1 : XReg}
    (h : loadReserved n ext rd rs1 s = .fault f) : f.LeavesNothing := by
  obtain h | ⟨_, -, h⟩ := attempt_fault h
  · exact atomCheck_fault (mis := .loadAddressMisaligned) ⟨nofun, nofun⟩ h
  · exact nomatch h

theorem storeConditional_fault {n : AtomSize} {rd rs1 rs2 : XReg} (h : storeConditional n rd rs1 rs2 s = .fault f) :
    f.LeavesNothing := by
  obtain h | ⟨_, -, h⟩ := attempt_fault h
  · exact atomCheck_fault (mis := .storeAddressMisaligned) ⟨nofun, nofun⟩ h
  · split at h
    · exact nomatch h
    · split at h
      · split at h <;> exact nomatch h
      · exact nomatch h

/-! ## Instructions with an rm field -/

/-- Such an instruction resolves its rounding mode first, where its tag exists. -/
theorem exec_eq_attempt_effRm {rm : RmField} (hr : i.rmField = some rm) (hx : i.rv64Only = true → s.env.xlen = .rv64) :
    ∃ k, exec i s = attempt (s.effRm rm) k := by
  cases i with
  | faddS | fsubS | fmulS | fdivS | fsqrtS | fmaddS | fmsubS | fnmsubS | fnmaddS | faddD | fsubD | fmulD
  | fdivD | fsqrtD | fmaddD | fmsubD | fnmsubD | fnmaddD | fcvtWS | fcvtWuS | fcvtSW | fcvtSWu | fcvtWD
  | fcvtWuD | fcvtDW | fcvtDWu | fcvtSD | fcvtDS =>
    obtain rfl := Option.some.inj hr
    exact ⟨_, rfl⟩
  | fcvtLS | fcvtLuS | fcvtSL | fcvtSLu | fcvtLD | fcvtLuD | fcvtDL | fcvtDLu =>
    obtain rfl := Option.some.inj hr
    exact ⟨_, State.rv64Only_of (hx rfl) _⟩
  | _ => exact nomatch hr

theorem effRm_fault {rm : RmField} (h : s.effRm rm = .error (.fault f)) : f.LeavesNothing := by
  unfold State.effRm at h
  split at h
  · exact nomatch h
  · split at h
    · split at h
      · exact nomatch h
      · split at h <;> exact nomatch h
    · cases h; exact ⟨nofun, nofun⟩

theorem attempt_effRm_fault {rm : RmField} {k : RoundingMode → State}
    (h : attempt (s.effRm rm) (fun m => .next (k m)) = .fault f) : f.LeavesNothing := by
  obtain h | ⟨_, -, h⟩ := attempt_fault h
  · exact effRm_fault h
  · exact nomatch h

/-! ## The faults of every instruction -/

/-- The misaligned stores done byte by byte, the only instructions that can fault and leave bytes stored (R54). -/
def BytewiseStore (i : Instr) (s : State) : Prop :=
  s.env.misaligned = .bytewise ∧ ∃ rs1 rs2 imm,
    i = .sh rs1 rs2 imm ∧ (s.effAddr rs1 imm).toNat % 2 ≠ 0 ∨
    i = .sw rs1 rs2 imm ∧ (s.effAddr rs1 imm).toNat % 4 ≠ 0 ∨
    i = .sd rs1 rs2 imm ∧ (s.effAddr rs1 imm).toNat % 8 ≠ 0

/-- What the fault of an instruction says of it. -/
def FaultOf (i : Instr) (s : State) (f : Fault) : Prop :=
  f.LeavesNothing ∨ f ≠ .contractViolation ∧ BytewiseStore i s

/-- At XLEN = 64 an RV64-only meaning faults as what it wraps. -/
theorem faultOf_rv64Only {o : Host.Outcome State Fault Refusal} (hx : s.env.xlen = .rv64) (h : s.rv64Only o = .fault f)
    (ho : o = .fault f → FaultOf i s f) : FaultOf i s f :=
  ho (by rwa [State.rv64Only_of hx] at h)

/-- An instruction that exists at the XLEN and faults leaves nothing stored, or is a misaligned store done byte by
byte. -/
theorem exec_fault (hx : i.rv64Only = true → s.env.xlen = .rv64) (h : exec i s = .fault f) : FaultOf i s f := by
  cases i with
  | lb | lh | lw | lbu | lhu => exact .inl (load_fault h)
  | ld | lwu => exact faultOf_rv64Only (hx rfl) h fun h => .inl (load_fault h)
  | sb rs1 rs2 imm =>
    obtain h | ⟨-, -, h⟩ := store_fault h
    · exact .inl h
    · exact absurd (Nat.mod_one _) h
  | sh rs1 rs2 imm =>
    exact (store_fault h).imp_right fun ⟨h0, h1, h2⟩ => ⟨h0, h1, rs1, rs2, imm, .inl ⟨rfl, h2⟩⟩
  | sw rs1 rs2 imm =>
    exact (store_fault h).imp_right fun ⟨h0, h1, h2⟩ => ⟨h0, h1, rs1, rs2, imm, .inr (.inl ⟨rfl, h2⟩)⟩
  | sd rs1 rs2 imm =>
    exact faultOf_rv64Only (hx rfl) h fun h =>
      (store_fault h).imp_right fun ⟨h0, h1, h2⟩ => ⟨h0, h1, rs1, rs2, imm, .inr (.inr ⟨rfl, h2⟩)⟩
  | amoswapW | amoaddW | amoxorW | amoandW | amoorW | amominW | amomaxW | amominuW | amomaxuW =>
    exact .inl (amo_fault h)
  | amoswapD | amoaddD | amoxorD | amoandD | amoorD | amominD | amomaxD | amominuD | amomaxuD =>
    exact faultOf_rv64Only (hx rfl) h fun h => .inl (amo_fault h)
  | lrW => exact .inl (loadReserved_fault h)
  | lrD => exact faultOf_rv64Only (hx rfl) h fun h => .inl (loadReserved_fault h)
  | scW => exact .inl (storeConditional_fault h)
  | scD => exact faultOf_rv64Only (hx rfl) h fun h => .inl (storeConditional_fault h)
  | faddS | fsubS | fmulS | fdivS | fsqrtS | fmaddS | fmsubS | fnmsubS | fnmaddS | faddD | fsubD | fmulD
  | fdivD | fsqrtD | fmaddD | fmsubD | fnmsubD | fnmaddD | fcvtWS | fcvtWuS | fcvtSW | fcvtSWu | fcvtWD
  | fcvtWuD | fcvtDW | fcvtDWu | fcvtSD | fcvtDS =>
    exact .inl (attempt_effRm_fault h)
  | fcvtLS | fcvtLuS | fcvtSL | fcvtSLu | fcvtLD | fcvtLuD | fcvtDL | fcvtDLu =>
    exact faultOf_rv64Only (hx rfl) h fun h => .inl (attempt_effRm_fault h)
  | addw | subw | sllw | srlw | sraw | addiw | slliw | srliw | sraiw | mulw | divw | divuw | remw | remuw
  | fmvXD | fmvDX =>
    exact faultOf_rv64Only (hx rfl) h nofun
  | _ => exact nomatch h

/-! ## RV64-only tags at XLEN = 32 -/

/-- Asked for at XLEN = 32, the meaning of an RV64-only tag is a contract violation (R6, R401). -/
theorem exec_rv64Only_rv32 (hi : i.rv64Only = true) (hx : s.env.xlen = .rv32) :
    exec i s = .fault .contractViolation := by
  cases i with
  | addw | subw | sllw | srlw | sraw | addiw | slliw | srliw | sraiw | ld | lwu | sd | mulw | divw | divuw
  | remw | remuw | amoswapD | amoaddD | amoxorD | amoandD | amoorD | amominD | amomaxD | amominuD | amomaxuD
  | lrD | scD | fcvtLS | fcvtLuS | fcvtSL | fcvtSLu | fcvtLD | fcvtLuD | fcvtDL | fcvtDLu | fmvXD | fmvDX =>
    exact State.rv64Only_rv32 hx _
  | _ => exact nomatch hi

theorem rv64Only_of_wellFormed {xl : XLen} (h : i.wellFormed xl = true) (hi : i.rv64Only = true) : xl = .rv64 := by
  cases xl with
  | rv64 => rfl
  | rv32 => simp [Instr.wellFormed, Instr.existsAt, hi] at h

/-- A step of a running hart that faults without an instruction raises IllegalInstruction. -/
theorem fetch_stop_fault (h : s.fetch = .stop (.fault f)) : f = .illegalInstruction s.pc := by
  unfold State.fetch at h
  split at h
  · exact nomatch h
  · split at h
    · cases h; rfl
    · split at h
      · cases h; rfl
      · split at h
        · exact nomatch h
        · cases h; rfl
        · exact nomatch h

/-- Settles O6: the tag's meaning is wrapped in `rv64Only`, which decoding's check rules out for every step. -/
theorem rv64OnlyAtXlen32 : Obligations.Rv64OnlyAtXlen32 := by
  refine ⟨fun i s => exec_rv64Only_rv32, fun w i h => ?_, fun r hr w hw h64 => ?_, fun s hs h => ?_⟩
  · cases h64 : i.rv64Only with
    | false => rfl
    | true => exact nomatch rv64Only_of_wellFormed (decode_instr.1 h).2 h64
  · rw [decode_eq_illegal_iff hr hw, Instr.wellFormed_eq_false_iff]
    exact .inr (.inr ⟨rfl, .inl h64⟩)
  · simp only [step, hs] at h
    split at h
    · exact nomatch h
    · next i hf =>
      obtain ⟨hne, -⟩ | ⟨hne, -⟩ := exec_fault (rv64Only_of_fetch hf) h <;> exact hne rfl
    · next w hf =>
      match w with
      | .fault f =>
        obtain rfl := Host.Outcome.fault.inj h
        exact nomatch fetch_stop_fault hf
      | .refuse r => exact nomatch h

/-! ## What a stop keeps (R408) -/

/-- Settles O12: settling a fault changes the status, and memory by the bytes the fault lists, which only a misaligned
store done byte by byte lists; settling a refusal changes the status alone. -/
theorem stopsKeepState : Obligations.StopsKeepState := by
  refine ⟨fun i s f h => ?_, fun i s r h => by rw [h]; rfl⟩
  have hsettle (hl : ∀ a l, f = .accessFault a l → l = []) :
      s.settle (exec i s) = { s with status := .faulted f, mem := s.mem } := by rw [h, s.settle_fault hl]
  by_cases hx : i.rv64Only = true → s.env.xlen = .rv64
  · obtain hl | ⟨-, hb⟩ := exec_fault hx h
    · exact ⟨s.mem, hsettle hl.2, .inl rfl⟩
    · refine ⟨(s.settle (exec i s)).mem, ?_, .inr hb⟩
      rw [h]
      cases f <;> rfl
  · obtain ⟨hi, hx⟩ := Classical.not_imp.1 hx
    have hx : s.env.xlen = .rv32 := by
      cases hv : s.env.xlen with
      | rv32 => rfl
      | rv64 => exact absurd hv hx
    obtain rfl := Host.Outcome.fault.inj ((exec_rv64Only_rv32 hi hx).symm.trans h)
    exact ⟨s.mem, hsettle nofun, .inl rfl⟩

/-! ## The rounding mode (R265) -/

/-- Settles O23: the modes by the cases of `effRm`; every instruction with an rm field resolves it first; decoding
checks the field. -/
theorem roundingModeResolution : Obligations.RoundingModeResolution := by
  refine ⟨fun s => ?_, fun i s rm hr hx => ?_, fun xl w i rm h hr => ?_, fun xl w rm r hr hw hrm h => ?_⟩
  · have dyn {b : RmField} {m : RoundingMode} (hb : modeOfBits b = some m) (h : s.frm = b) : s.effRm 7 = .ok m :=
      State.effRm_dynamic (h ▸ hb)
    refine ⟨State.effRm_static rfl, State.effRm_static rfl, State.effRm_static rfl, State.effRm_static rfl,
      State.effRm_static rfl, dyn rfl, dyn rfl, dyn rfl, dyn rfl, dyn rfl, fun m h he => ?_, fun h he => ?_⟩ <;>
    · rw [State.effRm_external h, Env.externalMode, he]
      rfl
  · obtain ⟨k, hk⟩ := exec_eq_attempt_effRm hr hx
    rw [hk]
    refine ⟨fun h => attempt_error (State.effRm_reserved h), fun h7 h => ?_⟩
    subst h7
    exact attempt_error (State.effRm_frm_reserved h)
  · have hwf := (decode_instr.1 h).2
    constructor <;> rintro rfl <;> simp [Instr.wellFormed, Instr.rmOk, hr] at hwf
  · rw [decode_eq_illegal_iff hr hw, Instr.wellFormed_eq_false_iff]
    obtain rfl | rfl := h
    · exact .inl hrm
    · exact .inr (.inl hrm)

/-! ## Reset and the step -/

/-- Settles O49: the fields of a launch. -/
theorem resetValues : Obligations.ResetValues :=
  have hcsr : (0#3 ++ 0#5).setWidth 64 = 0#64 := by decide
  ⟨fun _ _ _ _ => ⟨rfl, rfl, hcsr, rfl, rfl, rfl, State.readX_zero _, rfl⟩, rfl⟩

/-- Settles O50: such a hart fetches the instruction. -/
theorem stepRunsDecodedInstruction : Obligations.StepRunsDecodedInstruction :=
  fun _ w _ hs he hp ht hd =>
    ⟨(decode_instr.1 hd).2, step_fetched hs (State.fetch_instr.2 ⟨he, hp, w, ht, hd⟩)⟩

/-- Settles O51: the cases of fetching in their order, and the default end address. -/
theorem stepWithoutInstruction : Obligations.StepWithoutInstruction := by
  refine ⟨fun s => ⟨fun hs he => ?_, fun hs he hp => ?_, fun hs he ht => ?_, fun w hs he hp ht => ⟨fun hd => ?_,
    fun u hd => ?_⟩, fun hs t h => hs (step_next.1 h).1⟩, fun e a h => ?_, fun e t k w h ht => ?_, fun e h ht => ?_⟩
  · simp [step, State.fetch, hs, he, State.finish]
  · simp [step, State.fetch, hs, he, hp, Stop.outcome, raise]
  · simp [step, State.fetch, hs, he, ht, Stop.outcome, raise]
  · simp [step, State.fetch, hs, he, hp, ht, hd, Stop.outcome, raise]
  · obtain ⟨-, -, rfl⟩ := decode_notInCore.1 hd
    exact ⟨rfl, by simp [step, State.fetch, hs, he, hp, ht, hd, Stop.outcome, refuse]⟩
  · simp [endAddr, h]
  · simp [endAddr, h, ht]
  · simp [endAddr, h, ht]

end Sys2Proof.Machine
end

section
/-! PROOFS. Integer values at both XLENs (log entry 2): a register is an XLEN-bit value in its 64-bit home, and an
operation read at XLEN bits is the operation on those values, so that one argument serves both widths
(spec/40_integer_alu.md R110 to R143, spec/42_muldiv.md R190 to R209). -/

namespace Sys2Proof.Machine

/-! ## Registers as XLEN-bit values -/

section Values

variable (xl : XLen) (s : State) (i : XReg) (v : Word) (z : Int)

theorem XLen.one_lt_bits : 1 < xl.bits := by cases xl <;> decide

theorem XLen.bits_le : xl.bits ≤ 64 := by cases xl <;> decide

theorem XLen.canon_eq_signExtend : xl.canon v = (v.setWidth xl.bits).signExtend 64 := by
  cases xl with
  | rv32 => rfl
  | rv64 => exact (((v.setWidth 64).signExtend_eq).trans (v.setWidth_eq)).symm

/-- An operation at XLEN bits is the operation on the XLEN-bit values of its operands. -/
theorem IntOp.atXLen_eq_signExtend (f : IntOp) (a b : Word) :
    f.atXLen xl a b = (f xl.bits (a.setWidth xl.bits) (b.setWidth xl.bits)).signExtend 64 := by
  cases xl with
  | rv32 => rfl
  | rv64 =>
    change f 64 a b = (f 64 (a.setWidth 64) (b.setWidth 64)).signExtend 64
    rw [BitVec.setWidth_eq, BitVec.setWidth_eq, BitVec.signExtend_eq]

/-- The low bits of a sign-extended value are the value. -/
theorem setWidth_signExtend {w : Nat} (hw : w ≤ 64) (b : BitVec w) : (b.signExtend 64).setWidth w = b := by
  ext k hk
  rw [BitVec.getElem_setWidth, BitVec.getLsbD_signExtend]
  simp [hk]
  omega

/-- `x[i]`, an XLEN-bit value. -/
def State.valX : BitVec s.env.xlen.bits := (s.readX i).setWidth s.env.xlen.bits

theorem State.signExtend_valX : (s.valX i).signExtend 64 = s.readX i := by
  rw [State.valX, ← XLen.canon_eq_signExtend, s.canon_readX]

theorem State.toInt_valX : (s.valX i).toInt = s.signedX i := by
  rw [State.signedX, ← s.signExtend_valX, BitVec.toInt_signExtend_of_le (XLen.bits_le _)]

theorem State.toNat_valX : (s.valX i).toNat = s.unsignedX i := by
  rw [State.unsignedX, XLen.addr_toNat, State.valX, BitVec.toNat_setWidth]

theorem State.signExtend_ofInt : (BitVec.ofInt s.env.xlen.bits z).signExtend 64 = s.trunc z := by
  have hz : (BitVec.ofInt 64 z).setWidth s.env.xlen.bits = BitVec.ofInt s.env.xlen.bits z := by
    cases s.env.xlen with
    | rv32 => exact low_ofInt z
    | rv64 => exact BitVec.setWidth_eq _
  rw [State.trunc, XLen.canon_eq_signExtend, hz]

theorem State.signExtend_ofNat (n : Nat) : (BitVec.ofNat s.env.xlen.bits n).signExtend 64 = s.trunc n := by
  rw [← s.signExtend_ofInt, BitVec.ofInt_natCast]

theorem signExtend_zero {w : Nat} (hw : w ≤ 64) : (0#w).signExtend 64 = 0 := by
  apply BitVec.eq_of_toInt_eq
  rw [BitVec.toInt_signExtend_of_le hw, BitVec.toInt_zero]
  rfl

/-- A truth value is 0 or 1 at every width. -/
theorem signExtend_ite {w : Nat} (hw : 1 < w) (hw' : w ≤ 64) (c : Prop) [Decidable c] :
    (if c then 1#w else 0#w).signExtend 64 = if c then 1 else 0 := by
  split
  · apply BitVec.eq_of_toInt_eq
    rw [BitVec.toInt_signExtend_of_le hw', BitVec.toInt_one hw]
    rfl
  · exact signExtend_zero hw'

end Values

/-! ## Operands that are not registers -/

theorem toInt_setWidth_immOperand (xl : XLen) (imm : BitVec 12) :
    ((immOperand imm).setWidth xl.bits).toInt = imm.toInt := by
  cases xl with
  | rv32 =>
    change ((immOperand imm).setWidth 32).toInt = imm.toInt
    rw [immOperand_low, BitVec.toInt_signExtend_of_le (by decide)]
  | rv64 => exact (congrArg BitVec.toInt (BitVec.setWidth_eq _)).trans (immOperand_toInt imm)

theorem signExtend_setWidth_immOperand (xl : XLen) (imm : BitVec 12) :
    ((immOperand imm).setWidth xl.bits).signExtend 64 = imm.signExtend 64 := by
  apply BitVec.eq_of_toInt_eq
  rw [BitVec.toInt_signExtend_of_le (XLen.bits_le xl), toInt_setWidth_immOperand,
    BitVec.toInt_signExtend_of_le (by decide)]

theorem setWidth_shamtOperand_mod (xl : XLen) {shamt : BitVec 6} (h : shamt.toNat < xl.bits) :
    ((shamtOperand shamt).setWidth xl.bits).toNat % xl.bits = shamt.toNat := by
  have hlt : shamt.toNat < 2 ^ xl.bits := h.trans Nat.lt_two_pow_self
  rw [BitVec.toNat_setWidth, shamtOperand_toNat (by decide), Nat.mod_eq_of_lt hlt, Nat.mod_eq_of_lt h]

/-! ## The shapes of the instructions at both XLENs -/

section Shapes

variable {i : Instr} {s t : State} {f : IntOp} {rd rs1 rs2 : XReg} {b v : Word}

theorem becomes_retireX_signExtend {w : BitVec s.env.xlen.bits} (hw : w.signExtend 64 = v) :
    Becomes s (s.retireX rd (w.signExtend 64)) { x := some (rd, v) } := by
  subst hw
  have hb := becomes_retireX s rd (w.signExtend 64)
  rwa [XLen.canon_eq_signExtend, setWidth_signExtend (XLen.bits_le _)] at hb

/-- What an operation on a register and an operand does at XLEN bits. -/
theorem does_of_aluImm_valX (hi : exec i s = aluImm f rd rs1 b s)
    (hv : (f _ (s.valX rs1) (b.setWidth s.env.xlen.bits)).signExtend 64 = v) : Does i s { x := some (rd, v) } :=
  ⟨_, by rw [hi, aluImm, IntOp.atXLen_eq_signExtend]; rfl, becomes_retireX_signExtend hv⟩

theorem does_of_aluReg_valX (hi : exec i s = aluReg f rd rs1 rs2 s)
    (hv : (f _ (s.valX rs1) (s.valX rs2)).signExtend 64 = v) : Does i s { x := some (rd, v) } :=
  does_of_aluImm_valX hi hv

/-- What such an operation leaves in x[rd]. -/
theorem readX_of_aluReg (h : aluReg f rd rs1 rs2 s = .next t) (hrd : rd ≠ 0#5) :
    t.readX rd = (f _ (s.valX rs1) (s.valX rs2)).signExtend 64 := by
  obtain rfl := Host.Outcome.next.inj h
  rw [State.retireX_readX, if_neg hrd, if_pos rfl, IntOp.atXLen_eq_signExtend, XLen.canon_eq_signExtend,
    setWidth_signExtend (XLen.bits_le _)]
  rfl

/-- A W form writes the sign-extension of the 32-bit result, whatever spells it. -/
theorem does_of_aluRegW_eq (h : s.env.xlen = .rv64) (hi : exec i s = aluRegW f rd rs1 rs2 s)
    (hv : (f 32 (s.lowX rs1) (s.lowX rs2)).signExtend 64 = v) : Does i s { x := some (rd, v) } := by
  subst hv
  refine does_of_retireX h ?_
  rw [hi, aluRegW, State.rv64Only_of h]
  rfl

end Shapes

/-! ## Sums and differences of signed values -/

section Sums

variable {w : Nat} (a b : BitVec w)

theorem opAdd_eq_ofInt_toInt : opAdd w a b = BitVec.ofInt w (a.toInt + b.toInt) := by
  rw [BitVec.ofInt_add, BitVec.ofInt_toInt, BitVec.ofInt_toInt, opAdd]

theorem opSub_eq_ofInt_toInt : opSub w a b = BitVec.ofInt w (a.toInt - b.toInt) := by
  rw [sub_eq_add_neg, BitVec.ofInt_add, BitVec.ofInt_neg, BitVec.ofInt_toInt, BitVec.ofInt_toInt, opSub,
    BitVec.sub_eq_add_neg]

end Sums

/-! ## Division at every width -/

section Division

variable {w : Nat} (a b : BitVec w)

theorem opDiv_eq_ite (hw : 1 < w) : opDiv w a b =
    if b.toInt = 0 then BitVec.ofInt w (-1)
    else if a.toInt = -2 ^ (w - 1) ∧ b.toInt = -1 then a
    else BitVec.ofInt w (a.toInt.tdiv b.toInt) := by
  simp only [opDiv, toInt_eq_zero_iff, toInt_eq_min_iff hw, toInt_eq_neg_one_iff hw, ofInt_neg_one]
  split_ifs with _ h
  · rfl
  · exact h.1.symm
  · rfl

theorem opRem_eq_ite (hw : 1 < w) : opRem w a b =
    if b.toInt = 0 then a
    else if a.toInt = -2 ^ (w - 1) ∧ b.toInt = -1 then 0#w
    else BitVec.ofInt w (a.toInt.tmod b.toInt) := by
  simp only [opRem, toInt_eq_zero_iff, toInt_eq_min_iff hw, toInt_eq_neg_one_iff hw, Int.tmod_def]

theorem toNat_eq_zero_iff : b.toNat = 0 ↔ b = 0#w := by
  rw [← BitVec.toNat_inj, BitVec.toNat_ofNat, Nat.zero_mod]

theorem ofInt_two_pow_sub_one : BitVec.ofInt w (2 ^ w - 1) = BitVec.allOnes w := by
  have hpos : 1 ≤ 2 ^ w := Nat.one_le_two_pow
  have hcast : (2 ^ w - 1 : Int) = (2 ^ w - 1 : Nat) := by push_cast [hpos]; rfl
  apply BitVec.eq_of_toNat_eq
  rw [hcast, BitVec.ofInt_natCast, BitVec.toNat_ofNat, BitVec.toNat_allOnes, Nat.mod_eq_of_lt (by omega)]

theorem opDivu_eq_ite : opDivu w a b =
    if b.toNat = 0 then BitVec.ofInt w (2 ^ w - 1) else BitVec.ofNat w (a.toNat / b.toNat) := by
  simp only [opDivu, toNat_eq_zero_iff, ofInt_two_pow_sub_one]

theorem opRemu_eq_ite : opRemu w a b = if b.toNat = 0 then a else BitVec.ofNat w (a.toNat % b.toNat) := by
  simp only [opRemu, toNat_eq_zero_iff]

/-- Quotient times divisor plus remainder is the dividend, whatever the operands (R200, R202). -/
theorem opDiv_mul_add_opRem : opDiv w a b * b + opRem w a b = a := by
  unfold opDiv opRem
  split_ifs with h0 hov
  · rw [h0, BitVec.mul_zero, BitVec.zero_add]
  · obtain ⟨rfl, rfl⟩ := hov
    rw [← BitVec.neg_one_eq_allOnes, BitVec.mul_neg, BitVec.mul_one, BitVec.neg_intMin, BitVec.add_zero]
  · calc BitVec.ofInt w (a.toInt.tdiv b.toInt) * b + BitVec.ofInt w (a.toInt - b.toInt * a.toInt.tdiv b.toInt)
      _ = BitVec.ofInt w (a.toInt.tdiv b.toInt * b.toInt + (a.toInt - b.toInt * a.toInt.tdiv b.toInt)) := by
        rw [BitVec.ofInt_add, BitVec.ofInt_mul, BitVec.ofInt_toInt]
      _ = a := by rw [mul_comm, add_sub_cancel, BitVec.ofInt_toInt]

/-- The same unsigned (R201, R203). -/
theorem opDivu_mul_add_opRemu : opDivu w a b * b + opRemu w a b = a := by
  unfold opDivu opRemu
  split_ifs with h0
  · rw [h0, BitVec.mul_zero, BitVec.zero_add]
  · calc BitVec.ofNat w (a.toNat / b.toNat) * b + BitVec.ofNat w (a.toNat % b.toNat)
      _ = BitVec.ofNat w (a.toNat / b.toNat * b.toNat + a.toNat % b.toNat) := by
        rw [BitVec.ofNat_add, BitVec.ofNat_mul, BitVec.ofNat_toNat, BitVec.setWidth_eq]
      _ = a := by rw [mul_comm, Nat.div_add_mod, BitVec.ofNat_toNat, BitVec.setWidth_eq]

end Division

/-! ## The statements -/

section Statements

/-- Settles O13: each instruction is its operation on the XLEN-bit values of the registers. -/
theorem multiplyDivideResults : Obligations.MultiplyDivideResults := by
  refine ⟨fun s rd rs1 rs2 => ?_, spells_row 39 rfl fun _ => rfl, spells_row 44 rfl fun _ => rfl,
    spells_row 46 rfl fun _ => rfl, spells_row 40 rfl fun _ => rfl, spells_row 41 rfl fun _ => rfl,
    spells_row 42 rfl fun _ => rfl, spells_row 43 rfl fun _ => rfl, spells_row 45 rfl fun _ => rfl,
    spells_row 47 rfl fun _ => rfl⟩
  have hw := XLen.one_lt_bits s.env.xlen
  have hz : (0#s.env.xlen.bits).signExtend 64 = 0 := signExtend_zero (XLen.bits_le _)
  refine ⟨does_of_aluReg_valX (f := opMul) rfl ?_, does_of_aluReg_valX (f := opMulh) rfl ?_,
    does_of_aluReg_valX (f := opMulhsu) rfl ?_, does_of_aluReg_valX (f := opMulhu) rfl ?_,
    does_of_aluReg_valX (f := opDiv) rfl ?_, does_of_aluReg_valX (f := opDivu) rfl ?_,
    does_of_aluReg_valX (f := opRem) rfl ?_, does_of_aluReg_valX (f := opRemu) rfl ?_⟩
  · rw [opMul_eq_ofInt, s.signExtend_ofInt, s.toInt_valX, s.toInt_valX]
  · rw [opMulh, s.signExtend_ofInt, s.toInt_valX, s.toInt_valX, Nat.cast_pow, Nat.cast_ofNat]
  · rw [opMulhsu, s.signExtend_ofInt, s.toInt_valX, s.toNat_valX, Nat.cast_pow, Nat.cast_ofNat]
  · rw [opMulhu, s.signExtend_ofNat, s.toNat_valX, s.toNat_valX]
  · simp only [opDiv_eq_ite _ _ hw, apply_ite (BitVec.signExtend 64), s.signExtend_ofInt, s.signExtend_valX,
      s.toInt_valX]
  · simp only [opDivu_eq_ite, apply_ite (BitVec.signExtend 64), s.signExtend_ofInt, s.signExtend_ofNat, s.toNat_valX]
  · simp only [opRem_eq_ite _ _ hw, apply_ite (BitVec.signExtend 64), s.signExtend_ofInt, s.signExtend_valX,
      s.toInt_valX, hz]
  · simp only [opRemu_eq_ite, apply_ite (BitVec.signExtend 64), s.signExtend_ofNat, s.signExtend_valX, s.toNat_valX]

/-- Settles O16: at XLEN bits the identity is that of the operations. -/
theorem divisionIdentity : Obligations.DivisionIdentity := by
  intro s tq tr uq ur rd rs1 rs2 hrd hq hr hqu hru
  have key {q r : BitVec s.env.xlen.bits} (h : q * s.valX rs2 + r = s.valX rs1) :
      s.env.xlen.canon (q.signExtend 64 * s.readX rs2 + r.signExtend 64) = s.readX rs1 := by
    have hle := XLen.bits_le s.env.xlen
    rw [XLen.canon_eq_signExtend, BitVec.setWidth_add _ _ hle, BitVec.setWidth_mul _ _ hle, setWidth_signExtend hle,
      setWidth_signExtend hle]
    exact (congrArg (BitVec.signExtend 64) h).trans (s.signExtend_valX rs1)
  rw [readX_of_aluReg hq hrd, readX_of_aluReg hr hrd, readX_of_aluReg hqu hrd, readX_of_aluReg hru hrd]
  exact ⟨key (opDiv_mul_add_opRem _ _), key (opDivu_mul_add_opRemu _ _)⟩

/-- Settles O14: the operations of division at width 32. -/
theorem divideWordResults : Obligations.DivideWordResults := by
  refine ⟨fun s rd rs1 rs2 h => ?_, spells_row 48 rfl fun _ => rfl, spells_row 49 rfl fun _ => rfl,
    spells_row 50 rfl fun _ => rfl, spells_row 51 rfl fun _ => rfl⟩
  refine ⟨does_of_aluRegW_eq (f := opDiv) h rfl ?_, does_of_aluRegW_eq (f := opDivu) h rfl ?_,
    does_of_aluRegW_eq (f := opRem) h rfl ?_, does_of_aluRegW_eq (f := opRemu) h rfl ?_⟩
  · rw [opDiv_eq_ite _ _ (by decide), apply_ite (BitVec.signExtend 64), apply_ite (BitVec.signExtend 64)]
    simp only [toInt_eq_zero_iff]
    refine if_congr Iff.rfl rfl (ite_congr rfl (fun hov => ?_) fun _ => rfl)
    rw [sextW, ← hov.1, BitVec.ofInt_toInt]
  · rw [opDivu_eq_ite, apply_ite (BitVec.signExtend 64)]
    simp only [toNat_eq_zero_iff]
    rfl
  · rw [opRem_eq_ite _ _ (by decide), apply_ite (BitVec.signExtend 64), apply_ite (BitVec.signExtend 64)]
    simp only [toInt_eq_zero_iff]
    rfl
  · rw [opRemu_eq_ite, apply_ite (BitVec.signExtend 64)]
    simp only [toNat_eq_zero_iff]
    rfl

/-- What the register-register operations do, at both XLENs. -/
theorem does_registerRegister (s : State) (rd rs1 rs2 : XReg) :
    Does (.add rd rs1 rs2) s { x := some (rd, s.trunc (s.signedX rs1 + s.signedX rs2)) } ∧
    Does (.sub rd rs1 rs2) s { x := some (rd, s.trunc (s.signedX rs1 - s.signedX rs2)) } ∧
    Does (.sll rd rs1 rs2) s
      { x := some (rd, s.trunc (s.unsignedX rs1 * 2 ^ (s.unsignedX rs2 % s.env.xlen.bits) : Nat)) } ∧
    Does (.slt rd rs1 rs2) s { x := some (rd, if s.signedX rs1 < s.signedX rs2 then 1 else 0) } ∧
    Does (.sltu rd rs1 rs2) s { x := some (rd, if s.unsignedX rs1 < s.unsignedX rs2 then 1 else 0) } ∧
    Does (.xor rd rs1 rs2) s { x := some (rd, s.readX rs1 ^^^ s.readX rs2) } ∧
    Does (.srl rd rs1 rs2) s
      { x := some (rd, s.trunc (s.unsignedX rs1 / 2 ^ (s.unsignedX rs2 % s.env.xlen.bits) : Nat)) } ∧
    Does (.sra rd rs1 rs2) s { x := some (rd, s.trunc (s.signedX rs1 / 2 ^ (s.unsignedX rs2 % s.env.xlen.bits))) } ∧
    Does (.or rd rs1 rs2) s { x := some (rd, s.readX rs1 ||| s.readX rs2) } ∧
    Does (.and rd rs1 rs2) s { x := some (rd, s.readX rs1 &&& s.readX rs2) } := by
  have hw := XLen.one_lt_bits s.env.xlen
  have hle := XLen.bits_le s.env.xlen
  have hn : (s.valX rs2).toNat % s.env.xlen.bits = s.unsignedX rs2 % s.env.xlen.bits := by rw [s.toNat_valX]
  refine ⟨does_of_aluReg_valX (f := opAdd) rfl ?_, does_of_aluReg_valX (f := opSub) rfl ?_,
    does_of_aluReg_valX (f := opSll) rfl ?_, does_of_aluReg_valX (f := opSlt) rfl ?_,
    does_of_aluReg_valX (f := opSltu) rfl ?_, does_of_aluReg_valX (f := opXor) rfl ?_,
    does_of_aluReg_valX (f := opSrl) rfl ?_, does_of_aluReg_valX (f := opSra) rfl ?_,
    does_of_aluReg_valX (f := opOr) rfl ?_, does_of_aluReg_valX (f := opAnd) rfl ?_⟩
  · rw [opAdd_eq_ofInt_toInt, s.signExtend_ofInt, s.toInt_valX, s.toInt_valX]
  · rw [opSub_eq_ofInt_toInt, s.signExtend_ofInt, s.toInt_valX, s.toInt_valX]
  · rw [opSll_eq_ofNat _ _ hn, s.signExtend_ofNat, s.toNat_valX]
  · rw [opSlt_eq_ite, signExtend_ite hw hle, s.toInt_valX, s.toInt_valX]
  · rw [opSltu_eq_ite, signExtend_ite hw hle, s.toNat_valX, s.toNat_valX]
  · rw [opXor, BitVec.signExtend_xor, s.signExtend_valX, s.signExtend_valX]
  · rw [opSrl_eq_ofNat _ _ hn, s.signExtend_ofNat, s.toNat_valX]
  · rw [opSra_eq_ofInt _ _ hn, s.signExtend_ofInt, s.toInt_valX]
  · rw [opOr, BitVec.signExtend_or, s.signExtend_valX, s.signExtend_valX]
  · rw [opAnd, BitVec.signExtend_and, s.signExtend_valX, s.signExtend_valX]

/-- What the operations with an immediate do, at both XLENs. -/
theorem does_registerImmediate (s : State) (rd rs1 : XReg) (imm : BitVec 12) :
    Does (.addi rd rs1 imm) s { x := some (rd, s.trunc (s.signedX rs1 + imm.toInt)) } ∧
    Does (.slti rd rs1 imm) s { x := some (rd, if s.signedX rs1 < imm.toInt then 1 else 0) } ∧
    Does (.xori rd rs1 imm) s { x := some (rd, s.readX rs1 ^^^ imm.signExtend 64) } ∧
    Does (.ori rd rs1 imm) s { x := some (rd, s.readX rs1 ||| imm.signExtend 64) } ∧
    Does (.andi rd rs1 imm) s { x := some (rd, s.readX rs1 &&& imm.signExtend 64) } := by
  refine ⟨does_of_aluImm_valX (f := opAdd) rfl ?_, does_of_aluImm_valX (f := opSlt) rfl ?_,
    does_of_aluImm_valX (f := opXor) rfl ?_, does_of_aluImm_valX (f := opOr) rfl ?_,
    does_of_aluImm_valX (f := opAnd) rfl ?_⟩
  · rw [opAdd_eq_ofInt_toInt, s.signExtend_ofInt, s.toInt_valX, toInt_setWidth_immOperand]
  · rw [opSlt_eq_ite, signExtend_ite (XLen.one_lt_bits _) (XLen.bits_le _), s.toInt_valX, toInt_setWidth_immOperand]
  · rw [opXor, BitVec.signExtend_xor, s.signExtend_valX, signExtend_setWidth_immOperand]
  · rw [opOr, BitVec.signExtend_or, s.signExtend_valX, signExtend_setWidth_immOperand]
  · rw [opAnd, BitVec.signExtend_and, s.signExtend_valX, signExtend_setWidth_immOperand]

/-- What the shifts by an immediate do, at both XLENs. -/
theorem does_shiftImmediate (s : State) (rd rs1 : XReg) {shamt : BitVec 6} (h : shamt.toNat < s.env.xlen.bits) :
    Does (.slli rd rs1 shamt) s { x := some (rd, s.trunc (s.unsignedX rs1 * 2 ^ shamt.toNat : Nat)) } ∧
    Does (.srli rd rs1 shamt) s { x := some (rd, s.trunc (s.unsignedX rs1 / 2 ^ shamt.toNat : Nat)) } ∧
    Does (.srai rd rs1 shamt) s { x := some (rd, s.trunc (s.signedX rs1 / 2 ^ shamt.toNat)) } := by
  have hn := setWidth_shamtOperand_mod _ h
  refine ⟨does_of_aluImm_valX (f := opSll) rfl ?_, does_of_aluImm_valX (f := opSrl) rfl ?_,
    does_of_aluImm_valX (f := opSra) rfl ?_⟩
  · rw [opSll_eq_ofNat _ _ hn, s.signExtend_ofNat, s.toNat_valX]
  · rw [opSrl_eq_ofNat _ _ hn, s.signExtend_ofNat, s.toNat_valX]
  · rw [opSra_eq_ofInt _ _ hn, s.signExtend_ofInt, s.toInt_valX]

/-- Settles O4: each instruction is its operation on the XLEN-bit values of the registers, and ADDIW the sum at width
32. -/
theorem aluDerivedResults : Obligations.AluDerivedResults := by
  refine ⟨fun s rd rs1 rs2 imm shamt => ⟨?_, fun h => ?_, fun _ => ?_⟩,
    spells_row 12 rfl fun _ => rfl, spells_row 24 rfl fun _ => rfl, spells_row 0 rfl fun _ => rfl,
    spells_row 1 rfl fun _ => rfl, spells_row 2 rfl fun _ => rfl, spells_row 3 rfl fun _ => rfl,
    spells_row 4 rfl fun _ => rfl, spells_row 5 rfl fun _ => rfl, spells_row 6 rfl fun _ => rfl,
    spells_row 7 rfl fun _ => rfl, spells_row 8 rfl fun _ => rfl, spells_row 9 rfl fun _ => rfl,
    spells_row 10 rfl fun _ => rfl, spells_row 11 rfl fun _ => rfl, spells_row 13 rfl fun _ => rfl,
    spells_row 14 rfl fun _ => rfl, spells_row 15 rfl fun _ => rfl, spells_row 16 rfl fun _ => rfl,
    spells_row 17 rfl fun _ => rfl, spells_row 18 rfl fun _ => rfl, spells_row 19 rfl fun _ => rfl,
    spells_row 20 rfl fun _ => rfl, spells_row 21 rfl fun _ => rfl, spells_row 22 rfl fun _ => rfl,
    spells_row 23 rfl fun _ => rfl, spells_row 25 rfl fun _ => rfl, spells_row 26 rfl fun _ => rfl,
    spells_row 27 rfl fun _ => rfl⟩
  · refine does_of_aluImm_valX (f := opSltu) rfl ?_
    rw [opSltu_eq_ite, signExtend_ite (XLen.one_lt_bits _) (XLen.bits_le _), s.toNat_valX]
    refine if_congr ?_ rfl rfl
    rw [← toInt_setWidth_immOperand s.env.xlen imm, ← toNat_eq_emod, Nat.cast_lt]
  · refine does_of_aluImmW (f := opAdd) h rfl ?_
    rw [opAdd_eq_ofInt_toInt]
    exact congrArg (fun z => BitVec.ofInt 32 (_ + z)) (toInt_setWidth_immOperand .rv32 imm)
  · obtain ⟨hadd, hsub, hsll, hslt, hsltu, hxor, hsrl, hsra, hor, hand⟩ := does_registerRegister s rd rs1 rs2
    obtain ⟨haddi, hslti, hxori, hori, handi⟩ := does_registerImmediate s rd rs1 imm
    exact ⟨hadd, hsub, hsll, hslt, hsltu, hxor, hsrl, hsra, hor, hand, haddi, hslti, hxori, hori, handi,
      fun h => does_shiftImmediate s rd rs1 h⟩

end Statements

end Sys2Proof.Machine
end

section
/-! PROOFS. Memory: effective addresses, loads and stores that are done or stop (spec/41_load_store.md R170 to R184,
spec/20_memory.md R50 to R56). -/

namespace Sys2Proof.Machine

variable {i : Instr} {s : State} {f : Fault} {n : Nat} {ext : Word → Word} {rd rs1 rs2 : XReg} {imm : BitVec 12}

/-! ## Addresses -/

theorem State.effAddr_toNat (s : State) (rs1 : XReg) (imm : BitVec 12) :
    ((s.effAddr rs1 imm).toNat : Int) = (s.unsignedX rs1 + imm.toInt) % 2 ^ s.env.xlen.bits := by
  have himm : ((immOperand imm).toNat : Int) = imm.toInt % 2 ^ 64 := by rw [toNat_eq_emod, immOperand_toInt]
  rw [State.effAddr, State.unsignedX, XLen.addr_toNat, XLen.addr_toNat, BitVec.toNat_add]
  cases s.env.xlen with
  | rv32 => simp only [XLen.bits]; omega
  | rv64 => simp only [XLen.bits]; omega

/-- Settles O9: the three addresses as numbers. -/
theorem effectiveAddress : Obligations.EffectiveAddress :=
  fun s rs1 imm a i => ⟨s.effAddr_toNat rs1 imm, rfl, s.byteAddr_eq a i⟩

theorem State.accessible_one {a : Word} (h : s.allMapped a 1 = true) : s.accessible a 1 :=
  ⟨.inl (aligned_iff.2 (Nat.mod_one _)), h⟩

/-! ## Accesses that are done -/

theorem does_load {v : Word} (hi : exec i s = load n ext rd rs1 imm s) (ha : s.accessible (s.effAddr rs1 imm) n)
    (hv : s.env.xlen.canon (ext (s.loadBytes (s.effAddr rs1 imm) n)) = v) : Does i s { x := some (rd, v) } := by
  subst hv
  exact ⟨_, hi.trans (load_next.2 ⟨ha, rfl⟩), becomes_retireX _ _ _⟩

theorem does_store (hn : n ≤ 8) (hi : exec i s = store n rs1 rs2 imm s) (ha : s.accessible (s.effAddr rs1 imm) n) :
    Does i s { bytes := s.cells (s.effAddr rs1 imm) n (s.readX rs2).toNat } :=
  ⟨_, hi.trans (store_next.2 ⟨ha, rfl⟩), becomes_store _ _ _ hn⟩

theorem canon_sextLow_loadBytes (s : State) (a : Word) {w : Nat} (hn : n ≤ 8) (hw : w ≤ 32) :
    s.env.xlen.canon (sextLow w (s.loadBytes a n)) = (BitVec.ofNat w (s.leNat a n)).signExtend 64 := by
  rw [s.sextLow_loadBytes a w hn, canon_signExtend _ hw]

theorem canon_zextLow_loadBytes (s : State) (a : Word) (hn : n ≤ 2) :
    s.env.xlen.canon (zextLow (8 * n) (s.loadBytes a n)) = BitVec.ofNat 64 (s.leNat a n) := by
  have hlt : s.leNat a n < 2 ^ 31 :=
    (s.leNat_lt a (by omega)).trans_le (Nat.pow_le_pow_right (by decide) (by omega))
  rw [s.zextLow_loadBytes a (by omega), canon_small]
  rw [BitVec.toNat_ofNat]
  exact (Nat.mod_le _ _).trans_lt hlt

/-- Settles O7: each load is `load` with its extension, and the extension of the bytes read is the rule's value. -/
theorem loadResults : Obligations.LoadResults := by
  refine ⟨fun s rd rs1 imm => ⟨fun h => ?_, fun h => ?_, fun h => ?_, fun h hx => ?_⟩,
    spells_row 28 rfl fun _ => rfl, spells_row 29 rfl fun _ => rfl, spells_row 30 rfl fun _ => rfl,
    spells_row 31 rfl fun _ => rfl, spells_row 32 rfl fun _ => rfl, spells_row 33 rfl fun _ => rfl,
    spells_row 34 rfl fun _ => rfl⟩
  · have ha := s.accessible_one h
    exact ⟨does_load rfl ha (canon_sextLow_loadBytes s _ (by decide) (by decide)),
      does_load rfl ha (canon_zextLow_loadBytes (n := 1) s _ (by decide))⟩
  · exact ⟨does_load rfl h (canon_sextLow_loadBytes s _ (by decide) (by decide)),
      does_load rfl h (canon_zextLow_loadBytes (n := 2) s _ (by decide))⟩
  · refine ⟨does_load rfl h (canon_sextLow_loadBytes s _ (by decide) (by decide)), fun hx => ?_⟩
    refine does_load (State.rv64Only_of hx _) h ?_
    rw [hx]
    exact s.zextLow_loadBytes (n := 4) _ (by decide)
  · refine does_load (State.rv64Only_of hx _) h ?_
    rw [hx]
    exact BitVec.eq_of_toNat_eq (by
      rw [BitVec.toNat_ofNat, Nat.mod_eq_of_lt (s.leNat_lt _ (by decide))]
      exact (s.loadBytes_toNat _ (by decide)).1)

/-- Settles O8: each store is `store` at its size. -/
theorem storeResults : Obligations.StoreResults :=
  ⟨fun s rs1 rs2 imm =>
    ⟨fun h => does_store (by decide) rfl (s.accessible_one h), fun h => does_store (by decide) rfl h,
      fun h => does_store (by decide) rfl h, fun h hx => does_store (by decide) (State.rv64Only_of hx _) h⟩,
    spells_row 35 rfl fun _ => rfl, spells_row 36 rfl fun _ => rfl, spells_row 37 rfl fun _ => rfl,
    spells_row 38 rfl fun _ => rfl⟩

/-! ## Accesses that stop -/

theorem load_of_memRead_error (h : s.memRead (s.effAddr rs1 imm) n = .error (.fault f)) :
    load n ext rd rs1 imm s = .fault f :=
  attempt_error h

theorem store_of_memWrite_error (h : s.memWrite (s.effAddr rs1 imm) n (s.readX rs2) = .error (.fault f)) :
    store n rs1 rs2 imm s = .fault f :=
  attempt_error h

/-- Settles O10: each load and store stops where its access check does. -/
theorem loadStoreFaults : Obligations.LoadStoreFaults := by
  refine ⟨fun s r rs1 imm hm => ⟨fun h => ?_, fun h => ?_, fun h hx => ?_⟩,
    fun s r rs1 imm => ⟨fun hp => ?_, fun h hp => ?_, fun h hp => ?_, fun h hp hx => ?_⟩,
    fun s r rs1 imm hb => ⟨fun hp => ?_, fun hp => ?_, fun hp hx => ?_⟩⟩
  · have hr := State.memRead_misaligned hm h
    exact ⟨load_of_memRead_error hr, load_of_memRead_error hr,
      store_of_memWrite_error (State.memWrite_misaligned hm h)⟩
  · have hr := State.memRead_misaligned hm h
    exact ⟨load_of_memRead_error hr, store_of_memWrite_error (State.memWrite_misaligned hm h),
      fun hx => (State.rv64Only_of hx _).trans (load_of_memRead_error hr)⟩
  · exact ⟨(State.rv64Only_of hx _).trans (load_of_memRead_error (State.memRead_misaligned hm h)),
      (State.rv64Only_of hx _).trans (store_of_memWrite_error (State.memWrite_misaligned hm h))⟩
  · have hr := State.memRead_missing (Nat.mod_one _) hp
    exact ⟨load_of_memRead_error hr, load_of_memRead_error hr,
      store_of_memWrite_error (State.memWrite_missing (Nat.mod_one _) hp)⟩
  · have hr := State.memRead_missing h hp
    exact ⟨load_of_memRead_error hr, load_of_memRead_error hr,
      store_of_memWrite_error (State.memWrite_missing h hp)⟩
  · have hr := State.memRead_missing h hp
    exact ⟨load_of_memRead_error hr, store_of_memWrite_error (State.memWrite_missing h hp),
      fun hx => (State.rv64Only_of hx _).trans (load_of_memRead_error hr)⟩
  · exact ⟨(State.rv64Only_of hx _).trans (load_of_memRead_error (State.memRead_missing h hp)),
      (State.rv64Only_of hx _).trans (store_of_memWrite_error (State.memWrite_missing h hp))⟩
  · have hr := State.memRead_bytewise_missing hb hp
    exact ⟨load_of_memRead_error hr, load_of_memRead_error hr⟩
  · have hr := State.memRead_bytewise_missing hb hp
    exact ⟨load_of_memRead_error hr, fun hx => (State.rv64Only_of hx _).trans (load_of_memRead_error hr)⟩
  · exact (State.rv64Only_of hx _).trans (load_of_memRead_error (State.memRead_bytewise_missing hb hp))

/-- Settles O11: the access check lists the bytes before the first missing one, and `settle` writes them. -/
theorem bytewiseStoreFault : Obligations.BytewiseStoreFault := by
  intro s rs1 rs2 imm n m i hi hb ha hmn hex hmiss
  have hstore : n ≤ 8 ∧ exec i s = store n rs1 rs2 imm s := by
    obtain ⟨rfl, rfl⟩ | ⟨rfl, rfl⟩ | ⟨rfl, rfl, hx⟩ := hi
    · exact ⟨by decide, rfl⟩
    · exact ⟨by decide, rfl⟩
    · exact ⟨by decide, State.rv64Only_of hx _⟩
  have hal : aligned (s.effAddr rs1 imm) n = false := Bool.eq_false_iff.2 fun h => ha (aligned_iff.1 h)
  have hall : s.allMapped (s.effAddr rs1 imm) n = false :=
    Bool.eq_false_iff.2 fun h => Bool.eq_false_iff.1 hmiss ((s.allMapped_iff _ _).1 h m hmn)
  have hexec : exec i s = .fault (.accessFault (s.effAddr rs1 imm)
      (s.cells (s.effAddr rs1 imm) m (s.readX rs2).toNat)) := by
    rw [hstore.2, store_of_memWrite_error (State.memWrite_bytewise_missing hb hal hall),
      s.landed_stop _ _ hex hmiss n hmn.le]
  rw [hexec]
  exact ⟨_, rfl, s.foldl_cells_read _ _ (hmn.le.trans hstore.1), rfl, rfl, rfl, rfl, rfl, rfl⟩

end Sys2Proof.Machine
end

section
/-! PROOFS. The atomics (spec/43_atomic.md R220 to R252): what an AMO, LR and SC do, and how they stop. -/

namespace Sys2Proof.Machine

variable {i : Instr} {s t : State} {n : AtomSize} {f : IntOp} {rd rs1 rs2 : XReg}

/-! ## AMOs -/

theorem does_amoW {r : BitVec 32} (hi : exec i s = amo .word (amoUnitW f) rd rs1 rs2 s) (h : s.atomOk rs1 .word)
    (hr : f 32 (s.memWord rs1) (s.lowX rs2) = r) : Does i s (amoEffectW s rd rs1 r) := by
  subst hr
  have hb := becomes_amo s (s.atomAddr rs1) (amoUnitW f (s.loadBytes (s.atomAddr rs1) 4) (s.readX rs2)).2
    (amoUnitW f (s.loadBytes (s.atomAddr rs1) 4) (s.readX rs2)).1 rd (n := 4) (by decide)
  simp only [amoUnitW, canon_signExtend _ (Nat.le_refl 32), s.loadBytes_word, s.cells_signExtend] at hb
  refine ⟨_, hi.trans (amo_next.2 ⟨h, rfl⟩), ?_⟩
  simp only [amoUnitW, AtomSize.bytes, s.loadBytes_word]
  exact hb

theorem does_amoD {r : BitVec 64} (hx : s.env.xlen = .rv64)
    (hi : exec i s = s.rv64Only (amo .double (amoUnitD f) rd rs1 rs2 s)) (h : s.atomOk rs1 .double)
    (hr : f 64 (s.memDouble rs1) (s.readX rs2) = r) : Does i s (amoEffectD s rd rs1 r) := by
  subst hr
  have hb := becomes_amo s (s.atomAddr rs1) (amoUnitD f (s.loadBytes (s.atomAddr rs1) 8) (s.readX rs2)).2
    (amoUnitD f (s.loadBytes (s.atomAddr rs1) 8) (s.readX rs2)).1 rd (n := 8) (by decide)
  simp only [amoUnitD, hx, s.loadBytes_double] at hb
  refine ⟨_, hi.trans ((State.rv64Only_of hx _).trans (amo_next.2 ⟨h, rfl⟩)), ?_⟩
  simp only [amoUnitD, AtomSize.bytes, s.loadBytes_double]
  exact hb

/-- Settles O17: each is the AMO of its operation at width 32. -/
theorem amoWordResults : Obligations.AmoWordResults := by
  refine ⟨fun s aq rl rd rs1 rs2 h => ⟨does_amoW (f := opSwap) rfl h rfl, does_amoW rfl h (opAdd_eq_ofInt_toInt _ _),
    does_amoW (f := opXor) rfl h rfl, does_amoW (f := opAnd) rfl h rfl, does_amoW (f := opOr) rfl h rfl,
    does_amoW rfl h (opMin_eq _ _), does_amoW rfl h (opMax_eq _ _), does_amoW rfl h (opMinu_eq _ _),
    does_amoW rfl h (opMaxu_eq _ _)⟩, spells_row 52 rfl fun _ => rfl, spells_row 53 rfl fun _ => rfl,
    spells_row 54 rfl fun _ => rfl, spells_row 55 rfl fun _ => rfl, spells_row 56 rfl fun _ => rfl,
    spells_row 57 rfl fun _ => rfl, spells_row 58 rfl fun _ => rfl, spells_row 59 rfl fun _ => rfl,
    spells_row 60 rfl fun _ => rfl⟩

/-- Settles O18: each is the AMO of its operation at width 64. -/
theorem amoDoubleResults : Obligations.AmoDoubleResults := by
  refine ⟨fun s aq rl rd rs1 rs2 hx h => ?_, spells_row 61 rfl fun _ => rfl, spells_row 62 rfl fun _ => rfl,
    spells_row 63 rfl fun _ => rfl, spells_row 64 rfl fun _ => rfl, spells_row 65 rfl fun _ => rfl,
    spells_row 66 rfl fun _ => rfl, spells_row 67 rfl fun _ => rfl, spells_row 68 rfl fun _ => rfl,
    spells_row 69 rfl fun _ => rfl⟩
  rw [State.unsignedX_rv64 hx]
  exact ⟨does_amoD (f := opSwap) hx rfl h rfl, does_amoD hx rfl h (opAdd_eq_ofInt_toInt _ _),
    does_amoD (f := opXor) hx rfl h rfl, does_amoD (f := opAnd) hx rfl h rfl, does_amoD (f := opOr) hx rfl h rfl,
    does_amoD hx rfl h (opMin_eq _ _), does_amoD hx rfl h (opMax_eq _ _), does_amoD hx rfl h (opMinu_eq _ _),
    does_amoD hx rfl h (opMaxu_eq _ _)⟩

/-! ## Faults -/

/-- An AMO and an SC check their access first, where their tag exists. -/
theorem exec_eq_attempt_atomCheck (hf : atomForm i = some (rs1, n)) (hx : i.rv64Only = true → s.env.xlen = .rv64) :
    ∃ k : Unit → _, exec i s = attempt (s.atomCheck .storeAddressMisaligned (s.atomAddr rs1) n) k := by
  cases i with
  | amoswapW | amoaddW | amoxorW | amoandW | amoorW | amominW | amomaxW | amominuW | amomaxuW | scW =>
    cases hf
    exact ⟨_, rfl⟩
  | amoswapD | amoaddD | amoxorD | amoandD | amoorD | amominD | amomaxD | amominuD | amomaxuD | scD =>
    cases hf
    exact ⟨_, State.rv64Only_of (hx rfl) _⟩
  | _ => exact nomatch hf

/-- Settles O19: each atomic stops where its access check does. -/
theorem atomicFaults : Obligations.AtomicFaults := by
  refine ⟨fun i s rs1 n hf hx => ?_, fun s aq rl rd rs1 => ⟨fun h => attempt_error (State.atomCheck_misaligned h),
    fun h hp => attempt_error (State.atomCheck_missing h hp), fun hx => ⟨fun h => ?_, fun h hp => ?_⟩⟩⟩
  · obtain ⟨k, hk⟩ := exec_eq_attempt_atomCheck hf hx
    exact ⟨fun h => hk.trans (attempt_error (State.atomCheck_misaligned h)),
      fun h hp => hk.trans (attempt_error (State.atomCheck_missing h hp))⟩
  · exact (State.rv64Only_of hx _).trans (attempt_error (State.atomCheck_misaligned h))
  · exact (State.rv64Only_of hx _).trans (attempt_error (State.atomCheck_missing h hp))

/-! ## LR and SC -/

theorem does_loadReserved {ext : Word → Word} {v : Word} (hi : exec i s = loadReserved n ext rd rs1 s)
    (h : s.atomOk rs1 n) (hv : s.env.xlen.canon (ext (s.loadBytes (s.atomAddr rs1) n.bytes)) = v) :
    Does i s { x := some (rd, v), reservation := some (some ⟨s.atomAddr rs1, n⟩) } := by
  subst hv
  exact ⟨_, hi.trans (loadReserved_next.2 ⟨h, rfl⟩), becomes_loadReserved _ _ _ _⟩

/-- Settles O20: each is `loadReserved` with its extension. -/
theorem loadReservedResults : Obligations.LoadReservedResults := by
  refine ⟨fun s aq rl rd rs1 => ⟨fun h => does_loadReserved rfl h ?_, fun hx h => ?_⟩, spells_row 70 rfl fun _ => rfl,
    spells_row 71 rfl fun _ => rfl⟩
  · exact canon_sextLow_loadBytes s _ (by decide) (by decide)
  · refine does_loadReserved (State.rv64Only_of hx _) h ?_
    rw [hx]
    exact s.loadBytes_double rs1

theorem does_storeConditional_none (hi : exec i s = storeConditional n rd rs1 rs2 s) (h : s.atomOk rs1 n)
    (hr : s.reservation = none) : Does i s (scFailEffect rd) :=
  ⟨_, hi.trans (storeConditional_next.2 ⟨h, .inl ⟨hr, rfl⟩⟩), becomes_scFail _ _⟩

theorem does_storeConditional_own (hi : exec i s = storeConditional n rd rs1 rs2 s) (h : s.atomOk rs1 n)
    (hr : s.reservation = some ⟨s.atomAddr rs1, n⟩) : Does i s (scDrawEffect s n rd rs1 rs2) := by
  unfold scDrawEffect
  cases hd : s.scDrawFails with
  | true =>
    exact ⟨_, hi.trans (storeConditional_next.2 ⟨h, .inr (.inl ⟨hr, hd, rfl⟩)⟩), becomes_scFail_drawn _ _⟩
  | false =>
    exact ⟨_, hi.trans (storeConditional_next.2 ⟨h, .inr (.inr ⟨hr, hd, rfl⟩)⟩), becomes_scStore _ _ _ _ _⟩

theorem storeConditional_mismatch {r : Reservation} (h : s.atomOk rs1 n) (hr : s.reservation = some r)
    (hne : r ≠ ⟨s.atomAddr rs1, n⟩) : storeConditional n rd rs1 rs2 s = .refused .scAddressMismatch := by
  rw [storeConditional, State.atomCheck_ok (u := ()).2 h, attempt, hr]
  exact if_neg hne

theorem scDrawFails_of_not_scMayFail (h : s.env.scMayFail = false) : s.scDrawFails = false := by
  rw [State.scDrawFails, h, Bool.false_and]

/-- A reservation of another address or of the other size is not that of the access. -/
theorem Reservation.ne_of_addr_or_size {r : Reservation} {a : Word} {n' : AtomSize} (hn : n' ≠ n)
    (h : r.addr ≠ a ∨ r.size = n') : r ≠ ⟨a, n⟩ := by
  rintro rfl
  exact h.elim (· rfl) fun h => hn h.symm

/-- Settles O21: each is `storeConditional`, whose cases are those of the reservation. -/
theorem storeConditionalResults : Obligations.StoreConditionalResults := by
  refine ⟨fun s aq rl rd rs1 rs2 => ⟨does_storeConditional_none rfl, does_storeConditional_own rfl,
    fun hx => does_storeConditional_none (State.rv64Only_of hx _),
    fun hx => does_storeConditional_own (State.rv64Only_of hx _), scDrawFails_of_not_scMayFail,
    fun r hr => ⟨fun h hne => ?_, fun hx h hne => ?_⟩⟩, spells_row 72 rfl fun _ => rfl, spells_row 73 rfl fun _ => rfl⟩
  · exact storeConditional_mismatch h hr (Reservation.ne_of_addr_or_size (n' := .double) nofun hne)
  · exact (State.rv64Only_of hx _).trans (storeConditional_mismatch h hr (Reservation.ne_of_addr_or_size (n' := .word) nofun hne))

/-! ## An LR and two SCs -/

section Pair

variable {rt : XReg} {e : Effect}

/-- An instruction that does not write a register keeps the address in it, and the checks of an atomic there. -/
theorem Becomes.readX_of_ne (h : Becomes s t e) {v : Word} (he : e.x = some (rd, v)) {j : XReg}
    (hj : rd = 0#5 ∨ rd ≠ j) : t.readX j = s.readX j := by
  rw [h.x, he]
  split_ifs with h0
  · subst h0; rfl
  · exact if_neg fun hrd => hj.elim (fun h0' => h0 (hrd.trans h0')) fun hne => hne hrd.symm

theorem Becomes.atomAddr_eq (h : Becomes s t e) (hx : t.readX rs1 = s.readX rs1) : t.atomAddr rs1 = s.atomAddr rs1 := by
  rw [State.atomAddr, State.atomAddr, hx, h.env]

theorem Becomes.atomOk (h : Becomes s t e) (hx : t.readX rs1 = s.readX rs1) (hs : s.atomOk rs1 n) : t.atomOk rs1 n := by
  rw [State.atomOk, h.atomAddr_eq hx, State.allMapped_env h.env]
  exact hs

theorem State.cells_env (h : t.env = s.env) (a : Word) (k v : Nat) : t.cells a k v = s.cells a k v := by
  simp only [State.cells, State.byteAddr_env h]

/-- An LR that keeps its address register, an SC at that address and a second SC. -/
theorem reserved_then_conditional {lr sc : Instr} {v : Word} (hfail : s.env.scMayFail = false)
    (hrd : rd = 0#5 ∨ rd ≠ rs1) (hrt : rt ≠ rs1) (hrt0 : rt ≠ 0#5) (hok : s.atomOk rs1 n)
    (hlr : Does lr s { x := some (rd, v), reservation := some (some ⟨s.atomAddr rs1, n⟩) })
    (hsc : ∀ t : State, t.env = s.env → exec sc t = storeConditional n rt rs1 rs2 t) :
    ∃ t u w, exec lr s = .next t ∧ exec sc t = .next u ∧
      u.readX rt = 0 ∧ u.reservation = none ∧ (rd ≠ rs2 → t.readX rs2 = s.readX rs2) ∧
      (∀ k, u.readByte k = ((s.cells (s.atomAddr rs1) n.bytes (t.readX rs2).toNat).lookup k).getD (s.readByte k)) ∧
      exec sc u = .next w ∧ w.readX rt = 1 ∧ ∀ k, w.readByte k = u.readByte k := by
  obtain ⟨t, htn, ht⟩ := hlr
  have htx := ht.readX_of_ne rfl hrd
  have hta := ht.atomAddr_eq htx
  obtain ⟨u, hun, hu⟩ := does_storeConditional_own (hsc t ht.env) (ht.atomOk htx hok)
    (show t.reservation = _ by rw [ht.reservation, hta]; rfl)
  have hdraw : t.scDrawFails = false := scDrawFails_of_not_scMayFail (by rw [ht.env, hfail])
  rw [scDrawEffect, hdraw] at hu
  have hux := hu.readX_of_ne rfl (.inr hrt)
  obtain ⟨w, hwn, hw⟩ := does_storeConditional_none (hsc u (hu.env.trans ht.env))
    (hu.atomOk hux (ht.atomOk htx hok)) hu.reservation
  refine ⟨t, u, w, htn, hun, ?_, hu.reservation, fun hne => ht.readX_of_ne rfl (.inr hne), fun k => ?_, hwn, ?_, hw.mem⟩
  · rw [hu.x, if_neg hrt0]
    exact if_pos rfl
  · rw [hu.mem, ht.mem]
    simp only [Bool.false_eq_true, if_false, State.cells_env ht.env, hta]
    rfl
  · rw [hw.x, if_neg hrt0]
    exact if_pos rfl

end Pair

/-- Settles O22: the pair at each size. -/
theorem reservedThenConditional : Obligations.ReservedThenConditional := by
  intro s aq rl rd rt rs1 rs2 hfail hrd hrt hrt0
  have hlr := loadReservedResults.1 s aq rl rd rs1
  exact ⟨fun h => reserved_then_conditional hfail hrd hrt hrt0 h (hlr.1 h) fun _ _ => rfl,
    fun hx h => reserved_then_conditional hfail hrd hrt hrt0 h (hlr.2 hx h)
      fun _ ht => State.rv64Only_of ((congrArg Env.xlen ht).trans hx) _⟩

end Sys2Proof.Machine
end

section
/-! PROOFS. Floating-point instructions: what each writes and raises (spec/44_fp_arith.md R276 to R304,
spec/45_fp_convert_compare.md R310 to R346, spec/46_fcsr_access.md R380 to R387). -/

namespace Sys2Proof.Machine

variable {i : Instr} {s : State} {fmt : Fmt} {rm : RmField} {m : RoundingMode}

/-! ## Results in a floating-point register -/

section ToF

variable {rd rs1 rs2 rs3 : FReg}

theorem does_fpBinary {f : RoundingMode → BitVec fmt.width → BitVec fmt.width → BitVec fmt.width × Flags}
    (hm : s.effRm rm = .ok m) (hi : exec i s = fpBinary fmt f rd rs1 rs2 rm s) :
    Does i s (fpEffect fmt rd (f m (s.readFmt fmt rs1) (s.readFmt fmt rs2))) :=
  ⟨_, hi.trans (fpBinary_next.2 ⟨m, hm, rfl⟩), becomes_retireF _ _ _ _⟩

theorem does_fpUnary {f : RoundingMode → BitVec fmt.width → BitVec fmt.width × Flags}
    (hm : s.effRm rm = .ok m) (hi : exec i s = fpUnary fmt f rd rs1 rm s) :
    Does i s (fpEffect fmt rd (f m (s.readFmt fmt rs1))) :=
  ⟨_, hi.trans (fpUnary_next.2 ⟨m, hm, rfl⟩), becomes_retireF _ _ _ _⟩

theorem does_fpFused {np nc : Bool} (hm : s.effRm rm = .ok m)
    (hi : exec i s = fpFused fmt np nc rd rs1 rs2 rs3 rm s) :
    Does i s (fpEffect fmt rd (fpFma fmt m (s.readFmt fmt rs1) (s.readFmt fmt rs2) (s.readFmt fmt rs3) np nc)) :=
  ⟨_, hi.trans (fpFused_next.2 ⟨m, hm, rfl⟩), becomes_retireF _ _ _ _⟩

theorem does_fpPlain {f : BitVec fmt.width → BitVec fmt.width → BitVec fmt.width × Flags}
    (hi : exec i s = fpPlain fmt f rd rs1 rs2 s) :
    Does i s (fpEffect fmt rd (f (s.readFmt fmt rs1) (s.readFmt fmt rs2))) :=
  ⟨_, hi, becomes_retireF _ _ _ _⟩

theorem does_fpInject {f : BitVec fmt.width → BitVec fmt.width → BitVec fmt.width} {v : BitVec fmt.width}
    (hi : exec i s = fpInject fmt f rd rs1 rs2 s) (hv : f (s.readFmt fmt rs1) (s.readFmt fmt rs2) = v) :
    Does i s { f := some (rd, boxed fmt v) } := by
  subst hv
  exact ⟨_, hi, becomes_writeFmt _ _ _ _⟩

theorem does_fpToFpInstr {dst src : Fmt} (hm : s.effRm rm = .ok m)
    (hi : exec i s = fpToFpInstr dst src rd rs1 rm s) :
    Does i s (fpEffect dst rd (fpToFp dst src m (s.readFmt src rs1))) :=
  ⟨_, hi.trans (fpToFpInstr_next.2 ⟨m, hm, rfl⟩), becomes_retireF _ _ _ _⟩

/-- An integer is rounded as the rational it is. -/
theorem does_xToFp {ty : IntType} {xs : XReg} {q : Rat} (hm : s.effRm rm = .ok m)
    (hi : exec i s = xToFp fmt ty rd xs rm s)
    (hq : ((if ty.signed then ((s.readX xs).setWidth ty.bits).toInt
      else ((s.readX xs).setWidth ty.bits).toNat : Int) : Rat) = q) :
    Does i s (fpEffect fmt rd (roundFmt fmt m q false)) := by
  subst hq
  exact ⟨_, hi.trans (xToFp_next.2 ⟨m, hm, rfl⟩), becomes_retireF _ _ _ _⟩

end ToF

/-! ## Results in an integer register -/

section ToX

variable {rd : XReg} {rs1 rs2 : FReg}

theorem does_fpToX {ty : IntType} {v : Word} (hm : s.effRm rm = .ok m) (hi : exec i s = fpToX fmt ty rd rs1 rm s)
    (hv : s.env.xlen.canon ((BitVec.ofInt ty.bits (fpToInt fmt ty (s.readFmt fmt rs1)).1).signExtend 64) = v) :
    Does i s { x := some (rd, v), raised := (fpToInt fmt ty (s.readFmt fmt rs1)).2 } := by
  subst hv
  exact ⟨_, hi.trans (fpToX_next.2 ⟨⟨m, hm⟩, rfl⟩), becomes_writeX_raise _ _ _ _⟩

theorem canon_sextW (xl : XLen) (z : Int) : xl.canon ((BitVec.ofInt 32 z).signExtend 64) = sextW z :=
  canon_signExtend xl (Nat.le_refl 32) _

theorem canon_ofInt_signExtend_64 (s : State) (z : Int) :
    s.env.xlen.canon ((BitVec.ofInt 64 z).signExtend 64) = s.trunc z := by
  rw [BitVec.signExtend_eq, State.trunc]

theorem does_fpCompareX {op : FpCmp} (hi : exec i s = fpCompareX fmt op rd rs1 rs2 s) :
    Does i s { x := some (rd, if (fpCompare fmt op (s.readFmt fmt rs1) (s.readFmt fmt rs2)).1 then 1 else 0),
               raised := (fpCompare fmt op (s.readFmt fmt rs1) (s.readFmt fmt rs2)).2 } := by
  have hcanon (c : Bool) : s.env.xlen.canon (if c then 1 else 0) = if c then 1 else 0 := by
    cases c
    · exact XLen.canon_zero _
    · exact XLen.canon_one _
  have hb := becomes_writeX_raise s rd (if (fpCompare fmt op (s.readFmt fmt rs1) (s.readFmt fmt rs2)).1 then 1 else 0)
    (fpCompare fmt op (s.readFmt fmt rs1) (s.readFmt fmt rs2)).2
  rw [hcanon] at hb
  exact ⟨_, hi, hb⟩

theorem canon_setWidth_small {w : Nat} (hw : w < 32) (xl : XLen) (v : BitVec w) :
    xl.canon (v.setWidth 64) = BitVec.ofNat 64 v.toNat := by
  have hlt : v.toNat < 2 ^ 31 := v.isLt.trans_le (Nat.pow_le_pow_right (by decide) (by omega))
  rw [canon_small, BitVec.ofNat_toNat]
  rw [BitVec.toNat_setWidth]
  exact (Nat.mod_le _ _).trans_lt hlt

/-- A value of fewer bits than XLEN is written zero-extended. -/
theorem becomes_retireX_setWidth (s : State) (rd : XReg) {w : Nat} (hw : w < 32) (v : BitVec w) :
    Becomes s (s.retireX rd (v.setWidth 64)) { x := some (rd, BitVec.ofNat 64 v.toNat) } := by
  have hb := becomes_retireX s rd (v.setWidth 64)
  rwa [canon_setWidth_small hw] at hb

theorem does_fpClassX (hi : exec i s = fpClassX fmt rd rs1 s) :
    Does i s { x := some (rd, BitVec.ofNat 64 (fpClass fmt (s.readFmt fmt rs1)).toNat) } :=
  ⟨_, hi, becomes_retireX_setWidth s rd (by decide) _⟩

end ToX

/-! ## Arithmetic -/

/-- Settles O26: each is `fpBinary` or `fpUnary` of its operation. -/
theorem fpArithmeticResults : Obligations.FpArithmeticResults := by
  refine ⟨fun s rd rs1 rs2 rm m h => ?_,
    spellsRm_row 74 rfl fun _ => rfl, spellsRm_row 75 rfl fun _ => rfl, spellsRm_row 76 rfl fun _ => rfl,
    spellsRm_row 77 rfl fun _ => rfl, spellsRm_row 78 rfl fun _ => rfl, spellsRm_row 88 rfl fun _ => rfl,
    spellsRm_row 89 rfl fun _ => rfl, spellsRm_row 90 rfl fun _ => rfl, spellsRm_row 91 rfl fun _ => rfl,
    spellsRm_row 92 rfl fun _ => rfl⟩
  exact ⟨does_fpBinary (f := fpAdd .s) h rfl, does_fpBinary (f := fpSub .s) h rfl,
    does_fpBinary (f := fpMul .s) h rfl, does_fpBinary (f := fpDiv .s) h rfl, does_fpUnary (f := fpSqrt .s) h rfl,
    does_fpBinary (f := fpAdd .d) h rfl, does_fpBinary (f := fpSub .d) h rfl, does_fpBinary (f := fpMul .d) h rfl,
    does_fpBinary (f := fpDiv .d) h rfl, does_fpUnary (f := fpSqrt .d) h rfl⟩

/-- Settles O27: each is `fpFused` with its two negations. -/
theorem fpFusedResults : Obligations.FpFusedResults := by
  refine ⟨fun s rd rs1 rs2 rs3 rm m h => ?_,
    spellsRm_row 79 rfl fun _ => rfl, spellsRm_row 80 rfl fun _ => rfl, spellsRm_row 81 rfl fun _ => rfl,
    spellsRm_row 82 rfl fun _ => rfl, spellsRm_row 93 rfl fun _ => rfl, spellsRm_row 94 rfl fun _ => rfl,
    spellsRm_row 95 rfl fun _ => rfl, spellsRm_row 96 rfl fun _ => rfl⟩
  exact ⟨does_fpFused h rfl, does_fpFused h rfl, does_fpFused h rfl, does_fpFused h rfl, does_fpFused h rfl,
    does_fpFused h rfl, does_fpFused h rfl, does_fpFused h rfl⟩

/-- Settles O30: each is `fpPlain` of its operation. -/
theorem minMaxResults : Obligations.MinMaxResults :=
  ⟨fun _ _ _ _ => ⟨does_fpPlain (f := fpMin .s) rfl, does_fpPlain (f := fpMax .s) rfl,
    does_fpPlain (f := fpMin .d) rfl, does_fpPlain (f := fpMax .d) rfl⟩,
    spells_row 86 rfl fun _ => rfl, spells_row 87 rfl fun _ => rfl, spells_row 100 rfl fun _ => rfl,
    spells_row 101 rfl fun _ => rfl⟩

/-! ## Sign injection -/

section SignBit

variable {w : Nat} {v a b : BitVec w}

/-- The top bit of one pattern over the other bits of another. -/
theorem eq_and_or_signBit (hw : 0 < w) (hs : v.msb = b.msb) (hl : ∀ k < w - 1, v.getLsbD k = a.getLsbD k) :
    v = (a &&& ~~~BitVec.twoPow w (w - 1)) ||| (b &&& BitVec.twoPow w (w - 1)) := by
  apply BitVec.eq_of_getLsbD_eq
  intro k hk
  rw [BitVec.msb_eq_getLsbD_last, BitVec.msb_eq_getLsbD_last] at hs
  rw [BitVec.getLsbD_or, BitVec.getLsbD_and, BitVec.getLsbD_and, BitVec.getLsbD_not, BitVec.getLsbD_twoPow]
  obtain rfl | hlt : k = w - 1 ∨ k < w - 1 := by omega
  · rw [hs]
    simp [hw]
  · rw [hl k hlt]
    simp [hk, show w - 1 ≠ k by omega]

/-- The top bit of one pattern exclusive-ored into another. -/
theorem eq_xor_signBit (hw : 0 < w) (hs : v.msb = (a.msb ^^ b.msb)) (hl : ∀ k < w - 1, v.getLsbD k = a.getLsbD k) :
    v = a ^^^ (b &&& BitVec.twoPow w (w - 1)) := by
  apply BitVec.eq_of_getLsbD_eq
  intro k hk
  rw [BitVec.msb_eq_getLsbD_last, BitVec.msb_eq_getLsbD_last, BitVec.msb_eq_getLsbD_last] at hs
  rw [BitVec.getLsbD_xor, BitVec.getLsbD_and, BitVec.getLsbD_twoPow]
  obtain rfl | hlt : k = w - 1 ∨ k < w - 1 := by omega
  · rw [hs]
    simp [hw]
  · simp [hl k hlt, show w - 1 ≠ k by omega]

end SignBit

section Injections

variable (a b : BitVec fmt.width)

theorem fpSgnj_eq : fpSgnj fmt a b =
    (a &&& ~~~BitVec.twoPow fmt.width (fmt.width - 1)) ||| (b &&& BitVec.twoPow fmt.width (fmt.width - 1)) :=
  eq_and_or_signBit (by cases fmt <;> decide) (fmt.sign_withSign _ a) fun _ hk => fmt.getLsbD_withSign _ a hk

theorem fpSgnjn_eq : fpSgnjn fmt a b =
    (a &&& ~~~BitVec.twoPow fmt.width (fmt.width - 1)) ||| (~~~b &&& BitVec.twoPow fmt.width (fmt.width - 1)) := by
  have hw : 0 < fmt.width := by cases fmt <;> decide
  exact eq_and_or_signBit hw ((fmt.sign_withSign _ a).trans (by rw [BitVec.msb_not]; simp [hw, Fmt.sign]))
    fun _ hk => fmt.getLsbD_withSign _ a hk

theorem fpSgnjx_eq : fpSgnjx fmt a b = a ^^^ (b &&& BitVec.twoPow fmt.width (fmt.width - 1)) :=
  eq_xor_signBit (by cases fmt <;> decide) (fmt.sign_withSign _ a) fun _ hk => fmt.getLsbD_withSign _ a hk

end Injections

/-- Settles O28: each is `fpInject` of its operation, which acts on the top bit alone. -/
theorem signInjectionResults : Obligations.SignInjectionResults :=
  ⟨fun _ _ _ _ => ⟨does_fpInject (fmt := .s) rfl (fpSgnj_eq _ _), does_fpInject (fmt := .s) rfl (fpSgnjn_eq _ _),
    does_fpInject (fmt := .s) rfl (fpSgnjx_eq _ _), does_fpInject (fmt := .d) rfl (fpSgnj_eq _ _),
    does_fpInject (fmt := .d) rfl (fpSgnjn_eq _ _), does_fpInject (fmt := .d) rfl (fpSgnjx_eq _ _)⟩,
    spells_row 83 rfl fun _ => rfl, spells_row 84 rfl fun _ => rfl, spells_row 85 rfl fun _ => rfl,
    spells_row 97 rfl fun _ => rfl, spells_row 98 rfl fun _ => rfl, spells_row 99 rfl fun _ => rfl⟩

/-! ## Conversions -/

/-- Settles O31: each is `fpToX` of its type. -/
theorem fpToIntegerResults : Obligations.FpToIntegerResults := by
  refine ⟨fun s rd rs1 rm m h => ⟨does_fpToX h rfl (canon_sextW _ _), does_fpToX h rfl (canon_sextW _ _),
    does_fpToX h rfl (canon_sextW _ _), does_fpToX h rfl (canon_sextW _ _), fun hx => ?_⟩,
    spellsRm_row 102 rfl fun _ => rfl, spellsRm_row 103 rfl fun _ => rfl, spellsRm_row 104 rfl fun _ => rfl,
    spellsRm_row 105 rfl fun _ => rfl, spellsRm_row 114 rfl fun _ => rfl, spellsRm_row 115 rfl fun _ => rfl,
    spellsRm_row 116 rfl fun _ => rfl, spellsRm_row 117 rfl fun _ => rfl⟩
  exact ⟨does_fpToX h (State.rv64Only_of hx _) (canon_ofInt_signExtend_64 _ _),
    does_fpToX h (State.rv64Only_of hx _) (canon_ofInt_signExtend_64 _ _),
    does_fpToX h (State.rv64Only_of hx _) (canon_ofInt_signExtend_64 _ _),
    does_fpToX h (State.rv64Only_of hx _) (canon_ofInt_signExtend_64 _ _)⟩

/-- Settles O32: each is `xToFp` of its type. -/
theorem integerToFpResults : Obligations.IntegerToFpResults := by
  refine ⟨fun s rd rs1 rm m h => ⟨does_xToFp h rfl rfl, does_xToFp h rfl (Int.cast_natCast _), does_xToFp h rfl rfl,
    does_xToFp h rfl (Int.cast_natCast _), fun hx => ?_⟩,
    spellsRm_row 106 rfl fun _ => rfl, spellsRm_row 107 rfl fun _ => rfl, spellsRm_row 108 rfl fun _ => rfl,
    spellsRm_row 109 rfl fun _ => rfl, spellsRm_row 118 rfl fun _ => rfl, spellsRm_row 119 rfl fun _ => rfl,
    spellsRm_row 120 rfl fun _ => rfl, spellsRm_row 121 rfl fun _ => rfl⟩
  have hL : (((s.readX rs1).setWidth 64).toInt : Rat) = (s.signedX rs1 : Rat) := by
    rw [BitVec.setWidth_eq, State.signedX]
  have hLU : ((((s.readX rs1).setWidth 64).toNat : Int) : Rat) = (s.unsignedX rs1 : Rat) := by
    rw [BitVec.setWidth_eq, State.unsignedX_rv64 hx, Int.cast_natCast]
  exact ⟨does_xToFp h (State.rv64Only_of hx _) hL, does_xToFp h (State.rv64Only_of hx _) hLU,
    does_xToFp h (State.rv64Only_of hx _) hL, does_xToFp h (State.rv64Only_of hx _) hLU⟩

theorem Fmt.isQNaN_kind {a : BitVec fmt.width} (h : fmt.isQNaN a = true) :
    fmt.isNaN a = true ∧ fmt.isSNaN a = false := by
  simp only [Fmt.isQNaN, Bool.and_eq_true] at h
  simp [Fmt.isSNaN, h]

/-- Settles O33: the conversion goes by the kind of its operand. -/
theorem fpToFpResults : Obligations.FpToFpResults := by
  refine ⟨fun s rd rs1 rm m h => ⟨does_fpToFpInstr h rfl, does_fpToFpInstr h rfl⟩,
    fun dst src m a => ⟨fun h => ?_, fun h => ?_, fun h => ?_, fun h => ?_, fun h hz zs => ?_⟩,
    spellsRm_row 130 rfl fun _ => rfl, spellsRm_row 131 rfl fun _ => rfl⟩
  · simp [fpToFp, h]
  · obtain ⟨hn, hs⟩ := Fmt.isQNaN_kind h
    simp [fpToFp, hn, hs]
  · have hn := (Fmt.isInf_kind h).1
    simp [fpToFp, h, hn, Fmt.isSNaN_of_not_isNaN hn]
  · obtain ⟨hn, hi, -⟩ := Fmt.isZero_kind h
    simp [fpToFp, h, hn, hi, Fmt.isSNaN_of_not_isNaN hn]
  · obtain ⟨hn, hi⟩ := Fmt.isFinite_kind h
    have hv : src.val a ≠ 0 := fun h0 => by simp [(Fmt.val_eq_zero_iff h).1 h0] at hz
    simp [fpToFp, hn, hi, hz, Fmt.isSNaN_of_not_isNaN hn, roundFmt, hv]

/-! ## Comparisons and classification -/

/-- Settles O34: each is `fpCompareX` of its comparison. -/
theorem compareResults : Obligations.CompareResults :=
  ⟨fun _ _ _ _ => ⟨does_fpCompareX rfl, does_fpCompareX rfl, does_fpCompareX rfl, does_fpCompareX rfl,
    does_fpCompareX rfl, does_fpCompareX rfl⟩,
    spells_row 110 rfl fun _ => rfl, spells_row 111 rfl fun _ => rfl, spells_row 112 rfl fun _ => rfl,
    spells_row 122 rfl fun _ => rfl, spells_row 123 rfl fun _ => rfl, spells_row 124 rfl fun _ => rfl⟩

/-- The class mask from what tells the ten kinds apart: whether the exponent field is all ones or zero, whether the
fraction field is zero, the quiet bit and the sign. -/
def classMask (ones zero noFrac quiet sign : Bool) : BitVec 10 :=
  if ones && !noFrac && !quiet then 0x100
  else if ones && !noFrac then 0x200
  else if ones && noFrac then (if sign then 0x001 else 0x080)
  else if zero && noFrac then (if sign then 0x008 else 0x010)
  else if zero && !noFrac then (if sign then 0x004 else 0x020)
  else if sign then 0x002 else 0x040

theorem fpClass_eq_classMask (a : BitVec fmt.width) : fpClass fmt a =
    classMask (fmt.exp a == fmt.expMax) (fmt.exp a == 0) (fmt.frac a == 0) (fmt.quietBit a) (fmt.sign a) :=
  rfl

theorem classMask_spec (ones zero noFrac quiet sign : Bool) (h : ¬(ones = true ∧ zero = true)) :
    (∃ k < 10, classMask ones zero noFrac quiet sign = BitVec.twoPow 10 k) ∧
    (classMask ones zero noFrac quiet sign = 0x001 ↔ (ones && noFrac) = true ∧ sign = true) ∧
    (classMask ones zero noFrac quiet sign = 0x002 ↔ zero = false ∧ (!ones) = true ∧ sign = true) ∧
    (classMask ones zero noFrac quiet sign = 0x004 ↔ (zero && !noFrac) = true ∧ sign = true) ∧
    (classMask ones zero noFrac quiet sign = 0x008 ↔ (zero && noFrac) = true ∧ sign = true) ∧
    (classMask ones zero noFrac quiet sign = 0x010 ↔ (zero && noFrac) = true ∧ sign = false) ∧
    (classMask ones zero noFrac quiet sign = 0x020 ↔ (zero && !noFrac) = true ∧ sign = false) ∧
    (classMask ones zero noFrac quiet sign = 0x040 ↔ zero = false ∧ (!ones) = true ∧ sign = false) ∧
    (classMask ones zero noFrac quiet sign = 0x080 ↔ (ones && noFrac) = true ∧ sign = false) ∧
    (classMask ones zero noFrac quiet sign = 0x100 ↔ (ones && !noFrac && !quiet) = true) ∧
    (classMask ones zero noFrac quiet sign = 0x200 ↔ (ones && !noFrac && quiet) = true) := by
  revert ones zero noFrac quiet sign
  decide

/-- Settles O48: the class mask is a function of five bits of the pattern's fields. -/
theorem classResults : Obligations.ClassResults := by
  refine ⟨fun _ _ _ => ⟨does_fpClassX rfl, does_fpClassX rfl⟩, fun fmt a => ?_,
    spells_row 113 rfl fun _ => rfl, spells_row 125 rfl fun _ => rfl⟩
  have hex : ¬((fmt.exp a == fmt.expMax) = true ∧ (fmt.exp a == 0) = true) := by
    rintro ⟨h1, h0⟩
    rw [beq_iff_eq] at h1 h0
    exact absurd (h1.symm.trans h0) (by cases fmt <;> decide)
  have h0 : fmt.exp a ≠ 0 ↔ (fmt.exp a == 0) = false := beq_eq_false_iff_ne.symm
  simp only [h0, fpClass_eq_classMask]
  exact classMask_spec _ _ _ _ _ hex

/-! ## Bit moves and accessors -/

section Accessors

variable (s : State) (rd : XReg) (v w : Word)

theorem becomes_setFflags_retireX : Becomes s ((s.setFflags v).retireX rd w)
    { x := some (rd, s.env.xlen.canon w), fflags := some (v.setWidth 5) } := by
  constructor <;> simp

theorem becomes_setFrm_retireX : Becomes s ((s.setFrm v).retireX rd w)
    { x := some (rd, s.env.xlen.canon w), frm := some (frmLegalize s.env (v.setWidth 3)) } := by
  constructor <;> simp

theorem becomes_setFcsr_retireX : Becomes s ((s.setFcsr v).retireX rd w)
    { x := some (rd, s.env.xlen.canon w), fflags := some (v.setWidth 5),
      frm := some (frmLegalize s.env ((v >>> 5).setWidth 3)) } := by
  constructor <;> simp

theorem setWidth_eq_ofNat_mod (v : Word) (n : Nat) : v.setWidth n = BitVec.ofNat n (v.toNat % 2 ^ n) := by
  apply BitVec.eq_of_toNat_eq
  rw [BitVec.toNat_setWidth, BitVec.toNat_ofNat, Nat.mod_mod]

theorem shiftRight_setWidth_eq_ofNat (v : Word) :
    (v >>> 5).setWidth 3 = BitVec.ofNat 3 (v.toNat / 32 % 8) := by
  rw [setWidth_eq_ofNat_mod, BitVec.toNat_ushiftRight, Nat.shiftRight_eq_div_pow]
  rfl

theorem State.frm_append_fflags_toNat : (s.frm ++ s.fflags).toNat = s.frm.toNat * 32 + s.fflags.toNat := by
  rw [BitVec.toNat_append, ← Nat.shiftLeft_add_eq_or_of_lt s.fflags.isLt, Nat.shiftLeft_eq]

/-- What the accessors do, at both XLENs: the views have fewer than 32 bits. -/
theorem does_accessors (rs1 : XReg) :
    Does (.frcsr rd) s { x := some (rd, BitVec.ofNat 64 (s.frm.toNat * 32 + s.fflags.toNat)) } ∧
    Does (.frrm rd) s { x := some (rd, BitVec.ofNat 64 s.frm.toNat) } ∧
    Does (.frflags rd) s { x := some (rd, BitVec.ofNat 64 s.fflags.toNat) } ∧
    Does (.fsflags rd rs1) s
      { x := some (rd, BitVec.ofNat 64 s.fflags.toNat),
        fflags := some (BitVec.ofNat 5 ((s.readX rs1).toNat % 32)) } ∧
    Does (.fsrm rd rs1) s
      { x := some (rd, BitVec.ofNat 64 s.frm.toNat),
        frm := some (frmLegalize s.env (BitVec.ofNat 3 ((s.readX rs1).toNat % 8))) } ∧
    Does (.fscsr rd rs1) s
      { x := some (rd, BitVec.ofNat 64 (s.frm.toNat * 32 + s.fflags.toNat)),
        fflags := some (BitVec.ofNat 5 ((s.readX rs1).toNat % 32)),
        frm := some (frmLegalize s.env (BitVec.ofNat 3 ((s.readX rs1).toNat / 32 % 8))) } := by
  have hfcsr : s.env.xlen.canon s.fcsr = BitVec.ofNat 64 (s.frm.toNat * 32 + s.fflags.toNat) := by
    rw [← s.frm_append_fflags_toNat]
    exact canon_setWidth_small (by decide) _ _
  have hfrm : s.env.xlen.canon (s.frm.setWidth 64) = BitVec.ofNat 64 s.frm.toNat :=
    canon_setWidth_small (by decide) _ _
  have hflags : s.env.xlen.canon (s.fflags.setWidth 64) = BitVec.ofNat 64 s.fflags.toNat :=
    canon_setWidth_small (by decide) _ _
  have h5 := setWidth_eq_ofNat_mod (s.readX rs1) 5
  have h3 := setWidth_eq_ofNat_mod (s.readX rs1) 3
  rw [← hfcsr, ← hfrm, ← hflags, ← shiftRight_setWidth_eq_ofNat]
  refine ⟨⟨_, rfl, becomes_retireX _ _ _⟩, ⟨_, rfl, becomes_retireX _ _ _⟩, ⟨_, rfl, becomes_retireX _ _ _⟩,
    ⟨_, rfl, ?_⟩, ⟨_, rfl, ?_⟩, ⟨_, rfl, ?_⟩⟩
  · have hb := becomes_setFflags_retireX s rd (s.readX rs1) (s.fflags.setWidth 64)
    rwa [h5] at hb
  · have hb := becomes_setFrm_retireX s rd (s.readX rs1) (s.frm.setWidth 64)
    rwa [h3] at hb
  · have hb := becomes_setFcsr_retireX s rd (s.readX rs1) s.fcsr
    rwa [h5] at hb

end Accessors

/-- Settles O24: the accessors, and the two decisions of `frmLegalize`. -/
theorem accessorResults : Obligations.AccessorResults := by
  refine ⟨fun s rd rs1 _ => does_accessors s rd rs1,
    fun e v => ⟨fun h5 h6 => (if_neg h5).trans (if_neg h6), rfl, rfl⟩, rfl, rfl, ⟨rfl, rfl, rfl, rfl, rfl⟩,
    spells_row 132 rfl fun _ => rfl, spells_row 133 rfl fun _ => rfl, spells_row 134 rfl fun _ => rfl,
    spells_row 135 rfl fun _ => rfl, spells_row 136 rfl fun _ => rfl, spells_row 137 rfl fun _ => rfl⟩

/-- A move of the low word, at both XLENs. -/
theorem does_fmvXW (s : State) (rd : XReg) (rs1 : FReg) :
    Does (.fmvXW rd rs1) s { x := some (rd, sextW ((s.readF rs1).toNat % 2 ^ 32 : Nat)) } := by
  rw [sextW, BitVec.ofInt_natCast, ← setWidth_eq_ofNat_mod, ← canon_signExtend s.env.xlen (Nat.le_refl 32)]
  exact ⟨_, rfl, becomes_retireX s rd _⟩

theorem does_fmvWX (s : State) (rd : FReg) (rs1 : XReg) :
    Does (.fmvWX rd rs1) s { f := some (rd, boxed .s (s.lowX rs1)) } :=
  ⟨_, rfl, becomes_writeFmt s .s rd (s.lowX rs1)⟩

/-- Settles O35: the moves, whose values at XLEN = 64 are whole registers or low words. -/
theorem bitMoveResults : Obligations.BitMoveResults := by
  refine ⟨fun s rd xs fd rs1 hx => ⟨does_fmvXW s rd rs1, does_fmvWX s fd xs, ⟨_, State.rv64Only_of hx _, ?_⟩,
    ⟨_, State.rv64Only_of hx _, becomes_writeFmt s .d fd (s.readX xs)⟩⟩,
    spells_row 126 rfl fun _ => rfl, spells_row 127 rfl fun _ => rfl, spells_row 128 rfl fun _ => rfl,
    spells_row 129 rfl fun _ => rfl⟩
  have hb := becomes_retireX s rd (s.readF rs1)
  rwa [hx] at hb

/-- Settles O36: the accessors and the word moves read and write fewer bits than XLEN. -/
theorem accessorsAndMovesAtXlen32 : Obligations.AccessorsAndMovesAtXlen32 := by
  intro s rd rs1 fd fs _
  obtain ⟨hfrcsr, hfrrm, hfrflags, hfsflags, hfsrm, hfscsr⟩ := does_accessors s rd rs1
  exact ⟨hfrcsr, hfrrm, hfrflags, hfsflags, hfsrm, hfscsr, does_fmvXW s rd fs, does_fmvWX s fd rs1⟩

/-! ## NaN boxing -/

/-- Settles O25: the box check is on the upper word as a number. -/
theorem nanBoxing : Obligations.NanBoxing := by
  intro s i v w
  have hbox : (s.readF i).extractLsb' 32 32 = 0xFFFFFFFF#32 ↔ (s.readF i).toNat / 2 ^ 32 = 0xFFFFFFFF := by
    have := (s.readF i).isLt
    rw [← BitVec.toNat_inj, BitVec.extractLsb'_toNat, Nat.shiftRight_eq_div_pow, BitVec.toNat_ofNat]
    omega
  refine ⟨fun h => ?_, fun h => if_neg (hbox.not.2 h), ?_, s.writeS_readS i v, rfl, ?_⟩
  · rw [State.readFmt, State.readS, if_pos (hbox.2 h)]
    exact BitVec.toNat_setWidth _ _
  · rw [s.writeFmt_readF, if_pos rfl]
    exact box_toNat v
  · exact (s.writeFmt_readF .d i i w).trans (if_pos rfl)

end Sys2Proof.Machine
end

section
/-! PROOFS. Floating-point values outside rounding (spec/44_fp_arith.md R260 to R276, spec/45_fp_convert_compare.md R310
to R314): the fields of a pattern, the NaN rule, infinities and zeros, comparisons, minimum and maximum, and the integer
part. -/

namespace Sys2Proof.Machine

variable {fmt : Fmt} {rm : RoundingMode} {a b c : BitVec fmt.width}

/-! ## The fields of a pattern -/

theorem Fmt.frac_div_lt_two (v : BitVec fmt.width) : fmt.frac v / 2 ^ (fmt.fracBits - 1) < 2 := by
  have hf := fmt.frac_lt v
  rw [Nat.div_lt_iff_lt_mul (by positivity)]
  cases fmt <;> simpa [Fmt.fracBits] using hf

/-- The quiet bit is the quotient of the fraction field by its weight. -/
theorem Fmt.quietBit_iff (v : BitVec fmt.width) :
    fmt.quietBit v = true ↔ fmt.frac v / 2 ^ (fmt.fracBits - 1) = 1 := by
  rw [Fmt.quietBit_eq, Nat.testBit_eq_decide_div_mod_eq, Nat.mod_eq_of_lt (Fmt.frac_div_lt_two v), decide_eq_true_iff]

theorem Fmt.quietBit_false_iff (v : BitVec fmt.width) :
    fmt.quietBit v = false ↔ fmt.frac v / 2 ^ (fmt.fracBits - 1) = 0 := by
  have hlt := Fmt.frac_div_lt_two v
  rw [← Bool.not_eq_true, Fmt.quietBit_iff]
  generalize fmt.frac v / 2 ^ (fmt.fracBits - 1) = q at hlt ⊢
  omega

theorem Fmt.val_eq (v : BitVec fmt.width) : fmt.val v = (if fmt.sign v then -1 else 1) *
    (if fmt.exp v = 0 then (fmt.frac v : Rat) * (2 : Rat) ^ (fmt.emin - fmt.fracBits)
     else ((2 : Rat) ^ fmt.fracBits + fmt.frac v) * (2 : Rat) ^ ((fmt.exp v : Int) - fmt.bias - fmt.fracBits)) := by
  have hmag : fmt.mag v = if fmt.exp v = 0 then (fmt.frac v : Rat) * (2 : Rat) ^ (fmt.emin - fmt.fracBits)
     else ((2 : Rat) ^ fmt.fracBits + fmt.frac v) * (2 : Rat) ^ ((fmt.exp v : Int) - fmt.bias - fmt.fracBits) := by
    simp only [Fmt.mag, pow2_eq, Nat.cast_add, Nat.cast_pow, Nat.cast_ofNat]
  rw [← hmag, Fmt.val]
  cases fmt.sign v <;> simp

/-! ## Arithmetic with a NaN operand (R262, R263) -/

theorem fpAdd_nan (h : fmt.isNaN a = true ∨ fmt.isNaN b = true) :
    fpAdd fmt rm a b = (fmt.cNaN, if fmt.isSNaN a || fmt.isSNaN b then flagNV else 0) := by
  rw [fpAdd, nanRule_pair h]

theorem fpSub_nan (h : fmt.isNaN a = true ∨ fmt.isNaN b = true) :
    fpSub fmt rm a b = (fmt.cNaN, if fmt.isSNaN a || fmt.isSNaN b then flagNV else 0) := by
  rw [fpSub, fpAdd_nan (by rwa [Fmt.negate_isNaN]), Fmt.negate_isSNaN]

theorem fpMul_nan (h : fmt.isNaN a = true ∨ fmt.isNaN b = true) :
    fpMul fmt rm a b = (fmt.cNaN, if fmt.isSNaN a || fmt.isSNaN b then flagNV else 0) := by
  rw [fpMul, nanRule_pair h]

theorem fpDiv_nan (h : fmt.isNaN a = true ∨ fmt.isNaN b = true) :
    fpDiv fmt rm a b = (fmt.cNaN, if fmt.isSNaN a || fmt.isSNaN b then flagNV else 0) := by
  rw [fpDiv, nanRule_pair h]

theorem fpSqrt_nan (h : fmt.isNaN a = true) :
    fpSqrt fmt rm a = (fmt.cNaN, if fmt.isSNaN a then flagNV else 0) := by
  rw [fpSqrt, nanRule_one h]

/-- A flag ORed with itself or nothing. -/
theorem ite_or_ite_flag (p q : Bool) (m : Flags) :
    (if p then m else 0) ||| (if q then m else 0) = if p || q then m else 0 := by
  cases p <;> cases q <;> simp

theorem fpFma_nan (h : fmt.isNaN a = true ∨ fmt.isNaN b = true ∨ fmt.isNaN c = true) (np nc : Bool) :
    fpFma fmt rm a b c np nc = (fmt.cNaN,
      if fmt.isSNaN a || fmt.isSNaN b || fmt.isSNaN c || (fmt.isInf a && fmt.isZero b) ||
        (fmt.isZero a && fmt.isInf b) then flagNV else 0) := by
  have hn : (fmt.isNaN a || fmt.isNaN b || fmt.isNaN c) = true := by
    simpa only [Bool.or_eq_true, or_assoc] using h
  simp only [fpFma, hn, if_true, ite_or_ite_flag, Bool.or_assoc]

/-- Settles O37: the formats are numerals, the predicates say what their fields are, and each operation tries the NaN
rule first. -/
theorem nanPropagation : Obligations.NanPropagation := by
  refine ⟨by decide, by decide, fun v => ⟨BitVec.msb_eq_getLsbD_last v, ?_, ?_⟩,
    fun v => ⟨BitVec.msb_eq_getLsbD_last v, ?_, ?_⟩, fun fmt v => ⟨?_, ?_, ?_, ?_, ?_, ?_, ?_, fun _ => fmt.val_eq v⟩,
    fun fmt rm a b c => ⟨?_, fun h => ⟨fpAdd_nan h, fpSub_nan h, fpMul_nan h, fpDiv_nan h⟩, fpSqrt_nan, fpFma_nan⟩⟩
  · rw [BitVec.extractLsb'_toNat, Nat.shiftRight_eq_div_pow]; rfl
  · rw [BitVec.extractLsb'_toNat]; rfl
  · rw [BitVec.extractLsb'_toNat, Nat.shiftRight_eq_div_pow]; rfl
  · rw [BitVec.extractLsb'_toNat]; rfl
  · simp [Fmt.isFinite, Fmt.expMax]
  · simp [Fmt.isInf, Fmt.expMax]
  · simp only [Fmt.isQNaN, Fmt.isNaN, Fmt.expMax, Bool.and_eq_true, beq_iff_eq, bne_iff_ne, fmt.quietBit_iff, and_assoc]
  · simp only [Fmt.isSNaN, Fmt.isNaN, Fmt.expMax, Bool.and_eq_true, beq_iff_eq, bne_iff_ne, Bool.not_eq_true',
      fmt.quietBit_false_iff, and_assoc]
  · simp only [Fmt.isQNaN, Fmt.isSNaN]
    cases fmt.quietBit v <;> simp
  · simp [Fmt.isZero]
  · simp [Fmt.isSubnormal]
  · cases fmt <;> rfl

/-! ## Arithmetic without a NaN operand (R270 to R274) -/

section Numbers

variable (ha : fmt.isNaN a = false) (hb : fmt.isNaN b = false)
include ha hb

theorem fpAdd_of_numbers : fpAdd fmt rm a b =
    if fmt.isInf a && fmt.isInf b && (fmt.sign a != fmt.sign b) then (fmt.cNaN, flagNV)
    else if fmt.isInf a then (a, 0)
    else if fmt.isInf b then (b, 0)
    else if fmt.val a + fmt.val b = 0 then
      (if fmt.isZero a && fmt.isZero b && (fmt.sign a == fmt.sign b) then fmt.zero (fmt.sign a)
       else cancelZero fmt rm, 0)
    else roundFmt fmt rm (fmt.val a + fmt.val b) false := by
  rw [fpAdd, nanRule_pair_none ha hb]

/-- A difference is a sum with the sign of the second operand inverted. -/
theorem fpSub_of_numbers : fpSub fmt rm a b =
    if fmt.isInf a && fmt.isInf b && (fmt.sign a != !fmt.sign b) then (fmt.cNaN, flagNV)
    else if fmt.isInf a then (a, 0)
    else if fmt.isInf b then (fmt.negate b, 0)
    else if fmt.val a - fmt.val b = 0 then
      (if fmt.isZero a && fmt.isZero b && (fmt.sign a == !fmt.sign b) then fmt.zero (fmt.sign a)
       else cancelZero fmt rm, 0)
    else roundFmt fmt rm (fmt.val a - fmt.val b) false := by
  rw [fpSub, fpAdd_of_numbers ha (by rwa [Fmt.negate_isNaN]), Fmt.negate_isInf, Fmt.negate_isZero, Fmt.negate_sign,
    Fmt.negate_val, ← sub_eq_add_neg]

theorem fpMul_of_numbers : fpMul fmt rm a b =
    if (fmt.isInf a && fmt.isZero b) || (fmt.isZero a && fmt.isInf b) then (fmt.cNaN, flagNV)
    else if fmt.isInf a || fmt.isInf b then (fmt.inf (fmt.sign a != fmt.sign b), 0)
    else roundFmt fmt rm (fmt.val a * fmt.val b) (fmt.sign a != fmt.sign b) := by
  rw [fpMul, nanRule_pair_none ha hb]

theorem fpDiv_of_numbers : fpDiv fmt rm a b =
    if fmt.isInf a && fmt.isInf b then (fmt.cNaN, flagNV)
    else if fmt.isInf a then (fmt.inf (fmt.sign a != fmt.sign b), 0)
    else if fmt.isInf b then (fmt.zero (fmt.sign a != fmt.sign b), 0)
    else if fmt.isZero b && fmt.isZero a then (fmt.cNaN, flagNV)
    else if fmt.isZero b then (fmt.inf (fmt.sign a != fmt.sign b), flagDZ)
    else roundFmt fmt rm (fmt.val a / fmt.val b) (fmt.sign a != fmt.sign b) := by
  rw [fpDiv, nanRule_pair_none ha hb]

omit hb in
theorem fpSqrt_of_number : fpSqrt fmt rm a =
    if fmt.isZero a then (a, 0)
    else if fmt.sign a then (fmt.cNaN, flagNV)
    else if fmt.isInf a then (a, 0)
    else roundSqrt fmt rm (fmt.val a) := by
  rw [fpSqrt, nanRule_one_none ha]

theorem fpFma_of_numbers (hc : fmt.isNaN c = false) (np nc : Bool) : fpFma fmt rm a b c np nc =
    if (fmt.isInf a && fmt.isZero b) || (fmt.isZero a && fmt.isInf b) then (fmt.cNaN, flagNV)
    else if fmt.isInf a || fmt.isInf b then
      if fmt.isInf c && ((fmt.sign c != nc) != ((fmt.sign a != fmt.sign b) != np)) then (fmt.cNaN, flagNV)
      else (fmt.inf ((fmt.sign a != fmt.sign b) != np), 0)
    else if fmt.isInf c then (fmt.inf (fmt.sign c != nc), 0)
    else if (if np then -(fmt.val a * fmt.val b) else fmt.val a * fmt.val b) +
        (if nc then -fmt.val c else fmt.val c) = 0 then
      (if (fmt.isZero a || fmt.isZero b) && fmt.isZero c && (((fmt.sign a != fmt.sign b) != np) == (fmt.sign c != nc))
       then fmt.zero ((fmt.sign a != fmt.sign b) != np) else cancelZero fmt rm, 0)
    else roundFmt fmt rm ((if np then -(fmt.val a * fmt.val b) else fmt.val a * fmt.val b) +
      (if nc then -fmt.val c else fmt.val c)) false := by
  simp only [fpFma, ha, hb, hc, Bool.or_self, Bool.false_eq_true, if_false]

end Numbers

theorem Fmt.negate_of_isInf (h : fmt.isInf b = true) : fmt.negate b = fmt.inf (!fmt.sign b) := by
  rw [Fmt.isInf_eq (a := fmt.negate b) (by rwa [Fmt.negate_isInf]), Fmt.negate_sign]

/-- Settles O38: each operation tries the special operands in turn. -/
theorem specialOperands : Obligations.SpecialOperands := by
  intro fmt rm a b ha hb
  refine ⟨fun h h' => ?_, fun h h' => ?_, fun h h' => ?_, fun h h' => ?_, fun h h' => ?_, fun h hz h' => ?_,
    fun h => ?_, fun h h' => ?_, fun h h' => ?_, fun c np nc hc => ⟨fun h h' => ?_, fun h h' => ?_, fun h h' hi => ?_⟩⟩
  · rw [fpAdd_of_numbers ha hb, fpSub_of_numbers ha hb, fpDiv_of_numbers ha hb, h, h']
    cases fmt.sign a <;> cases fmt.sign b <;> simp
  · obtain ⟨-, hi⟩ := Fmt.isFinite_kind h'
    rw [fpAdd_of_numbers ha hb, fpSub_of_numbers ha hb, fpAdd_of_numbers hb ha, fpSub_of_numbers hb ha,
      fpDiv_of_numbers ha hb, fpDiv_of_numbers hb ha, Fmt.negate_of_isInf h, h, hi]
    simp
  · obtain ⟨-, hi, -⟩ := Fmt.isZero_kind h'
    rw [fpMul_of_numbers ha hb, fpMul_of_numbers hb ha, h, h']
    simp
  · obtain ⟨-, -, hz⟩ := Fmt.isInf_kind h
    rw [fpMul_of_numbers ha hb, fpMul_of_numbers hb ha, h, h', hz, bne_comm (a := fmt.sign b)]
    simp
  · obtain ⟨-, hi, -⟩ := Fmt.isZero_kind h
    obtain ⟨-, hi', -⟩ := Fmt.isZero_kind h'
    rw [fpDiv_of_numbers ha hb, h, h', hi, hi']
    simp
  · obtain ⟨-, hi⟩ := Fmt.isFinite_kind h
    obtain ⟨-, hi', -⟩ := Fmt.isZero_kind h'
    rw [fpDiv_of_numbers ha hb, h', hz, hi, hi']
    simp
  · rw [fpSqrt_of_number ha, if_pos h]
  · rw [fpSqrt_of_number ha, h, h']
    simp
  · obtain ⟨-, -, hz⟩ := Fmt.isInf_kind h
    rw [fpSqrt_of_number ha, h, h', hz]
    simp
  · rw [fpFma_of_numbers ha hb hc, fpFma_of_numbers hb ha hc, h, h']
    simp
  · obtain ⟨-, -, hz⟩ := Fmt.isInf_kind h
    rw [fpFma_of_numbers ha hb hc, fpFma_of_numbers hb ha hc, h, h', hz, bne_comm (a := fmt.sign b)]
    generalize ((fmt.sign a != fmt.sign b) != np) = ps
    generalize (fmt.sign c != nc) = cs
    cases ps <;> cases cs <;> simp
  · obtain ⟨-, hia⟩ := Fmt.isFinite_kind h
    obtain ⟨-, hib⟩ := Fmt.isFinite_kind h'
    rw [fpFma_of_numbers ha hb hc, hia, hib, hi]
    simp

/-! ## Exact zeros (R269) -/

theorem Fmt.val_eq_zero (h : fmt.isZero a = true) : fmt.val a = 0 :=
  (Fmt.val_eq_zero_iff (Fmt.isZero_kind h).2.2).2 h

theorem fma_sum_cast (np nc : Bool) : (if np then -(fmt.real a * fmt.real b) else fmt.real a * fmt.real b) +
      (if nc then -fmt.real c else fmt.real c) =
    (((if np then -(fmt.val a * fmt.val b) else fmt.val a * fmt.val b) +
      (if nc then -fmt.val c else fmt.val c) : Rat) : ℝ) := by
  cases np <;> cases nc <;> simp [Fmt.real]

/-- Settles O39: without an infinity the case of a zero result is the next one, and a product or quotient is zero where
an operand is. -/
theorem exactZeroSign : Obligations.ExactZeroSign := by
  intro fmt rm a b ha hb
  obtain ⟨hna, hia⟩ := Fmt.isFinite_kind ha
  obtain ⟨hnb, hib⟩ := Fmt.isFinite_kind hb
  refine ⟨fun h => ?_, fun h => ?_, fun h => ?_, fun h h' => ?_, fun c np nc hc h => ?_⟩
  · have h0 : fmt.val a + fmt.val b = 0 := by
      simp only [Fmt.real] at h
      exact_mod_cast h
    rw [fpAdd_of_numbers hna hnb, hia, hib, if_pos h0]
    simp [cancelZero, and_assoc]
  · have h0 : fmt.val a - fmt.val b = 0 := by
      simp only [Fmt.real] at h
      exact_mod_cast h
    rw [fpSub_of_numbers hna hnb, hia, hib, if_pos h0]
    simp [cancelZero, and_assoc, Bool.eq_not]
  · have h0 : fmt.val a * fmt.val b = 0 := by
      obtain h | h := h
      · rw [Fmt.val_eq_zero h, zero_mul]
      · rw [Fmt.val_eq_zero h, mul_zero]
    rw [fpMul_of_numbers hna hnb, hia, hib, h0]
    simp [roundFmt]
  · rw [fpDiv_of_numbers hna hnb, hia, hib, h', Fmt.val_eq_zero h, zero_div]
    simp [roundFmt]
  · obtain ⟨hnc, hic⟩ := Fmt.isFinite_kind hc
    rw [fma_sum_cast, Rat.cast_eq_zero] at h
    rw [fpFma_of_numbers hna hnb hnc, hia, hib, hic, if_pos h]
    simp [cancelZero, and_assoc]

/-! ## The integer part (R310) -/

/-- Settles O44: the integer of the statement is `ratTrunc` of the value. -/
theorem fpToIntegerValues : Obligations.FpToIntegerValues := by
  refine ⟨by decide, fun fmt ty a => ⟨fun h => if_pos h, fun h => ?_, fun h => ?_⟩⟩
  · rw [fpToInt, if_neg (by simp [(Fmt.isInf_kind h).1]), if_pos h]
  · obtain ⟨hn, hi⟩ := Fmt.isFinite_kind h
    obtain ⟨hle, hlt, hsign⟩ := ratTrunc_spec (fmt.val a)
    refine ⟨ratTrunc (fmt.val a), ?_, ?_, ?_, ?_⟩
    · simp only [Fmt.real]
      exact_mod_cast hle
    · simp only [Fmt.real]
      exact_mod_cast hlt
    · simp only [Fmt.real]
      exact_mod_cast hsign
    rw [fpToInt, if_neg (by simp [hn]), if_neg (by simp [hi])]
    simp only [eq_comm]

/-! ## Comparisons (R313) -/

/-- Settles O46: the comparisons go by the kinds of the operands. -/
theorem compareValues : Obligations.CompareValues := by
  refine fun fmt a b => ⟨fun h h' => ?_, fun h h' => ?_, fun h h' => ?_, fun h => ?_⟩
  · obtain ⟨hna, hia⟩ := Fmt.isFinite_kind h
    obtain ⟨hnb, hib⟩ := Fmt.isFinite_kind h'
    simp [fpCompare, Fmt.same, Fmt.less, hna, hia, hnb, hib, le_iff_lt_or_eq]
  · obtain ⟨hna, -, -⟩ := Fmt.isInf_kind h
    obtain ⟨hnb, hib⟩ := Fmt.isFinite_kind h'
    simp [fpCompare, Fmt.same, Fmt.less, h, hna, hnb, hib]
  · obtain ⟨hna, -, -⟩ := Fmt.isInf_kind h
    obtain ⟨hnb, -, -⟩ := Fmt.isInf_kind h'
    simp only [fpCompare, Fmt.same, Fmt.less, h, h', hna, hnb]
    cases fmt.sign a <;> cases fmt.sign b <;> simp
  · have hn : (fmt.isNaN a || fmt.isNaN b) = true := by simpa only [Bool.or_eq_true] using h
    simp [fpCompare, hn]

/-! ## Minimum and maximum (R275) -/

/-- Two numbers that are not both zero and spell one value are one pattern. -/
theorem Fmt.eq_of_val_eq (ha : fmt.isFinite a = true) (hz : fmt.isZero a = false) (h : fmt.val a = fmt.val b) :
    a = b := by
  have h0 : fmt.mag a ≠ 0 := by
    rw [← fmt.abs_val, ne_eq, abs_eq_zero, Fmt.val_eq_zero_iff ha, hz]
    exact Bool.false_ne_true
  have hmag : fmt.mag a = fmt.mag b := by rw [← fmt.abs_val, ← fmt.abs_val, h]
  refine fmt.eq_of_mag ?_ hmag
  rw [Fmt.val, Fmt.val, ← hmag] at h
  cases hs : fmt.sign a <;> cases hs' : fmt.sign b <;> simp only [hs, hs', if_true, Bool.false_eq_true, if_false] at h ⊢
  · exact absurd (self_eq_neg.1 h) h0
  · exact absurd (neg_eq_self.1 h) h0

section MinMax

variable (ha : fmt.isFinite a = true) (hb : fmt.isFinite b = true)
include ha hb

theorem Fmt.less_of_finite : fmt.less a b = decide (fmt.val a < fmt.val b) := by
  obtain ⟨-, hia⟩ := Fmt.isFinite_kind ha
  obtain ⟨-, hib⟩ := Fmt.isFinite_kind hb
  simp [Fmt.less, hia, hib]

/-- Of two finite operands in order, -0 below +0, the smaller and the larger, in either order. -/
theorem fpMinMax_of_le (hle : fmt.val a ≤ fmt.val b)
    (hz : fmt.isZero a = true → fmt.isZero b = true → fmt.sign b = true → fmt.sign a = true) :
    fpMin fmt a b = (a, 0) ∧ fpMin fmt b a = (a, 0) ∧ fpMax fmt a b = (b, 0) ∧ fpMax fmt b a = (b, 0) := by
  obtain ⟨hna, -⟩ := Fmt.isFinite_kind ha
  obtain ⟨hnb, -⟩ := Fmt.isFinite_kind hb
  rw [fpMin, fpMin, fpMax, fpMax, fpMinMax_of_numbers hna hnb, fpMinMax_of_numbers hna hnb,
    fpMinMax_of_numbers hnb hna, fpMinMax_of_numbers hnb hna, Fmt.less_of_finite ha hb, Fmt.less_of_finite hb ha,
    decide_eq_false hle.not_gt, Bool.and_comm (fmt.isZero b)]
  by_cases hzz : fmt.isZero a = true ∧ fmt.isZero b = true
  · obtain ⟨hza, hzb⟩ := hzz
    have hs := hz hza hzb
    have hmin : (fmt.sign a || fmt.sign b) = fmt.sign a := by cases h : fmt.sign b <;> simp_all
    have hmax : (fmt.sign a && fmt.sign b) = fmt.sign b := by cases h : fmt.sign b <;> simp_all
    rw [Bool.or_comm (fmt.sign b), Bool.and_comm (fmt.sign b), hmin, hmax, ← Fmt.isZero_eq hza, ← Fmt.isZero_eq hzb]
    simp [hza, hzb]
  · have hand : (fmt.isZero a && fmt.isZero b) = false := by simpa using hzz
    rw [hand]
    obtain hlt | heq := hle.lt_or_eq
    · simp [hlt]
    · have hab : a = b := by
        cases hza : fmt.isZero a with
        | false => exact Fmt.eq_of_val_eq ha hza heq
        | true =>
          rw [hza, Bool.true_and] at hand
          exact (Fmt.eq_of_val_eq hb hand heq.symm).symm
      simp [hab]

end MinMax

/-- Settles O47: the kinds of the operands, and for two finite ones their order. -/
theorem minMaxValues : Obligations.MinMaxValues := by
  refine fun fmt a b => ⟨fun h h' => ?_, fun h h' => ?_, fun h h' hle hz => ?_, fun h h' => ?_⟩
  · simp [fpMin, fpMax, fpMinMax, h, h']
  · have hs := Fmt.isSNaN_of_not_isNaN h'
    simp [fpMin, fpMax, fpMinMax, h, h', hs]
  · simp only [Fmt.real] at hle
    exact fpMinMax_of_le h h' (by exact_mod_cast hle) hz
  · obtain ⟨hna, -, hza⟩ := Fmt.isInf_kind h
    simp only [fpMin, fpMax, fpMinMax_of_numbers hna h', fpMinMax_of_numbers h' hna, hza, Bool.false_and,
      Bool.and_false, Bool.false_eq_true, if_false, Fmt.less, h, Bool.true_and, Bool.and_true, if_true]
    cases hib : fmt.isInf b with
    | false => cases fmt.sign a <;> simp
    | true =>
      by_cases hs : fmt.sign a = fmt.sign b
      · have hab : a = b := by rw [Fmt.isInf_eq h, Fmt.isInf_eq hib, hs]
        simp [hab]
      · rw [Bool.eq_not.2 (Ne.symm hs)]
        cases fmt.sign a <;> simp

end Sys2Proof.Machine
end

section
/-! PROOFS. Rounding (spec/44_fp_arith.md R266 to R268, R273): when a rounding overflows and when it is tiny, that
arithmetic rounds its exact result once, the exactness of the square root, and of widening
(spec/45_fp_convert_compare.md R312). -/

namespace Sys2Proof.Machine

variable {fmt : Fmt} {rm : RoundingMode} {r v q : Rat} {zs : Bool} {a b c : BitVec fmt.width}

/-! ## What reaches a power of two -/

theorem Fmt.reaches_of_le {e : Int} (h : (2 : Rat) ^ e ≤ |r|) : fmt.reaches rm r e := by
  have h1 : (0 : Rat) < 2 ^ (e - 1 - fmt.fracBits) := by positivity
  have h2 : (0 : Rat) < 2 ^ (e - 2 - fmt.fracBits) := by positivity
  unfold Fmt.reaches
  cases rm with
  | rne | rmm => exact (sub_le_self _ h2.le).trans h
  | rtz => exact h
  | rdn =>
    dsimp only
    split
    · exact (sub_lt_self _ h1).trans_le h
    · exact h
  | rup =>
    dsimp only
    split
    · exact h
    · exact (sub_lt_self _ h1).trans_le h

/-- A magnitude of that precision below the power of two does not reach it. -/
theorem Fmt.not_reaches_of_le {e : Int} (h : |r| ≤ (2 : Rat) ^ e - (2 : Rat) ^ (e - 1 - fmt.fracBits)) :
    ¬fmt.reaches rm r e := by
  have h1 : (0 : Rat) < 2 ^ (e - 1 - fmt.fracBits) := by positivity
  have h2 : (2 : Rat) ^ (e - 2 - fmt.fracBits) < 2 ^ (e - 1 - fmt.fracBits) :=
    zpow_lt_zpow_right₀ (by norm_num) (by omega)
  have hlt : |r| < (2 : Rat) ^ e := h.trans_lt (sub_lt_self _ h1)
  unfold Fmt.reaches
  cases rm with
  | rne | rmm => exact (h.trans_lt (sub_lt_sub_left h2 _)).not_ge
  | rtz => exact hlt.not_ge
  | rdn =>
    dsimp only
    split
    · exact h.not_gt
    · exact hlt.not_ge
  | rup =>
    dsimp only
    split
    · exact hlt.not_ge
    · exact h.not_gt

theorem Fmt.reaches_mono (hr : r ≠ 0) {e e' : Int} (he : e ≤ e') (h : fmt.reaches rm r e') : fmt.reaches rm r e :=
  (rint_reaches fmt rm hr e).1 ((zpow_le_zpow_right₀ (by norm_num) he).trans ((rint_reaches fmt rm hr e').2 h))

/-- No magnitude of a finite value reaches the bound of overflow. -/
theorem Fmt.mag_le_maxFin (ha : fmt.isFinite a = true) :
    fmt.mag a ≤ (2 : Rat) ^ (fmt.emax + 1) - (2 : Rat) ^ (fmt.emax + 1 - 1 - fmt.fracBits) := by
  obtain ⟨j, x, hmag, hj, -, hx, -⟩ := fmt.mag_form a ha
  have hj' : (j : Rat) ≤ 2 ^ (fmt.fracBits + 1) - 1 := by
    rw [le_sub_iff_add_le]
    exact_mod_cast hj
  have htop : (2 : Rat) ^ (fmt.emax + 1) = 2 ^ (fmt.fracBits + 1) * 2 ^ (fmt.emax - fmt.fracBits) := by
    rw [← zpow_natCast, ← zpow_add₀ (by norm_num)]
    congr 1
    push_cast
    ring
  rw [hmag, add_sub_cancel_right, htop, ← sub_one_mul]
  have hone : (0 : Rat) ≤ 2 ^ (fmt.fracBits + 1) - 1 := (Nat.cast_nonneg j).trans hj'
  gcongr
  norm_num

/-! ## The parts of a rounding -/

/-- The magnitude of a rational rounded to the scale of the format: `res` of `round_fmt` (R266). -/
def roundedMag (fmt : Fmt) (rm : RoundingMode) (r : Rat) : Rat :=
  (rint rm (decide (r < 0)) (|r| / (2 : Rat) ^ (max (floorLog2 |r|) fmt.emin - fmt.fracBits)) : Rat) *
    (2 : Rat) ^ (max (floorLog2 |r|) fmt.emin - fmt.fracBits)

/-- Whether it stays below 2^emin at the scale of an unbounded exponent (R268). -/
def tinyMag (fmt : Fmt) (rm : RoundingMode) (r : Rat) : Bool :=
  decide ((rint rm (decide (r < 0)) (|r| / (2 : Rat) ^ (floorLog2 |r| - fmt.fracBits)) : Rat) *
    (2 : Rat) ^ (floorLog2 |r| - fmt.fracBits) < (2 : Rat) ^ fmt.emin)

theorem roundFmt_eq_ite (hr : r ≠ 0) : roundFmt fmt rm r zs =
    if (2 : Rat) ^ (fmt.emax + 1) ≤ roundedMag fmt rm r then overflowResult fmt rm (decide (r < 0))
    else (packMag fmt (decide (r < 0)) (roundedMag fmt rm r),
      (if decide (roundedMag fmt rm r ≠ |r|) then flagNX else 0) |||
        (if tinyMag fmt rm r && decide (roundedMag fmt rm r ≠ |r|) then flagUF else 0)) := by
  have hm : (if decide (r < 0) = true then -r else r) = |r| := by
    obtain h | h := lt_or_gt_of_ne hr
    · simp [h, abs_of_neg h]
    · simp [h.not_gt, abs_of_pos h]
  simp only [roundFmt, if_neg hr, hm, pow2_eq]
  rfl

theorem tinyMag_eq_true_iff (hr : r ≠ 0) : tinyMag fmt rm r = true ↔ ¬fmt.reaches rm r fmt.emin := by
  rw [← rint_reaches fmt rm hr, not_le]
  exact decide_eq_true_iff

/-- Below 2^emin the scale is that of 2^emin, and nothing is rounded past it. -/
theorem roundedMag_le_of_lt (hr : r ≠ 0) (h : |r| < (2 : Rat) ^ fmt.emin) :
    roundedMag fmt rm r ≤ (2 : Rat) ^ fmt.emin := by
  have he : floorLog2 |r| < fmt.emin :=
    (zpow_lt_zpow_iff_right₀ (by norm_num)).1 ((floorLog2_spec (abs_pos.2 hr)).1.trans_lt h)
  rw [roundedMag, max_eq_right he.le]
  set q := (2 : Rat) ^ (fmt.emin - fmt.fracBits) with hq
  have hmin : (2 : Rat) ^ fmt.emin = ((2 ^ fmt.fracBits : Nat) : Rat) * q := by
    rw [hq, Nat.cast_pow, ← zpow_natCast, Nat.cast_ofNat, ← zpow_add₀ (by norm_num)]
    congr 1
    ring
  have hfloor : (|r| / q).floor.toNat < 2 ^ fmt.fracBits := by
    change ⌊|r| / q⌋.toNat < _
    rw [Int.floor_toNat, Nat.floor_lt (by positivity), div_lt_iff₀ (by positivity), ← hmin]
    exact h
  have hint : rint rm (decide (r < 0)) (|r| / q) ≤ 2 ^ fmt.fracBits := by
    obtain h | h := rint_or rm (decide (r < 0)) (|r| / q) <;> omega
  rw [hmin]
  gcongr

theorem overflow_iff (hr : r ≠ 0) :
    (2 : Rat) ^ (fmt.emax + 1) ≤ roundedMag fmt rm r ↔ fmt.reaches rm r (fmt.emax + 1) := by
  have hmin : (2 : Rat) ^ fmt.emin < 2 ^ (fmt.emax + 1) :=
    zpow_lt_zpow_right₀ (by norm_num) (Int.lt_add_one_of_le fmt.emin_le_emax)
  obtain he | he := le_or_gt fmt.emin (floorLog2 |r|)
  · rw [roundedMag, max_eq_left he]
    exact rint_reaches fmt rm hr _
  · have hlt : |r| < (2 : Rat) ^ fmt.emin :=
      (floorLog2_spec (abs_pos.2 hr)).2.trans_le (zpow_le_zpow_right₀ (by norm_num) he)
    have hmax : (2 : Rat) ^ fmt.emin ≤ 2 ^ (fmt.emax + 1) - 2 ^ (fmt.emax + 1 - 1 - fmt.fracBits) := by
      have h1 : (2 : Rat) ^ fmt.emin ≤ 2 ^ fmt.emax := zpow_le_zpow_right₀ (by norm_num) fmt.emin_le_emax
      have h2 : (2 : Rat) ^ (fmt.emax + 1 - 1 - fmt.fracBits) ≤ 2 ^ fmt.emax :=
        zpow_le_zpow_right₀ (by norm_num) (by omega)
      rw [zpow_add_one₀ (by norm_num)]
      linarith
    exact iff_of_false ((roundedMag_le_of_lt hr hlt).trans_lt hmin).not_ge
      (Fmt.not_reaches_of_le (hlt.le.trans hmax))

theorem roundFmt_of_reaches (hr : r ≠ 0) (h : fmt.reaches rm r (fmt.emax + 1)) :
    roundFmt fmt rm r zs = overflowResult fmt rm (decide (r < 0)) := by
  rw [roundFmt_eq_ite hr, if_pos ((overflow_iff hr).2 h)]

/-- Without overflow the flags say whether the value is exact and, where it is not, whether it is tiny. -/
theorem roundFmt_flags_of_not_reaches (hr : r ≠ 0) (h : ¬fmt.reaches rm r (fmt.emax + 1)) :
    ((roundFmt fmt rm r zs).2 = 0 ∧ fmt.val (roundFmt fmt rm r zs).1 = r) ∨
    ((roundFmt fmt rm r zs).2 = flagNX ∧ fmt.val (roundFmt fmt rm r zs).1 ≠ r ∧ fmt.reaches rm r fmt.emin) ∨
    ((roundFmt fmt rm r zs).2 = flagUF ||| flagNX ∧ fmt.val (roundFmt fmt rm r zs).1 ≠ r ∧
      ¬fmt.reaches rm r fmt.emin) := by
  have hflags : (roundFmt fmt rm r zs).2 = (if decide (roundedMag fmt rm r ≠ |r|) then flagNX else 0) |||
      (if tinyMag fmt rm r && decide (roundedMag fmt rm r ≠ |r|) then flagUF else 0) := by
    rw [roundFmt_eq_ite hr, if_neg ((overflow_iff hr).not.2 h)]
  have hno : (roundFmt fmt rm r zs).2 &&& flagOF = 0 := by
    rw [hflags]
    cases tinyMag fmt rm r <;> cases decide (roundedMag fmt rm r ≠ |r|) <;> decide
  obtain ⟨-, -, -, hexact⟩ := roundFmt_value fmt rm hr zs hno
  have htiny := tinyMag_eq_true_iff (fmt := fmt) (rm := rm) hr
  cases hd : decide (roundedMag fmt rm r ≠ |r|) with
  | false =>
    have h0 : (roundFmt fmt rm r zs).2 = 0 := by simp [hflags, hd]
    exact .inl ⟨h0, hexact.1 h0⟩
  | true =>
    rw [hd, Bool.and_true, if_pos rfl] at hflags
    cases ht : tinyMag fmt rm r with
    | false =>
      have hNX : (roundFmt fmt rm r zs).2 = flagNX := by rw [hflags, ht]; rfl
      refine .inr (.inl ⟨hNX, hexact.not.1 (by rw [hNX]; decide), ?_⟩)
      exact not_not.1 (htiny.not.1 (by rw [ht]; decide))
    | true =>
      have hUF : (roundFmt fmt rm r zs).2 = flagUF ||| flagNX := by rw [hflags, ht]; rfl
      exact .inr (.inr ⟨hUF, hexact.not.1 (by rw [hUF]; decide), htiny.1 ht⟩)

/-! ## Rounding flags and overflow -/

theorem overflowResult_snd (s : Bool) : (overflowResult fmt rm s).2 = flagOF ||| flagNX := rfl

theorem overflowResult_fst (hr : r ≠ 0) : (overflowResult fmt rm (decide (r < 0))).1 =
    if rm = .rne ∨ rm = .rmm ∨ (rm = .rup ∧ 0 < r) ∨ (rm = .rdn ∧ r < 0) then fmt.inf (decide (r < 0))
    else fmt.maxFin (decide (r < 0)) := by
  obtain h | h := lt_or_gt_of_ne hr
  · cases rm <;> simp [overflowResult, h, h.not_gt]
  · cases rm <;> simp [overflowResult, h, h.not_gt]

theorem roundFmt_not_overflow (hr : r ≠ 0) (h : ¬fmt.reaches rm r (fmt.emax + 1)) :
    (roundFmt fmt rm r zs).2 &&& flagOF = 0 := by
  obtain ⟨h, -⟩ | ⟨h, -⟩ | ⟨h, -⟩ := roundFmt_flags_of_not_reaches (zs := zs) hr h
  all_goals rw [h]; decide

theorem real_eq_cast_iff (u : BitVec fmt.width) : fmt.real u = (r : ℝ) ↔ fmt.val u = r := Rat.cast_inj

/-- Settles O41: the three parts are laws of `roundFmt`. -/
theorem roundingFlags : Obligations.RoundingFlags := by
  refine fun fmt rm r zs hr => ⟨fun h => ?_, fun u hu hval => ?_, roundFmt_rounded fmt rm hr zs⟩
  · rw [real_eq_cast_iff]
    exact roundFmt_value fmt rm hr zs h
  · subst hval
    exact roundFmt_self fmt rm hu hr zs

/-- Settles O43: the overflow case is what reaches the bound. -/
theorem overflowResults : Obligations.OverflowResults := by
  refine fun fmt rm r zs hr => ⟨⟨fun h => ?_, fun h => ?_⟩, fun h => ?_, Fmt.reaches_of_le, fun u hu hle => ?_⟩
  · by_contra hn
    exact h (roundFmt_not_overflow hr hn)
  · rw [roundFmt_of_reaches hr h, overflowResult_snd]
    decide
  · rw [roundFmt_of_reaches hr h]
    exact ⟨rfl, overflowResult_fst hr⟩
  · exact roundFmt_not_overflow hr
      (Fmt.not_reaches_of_le (hle.trans ((fmt.abs_val u).trans_le (Fmt.mag_le_maxFin hu))))

/-- UF is raised exactly when the value is inexact and tiny, and then with NX alone. -/
theorem roundFmt_underflow (hr : r ≠ 0) :
    ((roundFmt fmt rm r zs).2 &&& flagUF ≠ 0 ↔
      ¬fmt.reaches rm r fmt.emin ∧ fmt.val (roundFmt fmt rm r zs).1 ≠ r) ∧
    (¬fmt.reaches rm r fmt.emin → (roundFmt fmt rm r zs).2 ≠ 0 → (roundFmt fmt rm r zs).2 = flagUF ||| flagNX) := by
  have hle : fmt.emin ≤ fmt.emax + 1 := Int.le_add_one fmt.emin_le_emax
  by_cases h : fmt.reaches rm r (fmt.emax + 1)
  · have hmin := Fmt.reaches_mono hr hle h
    rw [roundFmt_of_reaches hr h, overflowResult_snd]
    exact ⟨iff_of_false (by decide) fun hn => hn.1 hmin, fun hn => absurd hmin hn⟩
  · obtain ⟨hf, hv⟩ | ⟨hf, -, hmin⟩ | ⟨hf, hv, hmin⟩ := roundFmt_flags_of_not_reaches (zs := zs) hr h
    · exact ⟨iff_of_false (by rw [hf]; decide) fun hn => hn.2 hv, fun _ h0 => absurd hf h0⟩
    · exact ⟨iff_of_false (by rw [hf]; decide) fun hn => hn.1 hmin, fun hn => absurd hmin hn⟩
    · exact ⟨iff_of_true (by rw [hf]; decide) ⟨hmin, hv⟩, fun _ _ => hf⟩

/-- Settles O42: tininess is not reaching 2^emin, which the bounds of the first two parts decide. -/
theorem underflowFlag : Obligations.UnderflowFlag := by
  intro fmt rm r zs hr
  obtain ⟨hiff, hflags⟩ := roundFmt_underflow (fmt := fmt) (rm := rm) (zs := zs) hr
  refine ⟨fun h => ⟨?_, ?_⟩, fun h => hflags (Fmt.not_reaches_of_le h), ?_⟩
  · by_contra hge
    exact (hiff.1 h).1 (Fmt.reaches_of_le (not_lt.1 hge))
  · refine hflags (hiff.1 h).1 fun h0 => h ?_
    rw [h0]
    decide
  · rw [ne_eq (fmt.real _), real_eq_cast_iff]
    exact hiff

/-! ## Arithmetic on finite operands -/

theorem Fmt.sign_eq_decide (h0 : fmt.val a ≠ 0) : fmt.sign a = decide (fmt.val a < 0) := by
  have hm : 0 < fmt.mag a := by
    rw [← fmt.abs_val]
    exact abs_pos.2 h0
  rw [Fmt.val]
  cases fmt.sign a <;> simp [hm, hm.le]

theorem roundFmt_zs (hr : r ≠ 0) (zs zs' : Bool) : roundFmt fmt rm r zs = roundFmt fmt rm r zs' := by
  rw [roundFmt_eq_ite hr, roundFmt_eq_ite hr]

section Arithmetic

variable (ha : fmt.isFinite a = true) (hb : fmt.isFinite b = true)
include ha hb

theorem fpAdd_eq_roundFmt (h : fmt.val a + fmt.val b ≠ 0) (zs : Bool) :
    fpAdd fmt rm a b = roundFmt fmt rm (fmt.val a + fmt.val b) zs := by
  obtain ⟨hna, hia⟩ := Fmt.isFinite_kind ha
  obtain ⟨hnb, hib⟩ := Fmt.isFinite_kind hb
  rw [fpAdd_of_numbers hna hnb, hia, hib, if_neg h, roundFmt_zs h zs]
  rfl

theorem fpSub_eq_roundFmt (h : fmt.val a - fmt.val b ≠ 0) (zs : Bool) :
    fpSub fmt rm a b = roundFmt fmt rm (fmt.val a - fmt.val b) zs := by
  obtain ⟨hna, hia⟩ := Fmt.isFinite_kind ha
  obtain ⟨hnb, hib⟩ := Fmt.isFinite_kind hb
  rw [fpSub_of_numbers hna hnb, hia, hib, if_neg h, roundFmt_zs h zs]
  rfl

theorem fpMul_eq_roundFmt (h : fmt.val a * fmt.val b ≠ 0) (zs : Bool) :
    fpMul fmt rm a b = roundFmt fmt rm (fmt.val a * fmt.val b) zs := by
  obtain ⟨hna, hia⟩ := Fmt.isFinite_kind ha
  obtain ⟨hnb, hib⟩ := Fmt.isFinite_kind hb
  rw [fpMul_of_numbers hna hnb, hia, hib, Bool.false_and, Bool.and_false, roundFmt_zs h zs]
  rfl

theorem fpDiv_eq_roundFmt (h : fmt.val a ≠ 0) (h' : fmt.val b ≠ 0) (zs : Bool) :
    fpDiv fmt rm a b = roundFmt fmt rm (fmt.val a / fmt.val b) zs := by
  obtain ⟨hna, hia⟩ := Fmt.isFinite_kind ha
  obtain ⟨hnb, hib⟩ := Fmt.isFinite_kind hb
  have hz : fmt.isZero b = false := Bool.eq_false_iff.2 ((Fmt.val_eq_zero_iff hb).not.1 h')
  rw [fpDiv_of_numbers hna hnb, hia, hib, hz, roundFmt_zs (div_ne_zero h h') zs]
  rfl

theorem fpFma_eq_roundFmt (hc : fmt.isFinite c = true) {np nc : Bool}
    (h : (if np then -(fmt.val a * fmt.val b) else fmt.val a * fmt.val b) +
      (if nc then -fmt.val c else fmt.val c) ≠ 0) (zs : Bool) :
    fpFma fmt rm a b c np nc = roundFmt fmt rm
      ((if np then -(fmt.val a * fmt.val b) else fmt.val a * fmt.val b) +
        (if nc then -fmt.val c else fmt.val c)) zs := by
  obtain ⟨hna, hia⟩ := Fmt.isFinite_kind ha
  obtain ⟨hnb, hib⟩ := Fmt.isFinite_kind hb
  obtain ⟨hnc, hic⟩ := Fmt.isFinite_kind hc
  rw [fpFma_of_numbers hna hnb hnc, hia, hib, hic, Bool.false_and, Bool.and_false, if_neg h, roundFmt_zs h zs]
  rfl

end Arithmetic

/-- A result that is the rounding of a rational is, where it is finite, that number correctly rounded. -/
theorem rounded_of_eq_roundFmt {p : BitVec fmt.width × Flags} {x : ℝ} (hx : x = (r : ℝ)) (h0 : x ≠ 0)
    (hp : r ≠ 0 → p = roundFmt fmt rm r false) (hfin : fmt.isFinite p.1 = true) : Rounded fmt rm x p.1 := by
  subst hx
  have hr : r ≠ 0 := fun h => h0 (by rw [h, Rat.cast_zero])
  rw [hp hr] at hfin ⊢
  exact roundFmt_rounded fmt rm hr false hfin

/-! ## The square root -/

section Root

/-- The weight of the last bit of a root, and the whole number of them below it (R273). -/
def rootUnit (fmt : Fmt) (v : Rat) : Rat := (2 : Rat) ^ (floorLog2 v / 2 - fmt.fracBits)

def rootFloor (fmt : Fmt) (v : Rat) : Nat := isqrt (v / (rootUnit fmt v * rootUnit fmt v)).floor.toNat

theorem rootUnit_pos : 0 < rootUnit fmt v := zpow_pos (by norm_num) _

/-- Where the root lies above that whole number. -/
def rootTail (fmt : Fmt) (v : Rat) : Tail :=
  if (rootFloor fmt v : Rat) * rootUnit fmt v * (rootFloor fmt v * rootUnit fmt v) = v then .exact
  else if v < ((rootFloor fmt v : Rat) + 1 / 2) * rootUnit fmt v * ((rootFloor fmt v + 1 / 2) * rootUnit fmt v) then
    .below
  else if v = ((rootFloor fmt v : Rat) + 1 / 2) * rootUnit fmt v * ((rootFloor fmt v + 1 / 2) * rootUnit fmt v) then
    .half
  else .above

theorem roundSqrt_eq : roundSqrt fmt rm v =
    (packMag fmt false ((roundTail rm false (rootFloor fmt v) (rootTail fmt v) : Rat) * rootUnit fmt v),
      if rootTail fmt v = .exact then 0 else flagNX) := by
  simp only [roundSqrt, pow2_eq]
  rfl

theorem rootTail_eq_exact_iff : rootTail fmt v = .exact ↔
    (rootFloor fmt v : Rat) * rootUnit fmt v * (rootFloor fmt v * rootUnit fmt v) = v := by
  unfold rootTail
  split_ifs with h
  · exact iff_of_true rfl h
  all_goals exact iff_of_false nofun h

theorem rootFloor_spec (hv : 0 < v) :
    (rootFloor fmt v : Rat) * rootUnit fmt v * (rootFloor fmt v * rootUnit fmt v) ≤ v ∧
    v < ((rootFloor fmt v : Rat) + 1) * rootUnit fmt v * ((rootFloor fmt v + 1) * rootUnit fmt v) := by
  have hu := rootUnit_pos (fmt := fmt) (v := v)
  have hpos : 0 < rootUnit fmt v * rootUnit fmt v := mul_pos hu hu
  obtain ⟨hle, hlt⟩ := isqrt_spec (v / (rootUnit fmt v * rootUnit fmt v)).floor.toNat
  change rootFloor fmt v * rootFloor fmt v ≤ ⌊v / (rootUnit fmt v * rootUnit fmt v)⌋.toNat at hle
  change ⌊v / (rootUnit fmt v * rootUnit fmt v)⌋.toNat < (rootFloor fmt v + 1) * (rootFloor fmt v + 1) at hlt
  rw [Int.floor_toNat, Nat.le_floor_iff (by positivity), le_div_iff₀ hpos] at hle
  rw [Int.floor_toNat, Nat.floor_lt (by positivity), div_lt_iff₀ hpos] at hlt
  push_cast at hle hlt
  exact ⟨by linarith, by linarith⟩

/-- Twice the exponent of the root is the exponent of the radicand, rounded down to even. -/
theorem rootUnit_scale (hv : 0 < v) :
    2 ^ fmt.fracBits * rootUnit fmt v * (2 ^ fmt.fracBits * rootUnit fmt v) ≤ v ∧
    v < 2 ^ (fmt.fracBits + 1) * rootUnit fmt v * (2 ^ (fmt.fracBits + 1) * rootUnit fmt v) := by
  obtain ⟨hle, hlt⟩ := floorLog2_spec hv
  have hsq (n : Nat) : (2 : Rat) ^ n * rootUnit fmt v * (2 ^ n * rootUnit fmt v) =
      2 ^ (2 * (n + (floorLog2 v / 2 - fmt.fracBits))) := by
    rw [rootUnit, ← zpow_natCast, ← zpow_add₀ (by norm_num), ← zpow_add₀ (by norm_num), two_mul]
  rw [hsq, hsq]
  exact ⟨(zpow_le_zpow_right₀ (by norm_num) (by omega)).trans hle,
    hlt.trans_le (zpow_le_zpow_right₀ (by norm_num) (by push_cast; omega))⟩

/-- The whole number below a root has all the bits of the precision. -/
theorem rootFloor_range (hv : 0 < v) :
    2 ^ fmt.fracBits ≤ rootFloor fmt v ∧ rootFloor fmt v < 2 ^ (fmt.fracBits + 1) := by
  have hu := rootUnit_pos (fmt := fmt) (v := v)
  obtain ⟨hlo, hhi⟩ := rootFloor_spec (fmt := fmt) hv
  obtain ⟨hs, hs'⟩ := rootUnit_scale (fmt := fmt) hv
  have h1 := (mul_self_lt_mul_self_iff (by positivity) (by positivity)).2 (hs.trans_lt hhi)
  have h2 := (mul_self_lt_mul_self_iff (by positivity) (by positivity)).2 (hlo.trans_lt hs')
  rw [mul_lt_mul_iff_left₀ hu] at h1 h2
  exact ⟨Nat.lt_add_one_iff.1 (by exact_mod_cast h1), by exact_mod_cast h2⟩

/-- The root of a positive finite value is a normal number of the format. -/
theorem rootExp_range (ha : fmt.isFinite a = true) (hpos : 0 < fmt.val a) :
    fmt.emin ≤ floorLog2 (fmt.val a) / 2 ∧ floorLog2 (fmt.val a) / 2 < fmt.emax := by
  obtain ⟨hlow, htop⟩ := finite_pos_range fmt ha hpos
  obtain ⟨hle, hlt⟩ := floorLog2_spec hpos
  have h1 := (zpow_lt_zpow_iff_right₀ (by norm_num : (1 : Rat) < 2)).1 (hlow.trans_lt hlt)
  have h2 := (zpow_lt_zpow_iff_right₀ (by norm_num : (1 : Rat) < 2)).1 (hle.trans_lt htop)
  have hb : 2 * fmt.emin ≤ fmt.emin - fmt.fracBits ∧ 0 < fmt.emax := by cases fmt <;> decide
  omega

/-- The root is packed with sign + and the magnitude its tail chose. -/
theorem packMag_root (ha : fmt.isFinite a = true) (hpos : 0 < fmt.val a) (t : Tail) :
    fmt.sign (packMag fmt false ((roundTail rm false (rootFloor fmt (fmt.val a)) t : Rat) * rootUnit fmt (fmt.val a))) =
      false ∧
    fmt.mag (packMag fmt false ((roundTail rm false (rootFloor fmt (fmt.val a)) t : Rat) * rootUnit fmt (fmt.val a))) =
      (roundTail rm false (rootFloor fmt (fmt.val a)) t : Rat) * rootUnit fmt (fmt.val a) := by
  obtain ⟨hmin, hmax⟩ := rootExp_range ha hpos
  obtain ⟨hk, hk'⟩ := rootFloor_range (fmt := fmt) hpos
  have hor := roundTail_or rm false (rootFloor fmt (fmt.val a)) t
  have hle : roundTail rm false (rootFloor fmt (fmt.val a)) t ≤ 2 ^ (fmt.fracBits + 1) := by omega
  have htop : (roundTail rm false (rootFloor fmt (fmt.val a)) t : Rat) * rootUnit fmt (fmt.val a) <
      2 ^ (fmt.emax + 1) := by
    calc (roundTail rm false (rootFloor fmt (fmt.val a)) t : Rat) * rootUnit fmt (fmt.val a)
      _ ≤ ((2 ^ (fmt.fracBits + 1) : Nat) : Rat) * rootUnit fmt (fmt.val a) := by
        have := rootUnit_pos (fmt := fmt) (v := fmt.val a)
        gcongr
      _ = 2 ^ (floorLog2 (fmt.val a) / 2 + 1) := by
        rw [rootUnit, Nat.cast_pow, Nat.cast_ofNat, ← zpow_natCast, ← zpow_add₀ (by norm_num)]
        congr 1
        push_cast
        ring
      _ < 2 ^ (fmt.emax + 1) := zpow_lt_zpow_right₀ (by norm_num) (by omega)
  obtain ⟨-, hsign, hmag, -⟩ := packMag_spec fmt false hmin hle (fun _ => by omega) htop
  exact ⟨hsign, hmag⟩

/-- A root has sign +, raises NX or nothing, and nothing exactly when its square is the radicand. -/
theorem roundSqrt_exact (ha : fmt.isFinite a = true) (hpos : 0 < fmt.val a) :
    fmt.sign (roundSqrt fmt rm (fmt.val a)).1 = false ∧
    ((roundSqrt fmt rm (fmt.val a)).2 = 0 ∨ (roundSqrt fmt rm (fmt.val a)).2 = flagNX) ∧
    ((roundSqrt fmt rm (fmt.val a)).2 = 0 ↔
      fmt.val (roundSqrt fmt rm (fmt.val a)).1 * fmt.val (roundSqrt fmt rm (fmt.val a)).1 = fmt.val a) := by
  have ht := rootTail_eq_exact_iff (fmt := fmt) (v := fmt.val a)
  obtain ⟨hsign, hmag⟩ := packMag_root (rm := rm) ha hpos (rootTail fmt (fmt.val a))
  obtain ⟨hlo, hhi⟩ := rootFloor_spec (fmt := fmt) hpos
  have hval : fmt.val (roundSqrt fmt rm (fmt.val a)).1 =
      (roundTail rm false (rootFloor fmt (fmt.val a)) (rootTail fmt (fmt.val a)) : Rat) * rootUnit fmt (fmt.val a) := by
    rw [roundSqrt_eq, Fmt.val, hsign, hmag]
    rfl
  have hflags : (roundSqrt fmt rm (fmt.val a)).2 = if rootTail fmt (fmt.val a) = .exact then 0 else flagNX := by
    rw [roundSqrt_eq]
  rw [hval, hflags]
  refine ⟨by rwa [roundSqrt_eq], ?_⟩
  by_cases he : rootTail fmt (fmt.val a) = .exact
  · rw [if_pos he, he]
    exact ⟨.inl rfl, iff_of_true rfl (ht.1 he)⟩
  · rw [if_neg he]
    refine ⟨.inr rfl, iff_of_false (by decide) ?_⟩
    obtain hr | hr := roundTail_or rm false (rootFloor fmt (fmt.val a)) (rootTail fmt (fmt.val a))
    · rw [hr]
      exact ht.not.1 he
    · rw [hr]
      push_cast
      exact hhi.ne'

end Root

theorem fpSqrt_eq_roundSqrt (ha : fmt.isFinite a = true) (hpos : 0 < fmt.val a) :
    fpSqrt fmt rm a = roundSqrt fmt rm (fmt.val a) := by
  obtain ⟨hna, hia⟩ := Fmt.isFinite_kind ha
  have hz : fmt.isZero a = false := Bool.eq_false_iff.2 ((Fmt.val_eq_zero_iff ha).not.1 hpos.ne')
  have hs : fmt.sign a = false := (Fmt.sign_eq_decide hpos.ne').trans (decide_eq_false hpos.not_gt)
  rw [fpSqrt_of_number hna, hia, hz, hs]
  rfl

/-- Settles O40: each operation is one rounding of its exact result, and the root is its own. -/
theorem arithmeticIsCorrectlyRounded : Obligations.ArithmeticIsCorrectlyRounded := by
  intro fmt rm a b c ha hb hc
  have hroot (h : 0 < fmt.real a) : 0 < fmt.val a := by exact_mod_cast (show (0 : ℝ) < (fmt.val a : ℝ) from h)
  refine ⟨fun h => rounded_of_eq_roundFmt (by simp [Fmt.real]) h fun h => fpAdd_eq_roundFmt ha hb h _,
    fun h => rounded_of_eq_roundFmt (by simp [Fmt.real]) h fun h => fpSub_eq_roundFmt ha hb h _,
    fun h => rounded_of_eq_roundFmt (by simp [Fmt.real]) h fun h => fpMul_eq_roundFmt ha hb h _, fun h h' => ?_,
    fun h => ?_, fun np nc h => rounded_of_eq_roundFmt (fma_sum_cast np nc) h fun h => fpFma_eq_roundFmt ha hb hc h _,
    fun zs => ⟨fun h => fpAdd_eq_roundFmt ha hb h zs, fun h => fpSub_eq_roundFmt ha hb h zs,
      fun h => fpMul_eq_roundFmt ha hb h zs, fun h h' => fpDiv_eq_roundFmt ha hb h h' zs,
      fun np nc h => fpFma_eq_roundFmt ha hb hc h zs⟩, fun h => ?_⟩
  · refine rounded_of_eq_roundFmt (r := fmt.val a / fmt.val b) (by simp [Fmt.real]) (div_ne_zero h h') fun h => ?_
    obtain ⟨h, h'⟩ := div_ne_zero_iff.1 h
    exact fpDiv_eq_roundFmt ha hb h h' _
  · rw [fpSqrt_eq_roundSqrt ha (hroot h)]
    exact (roundSqrt_rounded fmt rm ha (hroot h)).1
  · rw [fpSqrt_eq_roundSqrt ha (hroot h)]
    obtain ⟨hsign, hflags, hexact⟩ := roundSqrt_exact (rm := rm) ha (hroot h)
    refine ⟨(roundSqrt_rounded fmt rm ha (hroot h)).2, hsign, hflags, hexact.trans ?_⟩
    have hnn : 0 ≤ fmt.real (roundSqrt fmt rm (fmt.val a)).1 := by
      rw [Fmt.real, Fmt.val, hsign]
      exact Rat.cast_nonneg.2 (fmt.mag_nonneg _)
    rw [eq_comm (b := Real.sqrt _), Real.sqrt_eq_iff_mul_self_eq h.le hnn, Fmt.real, Fmt.real, ← Rat.cast_mul,
      Rat.cast_inj, eq_comm]

/-! ## Widening -/

/-- A finite S value is a whole number of quanta of the D format at its own scale. -/
theorem widen_grid {a : BitVec 32} (ha : Fmt.s.isFinite a = true) (h0 : Fmt.s.val a ≠ 0) :
    (∃ n : Nat, |Fmt.s.val a| =
      n * (2 : Rat) ^ (max (floorLog2 |Fmt.s.val a|) Fmt.d.emin - Fmt.d.fracBits)) ∧
    |Fmt.s.val a| < (2 : Rat) ^ (Fmt.d.emax + 1) := by
  have h2 : (1 : Rat) < 2 := by norm_num
  obtain ⟨j, x, hmag, hj, hmin, hmax, -⟩ := Fmt.s.mag_form a ha
  have hpos := abs_pos.2 h0
  obtain ⟨hle, hlt⟩ := floorLog2_spec hpos
  rw [Fmt.s.abs_val] at hpos hle hlt ⊢
  generalize floorLog2 (Fmt.s.mag a) = l at hle hlt ⊢
  have hj1 : (1 : Rat) ≤ j := by
    rw [Nat.one_le_cast, Nat.one_le_iff_ne_zero]
    rintro rfl
    rw [hmag, Nat.cast_zero, zero_mul] at hpos
    exact hpos.false
  have hx : Fmt.s.mag a < (2 : Rat) ^ (x + 1) := by
    calc Fmt.s.mag a
      _ < ((2 ^ (Fmt.s.fracBits + 1) : Nat) : Rat) * 2 ^ (x - Fmt.s.fracBits) := by
        rw [hmag]
        gcongr
      _ = 2 ^ (x + 1) := by
        rw [Nat.cast_pow, Nat.cast_ofNat, ← zpow_natCast, ← zpow_add₀ (by norm_num)]
        congr 1
        push_cast
        ring
  have hlow : (2 : Rat) ^ (x - Fmt.s.fracBits) ≤ Fmt.s.mag a := by
    rw [hmag]
    exact le_mul_of_one_le_left (by positivity) hj1
  have hlx := (zpow_lt_zpow_iff_right₀ h2).1 (hle.trans_lt hx)
  have hxl := (zpow_lt_zpow_iff_right₀ h2).1 (hlow.trans_lt hlt)
  simp only [Fmt.emin, Fmt.emax, Fmt.bias, Fmt.fracBits] at *
  refine ⟨⟨j * 2 ^ (x - l + 29).toNat, ?_⟩, hx.trans_le (zpow_le_zpow_right₀ h2.le (by omega))⟩
  have hn : ((j * 2 ^ (x - l + 29).toNat : Nat) : Rat) = j * 2 ^ ((x - l + 29).toNat : Int) := by
    rw [zpow_natCast]
    push_cast
    rfl
  rw [hmag, hn, mul_assoc, ← zpow_add₀ (by norm_num)]
  congr 2
  omega

theorem Fmt.isZero_zero (fmt : Fmt) (s : Bool) : fmt.isZero (fmt.zero s) = true := by
  cases fmt <;> cases s <;> decide

/-- Settles O45: a value of S is one of D, and rounding a value of a format gives it back. -/
theorem wideningIsExact : Obligations.WideningIsExact := by
  intro rm rm' a ha
  obtain ⟨-, -, -, hzero, hfinite⟩ := fpToFpResults.2.1 .d .s rm a
  cases hz : Fmt.s.isZero a with
  | true =>
    have hzd := Fmt.isZero_zero .d (Fmt.s.sign a)
    have hnarrow := (fpToFpResults.2.1 .s .d rm' (Fmt.d.zero (Fmt.s.sign a))).2.2.2.1 hzd
    rw [Fmt.zero_sign, ← Fmt.isZero_eq hz] at hnarrow
    rw [hzero hz]
    refine ⟨rfl, ?_, Fmt.zero_sign _, hnarrow⟩
    rw [(Fmt.real_eq_zero_iff ha).2 hz, (Fmt.real_eq_zero_iff (Fmt.isZero_kind hzd).2.2).2 hzd]
  | false =>
    have h0 : Fmt.s.val a ≠ 0 := fun h => by simp [(Fmt.val_eq_zero_iff ha).1 h] at hz
    obtain ⟨⟨n, hn⟩, htop⟩ := widen_grid ha h0
    obtain ⟨hfin, hsign, hval, hflags⟩ := roundFmt_exact .d rm h0 false hn htop
    rw [hfinite ha hz false]
    generalize (roundFmt .d rm (Fmt.s.val a) false).1 = u at hfin hsign hval
    have hzu : Fmt.d.isZero u = false :=
      Bool.eq_false_iff.2 ((Fmt.val_eq_zero_iff hfin).not.1 (by rwa [hval]))
    have hself := roundFmt_self .s rm' ha h0 false
    refine ⟨hflags, by rw [Fmt.real, hval, Fmt.real], hsign.trans (Fmt.sign_eq_decide h0).symm, ?_⟩
    rw [(fpToFpResults.2.1 .s .d rm' u).2.2.2.2 hfin hzu false, hval, hself]

end Sys2Proof.Machine
end

section
/-! PROOFS. Several harts (spec/20_memory.md R53, R54, R58, R62, spec/43_atomic.md R249, R250): what a turn of one hart
leaves of the others, and the turns of an access done byte by byte. -/

namespace Sys2Proof.Machine

variable {y z : System} {k : Nat} {h : Hart} {i : Instr} {a : Access} {s : State} {addrs : List Nat}

/-! ## The turn of a system -/

theorem System.step_eq (hz : y.step k = some z) (hk : y.hart k = some h) :
    z.mem = h.step.state.mem ∧
    z.harts = y.harts.mapIdx fun j g => if j = k then h.step else ⟨g.state.afterOthersWrite h.written, g.seen⟩ := by
  simp only [System.step, hk, Option.ite_none_right_eq_some, Option.some.injEq] at hz
  obtain ⟨-, rfl⟩ := hz
  exact ⟨rfl, rfl⟩

theorem System.step_self (hz : y.step k = some z) (hk : y.hart k = some h) : z.harts[k]? = some h.step := by
  obtain ⟨g, hg, -⟩ := Option.map_eq_some_iff.1 hk
  rw [(System.step_eq hz hk).2, List.getElem?_mapIdx, hg, Option.map_some, if_pos rfl]

theorem System.step_other (hz : y.step k = some z) (hk : y.hart k = some h) {j : Nat} {g : Hart} (hj : j ≠ k)
    (hg : y.harts[j]? = some g) : z.harts[j]? = some ⟨g.state.afterOthersWrite h.written, g.seen⟩ := by
  rw [(System.step_eq hz hk).2, List.getElem?_mapIdx, hg, Option.map_some, if_neg hj]

/-- A hart sees the memory of the system. -/
theorem System.hart_mem (hk : y.hart k = some h) : h.state.mem = y.mem := by
  obtain ⟨g, -, rfl⟩ := Option.map_eq_some_iff.1 hk
  rfl

/-! ## Reservations -/

/-- Other harts' writes change the reservation alone. -/
theorem State.afterOthersWrite_frame (s : State) (addrs : List Nat) :
    (s.afterOthersWrite addrs).x = s.x ∧ (s.afterOthersWrite addrs).f = s.f ∧
    (s.afterOthersWrite addrs).pc = s.pc ∧ (s.afterOthersWrite addrs).fflags = s.fflags ∧
    (s.afterOthersWrite addrs).frm = s.frm ∧ (s.afterOthersWrite addrs).status = s.status ∧
    (s.afterOthersWrite addrs).env = s.env := by
  have heq : ∃ r, s.afterOthersWrite addrs = { s with reservation := r } := by
    unfold State.afterOthersWrite
    split
    · exact ⟨s.reservation, rfl⟩
    · split
      · exact ⟨none, rfl⟩
      · exact ⟨s.reservation, rfl⟩
  obtain ⟨r, heq⟩ := heq
  rw [heq]
  exact ⟨rfl, rfl, rfl, rfl, rfl, rfl, rfl⟩

theorem State.afterOthersWrite_none (hr : s.reservation = none) : (s.afterOthersWrite addrs).reservation = none := by
  rw [State.afterOthersWrite, hr]
  exact hr

theorem State.afterOthersWrite_kept {r : Reservation} (hr : s.reservation = some r)
    (h : ∀ a ∈ addrs, a < r.addr.toNat ∨ r.addr.toNat + r.size.bytes ≤ a) :
    (s.afterOthersWrite addrs).reservation = some r := by
  have ht : r.touched addrs = false := by
    rw [Reservation.touched, List.any_eq_false]
    intro a ha
    have := h a ha
    simp only [Bool.and_eq_true, decide_eq_true_eq]
    omega
  rw [State.afterOthersWrite, hr]
  simp only [ht, Bool.false_eq_true, if_false, hr]

theorem State.afterOthersWrite_lost {r : Reservation} {a : Nat} (hr : s.reservation = some r) (ha : a ∈ addrs)
    (hlo : r.addr.toNat ≤ a) (hhi : a < r.addr.toNat + r.size.bytes) :
    (s.afterOthersWrite addrs).reservation = none := by
  have ht : r.touched addrs = true := List.any_eq_true.2 ⟨a, ha, by simp [hlo, hhi]⟩
  rw [State.afterOthersWrite, hr]
  simp only [ht, if_true]
  rfl

/-! ## The turns of an access done byte by byte -/

/-- The byte that passes is what memory then holds there. -/
theorem State.accessByte_fst (s : State) (a : Access) (k : Nat) :
    (s.accessByte a k).1 = Memory.read (s.accessByte a k).2 (s.accessAddr a k) := by
  unfold State.accessByte
  cases a.stored with
  | none => rfl
  | some v => exact ((Memory.read_write _ _ _ _).trans (if_pos rfl)).symm

theorem State.accessByte_load (s : State) (k : Nat) (h : a.stored = none) : (s.accessByte a k).2 = s.mem := by
  rw [State.accessByte, h]

theorem State.accessByte_store (s : State) (k q : Nat) {v : Word} (h : a.stored = some v) :
    Memory.read (s.accessByte a k).2 q =
      if q = s.accessAddr a k then BitVec.ofNat 8 (v.toNat / 256 ^ k) else Memory.read s.mem q := by
  rw [State.accessByte, h]
  exact (Memory.read_write _ _ _ _).trans (by rw [byte_eq])

section Bytes

variable (hs : h.state.splitAccess = some (i, a))
include hs

theorem Hart.step_missing (hm : h.state.mapped (h.state.accessAddr a h.seen.length) = false) :
    ∃ landed, h.step = ⟨{ h.state with status := .faulted (.accessFault a.addr landed) }, []⟩ := by
  simp only [Hart.step, hs, hm, Bool.false_eq_true, if_false]
  exact ⟨_, rfl⟩

theorem Hart.step_partial (hm : h.state.mapped (h.state.accessAddr a h.seen.length) = true)
    (hlt : h.seen.length + 1 < a.size) :
    h.step = ⟨{ h.state with mem := (h.state.accessByte a h.seen.length).2 },
      h.seen ++ [(h.state.accessByte a h.seen.length).1]⟩ := by
  simp only [Hart.step, hs, hm, if_true, List.length_append, List.length_singleton, hlt]

theorem Hart.step_last (hm : h.state.mapped (h.state.accessAddr a h.seen.length) = true)
    (hlt : ¬h.seen.length + 1 < a.size) :
    h.step = ⟨{ h.state.settle (exec i (h.state.overlay a 0 (h.seen ++ [(h.state.accessByte a h.seen.length).1]))) with
      mem := (h.state.accessByte a h.seen.length).2 }, []⟩ := by
  simp only [Hart.step, hs, hm, if_true, List.length_append, List.length_singleton, hlt, if_false]

/-- Whichever turn it is, memory is what the byte leaves. -/
theorem Hart.step_mem (hm : h.state.mapped (h.state.accessAddr a h.seen.length) = true) :
    h.step.state.mem = (h.state.accessByte a h.seen.length).2 := by
  by_cases hlt : h.seen.length + 1 < a.size
  · rw [Hart.step_partial hs hm hlt]
  · rw [Hart.step_last hs hm hlt]

theorem Hart.step_mem_missing (hm : h.state.mapped (h.state.accessAddr a h.seen.length) = false) :
    h.step.state.mem = h.state.mem := by
  obtain ⟨landed, heq⟩ := Hart.step_missing hs hm
  rw [heq]

theorem Hart.written_eq : h.written =
    if a.stored.isSome && h.state.mapped (h.state.accessAddr a h.seen.length) then
      [h.state.accessAddr a h.seen.length] else [] := by
  simp only [Hart.written, hs]

/-- The last byte completes the instruction as it runs on any memory that holds the bytes that passed. -/
theorem Hart.step_last_spec (hall : h.state.allMapped a.addr a.size = true) (hsize : h.seen.length + 1 = a.size)
    (m : Memory) (hm : ∀ j < a.size, Memory.read m (h.state.accessAddr a j) =
      (h.seen ++ [(h.state.accessByte a h.seen.length).1])[j]?.getD 0) :
    ∃ u, exec i { h.state with mem := m } = .next u ∧
      h.step = ⟨{ u with mem := (h.state.accessByte a h.seen.length).2 }, []⟩ := by
  obtain ⟨hf, hi, -, hb⟩ := State.splitAccess_eq.1 hs
  have hlast : h.state.mapped (h.state.accessAddr a h.seen.length) = true :=
    (h.state.allMapped_iff _ _).1 hall _ (by omega)
  rw [Hart.step_last hs hlast (by omega)]
  set seen := h.seen ++ [(h.state.accessByte a h.seen.length).1] with hseen
  have hlen : seen.length = a.size := by rw [hseen, List.length_append, List.length_singleton, hsize]
  have hover := State.overlay_mem a seen 0 h.state
  have hread := (State.overlay_read a seen 0 h.state (by rw [hlen]; simpa using State.intAccess_size hi)).1
  set laid := h.state.overlay a 0 seen
  have henv : laid.env = h.state.env := by rw [hover]
  have hacc : laid.accessible a.addr a.size := by
    rw [State.accessible, henv, State.allMapped_env henv]
    exact ⟨.inr hb, hall⟩
  have hilaid : laid.intAccess i = some a := by rw [hover, State.intAccess_mem, hi]
  obtain ⟨t, u, ht, hu, htu⟩ := exec_access hilaid (by rw [henv]; exact rv64Only_of_fetch hf) hacc m (by
    intro _ j hj
    have haddr : laid.accessAddr a j = h.state.accessAddr a j := State.byteAddr_env henv _ _
    have hbyte := hread j (by rwa [hlen])
    rw [Nat.zero_add] at hbyte
    rw [haddr, hm j hj, hbyte, List.getElem?_eq_getElem (by rwa [hlen]), Option.getD_some])
  refine ⟨u, ?_, ?_⟩
  · rwa [hover] at hu
  · rw [ht, State.settle_next, htu]

end Bytes

/-! ## The statement -/

/-- Settles O60: the turn is `Hart.step` of the hart, and every other hart sees its writes. -/
theorem otherHartsFrame : Obligations.OtherHartsFrame := by
  intro y z k h hz hk
  have hself := System.step_self hz hk
  have hzm := (System.step_eq hz hk).1
  have hym := System.hart_mem hk
  refine ⟨fun j g hj hg => ?_, fun hs => ?_, fun i a hs => ?_⟩
  · have hg' := System.step_other hz hk hj hg
    refine ⟨_, hg', rfl, ?_⟩
    obtain ⟨hx, hf, hpc, hflags, hfrm, hstatus, henv⟩ := g.state.afterOthersWrite_frame h.written
    refine ⟨hx, hf, hpc, hflags, hfrm, hstatus, henv, fun r hr => ?_, fun r a hr => ?_, State.afterOthersWrite_none⟩
    · exact State.afterOthersWrite_kept hr
    · exact State.afterOthersWrite_lost hr
  · rw [hself, hzm, Hart.step_whole hs]
    exact ⟨rfl, rfl, by simp only [Hart.written, hs]⟩
  · refine ⟨fun hor => ?_, fun v hv hm => ?_, fun hm hlt => ?_, fun hall hsize => ?_, fun hm => ?_⟩
    · rw [hzm, Hart.written_eq hs, ← hym]
      cases hm : h.state.mapped (h.state.accessAddr a h.seen.length) with
      | false => exact ⟨Hart.step_mem_missing hs hm, by rw [Bool.and_false]; rfl⟩
      | true =>
        have hst : a.stored = none := hor.resolve_right (by rw [hm]; decide)
        rw [Hart.step_mem hs hm, State.accessByte_load _ _ hst, hst]
        exact ⟨rfl, rfl⟩
    · rw [hzm, Hart.written_eq hs, Hart.step_mem hs hm, hm, hv, ← hym]
      exact ⟨rfl, fun q => State.accessByte_store _ _ q hv⟩
    · rw [hself, hzm, Hart.step_mem hs hm, ← State.accessByte_fst, Hart.step_partial hs hm hlt]
    · have hm : h.state.mapped (h.state.accessAddr a h.seen.length) = true :=
        (h.state.allMapped_iff _ _).1 hall _ (by omega)
      rw [hzm, Hart.step_mem hs hm, ← State.accessByte_fst, hself]
      refine ⟨h.step.state, ?_, Hart.step_mem hs hm, fun m hmem => ?_⟩
      · rw [Hart.step_last hs hm (by omega)]
      · obtain ⟨u, hu, hstep⟩ := Hart.step_last_spec hs hall hsize m hmem
        exact ⟨u, hu, by rw [hstep]⟩
    · obtain ⟨landed, hstep⟩ := Hart.step_missing hs hm
      exact ⟨landed, by rw [hself, hstep]⟩

end Sys2Proof.Machine
end
